-- ==== Sys2Proof/Word.lean ====
section
/-! DEFINITION. The two word types of the machine (00_scope.md R13): bytes and 16-bit registers. -/

namespace Sys2Proof

/-- A byte of the PMA, of caller memory or of a SETUP packet. -/
abbrev Byte := BitVec 8

/-- A 16-bit register, descriptor-table word or length (00_scope.md R13, D39). -/
abbrev Word := BitVec 16

end Sys2Proof
end

