-- ==== Sys2Proof/Config.lean ====
section
/-! DEFINITION. What an integration of the block fixes (00_scope.md R7 to R12, 47_application_interface.md R333 to
R335, the open parameters of 92_eei_decisions.md), as one plain record the machine carries and no step writes, and the
free values: constants without a body, of which nothing can be proved. -/

namespace Sys2Proof

/-- The four states of a direction, `STAT_TX` and `STAT_RX` (10_state.md R41). -/
inductive Stat where
  | disabled
  | stall
  | nak
  | valid
  deriving DecidableEq, Repr

/-- The four endpoint types (10_state.md R44). -/
inductive EpType where
  | bulk
  | control
  | iso
  | interrupt
  deriving DecidableEq, Repr

/-- A direction of an endpoint (00_scope.md R18): `tx` is IN, device to host; `rx` is OUT, host to device. -/
inductive Dir where
  | tx
  | rx
  deriving DecidableEq, Repr

/-- The configuration of one endpoint slot (00_scope.md R7, 10_state.md R24). A size of zero disables the direction. -/
structure Slot where
  typ : EpType
  sizeIn : Nat
  sizeOut : Nat
  deriving DecidableEq, Repr

/-- Which optional callbacks the application supplies (00_scope.md R9, 47_application_interface.md R334, R335). -/
structure Cap where
  resetHook : Bool
  setAddressHook : Bool
  suspendHook : Bool
  resumeHook : Bool
  outCb : Bool
  inCb : Bool
  classRequest : Bool
  vendorRequest : Bool
  getDescriptorInterface : Bool
  deriving DecidableEq, Repr

/-- What the required descriptor callbacks answer (47_application_interface.md R333), as tables: `none`, or no row, is
the null reference. "The callbacks are pure reads from the block's point of view: a model takes them as functions
supplied with the configuration." -/
structure Descriptors where
  device : Option Nat
  config : Option Nat
  interfaces : List (Byte × Nat)
  strings : List ((Word × Byte) × Nat)
  deriving DecidableEq, Repr

/-- Parameter `SET_ADDRESS_IN_CONFIGURED` (00_scope.md R11, D20). -/
inductive SetAddressPolicy where
  | reject
  | accept
  deriving DecidableEq, Repr

/-- Parameter `PAD_BYTE_POLICY` (41_endpoint_io.md R158, D12). -/
inductive PadPolicy where
  | unchanged
  | any
  deriving DecidableEq, Repr

/-! ## Parameter `LAYOUT` (00_scope.md R10, D2)

Where every named field stands, as the place of its lowest bit, and the codes of the coded fields. `Layout.ok`
(Decode.lean) says which placements there are: disjoint, inside the register. -/

/-- The fields of `EPnR` (30_encoding.md R101). -/
structure EprPlaces where
  ctrRx : Nat
  dtogRx : Nat
  /-- 2 bits -/
  statRx : Nat
  setup : Nat
  /-- 2 bits -/
  epType : Nat
  epKind : Nat
  ctrTx : Nat
  dtogTx : Nat
  /-- 2 bits -/
  statTx : Nat
  /-- 4 bits -/
  ea : Nat
  deriving DecidableEq, Repr

/-- The fields of `ISTR` (30_encoding.md R105). -/
structure IstrPlaces where
  ctr : Nat
  pmaovr : Nat
  err : Nat
  wkup : Nat
  susp : Nat
  reset : Nat
  sof : Nat
  esof : Nat
  dir : Nat
  /-- 4 bits -/
  epId : Nat
  deriving DecidableEq, Repr

/-- The fields of `CNTR` (30_encoding.md R106). -/
structure CntrPlaces where
  ctrm : Nat
  pmaovrm : Nat
  errm : Nat
  wkupm : Nat
  suspm : Nat
  resetm : Nat
  sofm : Nat
  esofm : Nat
  resume : Nat
  fsusp : Nat
  lpmode : Nat
  pdwn : Nat
  fres : Nat
  deriving DecidableEq, Repr

/-- The fields of the receive count word (30_encoding.md R110). The shift `<< 10` of the block count is the source's own
(R110, 40_pma_allocator.md R145), so ten bits for the count and one for `BL_SIZE` are left: `countPlaces_of_ok`
(Laws/Words.lean) says that there is one legal placement, and the rules use it. -/
structure CountPlaces where
  blSize : Nat
  /-- 5 bits -/
  numBlock : Nat
  /-- 10 bits -/
  count : Nat
  deriving DecidableEq, Repr

/-- The fields of `DADDR`, 8 bits (30_encoding.md R107). -/
structure DaddrPlaces where
  ef : Nat
  /-- 7 bits -/
  add : Nat
  deriving DecidableEq, Repr

/-- The `STAT` codes (30_encoding.md R102). `DISABLED` is 00 in every layout: a zeroed register is disabled. -/
structure StatCodes where
  stall : BitVec 2
  nak : BitVec 2
  valid : BitVec 2
  deriving DecidableEq, Repr

/-- The `EP_TYPE` codes (30_encoding.md R103). -/
structure TypeCodes where
  bulk : BitVec 2
  control : BitVec 2
  iso : BitVec 2
  interrupt : BitVec 2
  deriving DecidableEq, Repr

/-- `LAYOUT`. -/
structure Layout where
  epr : EprPlaces
  istr : IstrPlaces
  cntr : CntrPlaces
  daddr : DaddrPlaces
  count : CountPlaces
  /-- the pull-up's bit of its 16-bit register (30_encoding.md R108) -/
  dppu : Nat
  statCodes : StatCodes
  typeCodes : TypeCodes
  deriving DecidableEq, Repr

/-- The default of `LAYOUT` (30_encoding.md R101 to R110). -/
def Layout.default : Layout where
  epr := ⟨15, 14, 12, 11, 9, 8, 7, 6, 4, 0⟩
  istr := ⟨15, 14, 13, 12, 11, 10, 9, 8, 4, 0⟩
  cntr := ⟨15, 14, 13, 12, 11, 10, 9, 8, 4, 3, 2, 1, 0⟩
  daddr := ⟨7, 0⟩
  count := ⟨15, 10, 0⟩
  dppu := 15
  statCodes := ⟨1, 2, 3⟩
  typeCodes := ⟨0, 1, 2, 3⟩

/-- Everything fixed for the life of the block. Slots 1..7 only: endpoint 0 is not configurable (00_scope.md R6). -/
structure Config where
  /-- `PMA_BYTES` (00_scope.md R8). -/
  pmaBytes : Nat
  /-- `CFG`, the slots 1..7 in order (00_scope.md R7). -/
  slots : Vector Slot 7
  /-- `CAP` (00_scope.md R9). -/
  cap : Cap
  /-- The required callbacks (47_application_interface.md R333). -/
  desc : Descriptors
  /-- `RX_BLOCK_BIAS`, 0 or 1 (40_pma_allocator.md R146, D8). -/
  rxBlockBias : Fin 2
  /-- `SET_ADDRESS_IN_CONFIGURED` (44_standard_requests.md R240, D20). -/
  setAddressInConfigured : SetAddressPolicy
  /-- `PAD_BYTE_POLICY` (41_endpoint_io.md R158, D12). -/
  padBytePolicy : PadPolicy
  /-- `LAYOUT` (00_scope.md R10, D2). -/
  layout : Layout
  /-- Where in caller memory the serial-number string of 47_application_interface.md R343 is materialised (log 21). -/
  serialAddr : Nat
  deriving DecidableEq, Repr

/-- FREE VALUE (log 11): the pad byte after an odd-length payload under `PAD_BYTE_POLICY = any`, for each use. -/
opaque Config.freeByte : Nat → Byte

/-- FREE VALUE (log 10): the value an application returns from a request callback when no answer was supplied. -/
opaque Config.freeReply : Nat → Bool

/-- FREE VALUE (log 21): the k-th hexadecimal digit of the serial number (47_application_interface.md R343, N20). -/
opaque Config.serialDigit : Nat → BitVec 4

/-- FREE VALUE (log 21): whether the k-th digit is written in upper case (47_application_interface.md R343, N20). -/
opaque Config.serialUpper : Nat → Bool

end Sys2Proof
end

