-- ==== Sys2Proof/Syntax.lean ====
section
/-! DEFINITION. The instructions: one constructor per row of spec/opcode_table.json, with the operands the row's rule
gives it, and the input lines that carry them. -/

namespace Sys2Proof

/-- A reference the application passes (47_application_interface.md R342): the distinguished null reference, or an address
of its own memory. "The application cannot address" the block's data-holding elements (10_state.md R22). -/
inductive AppRef where
  | null
  | app (addr : Nat)
  deriving DecidableEq, Repr

/-- A caller-memory address as the block uses it (20_memory.md R84): a reference of the application, or an offset in one
of the block's two scratch buffers, "addressable as caller memory" for its own operations (10_state.md R30, R31). -/
inductive Ptr where
  | null
  | app (addr : Nat)
  | setupBuf (off : Nat)
  | replyBuf (off : Nat)
  deriving DecidableEq, Repr

/-- A reference of the application, as the block uses it. -/
def AppRef.ptr : AppRef → Ptr
  | .null => .null
  | .app a => .app a

/-- The eight bytes of a SETUP packet in wire order (30_encoding.md R112). -/
abbrev Packet := Vector Byte 8

/-- The parsed SETUP record `req` (43_control_engine.md R202). -/
structure Request where
  bmRequestType : Byte
  bRequest : Byte
  wValue : Word
  wIndex : Word
  wLength : Word
  deriving DecidableEq, Repr

/-- What a line `BUS IN e -> {…}` says (46_usb_engine_agent.md R309): the endpoint and, where the line states them, the
bytes the host must receive (log 36). -/
structure InLine where
  ept : BitVec 4
  expect : Option (List Byte)
  deriving DecidableEq, Repr

/-- The instructions, one constructor per row of the opcode table, in the table's order. -/
inductive Instr where
  -- CMD: the commands (30_encoding.md R123)
  | init
  | task
  | epWrite (ept : Byte) (buf : AppRef) (len : Word)
  | epRead (ept : Byte) (buf : AppRef) (cap : Word)
  | controlIn (buf : AppRef) (buflen reqlen : Word)
  | controlInResume
  | serialStringDescriptor
  -- UOP: the register driver (42_toggle_write.md R179 to R187)
  | eprSetStatTx (i : Fin 8) (st : Stat)
  | eprSetStatRx (i : Fin 8) (st : Stat)
  | eprSetStatTxDtog0 (i : Fin 8) (st : Stat)
  | eprSetStatRxDtog0 (i : Fin 8) (st : Stat)
  | eprSetStatBoth (i : Fin 8) (stx srx : Stat) (clearDtog : Bool)
  | eprClearCtrRx (i : Fin 8)
  | eprClearCtrTx (i : Fin 8)
  | eprSetTypeAddr (i : Fin 8) (t : EpType) (ea : BitVec 4)
  | eprZero (i : Fin 8)
  -- EVT: the handlers `task` selects (30_encoding.md R121)
  | evtWkup
  | evtSusp
  | evtReset
  | evtSof
  | evtCtr (epId : BitVec 4)
  | evtNone
  -- CTR0 and CTRN: the sub-events of CTR (30_encoding.md R122)
  | ep0Setup
  | ep0Out
  | ep0InDone
  | epnOutDone (i : Fin 8)
  | epnInDone (i : Fin 8)
  -- BUS: the steps of the USB engine (46_usb_engine_agent.md)
  | busReset
  | busSof
  | busSuspend
  | busWakeup
  | busSetup (p : Packet)
  | busOut (e : BitVec 4) (data : List Byte)
  | busIn (e : InLine)
  -- REQ: the SETUP packet, decoded (30_encoding.md R119; 44_standard_requests.md)
  | classRequest (req : Request)
  | vendorRequest (req : Request)
  | getStatusDevice (wLength : Word)
  | getStatusInterface (itf : Byte) (wLength : Word)
  | getStatusEndpoint (n : BitVec 4) (d : Dir) (wLength : Word)
  | clearFeatureEndpointHalt (n : BitVec 4) (d : Dir)
  | clearFeatureOther
  | setFeatureEndpointHalt (n : BitVec 4) (d : Dir)
  | setFeatureOther
  | setAddress (a : BitVec 7)
  | getDescriptorDevice (wLength : Word)
  | getDescriptorConfiguration (wLength : Word)
  | getDescriptorString (idx : Byte) (lang : Word) (wLength : Word)
  | getDescriptorDeviceOther
  | getDescriptorInterface (req : Request)
  | setDescriptor
  | getConfiguration (wLength : Word)
  | setConfiguration (v : Byte)
  | getInterface (itf : Byte) (wLength : Word)
  | setInterface (itf : Byte) (alt : Byte)
  | synchFrame
  | unsupported
  deriving DecidableEq, Repr

/-- Where an input line is given: the six formats of the opcode table (30_encoding.md opening; CTR0 and CTRN share
the snapshot of an endpoint register), and a port for the block's own step `control_in_resume`, which R123 numbers with
the commands but calls "internal, not on the command port": that it has a port of its own is the model's choice (DESIGN
CHOICE, log 35). The formats number their rows from 0 each, so a word has a meaning only on its port (log 6). -/
inductive Port where
  | command
  | internal
  | driver
  | event
  | completion
  | bus
  | request
  deriving DecidableEq, Repr

/-- One encoded instruction: its port and its bytes, first byte first. -/
structure Line where
  port : Port
  bytes : List Byte
  deriving DecidableEq, Repr

/-- The port of an instruction's row. -/
def Instr.port : Instr → Port
  | .init | .task | .epWrite .. | .epRead .. | .controlIn .. | .serialStringDescriptor => .command
  | .controlInResume => .internal
  | .eprSetStatTx .. | .eprSetStatRx .. | .eprSetStatTxDtog0 .. | .eprSetStatRxDtog0 .. | .eprSetStatBoth ..
  | .eprClearCtrRx .. | .eprClearCtrTx .. | .eprSetTypeAddr .. | .eprZero .. => .driver
  | .evtWkup | .evtSusp | .evtReset | .evtSof | .evtCtr .. | .evtNone => .event
  | .ep0Setup | .ep0Out | .ep0InDone | .epnOutDone .. | .epnInDone .. => .completion
  | .busReset | .busSof | .busSuspend | .busWakeup | .busSetup .. | .busOut .. | .busIn .. => .bus
  | .classRequest .. | .vendorRequest .. | .getStatusDevice .. | .getStatusInterface .. | .getStatusEndpoint ..
  | .clearFeatureEndpointHalt .. | .clearFeatureOther | .setFeatureEndpointHalt .. | .setFeatureOther
  | .setAddress .. | .getDescriptorDevice .. | .getDescriptorConfiguration .. | .getDescriptorString ..
  | .getDescriptorDeviceOther | .getDescriptorInterface .. | .setDescriptor | .getConfiguration ..
  | .setConfiguration .. | .getInterface .. | .setInterface .. | .synchFrame | .unsupported => .request

end Sys2Proof
end

