-- ==== Sys2Proof/WellFormed.lean ====
section
/-! DEFINITION. Which terms of `Instr` stand for an instruction of the spec: the checks that the types do not make. -/

namespace Sys2Proof

/-- A reference a command line can carry. The 32-bit bound belongs to the line encoding only, not to the machine (log 6,
log 32). -/
def AppRef.wf : AppRef → Bool
  | .null => true
  | .app a => decide (a < 2 ^ 32)

/-- `bmRequestType[6:5]`, the request type (30_encoding.md R113). -/
def Request.typ (r : Request) : BitVec 2 := r.bmRequestType.extractLsb' 5 2

/-- A well-formed instruction: references a line can carry; the endpoint types the driver has codes for
(42_toggle_write.md R186, 30_encoding.md R103); an endpoint 1..7 for the CTRN rows (30_encoding.md R122); and a request
record of the row's own kind (43_control_engine.md R205, R208). -/
def Instr.wf : Instr → Bool
  | .epWrite _ buf _ => buf.wf
  | .epRead _ buf _ => buf.wf
  | .controlIn buf _ _ => buf.wf
  | .eprSetTypeAddr _ t _ => decide (t ≠ .iso)
  | .epnOutDone i => decide (i ≠ 0)
  | .epnInDone i => decide (i ≠ 0)
  | .classRequest r => decide (r.typ = 1)
  | .vendorRequest r => decide (r.typ = 2)
  | .getDescriptorInterface r =>
    decide (r.typ ≠ 1) && decide (r.typ ≠ 2) && decide (r.bmRequestType &&& 0x9F = 0x81) && decide (r.bRequest = 0x06)
  | .init | .task | .controlInResume | .serialStringDescriptor => true
  | .eprSetStatTx .. | .eprSetStatRx .. | .eprSetStatTxDtog0 .. | .eprSetStatRxDtog0 .. | .eprSetStatBoth ..
  | .eprClearCtrRx .. | .eprClearCtrTx .. | .eprZero .. => true
  | .evtWkup | .evtSusp | .evtReset | .evtSof | .evtCtr .. | .evtNone => true
  | .ep0Setup | .ep0Out | .ep0InDone => true
  | .busReset | .busSof | .busSuspend | .busWakeup | .busSetup .. | .busOut .. | .busIn .. => true
  | .getStatusDevice .. | .getStatusInterface .. | .getStatusEndpoint .. | .clearFeatureEndpointHalt ..
  | .clearFeatureOther | .setFeatureEndpointHalt .. | .setFeatureOther | .setAddress .. | .getDescriptorDevice ..
  | .getDescriptorConfiguration .. | .getDescriptorString .. | .getDescriptorDeviceOther | .setDescriptor
  | .getConfiguration .. | .setConfiguration .. | .getInterface .. | .setInterface .. | .synchFrame
  | .unsupported => true

end Sys2Proof
end

