-- ==== Sys2Proof/Decode.lean ====
section
/-! DEFINITION. The encodings of 30_encoding.md, the words of a `LAYOUT`, the decoder of an input line and, after it,
the encoder. Each port has its own numbers: the command ordinals of R123, the written words of the driver rows, the
event word of R105 and R121, the endpoint-register snapshot of R101 and R122, the bus ordinals of R123, and the SETUP
packet of R112 to R119.

"No rule of this spec depends on a field's position" (00_scope.md R10): the rules are written over words whose fields
stand where the default LAYOUT has them, and `LAYOUT` says what those words are in the registers and on the lines
(log 2). -/

namespace Sys2Proof

/-! ## Fields -/

/-- `le16(lo, hi)` (00_scope.md R13): every multi-byte quantity is little-endian (20_memory.md R86). -/
def le16 (lo hi : Byte) : Word := hi ++ lo

/-- The less significant byte of a word. -/
def loByte (w : Word) : Byte := w.extractLsb' 0 8

/-- The more significant byte of a word. -/
def hiByte (w : Word) : Byte := w.extractLsb' 8 8

/-- `STAT` codes (30_encoding.md R102). -/
def Stat.code : Stat → BitVec 2
  | .disabled => 0
  | .stall => 1
  | .nak => 2
  | .valid => 3

/-- The state a 2-bit `STAT` field shows (30_encoding.md R102). -/
def Stat.ofCode (c : BitVec 2) : Stat :=
  if c = 0 then .disabled else if c = 1 then .stall else if c = 2 then .nak else .valid

/-- `EP_TYPE` codes (30_encoding.md R103). -/
def EpType.code (k : TypeCodes) : EpType → BitVec 2
  | .bulk => k.bulk
  | .control => k.control
  | .iso => k.iso
  | .interrupt => k.interrupt

/-- The type a 2-bit `EP_TYPE` field shows (30_encoding.md R103). -/
def EpType.ofCode (k : TypeCodes) (c : BitVec 2) : EpType :=
  if c = k.bulk then .bulk else if c = k.control then .control else if c = k.iso then .iso else .interrupt

/-- `EPnR.CTR_RX`, bit 15 (30_encoding.md R101). -/
def Epr.ctrRx (r : Word) : Bool := r.getLsbD 15
/-- `EPnR.DTOG_RX`, bit 14. -/
def Epr.dtogRx (r : Word) : Bool := r.getLsbD 14
/-- `EPnR.STAT_RX`, bits 13:12. -/
def Epr.statRx (r : Word) : Stat := Stat.ofCode (r.extractLsb' 12 2)
/-- `EPnR.SETUP`, bit 11. -/
def Epr.setup (r : Word) : Bool := r.getLsbD 11
/-- `EPnR.EP_TYPE`, bits 10:9. -/
def Epr.epType (k : TypeCodes) (r : Word) : EpType := EpType.ofCode k (r.extractLsb' 9 2)
/-- `EPnR.EP_KIND`, bit 8. -/
def Epr.epKind (r : Word) : Bool := r.getLsbD 8
/-- `EPnR.CTR_TX`, bit 7. -/
def Epr.ctrTx (r : Word) : Bool := r.getLsbD 7
/-- `EPnR.DTOG_TX`, bit 6. -/
def Epr.dtogTx (r : Word) : Bool := r.getLsbD 6
/-- `EPnR.STAT_TX`, bits 5:4. -/
def Epr.statTx (r : Word) : Stat := Stat.ofCode (r.extractLsb' 4 2)
/-- `EPnR.EA`, bits 3:0. -/
def Epr.ea (r : Word) : BitVec 4 := r.extractLsb' 0 4

/-! ## The words of a `LAYOUT` -/

/-- A field of `n` bits at bit `d` of the default LAYOUT and bit `p` of this one, bit by bit. -/
def fieldBits (d n p : Nat) : List (Nat × Nat) := (List.range n).map fun k => (d + k, p + k)

/-- The word that has, for each pair, the first bit of `w` at the second place; all other bits are 0. -/
def moveBits {n : Nat} (ps : List (Nat × Nat)) (w : BitVec n) : BitVec n :=
  ps.foldr (fun p v => if w.getLsbD p.1 then v ||| BitVec.twoPow n p.2 else v) 0

/-- Disjoint fields inside a register of `n` bits (00_scope.md R10). -/
def placesOk (n : Nat) (ps : List (Nat × Nat)) : Bool :=
  decide (ps.map Prod.snd).Nodup && ps.all fun p => decide (p.2 < n)

/-- The bits of `EPnR` (30_encoding.md R101). -/
def Layout.eprBits (l : Layout) : List (Nat × Nat) :=
  fieldBits 15 1 l.epr.ctrRx ++ fieldBits 14 1 l.epr.dtogRx ++ fieldBits 12 2 l.epr.statRx ++
    fieldBits 11 1 l.epr.setup ++ fieldBits 9 2 l.epr.epType ++ fieldBits 8 1 l.epr.epKind ++
    fieldBits 7 1 l.epr.ctrTx ++ fieldBits 6 1 l.epr.dtogTx ++ fieldBits 4 2 l.epr.statTx ++ fieldBits 0 4 l.epr.ea

/-- The bits of `ISTR` (30_encoding.md R105). -/
def Layout.istrBits (l : Layout) : List (Nat × Nat) :=
  fieldBits 15 1 l.istr.ctr ++ fieldBits 14 1 l.istr.pmaovr ++ fieldBits 13 1 l.istr.err ++
    fieldBits 12 1 l.istr.wkup ++ fieldBits 11 1 l.istr.susp ++ fieldBits 10 1 l.istr.reset ++
    fieldBits 9 1 l.istr.sof ++ fieldBits 8 1 l.istr.esof ++ fieldBits 4 1 l.istr.dir ++ fieldBits 0 4 l.istr.epId

/-- The bits of `CNTR` (30_encoding.md R106). -/
def Layout.cntrBits (l : Layout) : List (Nat × Nat) :=
  fieldBits 15 1 l.cntr.ctrm ++ fieldBits 14 1 l.cntr.pmaovrm ++ fieldBits 13 1 l.cntr.errm ++
    fieldBits 12 1 l.cntr.wkupm ++ fieldBits 11 1 l.cntr.suspm ++ fieldBits 10 1 l.cntr.resetm ++
    fieldBits 9 1 l.cntr.sofm ++ fieldBits 8 1 l.cntr.esofm ++ fieldBits 4 1 l.cntr.resume ++
    fieldBits 3 1 l.cntr.fsusp ++ fieldBits 2 1 l.cntr.lpmode ++ fieldBits 1 1 l.cntr.pdwn ++ fieldBits 0 1 l.cntr.fres

/-- The bits of `DADDR` (30_encoding.md R107). -/
def Layout.daddrBits (l : Layout) : List (Nat × Nat) := fieldBits 7 1 l.daddr.ef ++ fieldBits 0 7 l.daddr.add

/-- The bits of the receive count word (30_encoding.md R110). -/
def Layout.countBits (l : Layout) : List (Nat × Nat) :=
  fieldBits 15 1 l.count.blSize ++ fieldBits 10 5 l.count.numBlock ++ fieldBits 0 10 l.count.count

/-- A placement `LAYOUT` can be: in every register the fields are disjoint and of their widths (00_scope.md R10), and
the codes differ, with `DISABLED` = 00 (30_encoding.md R102); the block count at `<< 10` (R110). -/
def Layout.ok (l : Layout) : Bool :=
  placesOk 16 l.eprBits && placesOk 16 l.istrBits && placesOk 16 l.cntrBits && placesOk 8 l.daddrBits &&
    decide (l.dppu < 16) && placesOk 16 l.countBits &&
    decide (l.count.numBlock = 10) && decide [0, l.statCodes.stall, l.statCodes.nak, l.statCodes.valid].Nodup &&
    decide [l.typeCodes.bulk, l.typeCodes.control, l.typeCodes.iso, l.typeCodes.interrupt].Nodup

/-- The `STAT` code of a layout (30_encoding.md R102). -/
def StatCodes.code (k : StatCodes) : Stat → BitVec 2
  | .disabled => 0
  | .stall => k.stall
  | .nak => k.nak
  | .valid => k.valid

/-- The state a layout's `STAT` code shows (30_encoding.md R102). -/
def StatCodes.ofCode (k : StatCodes) (c : BitVec 2) : Stat :=
  if c = 0 then .disabled else if c = k.stall then .stall else if c = k.nak then .nak else .valid

/-- `f` applied to both `STAT` fields of a register word. -/
def recodeStat (f : BitVec 2 → BitVec 2) (r : Word) : Word :=
  (r &&& 0xCFCF) ||| ((f (r.extractLsb' 12 2)).setWidth 16 <<< 12) ||| ((f (r.extractLsb' 4 2)).setWidth 16 <<< 4)

/-- An endpoint register word in `LAYOUT`. -/
def Layout.eprOut (l : Layout) (r : Word) : Word :=
  moveBits l.eprBits (recodeStat (fun c => l.statCodes.code (Stat.ofCode c)) r)

/-- The fields of an endpoint register word in `LAYOUT`, at their default places. -/
def Layout.eprIn (l : Layout) (w : Word) : Word :=
  recodeStat (fun c => (l.statCodes.ofCode c).code) (moveBits (l.eprBits.map Prod.swap) w)

/-- `ISTR` in `LAYOUT`; a bit of no field is 0. -/
def Layout.istrOut (l : Layout) (r : Word) : Word := moveBits l.istrBits r

/-- The fields of an `ISTR` word in `LAYOUT`, at their default places. -/
def Layout.istrIn (l : Layout) (w : Word) : Word := moveBits (l.istrBits.map Prod.swap) w

/-- `CNTR` in `LAYOUT`; a bit of no field is 0. -/
def Layout.cntrOut (l : Layout) (r : Word) : Word := moveBits l.cntrBits r

/-- `DADDR` in `LAYOUT`. -/
def Layout.daddrOut (l : Layout) (r : Byte) : Byte := moveBits l.daddrBits r

/-! ## The SETUP packet -/

/-- `parse` (43_control_engine.md R202, 30_encoding.md R112). -/
def parse (p : Packet) : Request where
  bmRequestType := p[0]
  bRequest := p[1]
  wValue := le16 p[2] p[3]
  wIndex := le16 p[4] p[5]
  wLength := le16 p[6] p[7]

/-- The wire bytes of a request record (30_encoding.md R112). -/
def unparse (r : Request) : Packet :=
  #v[r.bmRequestType, r.bRequest, loByte r.wValue, hiByte r.wValue, loByte r.wIndex, hiByte r.wIndex,
    loByte r.wLength, hiByte r.wLength]

/-- The direction bit of a request (30_encoding.md R113): true is D→H. -/
def Request.d2h (r : Request) : Bool := r.bmRequestType.getLsbD 7

/-- The recipient of a request (30_encoding.md R113). -/
def Request.recipient (r : Request) : BitVec 5 := r.bmRequestType.extractLsb' 0 5

/-- The number of an endpoint operand, `wIndex[3:0]` (30_encoding.md R115). -/
def Request.epn (r : Request) : BitVec 4 := r.wIndex.extractLsb' 0 4

/-- The direction of an endpoint operand, `wIndex[7]`: 1 is IN (30_encoding.md R115). -/
def Request.epdir (r : Request) : Dir := if r.wIndex.getLsbD 7 then .tx else .rx

/-- The interface operand, `wIndex[7:0]` (30_encoding.md R115). -/
def Request.itf (r : Request) : Byte := loByte r.wIndex

/-- The request a SETUP packet selects: the REQ rows of the opcode table in their order, first match wins. A row's
match and mask over `b0 | b1<<8 | b2<<16 | b3<<24` are written here byte by byte: `b0 & 0x9F` leaves out the type
bits, which the first two rows have settled (30_encoding.md R119). -/
def decodeRequest (p : Packet) : Instr :=
  let r := parse p
  let b0 := r.bmRequestType
  let b1 := r.bRequest
  let dtype := hiByte r.wValue
  if b0 &&& 0x60 = 0x20 then .classRequest r
  else if b0 &&& 0x60 = 0x40 then .vendorRequest r
  else if b0 &&& 0x9F = 0x80 ∧ b1 = 0x00 then .getStatusDevice r.wLength
  else if b0 &&& 0x9F = 0x81 ∧ b1 = 0x00 then .getStatusInterface r.itf r.wLength
  else if b0 &&& 0x9F = 0x82 ∧ b1 = 0x00 then .getStatusEndpoint r.epn r.epdir r.wLength
  else if b0 &&& 0x9F = 0x02 ∧ b1 = 0x01 ∧ r.wValue = 0 then .clearFeatureEndpointHalt r.epn r.epdir
  else if b1 = 0x01 then .clearFeatureOther
  else if b0 &&& 0x9F = 0x02 ∧ b1 = 0x03 ∧ r.wValue = 0 then .setFeatureEndpointHalt r.epn r.epdir
  else if b1 = 0x03 then .setFeatureOther
  else if b0 &&& 0x9F = 0x00 ∧ b1 = 0x05 then .setAddress (r.wValue.extractLsb' 0 7)
  else if b0 &&& 0x9F = 0x80 ∧ b1 = 0x06 ∧ dtype = 1 then .getDescriptorDevice r.wLength
  else if b0 &&& 0x9F = 0x80 ∧ b1 = 0x06 ∧ dtype = 2 then .getDescriptorConfiguration r.wLength
  else if b0 &&& 0x9F = 0x80 ∧ b1 = 0x06 ∧ dtype = 3 then
    .getDescriptorString (loByte r.wValue) r.wIndex r.wLength
  else if b0 &&& 0x9F = 0x80 ∧ b1 = 0x06 then .getDescriptorDeviceOther
  else if b0 &&& 0x9F = 0x81 ∧ b1 = 0x06 then .getDescriptorInterface r
  else if b1 = 0x07 then .setDescriptor
  else if b0 &&& 0x9F = 0x80 ∧ b1 = 0x08 then .getConfiguration r.wLength
  else if b0 &&& 0x9F = 0x00 ∧ b1 = 0x09 then .setConfiguration (loByte r.wValue)
  else if b0 &&& 0x9F = 0x81 ∧ b1 = 0x0A then .getInterface r.itf r.wLength
  else if b0 &&& 0x9F = 0x01 ∧ b1 = 0x0B then .setInterface r.itf (loByte r.wValue)
  else if b1 = 0x0C then .synchFrame
  else .unsupported

/-! ## The decoder -/

/-- Why a line carries no instruction. No rule gives such a line an effect but for `noSubEvent`, which `undecoded` runs
as nothing; all others are refused (log 6). -/
inductive DecodeError where
  /-- a SETUP packet that is not 8 bytes (46_usb_engine_agent.md R307, 93_implementation_defined.md U16: "refuse as an
  engine input"), or a line that has not the bytes of its layout -/
  | wrongLength
  /-- a number that no row has: R123 numbers the commands 0 to 6, of which 5 is "internal, not on the command port", and
  the bus lines 0 to 6 (30_encoding.md R123, 47_application_interface.md R331) -/
  | unknownOrdinal
  /-- an OUT or IN transaction with an endpoint number of 16 or more: "endpoint number e (0..15)"
  (46_usb_engine_agent.md R306) -/
  | badEndpoint
  /-- type ISO, for which `epr_set_type_addr` has no code (42_toggle_write.md R186): "The block never writes `ISO`"
  (30_encoding.md R103, 00_scope.md R12 (a), 93_implementation_defined.md U4) -/
  | isoType
  /-- a word that no driver operation of that row writes: a fixed bit of its pattern differs (42_toggle_write.md R177,
  R184 to R187) -/
  | wrongPattern
  /-- a register number that does not exist: `EPR[0..7]` (10_state.md R40), or an `EP_ID` that does not fit its 4 bits
  (30_encoding.md R105) -/
  | badRegister
  /-- a completion that selects no sub-event: `EP_ID` 8..15 is "ignored" (30_encoding.md R122, 45_event_loop.md R288),
  and a snapshot with neither `CTR_RX` nor `CTR_TX` runs neither part (R284, R287) -/
  | noSubEvent
  deriving DecidableEq, Repr

/-- A pointer operand: a tag byte (0 null, else an address) and four address bytes, low byte first, not read behind a
null tag (log 6). -/
def decodePtr (tag a0 a1 a2 a3 : Byte) : AppRef :=
  if tag = 0 then .null else .app (a3 ++ a2 ++ a1 ++ a0 : BitVec 32).toNat

/-- A command line: ordinal (30_encoding.md R123), endpoint, two 16-bit operands, pointer; eleven bytes, of which a
command reads those of its own operands (log 6). Ordinal 5 is not on the command port (R123). -/
def decodeCommand : List Byte → Except DecodeError Instr
  | [ord, ept, x0, x1, y0, y1, tag, a0, a1, a2, a3] =>
    if ord = 0 then .ok .init
    else if ord = 1 then .ok .task
    else if ord = 2 then .ok (.epWrite ept (decodePtr tag a0 a1 a2 a3) (le16 x0 x1))
    else if ord = 3 then .ok (.epRead ept (decodePtr tag a0 a1 a2 a3) (le16 x0 x1))
    else if ord = 4 then .ok (.controlIn (decodePtr tag a0 a1 a2 a3) (le16 x0 x1) (le16 y0 y1))
    else if ord = 6 then .ok .serialStringDescriptor
    else .error .unknownOrdinal
  | _ => .error .wrongLength

/-- A line of the block's own step: ordinal 5 (30_encoding.md R123), one byte (DESIGN CHOICE, log 35). -/
def decodeInternal : List Byte → Except DecodeError Instr
  | [ord] => if ord = 5 then .ok .controlInResume else .error .unknownOrdinal
  | _ => .error .wrongLength

/-- The nine driver rows in the table's order. -/
inductive DriverOp where
  | setStatTx | setStatRx | setStatTxDtog0 | setStatRxDtog0 | setStatBoth | clearCtrRx | clearCtrTx | setTypeAddr | zero
  deriving DecidableEq, Repr

/-- The mask of a driver row's fixed bits in the word it writes (the UOP rows of the opcode table). -/
def DriverOp.mask : DriverOp → Word
  | .setStatTx => 0xF8C0
  | .setStatRx => 0xC8F0
  | .setStatTxDtog0 => 0xF880
  | .setStatRxDtog0 => 0x88F0
  | .setStatBoth => 0x8880
  | .clearCtrRx => 0xF8F0
  | .clearCtrTx => 0xF8F0
  | .setTypeAddr => 0xF9F0
  | .zero => 0x8F8F

/-- The values of a driver row's fixed bits. -/
def DriverOp.fixed : DriverOp → Word
  | .setStatTx => 0x8080
  | .setStatRx => 0x8080
  | .setStatTxDtog0 => 0x8080
  | .setStatRxDtog0 => 0x8080
  | .setStatBoth => 0x8080
  | .clearCtrRx => 0x0080
  | .clearCtrTx => 0x8000
  | .setTypeAddr => 0x8080
  | .zero => 0x0000

/-- A written word has the pattern of the row. -/
def DriverOp.fits (op : DriverOp) (w : Word) : Bool := decide (w &&& op.mask = op.fixed)

/-- The row a driver line's operation byte names, in the table's order. -/
def DriverOp.ofByte (b : Byte) : Option DriverOp :=
  [.setStatTx, .setStatRx, .setStatTxDtog0, .setStatRxDtog0, .setStatBoth, .clearCtrRx, .clearCtrTx, .setTypeAddr,
    .zero][b.toNat]?

/-- The number of a register, from a byte. -/
def decodeReg (b : Byte) : Option (Fin 8) := if h : b.toNat < 8 then some ⟨b.toNat, h⟩ else none

/-- The operands a driver row's word carries, its fields at the default places. `x` and `y` are read as for a register
whose own `STAT` is 00; `t`, `k`, `a`, `d`, `e` of a read-modify-write row are copies of what the operation reads and no operand (log 8). -/
def decodeDriverWord (k : TypeCodes) (op : DriverOp) (w : Word) (i : Fin 8) (clearDtog : Bool) :
    Except DecodeError Instr :=
  let x := Stat.ofCode (w.extractLsb' 4 2)
  let y := Stat.ofCode (w.extractLsb' 12 2)
  match op with
  | .setStatTx => .ok (.eprSetStatTx i x)
  | .setStatRx => .ok (.eprSetStatRx i y)
  | .setStatTxDtog0 => .ok (.eprSetStatTxDtog0 i x)
  | .setStatRxDtog0 => .ok (.eprSetStatRxDtog0 i y)
  | .setStatBoth => .ok (.eprSetStatBoth i x y clearDtog)
  | .clearCtrRx => .ok (.eprClearCtrRx i)
  | .clearCtrTx => .ok (.eprClearCtrTx i)
  | .setTypeAddr =>
    if Epr.epType k w = .iso then .error .isoType
    else .ok (.eprSetTypeAddr i (Epr.epType k w) (Epr.ea w))
  | .zero => .ok (.eprZero i)

/-- A driver line: the written word in `LAYOUT`, low byte first, the row, the register number and the `clear_dtog`
operand of `epr_set_stat_both`, which no other row reads; five bytes (log 6, log 8). -/
def decodeDriver (l : Layout) : List Byte → Except DecodeError Instr
  | [lo, hi, opb, ib, flag] =>
    match DriverOp.ofByte opb, decodeReg ib with
    | none, _ => .error .unknownOrdinal
    | some _, none => .error .badRegister
    | some op, some i =>
      if op.fits (l.eprIn (le16 lo hi)) then decodeDriverWord l.typeCodes op (l.eprIn (le16 lo hi)) i (decide (flag ≠ 0))
      else .error .wrongPattern
  | _ => .error .wrongLength

/-- The EVT rows of the opcode table in their order, first match wins (30_encoding.md R121). The rows are those of a
block whose `in_cb` is present; `task` takes the SOF bit out of the word where it is absent (R271, R280). -/
def decodeEvent (istr : Word) : Instr :=
  if istr &&& 0x1000 = 0x1000 then .evtWkup
  else if istr &&& 0x1800 = 0x0800 then .evtSusp
  else if istr &&& 0x1C00 = 0x0400 then .evtReset
  else if istr &&& 0x1E00 = 0x0200 then .evtSof
  else if istr &&& 0x9E00 = 0x8000 then .evtCtr (istr.extractLsb' 0 4)
  else .evtNone

/-- The first CTR0 or CTRN row that a snapshot `v` of `EPR[epId]` matches, if one does (30_encoding.md R122). -/
def decodeCompletion (v : Word) (epId : Byte) : Except DecodeError Instr :=
  match decodeReg epId with
  | none => .error (if epId.toNat < 16 then .noSubEvent else .badRegister)
  | some i =>
    if i = 0 then
      if Epr.ctrRx v then .ok (if Epr.setup v then .ep0Setup else .ep0Out)
      else if Epr.ctrTx v then .ok .ep0InDone
      else .error .noSubEvent
    else if Epr.ctrRx v then .ok (.epnOutDone i)
    else if Epr.ctrTx v then .ok (.epnInDone i)
    else .error .noSubEvent

/-- The endpoint number of a transaction, 0..15 (46_usb_engine_agent.md R306). -/
def decodeEndpoint (e : Byte) : Except DecodeError (BitVec 4) :=
  if e.toNat < 16 then .ok (e.extractLsb' 0 4) else .error .badEndpoint

/-- A bus line: ordinal (30_encoding.md R123), endpoint number, data bytes, of which a step reads those it has a use for
(log 6). An IN line that states the bytes the host must receive has one byte more and those bytes; one that states none
ends after the endpoint number (log 36). -/
def decodeBus : List Byte → Except DecodeError Instr
  | ord :: e :: data =>
    if ord = 0 then .ok .busReset
    else if ord = 1 then .ok .busSof
    else if ord = 2 then .ok .busSuspend
    else if ord = 3 then .ok .busWakeup
    else if ord = 4 then
      match data with
      | [b0, b1, b2, b3, b4, b5, b6, b7] => .ok (.busSetup #v[b0, b1, b2, b3, b4, b5, b6, b7])
      | _ => .error .wrongLength
    else if ord = 5 then (decodeEndpoint e).map fun e => .busOut e data
    else if ord = 6 then
      (decodeEndpoint e).map fun e => .busIn ⟨e, match data with | [] => none | _ :: expect => some expect⟩
    else .error .unknownOrdinal
  | _ => .error .wrongLength

/-- The instruction of an input line of a block with this `LAYOUT`, or the reason there is none. Total on any bytes. -/
def decode (y : Layout) (l : Line) : Except DecodeError Instr :=
  match l.port with
  | .command => decodeCommand l.bytes
  | .internal => decodeInternal l.bytes
  | .driver => decodeDriver y l.bytes
  | .event =>
    match l.bytes with
    | [lo, hi] => .ok (decodeEvent (y.istrIn (le16 lo hi)))
    | _ => .error .wrongLength
  | .completion =>
    match l.bytes with
    | [lo, hi, epId] => decodeCompletion (y.eprIn (le16 lo hi)) epId
    | _ => .error .wrongLength
  | .bus => decodeBus l.bytes
  | .request =>
    match l.bytes with
    | [b0, b1, b2, b3, b4, b5, b6, b7] => .ok (decodeRequest #v[b0, b1, b2, b3, b4, b5, b6, b7])
    | _ => .error .wrongLength

/-! ## The encoder -/

/-- The five bytes of a pointer operand (log 6). -/
def encodePtr : AppRef → List Byte
  | .app a =>
    let v := BitVec.ofNat 32 a
    [1, v.extractLsb' 0 8, v.extractLsb' 8 8, v.extractLsb' 16 8, v.extractLsb' 24 8]
  | .null => [0, 0, 0, 0, 0]

/-- A command line (30_encoding.md R123, log 6). -/
def encodeCommand (ord ept : Byte) (x y : Word) (p : AppRef) : Line :=
  ⟨.command, [ord, ept, loByte x, hiByte x, loByte y, hiByte y] ++ encodePtr p⟩

/-- A driver line: the row's fixed bits with the operand fields of `r`, in `LAYOUT` (log 8). -/
def encodeDriver (y : Layout) (opb : Byte) (r : Word) (i : Fin 8) (clearDtog : Bool) : Line :=
  ⟨.driver, [loByte (y.eprOut r), hiByte (y.eprOut r), opb, BitVec.ofNat 8 i.val, if clearDtog then 1 else 0]⟩

/-- `STAT_TX` in register position (30_encoding.md R102). -/
def Stat.inTx (s : Stat) : Word := s.code.setWidth 16 <<< 4

/-- `STAT_RX` in register position (30_encoding.md R102). -/
def Stat.inRx (s : Stat) : Word := s.code.setWidth 16 <<< 12

/-- An event line. -/
def encodeEvent (y : Layout) (r : Word) : Line := ⟨.event, [loByte (y.istrOut r), hiByte (y.istrOut r)]⟩

/-- A completion line: the snapshot and `EP_ID`. -/
def encodeCompletion (y : Layout) (r : Word) (i : Fin 8) : Line :=
  ⟨.completion, [loByte (y.eprOut r), hiByte (y.eprOut r), BitVec.ofNat 8 i.val]⟩

/-- A bus line. -/
def encodeBus (ord : Byte) (e : BitVec 4) (data : List Byte) : Line := ⟨.bus, ord :: e.setWidth 8 :: data⟩

/-- A SETUP packet as a request line. -/
def encodeRequest (bm br : Byte) (wValue wIndex wLength : Word) : Line :=
  ⟨.request, (unparse ⟨bm, br, wValue, wIndex, wLength⟩).toList⟩

/-- `wIndex` of an endpoint operand (30_encoding.md R115). -/
def epIndex (n : BitVec 4) (d : Dir) : Word := n.setWidth 16 ||| (if d = .tx then 0x0080 else 0x0000)

/-- The line of an instruction for a block with this `LAYOUT`. Operand bits the spec ignores are written 0. -/
def encode (y : Layout) : Instr → Line
  | .init => encodeCommand 0 0 0 0 .null
  | .task => encodeCommand 1 0 0 0 .null
  | .epWrite ept buf len => encodeCommand 2 ept len 0 buf
  | .epRead ept buf cap => encodeCommand 3 ept cap 0 buf
  | .controlIn buf buflen reqlen => encodeCommand 4 0 buflen reqlen buf
  | .controlInResume => ⟨.internal, [5]⟩
  | .serialStringDescriptor => encodeCommand 6 0 0 0 .null
  | .eprSetStatTx i s => encodeDriver y 0 (0x8080 ||| s.inTx) i false
  | .eprSetStatRx i s => encodeDriver y 1 (0x8080 ||| s.inRx) i false
  | .eprSetStatTxDtog0 i s => encodeDriver y 2 (0x8080 ||| s.inTx) i false
  | .eprSetStatRxDtog0 i s => encodeDriver y 3 (0x8080 ||| s.inRx) i false
  | .eprSetStatBoth i stx srx c => encodeDriver y 4 (0x8080 ||| stx.inTx ||| srx.inRx) i c
  | .eprClearCtrRx i => encodeDriver y 5 0x0080 i false
  | .eprClearCtrTx i => encodeDriver y 6 0x8000 i false
  | .eprSetTypeAddr i t ea =>
    encodeDriver y 7 (0x8080 ||| ((t.code y.typeCodes).setWidth 16 <<< 9) ||| ea.setWidth 16) i false
  | .eprZero i => encodeDriver y 8 0x0000 i false
  | .evtWkup => encodeEvent y 0x1000
  | .evtSusp => encodeEvent y 0x0800
  | .evtReset => encodeEvent y 0x0400
  | .evtSof => encodeEvent y 0x0200
  | .evtCtr id => encodeEvent y (0x8000 ||| id.setWidth 16)
  | .evtNone => encodeEvent y 0x0000
  | .ep0Setup => encodeCompletion y 0x8800 0
  | .ep0Out => encodeCompletion y 0x8000 0
  | .ep0InDone => encodeCompletion y 0x0080 0
  | .epnOutDone i => encodeCompletion y 0x8000 i
  | .epnInDone i => encodeCompletion y 0x0080 i
  | .busReset => encodeBus 0 0 []
  | .busSof => encodeBus 1 0 []
  | .busSuspend => encodeBus 2 0 []
  | .busWakeup => encodeBus 3 0 []
  | .busSetup p => encodeBus 4 0 p.toList
  | .busOut e data => encodeBus 5 e data
  | .busIn e => encodeBus 6 e.ept (match e.expect with | none => [] | some bs => 1 :: bs)
  | .classRequest r => encodeRequest r.bmRequestType r.bRequest r.wValue r.wIndex r.wLength
  | .vendorRequest r => encodeRequest r.bmRequestType r.bRequest r.wValue r.wIndex r.wLength
  | .getStatusDevice len => encodeRequest 0x80 0x00 0 0 len
  | .getStatusInterface itf len => encodeRequest 0x81 0x00 0 (itf.setWidth 16) len
  | .getStatusEndpoint n d len => encodeRequest 0x82 0x00 0 (epIndex n d) len
  | .clearFeatureEndpointHalt n d => encodeRequest 0x02 0x01 0 (epIndex n d) 0
  | .clearFeatureOther => encodeRequest 0x00 0x01 0 0 0
  | .setFeatureEndpointHalt n d => encodeRequest 0x02 0x03 0 (epIndex n d) 0
  | .setFeatureOther => encodeRequest 0x00 0x03 0 0 0
  | .setAddress a => encodeRequest 0x00 0x05 (a.setWidth 16) 0 0
  | .getDescriptorDevice len => encodeRequest 0x80 0x06 0x0100 0 len
  | .getDescriptorConfiguration len => encodeRequest 0x80 0x06 0x0200 0 len
  | .getDescriptorString idx lang len => encodeRequest 0x80 0x06 (le16 idx 3) lang len
  | .getDescriptorDeviceOther => encodeRequest 0x80 0x06 0 0 0
  | .getDescriptorInterface r => encodeRequest r.bmRequestType r.bRequest r.wValue r.wIndex r.wLength
  | .setDescriptor => encodeRequest 0x00 0x07 0 0 0
  | .getConfiguration len => encodeRequest 0x80 0x08 0 0 len
  | .setConfiguration v => encodeRequest 0x00 0x09 (v.setWidth 16) 0 0
  | .getInterface itf len => encodeRequest 0x81 0x0A 0 (itf.setWidth 16) len
  | .setInterface itf alt => encodeRequest 0x01 0x0B (alt.setWidth 16) (itf.setWidth 16) 0
  | .synchFrame => encodeRequest 0x82 0x0C 0 0 0
  | .unsupported => encodeRequest 0x80 0xFF 0 0 0

/-! ## Words as the opcode table numbers them -/

/-- The first `k` bytes of a number, least significant first. -/
def bytesOfNat : Nat → Nat → List Byte
  | 0, _ => []
  | k + 1, w => BitVec.ofNat 8 w :: bytesOfNat k (w / 256)

/-- The standard REQ rows a 16-bit table word can show: the first two bytes of a packet with all other bytes 0. -/
def isStandardRow (w : Nat) : Bool :=
  [0x0080, 0x0081, 0x0082, 0x0100, 0x0300, 0x0500, 0x0680, 0x0681, 0x0700, 0x0880, 0x0900, 0x0A81, 0x0B01,
    0x0C00].contains w

/-- The driver row of a 16-bit table word, first match in the table's order. -/
def tableDriverOp (w : Nat) : Option (DriverOp × Byte) :=
  [(DriverOp.setStatTx, (0 : Byte)), (.setStatRx, 1), (.setStatTxDtog0, 2), (.setStatRxDtog0, 3), (.setStatBoth, 4),
    (.clearCtrRx, 5), (.clearCtrTx, 6), (.setTypeAddr, 7), (.zero, 8)].find? fun q => q.1.fits (BitVec.ofNat 16 w)

/-- The line of a word as spec/opcode_table.json numbers it, in the default LAYOUT, operand bytes 0. The table's formats
reuse the same numbers, so such a word names no port: the port taken is fixed here and written down in log 7. -/
def tableLine (nbits w : Nat) : Line :=
  if nbits ≤ 8 then
    if w = 5 then ⟨.internal, bytesOfNat 1 w⟩
    else if w ≤ 6 then ⟨.command, bytesOfNat 11 w⟩
    else if w = 0x80 then ⟨.completion, bytesOfNat 3 w⟩
    else ⟨.request, bytesOfNat 8 w⟩
  else if nbits ≤ 16 then
    if isStandardRow w then ⟨.request, bytesOfNat 8 w⟩
    else if [0x1000, 0x0800, 0x0400, 0x0200, 0x8000].contains w then ⟨.event, bytesOfNat 2 w⟩
    else if w = 0x8800 then ⟨.completion, bytesOfNat 3 w⟩
    else match tableDriverOp w with
      | some (_, opb) => ⟨.driver, bytesOfNat 2 w ++ [opb, 0, 0]⟩
      | none => ⟨.request, bytesOfNat 8 w⟩
  else ⟨.request, bytesOfNat 8 w⟩

/-- The instruction the decoder reads from a word as the opcode table numbers its bits, in the default LAYOUT. -/
def decodeTableWord (nbits w : Nat) : Option Instr :=
  match decode .default (tableLine nbits w) with
  | .ok i => some i
  | .error _ => none

end Sys2Proof
end

