-- ==== Sys2Proof/Machine/State.lean ====
section
/-! DEFINITION. The state of the machine (10_state.md), as plain data: the block's registers, the peripheral registers
it shares with the USB engine, the two memories, the configuration, and the model's own input and output lists. -/

namespace Sys2Proof.Machine

/-- A byte-addressed memory: address and byte pairs in the canonical form of `Memory.wf` (Machine/Memory.lean). -/
abbrev Memory := List Host.Cell

/-- `dev_state` (10_state.md R26). -/
inductive DevState where
  | default
  | address
  | configured
  deriving DecidableEq, Repr

/-- The control-IN continuation `(ptr, rem)` (10_state.md R28). -/
structure Cont where
  ptr : Ptr
  rem : Word
  deriving DecidableEq, Repr

/-- One move of the application: a command it may issue inside a callback (47_application_interface.md R332 (c)), or a
store into its own memory (20_memory.md R94). `init` and `task` are no moves (R332 (b), 93_implementation_defined.md
U11), and neither is an access to the PMA, to a register (20_memory.md R79, U7) or to an element of the block (R22). -/
inductive AppAct where
  | epWrite (ept : Byte) (buf : AppRef) (len : Word)
  | epRead (ept : Byte) (buf : AppRef) (cap : Word)
  | controlIn (buf : AppRef) (buflen reqlen : Word)
  | store (addr : Nat) (bytes : List Byte)
  deriving DecidableEq, Repr

/-- The application's answer to one callback request: "a finite list of commands plus a return value"
(47_application_interface.md R332, D33). A callback that returns nothing leaves `ret` unused. -/
structure Answer where
  acts : List AppAct
  ret : Bool
  deriving DecidableEq, Repr

/-- A request on an optional callback port, with its arguments (47_application_interface.md R334). -/
inductive Call where
  | resetHook (before : Bool)
  | setAddressHook (a : BitVec 7)
  | suspendHook
  | resumeHook
  | outCb (ept : Fin 8)
  | inCb (ept : Fin 8)
  | classRequest (req : Request)
  | vendorRequest (req : Request)
  | getDescriptorInterface (req : Request)
  deriving DecidableEq, Repr

/-- What the host sees of a transaction (46_usb_engine_agent.md R306 to R309); `silent` is no handshake. -/
inductive Handshake where
  | ack
  | nak
  | stall
  | silent
  deriving DecidableEq, Repr

/-- One output on the block's or the engine's ports (10_state.md R21, 46_usb_engine_agent.md R307 to R309). -/
inductive Out where
  /-- a callback request -/
  | called (c : Call)
  /-- the result of an `ep_write` given on the command port or by a callback -/
  | wrote (ok : Bool)
  /-- the result of an `ep_read` given on the command port or by a callback -/
  | gotCount (n : Word)
  /-- the reference `serial_string_descriptor` returns -/
  | descriptor (p : Ptr)
  /-- the handshake of a transaction -/
  | handshake (h : Handshake)
  /-- the packet the host receives: the data PID is DATA1 when `data1` holds -/
  | packet (data1 : Bool) (data : List Byte)
  /-- whether an IN transaction gave the host the bytes its line states (46_usb_engine_agent.md R309; log 36) -/
  | checked (ok : Bool)
  deriving DecidableEq, Repr

/-- The `ISTR` flags of bus errors that the block ignores (46_usb_engine_agent.md R311). -/
inductive BusError where
  | pmaovr
  | err
  | esof
  deriving DecidableEq, Repr

/-- One input: an encoded instruction, a store the application makes to its own memory between commands (20_memory.md
R94), or a bus error the engine reports (46_usb_engine_agent.md R311). -/
inductive Input where
  | line (l : Line)
  | appStore (addr : Nat) (bytes : List Byte)
  | busError (e : BusError)
  deriving DecidableEq, Repr

/-- The whole state. -/
structure State where
  /-- the configuration, with the slot table `EP[0..7]` (10_state.md R24); no step writes it -/
  cfg : Config
  /-- `dev_state` (R26) -/
  devState : DevState
  /-- `pend_flag` (R27) -/
  pendFlag : Bool
  /-- `pend_addr` (R27) -/
  pendAddr : BitVec 7
  /-- `cont` (R28) -/
  cont : Option Cont
  /-- `sof_cur`, 1..7 (R29) -/
  sofCur : Nat
  /-- `setup_buf` (R30) -/
  setupBuf : Vector Byte 8
  /-- `reply_buf` (R31) -/
  replyBuf : Vector Byte 2
  /-- `inited` (R32) -/
  inited : Bool
  /-- whether the serial-number string has been materialised (47_application_interface.md R343) -/
  serialCached : Bool
  /-- `EPR[0..7]` (R40), each with its fields at their default places; `eprWord` is the word in `LAYOUT` (log 2) -/
  epr : Vector Word 8
  /-- the stored bits of `ISTR`, at their default places; CTR and EP_ID are derived (R47, R49) -/
  istr : Word
  /-- `CNTR` (R50), at the default places -/
  cntr : Word
  /-- `DADDR` (R51), at the default places -/
  daddr : Byte
  /-- `BTABLE` (R52) -/
  btable : Word
  /-- `DPPU` (R53) -/
  dppu : Bool
  /-- the packet memory by PMA offset (20_memory.md R71) -/
  pma : Memory
  /-- caller memory by address (20_memory.md R84) -/
  mem : Memory
  /-- MODEL: the pending inputs, oldest first (46_usb_engine_agent.md R300; log 5) -/
  script : List Input
  /-- MODEL: the application's answers to the coming callbacks, oldest first (D33; log 9) -/
  answers : List Answer
  /-- MODEL: what the last step put on the ports, oldest first (log 26) -/
  out : List Out
  /-- MODEL: the index of the next free value (log 10, log 11) -/
  freeCount : Nat
  /-- MODEL: what `ISTR.EP_ID` reads as while `ISTR.CTR = 0`, which R49 leaves unspecified (log 19) -/
  epIdIdle : BitVec 4
  deriving DecidableEq, Repr

/-- What stops the machine. All three are safe: the model stops where the spec names no byte to access. -/
inductive Fault where
  /-- Raised by every access to a PMA offset at or above `PMA_BYTES`, where 00_scope.md R14 has no byte. Safe (log 14). -/
  | pmaOutOfRange
  /-- Raised by every access to a byte of the null reference (47_application_interface.md R342). Safe (log 13). -/
  | nullAccess
  /-- Raised by every access to a byte of `setup_buf` or `reply_buf` past its end. Safe (log 15). -/
  | scratchOutOfRange
  deriving DecidableEq, Repr

/-- What the model turns away. All are safe: nothing is claimed of a refused step. -/
inductive Refusal where
  /-- Raised by `exec` for an instruction without a meaning. Safe. -/
  | notModelled (mnemonic : String)
  /-- Raised by a second `init` (10_state.md R32, 93_implementation_defined.md U1). Safe. -/
  | alreadyInited
  /-- Raised by any other command while `inited = 0` (10_state.md R32, 93_implementation_defined.md U2). Safe. -/
  | notInited
  /-- Raised by `init` with an ill-formed configuration (00_scope.md R12, 93_implementation_defined.md U3, U4). Safe. -/
  | illFormedConfig
  /-- Raised by `control_in_resume` while `cont = none`, its precondition in 41_endpoint_io.md R168. Safe (log 23). -/
  | noContinuation
  /-- Raised by a script line that is no input of the spec, each for the reason `DecodeError` gives with its rule; a
  completion line that selects no sub-event is none of these, it changes nothing (`undecoded`). Safe (log 6). -/
  | undecodable (e : DecodeError)
  deriving DecidableEq, Repr

/-- The state right after power-on, before `init` (10_state.md R60). What R60 leaves open is in log 1, 3, 4 and 5. -/
def State.reset : State where
  cfg :=
    { pmaBytes := 512
      slots := #v[⟨.bulk, 0, 0⟩, ⟨.bulk, 0, 0⟩, ⟨.bulk, 0, 0⟩, ⟨.bulk, 0, 0⟩, ⟨.bulk, 0, 0⟩, ⟨.bulk, 0, 0⟩, ⟨.bulk, 0, 0⟩]
      cap := ⟨false, false, false, false, false, false, false, false, false⟩
      desc := ⟨none, none, [], []⟩
      rxBlockBias := 0
      setAddressInConfigured := .reject
      padBytePolicy := .unchanged
      layout := .default
      serialAddr := 0x20000000 }
  devState := .default
  pendFlag := false
  pendAddr := 0
  cont := none
  sofCur := 1
  setupBuf := #v[0, 0, 0, 0, 0, 0, 0, 0]
  replyBuf := #v[0, 0]
  inited := false
  serialCached := false
  epr := #v[0, 0, 0, 0, 0, 0, 0, 0]
  istr := 0
  cntr := 0x0003
  daddr := 0
  btable := 0
  dppu := false
  pma := []
  mem := []
  script := []
  answers := []
  out := []
  freeCount := 0
  epIdIdle := 0

end Sys2Proof.Machine
end

