-- ==== Sys2Proof/Machine/Memory.lean ====
section
/-! DEFINITION. The two byte memories as sorted lists in one canonical form, and the reads and writes of one byte. -/

namespace Sys2Proof.Machine

/-- What an address with no entry reads as, in the PMA and in caller memory alike (DESIGN CHOICE, unsafe: log 1). -/
def Memory.fill : Byte := 0x00

/-- The byte at an address. -/
def Memory.read : Memory → Nat → Byte
  | [], _ => Memory.fill
  | (k, b) :: m, a => if k = a then b else Memory.read m a

/-- The memory without an address: it then reads as `fill`. -/
def Memory.erase : Memory → Nat → Memory
  | [], _ => []
  | (k, c) :: m, a => if k = a then Memory.erase m a else (k, c) :: Memory.erase m a

/-- An entry put before the first greater address. -/
def Memory.place : Memory → Nat → Byte → Memory
  | [], a, b => [(a, b)]
  | (k, c) :: m, a, b => if a < k then (a, b) :: (k, c) :: m else (k, c) :: Memory.place m a b

/-- The memory after one byte is stored. Storing `fill` takes the entry out, so equal contents are equal lists. -/
def Memory.write (m : Memory) (a : Nat) (b : Byte) : Memory :=
  if b = Memory.fill then Memory.erase m a else Memory.place (Memory.erase m a) a b

/-- Canonical from address `lo` on: addresses strictly rising, no entry equal to `fill`. -/
def Memory.wfFrom : Nat → Memory → Bool
  | _, [] => true
  | lo, (k, b) :: m => decide (lo ≤ k) && decide (b ≠ Memory.fill) && Memory.wfFrom (k + 1) m

/-- The canonical form. -/
def Memory.wf (m : Memory) : Bool := Memory.wfFrom 0 m

/-- The memory after bytes are stored at `a`, `a + 1`, …, in that order. -/
def Memory.writeAll : Memory → Nat → List Byte → Memory
  | m, _, [] => m
  | m, a, b :: bs => Memory.writeAll (Memory.write m a b) (a + 1) bs

/-- The `n` bytes at `a`, `a + 1`, …. -/
def Memory.readAll (m : Memory) (a : Nat) : Nat → List Byte
  | 0 => []
  | n + 1 => Memory.read m a :: Memory.readAll m (a + 1) n

/-- The little-endian 16-bit word at `a` (20_memory.md R72). -/
def Memory.word (m : Memory) (a : Nat) : Word := le16 (Memory.read m a) (Memory.read m (a + 1))

end Sys2Proof.Machine
end

