-- ==== Sys2Proof/Machine/Flags.lean ====
section
/-! DEFINITION. The flags of the machine (10_state.md R55): the write effect of an endpoint register, the masks of
R104 to R107, `ISTR` as it reads, the clearing of its flags, the interrupt output, and the registers' words in `LAYOUT`.
The masks name the fields by their default places, where the state keeps them (log 2). -/

namespace Sys2Proof.Machine

/-- `RW_MASK = EP_TYPE | EP_KIND | EA` (30_encoding.md R104). -/
def rwMask : Word := 0x070F
/-- `CTR_MASK = CTR_RX | CTR_TX` (R104). -/
def ctrMask : Word := 0x8080
/-- `TOGGLE_MASK = DTOG_RX | STAT_RX | DTOG_TX | STAT_TX` (R104). -/
def toggleMask : Word := 0x7070
/-- `SETUP` (R104). -/
def setupMask : Word := 0x0800
/-- `CTR_RX` (R101). -/
def ctrRxMask : Word := 0x8000
/-- `CTR_TX` (R101). -/
def ctrTxMask : Word := 0x0080
/-- `STAT_TX` (R101). -/
def statTxMask : Word := 0x0030
/-- `STAT_RX` (R101). -/
def statRxMask : Word := 0x3000
/-- `DTOG_TX` (R101). -/
def dtogTxMask : Word := 0x0040
/-- `DTOG_RX` (R101). -/
def dtogRxMask : Word := 0x4000

/-- `ISTR.WKUP` (30_encoding.md R105). -/
def istrWkup : Word := 0x1000
/-- `ISTR.SUSP`. -/
def istrSusp : Word := 0x0800
/-- `ISTR.RESET`. -/
def istrReset : Word := 0x0400
/-- `ISTR.SOF`. -/
def istrSof : Word := 0x0200
/-- `ISTR.CTR`. -/
def istrCtr : Word := 0x8000
/-- The bits of `ISTR` that are storage: all but CTR and EP_ID (10_state.md R49). -/
def istrStored : Word := 0x7FF0

/-- The flag of a bus error (30_encoding.md R105). -/
def BusError.mask : BusError → Word
  | .pmaovr => 0x4000
  | .err => 0x2000
  | .esof => 0x0100

/-- `CNTR.LPMODE` (30_encoding.md R106). -/
def cntrLpmode : Word := 0x0004
/-- `CNTR.PDWN`. -/
def cntrPdwn : Word := 0x0002
/-- `CNTR.FRES`. -/
def cntrFres : Word := 0x0001
/-- `CNTR.SOFM`. -/
def cntrSofm : Word := 0x0200
/-- `CTRM | WKUPM | SUSPM | RESETM` (R106). -/
def cntrMasks : Word := 0x9C00

/-- `DADDR.EF` (30_encoding.md R107). -/
def daddrEf : Byte := 0x80

/-- `EF | address` (10_state.md R51). -/
def efAddr (a : BitVec 7) : Byte := daddrEf ||| a.setWidth 8

/-- What a register write of `w` makes of an endpoint register that holds `r` (42_toggle_write.md R176). -/
def writeEffect (r w : Word) : Word :=
  (w &&& rwMask) ||| ((r ^^^ w) &&& toggleMask) ||| (r &&& w &&& ctrMask) ||| (r &&& setupMask)

/-- The word `epr_update` writes (42_toggle_write.md R177). -/
def updateWord (r sel tgt : Word) : Word := ((r &&& (rwMask ||| sel)) ^^^ tgt) ||| ctrMask

/-- The word `epr_clear_ctr_rx` writes (42_toggle_write.md R184). -/
def clearCtrRxWord (r : Word) : Word := (r &&& rwMask) ||| ctrTxMask

/-- The word `epr_clear_ctr_tx` writes (42_toggle_write.md R185). -/
def clearCtrTxWord (r : Word) : Word := (r &&& rwMask) ||| ctrRxMask

/-- The word `epr_set_type_addr` writes (42_toggle_write.md R186). -/
def typeAddrWord (k : TypeCodes) (t : EpType) (ea : BitVec 4) : Word :=
  ctrMask ||| ((t.code k).setWidth 16 <<< 9) ||| ea.setWidth 16

/-- The word `epr_zero` writes (42_toggle_write.md R187). -/
def zeroWord (r : Word) : Word := r &&& toggleMask

/-- The eight register numbers in order. -/
def allRegs : List (Fin 8) := [0, 1, 2, 3, 4, 5, 6, 7]

/-- An endpoint register has a completed transaction (10_state.md R49). -/
def ctrPending (r : Word) : Bool := Epr.ctrRx r || Epr.ctrTx r

/-- The endpoint `ISTR` reports: the smallest with a `CTR` flag; none when `ISTR.CTR = 0` (10_state.md R49). -/
def pendingEp (s : State) : Option (Fin 8) := allRegs.find? fun i => ctrPending s.epr[i]

/-- `ISTR` as a read gives it (10_state.md R47, R49): the stored flags, and CTR and EP_ID from the endpoint registers.
While CTR is 0 the EP_ID bits are those of `epIdIdle` (log 19). -/
def istrRead (s : State) : Word :=
  match pendingEp s with
  | some i => (s.istr &&& istrStored) ||| istrCtr ||| BitVec.ofNat 16 i.val
  | none => (s.istr &&& istrStored) ||| s.epIdIdle.setWidth 16

/-- `ISTR_clear(F)` (10_state.md R48): the flags of `f` become 0, every other flag keeps its value. -/
def istrClear (f : Word) (s : State) : State := { s with istr := s.istr &&& ~~~f }

/-- The engine sets flags of `ISTR`; a flag already set stays set (46_usb_engine_agent.md R302 to R305). -/
def istrSet (f : Word) (s : State) : State := { s with istr := s.istr ||| f }

/-- The interrupt output (10_state.md R54). The block never reads it. -/
def irq (s : State) : Bool :=
  decide (istrRead s &&& s.cntr &&& (istrCtr ||| istrWkup ||| istrSusp ||| istrReset ||| istrSof) ≠ 0)

/-! ## The registers as the integrator's `LAYOUT` has them (00_scope.md R10) -/

/-- The 16-bit word of `EPR[i]` in `LAYOUT` (10_state.md R40). -/
def eprWord (i : Fin 8) (s : State) : Word := s.cfg.layout.eprOut s.epr[i]

/-- The 16-bit word a read of `ISTR` gives in `LAYOUT` (10_state.md R47, R49). -/
def istrWord (s : State) : Word := s.cfg.layout.istrOut (istrRead s)

/-- The 16-bit word of `CNTR` in `LAYOUT` (10_state.md R50). -/
def cntrWord (s : State) : Word := s.cfg.layout.cntrOut s.cntr

/-- The 8 bits of `DADDR` in `LAYOUT` (10_state.md R51). -/
def daddrWord (s : State) : Byte := s.cfg.layout.daddrOut s.daddr

/-- The register of the pull-up in `LAYOUT`, its other bits left out (10_state.md R53, 30_encoding.md R108). -/
def dppuWord (s : State) : Word := if s.dppu then BitVec.twoPow 16 s.cfg.layout.dppu else 0

end Sys2Proof.Machine
end

