-- ==== Sys2Proof/Machine/Operands.lean ====
section
/-! DEFINITION. Every operand form: endpoint numbers and slots (10_state.md R24, R25), caller-memory pointers and the
bytes behind them (20_memory.md R84), descriptor-table words (R76), the endpoint operand of a request
(44_standard_requests.md R234) and the descriptors the application returns (47_application_interface.md R333). -/

namespace Sys2Proof.Machine

/-- Slot `i` of the endpoint table: endpoint 0 is fixed, 1..7 are the configuration (10_state.md R24, R25). -/
def slot (c : Config) (i : Fin 8) : Slot :=
  if h : i.val = 0 then ⟨.control, 64, 64⟩ else c.slots[i.val - 1]'(by omega)

/-- `EP[i].size_in`. -/
def sizeIn (c : Config) (i : Fin 8) : Nat := (slot c i).sizeIn

/-- `EP[i].size_out`. -/
def sizeOut (c : Config) (i : Fin 8) : Nat := (slot c i).sizeOut

/-- `in_present(i)` (10_state.md R25). -/
def inPresent (c : Config) (i : Fin 8) : Bool := decide (sizeIn c i ≠ 0)

/-- `out_present(i)` (10_state.md R25). -/
def outPresent (c : Config) (i : Fin 8) : Bool := decide (sizeOut c i ≠ 0)

/-- The slot of an endpoint index, as wide as its operand is: `ept` of a command, `EP_ID`, `wIndex[3:0]`; none at 8 and
above (00_scope.md R13, 60_exceptions.md R353). -/
def slotIndex {n : Nat} (e : BitVec n) : Option (Fin 8) := if h : e.toNat < 8 then some ⟨e.toNat, h⟩ else none

/-- `ep_operand_ok(n, d)` with the slot it selects (44_standard_requests.md R234). -/
def epOperand (c : Config) (n : BitVec 4) (d : Dir) : Option (Fin 8) :=
  match slotIndex n with
  | none => none
  | some i =>
    match d with
    | .tx => if inPresent c i then some i else none
    | .rx => if outPresent c i then some i else none

/-- `buf + k`: address arithmetic inside one buffer (20_memory.md R84). -/
def ptrPlus : Ptr → Nat → Ptr
  | .null, _ => .null
  | .app a, k => .app (a + k)
  | .setupBuf o, k => .setupBuf (o + k)
  | .replyBuf o, k => .replyBuf (o + k)

/-- One byte of caller memory (20_memory.md R84), or of a scratch buffer of the block (10_state.md R30, R31). -/
def memRead (p : Ptr) (s : State) : Except Fault Byte :=
  match p with
  | .null => .error .nullAccess
  | .app a => .ok (s.mem.read a)
  | .setupBuf o => if h : o < 8 then .ok s.setupBuf[o] else .error .scratchOutOfRange
  | .replyBuf o => if h : o < 2 then .ok s.replyBuf[o] else .error .scratchOutOfRange

/-- One byte stored to caller memory, or to a scratch buffer of the block. -/
def memWrite (p : Ptr) (b : Byte) (s : State) : Except Fault State :=
  match p with
  | .null => .error .nullAccess
  | .app a => .ok { s with mem := s.mem.write a b }
  | .setupBuf o => if h : o < 8 then .ok { s with setupBuf := s.setupBuf.set o b } else .error .scratchOutOfRange
  | .replyBuf o => if h : o < 2 then .ok { s with replyBuf := s.replyBuf.set o b } else .error .scratchOutOfRange

/-- `MemRead(p, n)`. With `n = 0` no byte is accessed and `p` may be null (20_memory.md R84). -/
def memReadN : Nat → Ptr → State → Except Fault (List Byte)
  | 0, _, _ => .ok []
  | n + 1, p, s => do
    let b ← memRead p s
    let bs ← memReadN n (ptrPlus p 1) s
    .ok (b :: bs)

/-- `MemWrite(p, n, v)`. With no byte to write, `p` may be null (20_memory.md R84). -/
def memWriteN : List Byte → Ptr → State → Except Fault State
  | [], _, s => .ok s
  | b :: bs, p, s => do
    let s ← memWrite p b s
    memWriteN bs (ptrPlus p 1) s

/-- The PMA has bytes at offsets 0 .. `PMA_BYTES - 1` only (20_memory.md R70, 00_scope.md R14). -/
def pmaHas (s : State) (a n : Nat) : Bool := decide (n = 0 ∨ a + n ≤ s.cfg.pmaBytes)

/-- `n` bytes of the PMA from offset `a` (20_memory.md R83). -/
def pmaReadN (a n : Nat) (s : State) : Except Fault (List Byte) :=
  if pmaHas s a n then .ok (s.pma.readAll a n) else .error .pmaOutOfRange

/-- Bytes stored to the PMA from offset `a` on (20_memory.md R83). -/
def pmaWriteN (a : Nat) (bs : List Byte) (s : State) : Except Fault State :=
  if pmaHas s a bs.length then .ok { s with pma := s.pma.writeAll a bs } else .error .pmaOutOfRange

/-- The four words of a descriptor-table entry pair (20_memory.md R76). -/
inductive BdtWord where
  | addrTx
  | countTx
  | addrRx
  | countRx
  deriving DecidableEq, Repr

/-- The place of a word inside its entry pair (20_memory.md R76). -/
def BdtWord.offset : BdtWord → Nat
  | .addrTx => 0
  | .countTx => 2
  | .addrRx => 4
  | .countRx => 6

/-- The PMA offset of `BDT[i].w`: the table starts at `BTABLE` (20_memory.md R75, R76). -/
def bdtOffset (s : State) (i : Fin 8) (w : BdtWord) : Nat := s.btable.toNat + 8 * i.val + w.offset

/-- `BDT[i].w` read as a little-endian word (20_memory.md R72). -/
def bdtRead (i : Fin 8) (w : BdtWord) (s : State) : Except Fault Word :=
  if pmaHas s (bdtOffset s i w) 2 then .ok (s.pma.word (bdtOffset s i w)) else .error .pmaOutOfRange

/-- `BDT[i].w <- v` (20_memory.md R72). -/
def bdtWrite (i : Fin 8) (w : BdtWord) (v : Word) (s : State) : Except Fault State :=
  pmaWriteN (bdtOffset s i w) [loByte v, hiByte v] s

/-- The COUNT field of `COUNT_TX` and `COUNT_RX`, bits 9:0 (30_encoding.md R110, R111). -/
def countField (w : Word) : Nat := (w.extractLsb' 0 10).toNat

/-- The smaller of two lengths, unsigned (00_scope.md R13). -/
def minWord (a b : Word) : Word := if a.toNat ≤ b.toNat then a else b

/-- `interface_descriptor(itf)` (47_application_interface.md R333). -/
def interfaceDescriptor (c : Config) (itf : Byte) : Option Nat := c.desc.interfaces.lookup itf

/-- `string_descriptor(lang, idx)` (47_application_interface.md R333). -/
def stringDescriptor (c : Config) (lang : Word) (idx : Byte) : Option Nat := c.desc.strings.lookup (lang, idx)

end Sys2Proof.Machine
end

