-- ==== Sys2Proof/Machine/Ops.lean ====
section
/-! DEFINITION. The shared operations: the one way an endpoint register changes (42_toggle_write.md), the endpoint
input and output operations the commands, the control engine and the application share (41_endpoint_io.md), a callback
request (47_application_interface.md), and ProtocolReject, the one error outcome that changes state
(43_control_engine.md R212). The block has no vector, no saved context and no mode to change or restore
(60_exceptions.md R364, R365). -/

namespace Sys2Proof.Machine

/-! ## The register driver -/

/-- `EPR_write(i, w)` (42_toggle_write.md R176): the only way the block changes an endpoint register. -/
def eprWrite (i : Fin 8) (w : Word) (s : State) : State := { s with epr := s.epr.set i (writeEffect s.epr[i] w) }

/-- `epr_update(i, sel, tgt)` (R177): one read, one write. -/
def eprUpdate (i : Fin 8) (sel tgt : Word) (s : State) : State := eprWrite i (updateWord s.epr[i] sel tgt) s

/-- `epr_set_stat_tx(i, st)` (R179). -/
def eprSetStatTx (i : Fin 8) (st : Stat) (s : State) : State := eprUpdate i statTxMask st.inTx s

/-- `epr_set_stat_rx(i, st)` (R180). -/
def eprSetStatRx (i : Fin 8) (st : Stat) (s : State) : State := eprUpdate i statRxMask st.inRx s

/-- `epr_set_stat_tx_dtog0(i, st)` (R181). -/
def eprSetStatTxDtog0 (i : Fin 8) (st : Stat) (s : State) : State :=
  eprUpdate i (statTxMask ||| dtogTxMask) st.inTx s

/-- `epr_set_stat_rx_dtog0(i, st)` (R182). -/
def eprSetStatRxDtog0 (i : Fin 8) (st : Stat) (s : State) : State :=
  eprUpdate i (statRxMask ||| dtogRxMask) st.inRx s

/-- The fields `epr_set_stat_both` selects (R183). -/
def bothMask (clearDtog : Bool) : Word :=
  statTxMask ||| statRxMask ||| (if clearDtog then dtogTxMask ||| dtogRxMask else 0)

/-- `epr_set_stat_both(i, stx, srx, clear_dtog)` (R183). -/
def eprSetStatBoth (i : Fin 8) (stx srx : Stat) (clearDtog : Bool) (s : State) : State :=
  eprUpdate i (bothMask clearDtog) (stx.inTx ||| srx.inRx) s

/-- `epr_clear_ctr_rx(i)` (R184). -/
def eprClearCtrRx (i : Fin 8) (s : State) : State := eprWrite i (clearCtrRxWord s.epr[i]) s

/-- `epr_clear_ctr_tx(i)` (R185). -/
def eprClearCtrTx (i : Fin 8) (s : State) : State := eprWrite i (clearCtrTxWord s.epr[i]) s

/-- `epr_set_type_addr(i, t, ea)` (R186). -/
def eprSetTypeAddr (i : Fin 8) (t : EpType) (ea : BitVec 4) (s : State) : State :=
  eprWrite i (typeAddrWord s.cfg.layout.typeCodes t ea) s

/-- `epr_zero(i)` (R187). -/
def eprZero (i : Fin 8) (s : State) : State := eprWrite i (zeroWord s.epr[i]) s

/-! ## Endpoint input and output -/

/-- The byte after an odd-length payload (41_endpoint_io.md R158): unchanged, or under `PAD_BYTE_POLICY = any` a free
value (log 11). `a` is the offset of the payload and `n` its length. -/
def padByte (a n : Nat) (s : State) : Except Fault State :=
  match s.cfg.padBytePolicy with
  | .unchanged => .ok s
  | .any =>
    if n % 2 = 1 then pmaWriteN (a + n) [Config.freeByte s.freeCount] { s with freeCount := s.freeCount + 1 }
    else .ok s

/-- `ep_write(ept, buf, len)` (41_endpoint_io.md R156), with its result. A failed test changes nothing. -/
def epWrite (ept : Byte) (buf : Ptr) (len : Word) (s : State) : Except Fault (Bool × State) :=
  match slotIndex ept with
  | none => .ok (false, s)
  | some i =>
    if sizeIn s.cfg i = 0 then .ok (false, s)
    else do
      let a ← bdtRead i .addrTx s
      if a = 0 then .ok (false, s)
      else if sizeIn s.cfg i < len.toNat then .ok (false, s)
      else do
        let payload ← memReadN len.toNat buf s
        let s ← pmaWriteN a.toNat payload s
        let s ← padByte a.toNat len.toNat s
        let s ← bdtWrite i .countTx len s
        .ok (true, eprSetStatTx i .valid s)

/-- `ep_read(ept, buf, cap)` (41_endpoint_io.md R160), with its result. -/
def epRead (ept : Byte) (buf : Ptr) (cap : Word) (s : State) : Except Fault (Word × State) :=
  match slotIndex ept with
  | none => .ok (0, s)
  | some i =>
    if sizeOut s.cfg i = 0 then .ok (0, s)
    else do
      let a ← bdtRead i .addrRx s
      let c ← bdtRead i .countRx s
      let m := minWord (BitVec.ofNat 16 (countField c)) cap
      let payload ← pmaReadN a.toNat m.toNat s
      let s ← memWriteN payload buf s
      .ok (m, eprSetStatRx i .valid s)

/-- The continuation after a fragment of a reply of `total` bytes at `buf` (41_endpoint_io.md R165, R168). -/
def contAfter (buf : Ptr) (total : Word) : Option Cont :=
  if 64 < total.toNat then some ⟨ptrPlus buf 64, total - 64⟩ else none

/-- Sends the first `min(total, 64)` bytes at `buf` and keeps the tail: the common step of `control_in` (R165) and
`control_in_resume` (R168). The result of the inner `ep_write` is ignored (D13). -/
def sendFragment (buf : Ptr) (total : Word) (s : State) : Except Fault State := do
  let (_, s) ← epWrite 0 buf (minWord total 64) s
  .ok { s with cont := contAfter buf total }

/-- `control_in(buf, buflen, reqlen)` (41_endpoint_io.md R165). -/
def controlIn (buf : Ptr) (buflen reqlen : Word) (s : State) : Except Fault State :=
  sendFragment buf (minWord reqlen buflen) s

/-- `control_in_resume()` for the continuation `c` (41_endpoint_io.md R168). -/
def controlInResume (c : Cont) (s : State) : Except Fault State := sendFragment c.ptr c.rem s

/-! ## Callbacks -/

/-- Puts an output on a port (log 26). -/
def emit (o : Out) (s : State) : State := { s with out := s.out ++ [o] }

/-- The application stores bytes into its own memory (20_memory.md R94). -/
def appStore (addr : Nat) (bytes : List Byte) (s : State) : State := { s with mem := s.mem.writeAll addr bytes }

/-- One move of the application inside a callback, its result put on the port (47_application_interface.md R332). The move
runs whatever `inited` is (DESIGN CHOICE, log 38: only an internal row run before `init` gets here with `inited = 0`). -/
def runAct (a : AppAct) (s : State) : Except Fault State :=
  match a with
  | .epWrite ept buf len => do
    let (ok, s) ← epWrite ept buf.ptr len s
    .ok (emit (.wrote ok) s)
  | .epRead ept buf cap => do
    let (n, s) ← epRead ept buf.ptr cap s
    .ok (emit (.gotCount n) s)
  | .controlIn buf buflen reqlen => controlIn buf.ptr buflen reqlen s
  | .store addr bytes => .ok (appStore addr bytes s)

/-- The moves of one answer, in order, each seeing what the earlier ones left (R332 (d)). -/
def runActs : List AppAct → State → Except Fault State
  | [], s => .ok s
  | a :: as, s => do
    let s ← runAct a s
    runActs as s

/-- The application's next answer. Where none was supplied it makes no move and what it returns is a free value
(log 9, log 10). -/
def nextAnswer (s : State) : Answer × State :=
  match s.answers with
  | a :: rest => (a, { s with answers := rest })
  | [] => (⟨[], Config.freeReply s.freeCount⟩, { s with freeCount := s.freeCount + 1 })

/-- A request on a callback port that is present: the request goes out, the application's answer is run to its end, and
its return value comes back (47_application_interface.md R332, R334). -/
def callback (c : Call) (s : State) : Except Fault (Bool × State) := do
  let (ans, s) := nextAnswer (emit (.called c) s)
  let s ← runActs ans.acts s
  .ok (ans.ret, s)

/-- A hook: skipped when absent, its return value not used (47_application_interface.md R334, D15). -/
def hook (present : Bool) (c : Call) (s : State) : Except Fault State :=
  if present then do
    let (_, s) ← callback c s
    .ok s
  else .ok s

/-- A request callback: "not handled" when absent (43_control_engine.md R205, D15). -/
def delegate (present : Bool) (c : Call) (s : State) : Except Fault (Bool × State) :=
  if present then callback c s else .ok (false, s)

/-! ## The error outcome and the end of a request -/

/-- `raise ProtocolReject` (43_control_engine.md R212): both directions of endpoint 0 to STALL, and nothing else. -/
def protocolReject (s : State) : State := eprSetStatBoth 0 .stall .stall false s

/-- What `ep0_setup` does with `handled` (43_control_engine.md R201, R210, R212): the zero-length status packet of a
handled H→D request, nothing for a handled D→H request, ProtocolReject for a request not handled. -/
def finishRequest (d2h : Bool) (handled : Bool) (s : State) : Except Fault State :=
  if handled then
    if d2h then .ok s
    else do
      let (_, s) ← epWrite 0 .null 0 s
      .ok s
  else .ok (protocolReject s)

/-! ## The outcome of a step -/

/-- An operation that ran, or the fault that stopped it, as the outcome of a step. -/
def lift (r : Except Fault State) : Host.Outcome State Fault Refusal :=
  match r with
  | .ok s => .next s
  | .error f => .fault f

/-- A command is refused while `inited = 0` (10_state.md R32). -/
def whenInited (s : State) (r : Except Fault State) : Host.Outcome State Fault Refusal :=
  if s.inited then lift r else .refused .notInited

end Sys2Proof.Machine
end

