-- ==== Sys2Proof/Machine/Driver.lean ====
section
/-! DEFINITION. The UOP rows: the driver operations on one endpoint register (42_toggle_write.md R179 to R187). -/

namespace Sys2Proof.Machine

/-- UOP `epr_set_stat_tx` (R179). -/
def execEprSetStatTx (i : Fin 8) (st : Stat) (s : State) : Host.Outcome State Fault Refusal :=
  .next (eprSetStatTx i st s)

/-- UOP `epr_set_stat_rx` (R180). -/
def execEprSetStatRx (i : Fin 8) (st : Stat) (s : State) : Host.Outcome State Fault Refusal :=
  .next (eprSetStatRx i st s)

/-- UOP `epr_set_stat_tx_dtog0` (R181). -/
def execEprSetStatTxDtog0 (i : Fin 8) (st : Stat) (s : State) : Host.Outcome State Fault Refusal :=
  .next (eprSetStatTxDtog0 i st s)

/-- UOP `epr_set_stat_rx_dtog0` (R182). -/
def execEprSetStatRxDtog0 (i : Fin 8) (st : Stat) (s : State) : Host.Outcome State Fault Refusal :=
  .next (eprSetStatRxDtog0 i st s)

/-- UOP `epr_set_stat_both` (R183). -/
def execEprSetStatBoth (i : Fin 8) (stx srx : Stat) (clearDtog : Bool) (s : State) :
    Host.Outcome State Fault Refusal :=
  .next (eprSetStatBoth i stx srx clearDtog s)

/-- UOP `epr_clear_ctr_rx` (R184). -/
def execEprClearCtrRx (i : Fin 8) (s : State) : Host.Outcome State Fault Refusal := .next (eprClearCtrRx i s)

/-- UOP `epr_clear_ctr_tx` (R185). -/
def execEprClearCtrTx (i : Fin 8) (s : State) : Host.Outcome State Fault Refusal := .next (eprClearCtrTx i s)

/-- UOP `epr_set_type_addr` (R186). -/
def execEprSetTypeAddr (i : Fin 8) (t : EpType) (ea : BitVec 4) (s : State) : Host.Outcome State Fault Refusal :=
  .next (eprSetTypeAddr i t ea s)

/-- UOP `epr_zero` (R187). -/
def execEprZero (i : Fin 8) (s : State) : Host.Outcome State Fault Refusal := .next (eprZero i s)

end Sys2Proof.Machine
end

