-- ==== Sys2Proof/Machine/Commands.lean ====
section
/-! DEFINITION. The CMD rows but `task`: `init` with the PMA allocator (40_pma_allocator.md), the endpoint input and
output commands (41_endpoint_io.md) and `serial_string_descriptor` (47_application_interface.md R343). -/

namespace Sys2Proof.Machine

/-! ## The configuration and the allocator -/

/-- `size_out` is encodable in a receive count word (00_scope.md R12 (b)). -/
def rxSizeOk (n : Nat) : Bool :=
  decide (n = 0 ∨ (n % 2 = 0 ∧ n ≤ 62) ∨ (n % 32 = 0 ∧ n ≤ 992))

/-- `size_in` is even and at most 1023 (00_scope.md R12 (d)). -/
def txSizeOk (n : Nat) : Bool := decide (n % 2 = 0 ∧ n ≤ 1023)

/-- One configurable slot is well-formed (00_scope.md R12 (a), (b), (d)). -/
def slotOk (x : Slot) : Bool :=
  decide (x.typ = .bulk ∨ x.typ = .interrupt) && rxSizeOk x.sizeOut && txSizeOk x.sizeIn

/-- The bytes the endpoints 1..7 take (00_scope.md R12 (c)). -/
def slotBytes (c : Config) : Nat := (c.slots.toList.map fun x => x.sizeIn + x.sizeOut).sum

/-- A well-formed configuration (00_scope.md R8, R10, R12). -/
def configOk (c : Config) : Bool :=
  decide (192 ≤ c.pmaBytes ∧ c.pmaBytes ≤ 65535) && c.slots.toList.all slotOk &&
    decide (slotBytes c ≤ c.pmaBytes - 64 - 2 * 64) && c.layout.ok

/-- `rxenc(s)` (40_pma_allocator.md R145). -/
def rxenc (bias : Fin 2) (s : Nat) : Word :=
  if s ≤ 62 ∧ s % 2 = 0 then BitVec.ofNat 16 (s / 2) <<< 10
  else 0x8000 ||| (BitVec.ofNat 16 (s / 32 - bias.val) <<< 10)

/-- `rxdec(c)`, the capacity a count word declares (40_pma_allocator.md R146). -/
def rxdec (bias : Fin 2) (c : Word) : Nat :=
  if c.getLsbD 15 then 32 * ((c.extractLsb' 10 5).toNat + bias.val) else 2 * (c.extractLsb' 10 5).toNat

/-- The descriptor-table loop of `pma_layout` over the remaining indices, from watermark `wm` (40_pma_allocator.md
R142). -/
def layoutFrom : List (Fin 8) → Nat → State → Except Fault State
  | [], _, s => .ok s
  | i :: is, wm, s => do
    let s ← bdtWrite i .addrTx (BitVec.ofNat 16 wm) s
    let s ← bdtWrite i .countTx 0 s
    let s ← bdtWrite i .addrRx (BitVec.ofNat 16 (wm + sizeIn s.cfg i)) s
    let s ← bdtWrite i .countRx (rxenc s.cfg.rxBlockBias (sizeOut s.cfg i)) s
    layoutFrom is (wm + sizeIn s.cfg i + sizeOut s.cfg i) s

/-- `pma_layout()` (40_pma_allocator.md R142). -/
def pmaLayout (s : State) : Except Fault State := layoutFrom allRegs 64 { s with btable := 0 }

/-- The interrupt masks `init` enables (40_pma_allocator.md R141). -/
def initCntr (c : Config) : Word := cntrMasks ||| (if c.cap.inCb then cntrSofm else 0)

/-- The steps of `init()` once its preconditions hold (40_pma_allocator.md R141). -/
def initBlock (s : State) : Except Fault State := do
  let s ← pmaLayout { s with cntr := s.cntr &&& ~~~(cntrPdwn ||| cntrFres) }
  .ok { s with istr := 0, cntr := initCntr s.cfg, dppu := true, inited := true }

/-- CMD `init` (40_pma_allocator.md R141). -/
def execInit (s : State) : Host.Outcome State Fault Refusal :=
  if s.inited then .refused .alreadyInited
  else if configOk s.cfg then lift (initBlock s)
  else .refused .illFormedConfig

/-! ## Endpoint input and output -/

/-- CMD `ep_write` (41_endpoint_io.md R156). -/
def execEpWrite (ept : Byte) (buf : AppRef) (len : Word) (s : State) : Host.Outcome State Fault Refusal :=
  whenInited s do
    let (ok, s) ← epWrite ept buf.ptr len s
    .ok (emit (.wrote ok) s)

/-- CMD `ep_read` (41_endpoint_io.md R160). -/
def execEpRead (ept : Byte) (buf : AppRef) (cap : Word) (s : State) : Host.Outcome State Fault Refusal :=
  whenInited s do
    let (n, s) ← epRead ept buf.ptr cap s
    .ok (emit (.gotCount n) s)

/-- CMD `control_in` (41_endpoint_io.md R165). -/
def execControlIn (buf : AppRef) (buflen reqlen : Word) (s : State) : Host.Outcome State Fault Refusal :=
  whenInited s (controlIn buf.ptr buflen reqlen s)

/-- CMD `control_in_resume` (41_endpoint_io.md R168). Its precondition is a continuation (log 23). -/
def execControlInResume (s : State) : Host.Outcome State Fault Refusal :=
  match s.cont with
  | none => if s.inited then .refused .noContinuation else .refused .notInited
  | some c => whenInited s (controlInResume c s)

/-! ## The serial-number string -/

/-- An ASCII hexadecimal digit (47_application_interface.md R343). -/
def hexChar (upper : Bool) (d : BitVec 4) : Byte :=
  if d.toNat < 10 then 0x30 + d.setWidth 8 else (if upper then 0x37 else 0x57) + d.setWidth 8

/-- The code units from digit `k` on, `n` of them, each little-endian with a zero high byte (R343, 30_encoding.md
R126). -/
def serialUnits : Nat → Nat → List Byte
  | _, 0 => []
  | k, n + 1 => hexChar (Config.serialUpper k) (Config.serialDigit k) :: 0x00 :: serialUnits (k + 1) n

/-- The 50 bytes of the descriptor: `bLength`, `bDescriptorType` = STRING, 24 digits (R343). -/
def serialString : List Byte := 0x32 :: 0x03 :: serialUnits 0 24

/-- Materialises the string on the first call only: "Cached after first call" (R343). -/
def serialDescriptor (s : State) : State :=
  if s.serialCached then s
  else { s with mem := s.mem.writeAll s.cfg.serialAddr serialString, serialCached := true }

/-- CMD `serial_string_descriptor` (47_application_interface.md R343, log 21). -/
def execSerialStringDescriptor (s : State) : Host.Outcome State Fault Refusal :=
  whenInited s (.ok (emit (.descriptor (.app s.cfg.serialAddr)) (serialDescriptor s)))

end Sys2Proof.Machine
end

