-- ==== Sys2Proof/Machine/Engine.lean ====
section
/-! DEFINITION. The USB engine agent (46_usb_engine_agent.md): the BUS rows. The engine writes the registers directly;
the write semantics of `EPR_write` bind the block only. -/

namespace Sys2Proof.Machine

/-- The host sees a device and the peripheral runs (R301 (b), R312). Otherwise the engine makes no step (log 16). -/
def engineReady (s : State) : Bool :=
  s.inited && s.dppu && decide (s.cntr &&& (cntrPdwn ||| cntrFres) = 0)

/-- The engine answers transactions (10_state.md R51, 46_usb_engine_agent.md R301 (a); log 17). -/
def engineAnswers (s : State) : Bool := engineReady s && decide (s.daddr &&& daddrEf ≠ 0)

/-- The `STAT` field of a direction. -/
def statOf (d : Dir) (r : Word) : Stat :=
  match d with
  | .tx => Epr.statTx r
  | .rx => Epr.statRx r

/-- The register that serves endpoint number `e` in direction `d` (R306). -/
def servingReg (e : BitVec 4) (d : Dir) (s : State) : Option (Fin 8) :=
  allRegs.find? fun i => decide (Epr.ea s.epr[i] = e) && decide (statOf d s.epr[i] ≠ .disabled)

/-- What a bus reset leaves of an endpoint register (R304). -/
def afterBusReset (r : Word) : Word := r &&& ctrMask

/-- What a completed SETUP makes of its register (R307). -/
def afterSetup (r : Word) : Word :=
  (r &&& (rwMask ||| ctrTxMask)) ||| setupMask ||| ctrRxMask ||| Stat.nak.inRx ||| Stat.nak.inTx ||| dtogRxMask |||
    dtogTxMask

/-- What a completed OUT makes of its register (R308). -/
def afterOut (r : Word) : Word :=
  ((r &&& ~~~(setupMask ||| statRxMask)) ||| ctrRxMask ||| Stat.nak.inRx) ^^^ dtogRxMask

/-- What a completed IN makes of its register (R309). -/
def afterIn (r : Word) : Word := ((r &&& ~~~statTxMask) ||| ctrTxMask ||| Stat.nak.inTx) ^^^ dtogTxMask

/-- The engine's write of a register. -/
def setEpr (i : Fin 8) (w : Word) (s : State) : State := { s with epr := s.epr.set i w }

/-- The byte after a received packet, where the engine stores 16-bit words (R308). -/
def packetPad (pad : Bool) (a n : Nat) (s : State) : Except Fault State := if pad then padByte a n s else .ok s

/-- The engine stores a received packet: bytes, pad byte if `pad`, then the COUNT field with `BL_SIZE` and `NUM_BLOCK`
unchanged (R307, R308). -/
def storePacket (i : Fin 8) (data : List Byte) (pad : Bool) (s : State) : Except Fault State := do
  let a ← bdtRead i .addrRx s
  let c ← bdtRead i .countRx s
  let s ← pmaWriteN a.toNat data s
  let s ← packetPad pad a.toNat data.length s
  bdtWrite i .countRx ((c &&& 0xFC00) ||| BitVec.ofNat 16 data.length) s

/-- A handshake on the bus. -/
def shake (h : Handshake) (s : State) : State := emit (.handshake h) s

/-- `BUS RESET` (R304). -/
def busReset (s : State) : State :=
  if engineReady s then
    istrSet istrReset { s with epr := s.epr.map afterBusReset }
  else s

/-- `BUS SETUP` on endpoint 0 (R307). A SETUP with no control register to serve it, or with the previous reception not
acknowledged, is dropped without handshake (log 24). -/
def busSetup (p : Packet) (s : State) : Except Fault State :=
  if engineAnswers s then
    match servingReg 0 .rx s with
    | none => .ok (shake .silent s)
    | some i =>
      if Epr.epType s.cfg.layout.typeCodes s.epr[i] ≠ .control ∨ Epr.ctrRx s.epr[i] then .ok (shake .silent s)
      else do
        let r := s.epr[i]
        let s ← storePacket i p.toList false s
        .ok (shake .ack (setEpr i (afterSetup r) s))
  else .ok (shake .silent s)

/-- `BUS OUT e {data}` (R308). A packet over the declared capacity, or of more than 1023 bytes, sets `PMAOVR` and
changes nothing else (R311, log 18, log 33). -/
def busOut (e : BitVec 4) (data : List Byte) (s : State) : Except Fault State :=
  if engineAnswers s then
    match servingReg e .rx s with
    | none => .ok (shake .silent s)
    | some i =>
      match Epr.statRx s.epr[i] with
      | .valid => do
        let c ← bdtRead i .countRx s
        if rxdec s.cfg.rxBlockBias c < data.length ∨ 1023 < data.length then
          .ok (shake .silent (istrSet (BusError.mask .pmaovr) s))
        else do
          let r := s.epr[i]
          let s ← storePacket i data true s
          .ok (shake .ack (setEpr i (afterOut r) s))
      | .nak => .ok (shake .nak s)
      | .stall => .ok (shake .stall s)
      | .disabled => .ok (shake .silent s)
  else .ok (shake .silent s)

/-- The transaction of `BUS IN e` (R309), with the host's ACK. -/
def busIn (e : BitVec 4) (s : State) : Except Fault State :=
  if engineAnswers s then
    match servingReg e .tx s with
    | none => .ok (shake .silent s)
    | some i =>
      match Epr.statTx s.epr[i] with
      | .valid => do
        let c ← bdtRead i .countTx s
        let a ← bdtRead i .addrTx s
        let data ← pmaReadN a.toNat (countField c) s
        .ok (setEpr i (afterIn s.epr[i]) (emit (.packet (Epr.dtogTx s.epr[i]) data) s))
      | .nak => .ok (shake .nak s)
      | .stall => .ok (shake .stall s)
      | .disabled => .ok (shake .silent s)
  else .ok (shake .silent s)

/-- The packet the host has just received, if the last transaction brought one. -/
def received (out : List Out) : Option (List Byte) :=
  match out.getLast? with
  | some (.packet _ data) => some data
  | _ => none

/-- "A script line `BUS IN e -> {bytes}` states the bytes the host must receive; a model checks them" (R309): what the
check of a line that states `expect` says of a transaction that brought `got` (log 36). -/
def checks (expect got : Option (List Byte)) : List Out :=
  match expect with
  | none => []
  | some bs => [.checked (decide (got = some bs))]

/-- The check of an IN line. -/
def checkIn (expect : Option (List Byte)) (s : State) : State :=
  { s with out := s.out ++ checks expect (received s.out) }

/-- A bus error the engine reports: "the flag is set, no endpoint register and no PMA byte changes" (R311, log 18). -/
def busError (e : BusError) (s : State) : State := if engineReady s then istrSet e.mask s else s

/-- BUS `BUS_RESET` (R304). -/
def execBusReset (s : State) : Host.Outcome State Fault Refusal := .next (busReset s)

/-- BUS `BUS_SOF` (R305). -/
def execBusSof (s : State) : Host.Outcome State Fault Refusal :=
  .next (if engineReady s then istrSet istrSof s else s)

/-- BUS `BUS_SUSPEND` (R302). -/
def execBusSuspend (s : State) : Host.Outcome State Fault Refusal :=
  .next (if engineReady s then istrSet istrSusp s else s)

/-- BUS `BUS_WAKEUP` (R303). -/
def execBusWakeup (s : State) : Host.Outcome State Fault Refusal :=
  .next (if engineReady s then istrSet istrWkup s else s)

/-- BUS `BUS_SETUP` (R307). -/
def execBusSetup (p : Packet) (s : State) : Host.Outcome State Fault Refusal := lift (busSetup p s)

/-- BUS `BUS_OUT` (R308). -/
def execBusOut (e : BitVec 4) (data : List Byte) (s : State) : Host.Outcome State Fault Refusal :=
  lift (busOut e data s)

/-- BUS `BUS_IN` (R309). -/
def execBusIn (e : InLine) (s : State) : Host.Outcome State Fault Refusal :=
  lift ((busIn e.ept s).map (checkIn e.expect))

end Sys2Proof.Machine
end

