-- ==== Sys2Proof/Machine/Requests.lean ====
section
/-! DEFINITION. The standard requests, one operation per rule of 44_standard_requests.md, the dispatch of a SETUP packet
(43_control_engine.md R205, R208) and the REQ rows. Each request answers `handled`; an executed REQ row ends as
`ep0_setup` ends it, with the status packet or ProtocolReject (log 28). -/

namespace Sys2Proof.Machine

/-- The endpoint type is Control, that is, endpoint 0 (10_state.md R25). -/
def isControl (c : Config) (i : Fin 8) : Bool := decide ((slot c i).typ = .control)

/-- `reply_buf[0] <- b` and the reply of one byte (43_control_engine.md R209). -/
def replyOne (b : Byte) (wLength : Word) (s : State) : Except Fault (Bool × State) := do
  let s ← controlIn (.replyBuf 0) 1 wLength { s with replyBuf := s.replyBuf.set 0 b }
  .ok (true, s)

/-- `reply_buf <- {b0, b1}` and the reply of two bytes (43_control_engine.md R209). -/
def replyTwo (b0 b1 : Byte) (wLength : Word) (s : State) : Except Fault (Bool × State) := do
  let s ← controlIn (.replyBuf 0) 2 wLength { s with replyBuf := #v[b0, b1] }
  .ok (true, s)

/-- The reply of `len` bytes of the descriptor at `p` (43_control_engine.md R209). -/
def replyDescriptor (p : Nat) (len wLength : Word) (s : State) : Except Fault (Bool × State) := do
  let s ← controlIn (.app p) len wLength s
  .ok (true, s)

/-- GET_STATUS, Device (R231). `bmAttributes` bit 6 is self-powered; remote wakeup is always 0. -/
def getStatusDevice (wLength : Word) (s : State) : Except Fault (Bool × State) :=
  if s.devState ≠ .configured then .ok (false, s)
  else match s.cfg.desc.config with
    | none => .ok (false, s)
    | some c => replyTwo (if (s.mem.read (c + 7)).getLsbD 6 then 1 else 0) 0 wLength s

/-- GET_STATUS, Interface (R232): no state test. -/
def getStatusInterface (itf : Byte) (wLength : Word) (s : State) : Except Fault (Bool × State) :=
  match interfaceDescriptor s.cfg itf with
  | none => .ok (false, s)
  | some _ => replyTwo 0 0 wLength s

/-- The direction of endpoint register `i` is halted (R233). -/
def halted (s : State) (i : Fin 8) (d : Dir) : Bool :=
  match d with
  | .tx => decide (Epr.statTx s.epr[i] = .stall)
  | .rx => decide (Epr.statRx s.epr[i] = .stall)

/-- GET_STATUS, Endpoint (R233). -/
def getStatusEndpoint (n : BitVec 4) (d : Dir) (wLength : Word) (s : State) : Except Fault (Bool × State) :=
  if s.devState ≠ .configured then .ok (false, s)
  else match epOperand s.cfg n d with
    | none => .ok (false, s)
    | some i => replyTwo (if halted s i d then 1 else 0) 0 wLength s

/-- CLEAR_FEATURE (ENDPOINT_HALT) (R236). -/
def clearFeatureEndpointHalt (n : BitVec 4) (d : Dir) (s : State) : Bool × State :=
  if s.devState ≠ .configured then (false, s)
  else match epOperand s.cfg n d with
    | none => (false, s)
    | some i =>
      if isControl s.cfg i then (false, s)
      else match d with
        | .tx => (true, eprSetStatTxDtog0 i .nak s)
        | .rx => (true, eprSetStatRxDtog0 i .valid s)

/-- SET_FEATURE (ENDPOINT_HALT) (R238). -/
def setFeatureEndpointHalt (n : BitVec 4) (d : Dir) (s : State) : Bool × State :=
  if s.devState ≠ .configured then (false, s)
  else match epOperand s.cfg n d with
    | none => (false, s)
    | some i =>
      if isControl s.cfg i then (false, s)
      else match d with
        | .tx => (true, eprSetStatTx i .stall s)
        | .rx => (true, eprSetStatRx i .stall s)

/-- SET_ADDRESS (R240): the latch is set and the hook called; `DADDR` is not written here. -/
def setAddress (a : BitVec 7) (s : State) : Except Fault (Bool × State) :=
  if s.devState = .default ∧ a = 0 then .ok (true, s)
  else if s.devState = .configured ∧ s.cfg.setAddressInConfigured = .reject then .ok (false, s)
  else do
    let s ← hook s.cfg.cap.setAddressHook (.setAddressHook a) { s with pendAddr := a, pendFlag := true }
    .ok (true, s)

/-- GET_DESCRIPTOR (Device) (R242): `bLength` is byte 0. -/
def getDescriptorDevice (wLength : Word) (s : State) : Except Fault (Bool × State) :=
  match s.cfg.desc.device with
  | none => .ok (false, s)
  | some p => replyDescriptor p ((s.mem.read p).setWidth 16) wLength s

/-- GET_DESCRIPTOR (Configuration) (R243): `wTotalLength` is bytes 2 and 3. -/
def getDescriptorConfiguration (wLength : Word) (s : State) : Except Fault (Bool × State) :=
  match s.cfg.desc.config with
  | none => .ok (false, s)
  | some c => replyDescriptor c (le16 (s.mem.read (c + 2)) (s.mem.read (c + 3))) wLength s

/-- GET_DESCRIPTOR (String) (R244): `bLength` is byte 0. -/
def getDescriptorString (idx : Byte) (lang : Word) (wLength : Word) (s : State) : Except Fault (Bool × State) :=
  match stringDescriptor s.cfg lang idx with
  | none => .ok (false, s)
  | some p => replyDescriptor p ((s.mem.read p).setWidth 16) wLength s

/-- GET_DESCRIPTOR with recipient Interface (R246). -/
def getDescriptorInterface (req : Request) (s : State) : Except Fault (Bool × State) :=
  delegate s.cfg.cap.getDescriptorInterface (.getDescriptorInterface req) s

/-- GET_CONFIGURATION (R247): `bConfigurationValue` is byte 5. -/
def getConfiguration (wLength : Word) (s : State) : Except Fault (Bool × State) :=
  if s.devState = .configured then
    match s.cfg.desc.config with
    | none => .ok (false, s)
    | some c => replyOne (s.mem.read (c + 5)) wLength s
  else replyOne 0 wLength s

/-- The endpoint numbers 1..7 in order. -/
def configurableRegs : List (Fin 8) := [1, 2, 3, 4, 5, 6, 7]

/-- What a matching SET_CONFIGURATION does to register `i` (R248). -/
def configureReg (s : State) (i : Fin 8) : State :=
  if inPresent s.cfg i || outPresent s.cfg i then
    let s := eprSetTypeAddr i (slot s.cfg i).typ (BitVec.ofNat 4 i.val) s
    let s := if inPresent s.cfg i then eprSetStatTxDtog0 i .nak s else s
    if outPresent s.cfg i then eprSetStatRxDtog0 i .valid s else s
  else s

/-- SET_CONFIGURATION (R248). -/
def setConfiguration (v : Byte) (s : State) : Bool × State :=
  if s.devState = .default then (false, s)
  else if v = 0 then
    (true, configurableRegs.foldl (fun s i => eprZero i s) { s with devState := .address })
  else match s.cfg.desc.config with
    | none => (false, s)
    | some c =>
      if v = s.mem.read (c + 5) then
        (true, configurableRegs.foldl configureReg { s with devState := .configured })
      else (false, s)

/-- GET_INTERFACE (R250): `bAlternateSetting` is byte 3. -/
def getInterface (itf : Byte) (wLength : Word) (s : State) : Except Fault (Bool × State) :=
  if s.devState ≠ .configured then .ok (false, s)
  else match interfaceDescriptor s.cfg itf with
    | none => .ok (false, s)
    | some d => replyOne (s.mem.read (d + 3)) wLength s

/-- SET_INTERFACE (R251): accepted for the one alternate setting, and writes nothing. -/
def setInterface (itf alt : Byte) (s : State) : Bool × State :=
  match interfaceDescriptor s.cfg itf with
  | none => (false, s)
  | some d => (decide (alt = s.mem.read (d + 3)), s)

/-! ## Dispatch -/

/-- `standard(req)` (43_control_engine.md R208), its arms in the rule's order. -/
def standard (r : Request) (s : State) : Except Fault (Bool × State) :=
  if r.bRequest = 0x00 then
    if r.d2h then
      if r.recipient = 0 then getStatusDevice r.wLength s
      else if r.recipient = 1 then getStatusInterface r.itf r.wLength s
      else if r.recipient = 2 then getStatusEndpoint r.epn r.epdir r.wLength s
      else .ok (false, s)
    else .ok (false, s)
  else if r.bRequest = 0x01 then
    if !r.d2h && decide (r.recipient = 2) then
      if r.wValue = 0 then .ok (clearFeatureEndpointHalt r.epn r.epdir s) else .ok (false, s)
    else .ok (false, s)
  else if r.bRequest = 0x03 then
    if !r.d2h && decide (r.recipient = 2) then
      if r.wValue = 0 then .ok (setFeatureEndpointHalt r.epn r.epdir s) else .ok (false, s)
    else .ok (false, s)
  else if r.bRequest = 0x05 then
    if !r.d2h && decide (r.recipient = 0) then setAddress (r.wValue.extractLsb' 0 7) s
    else .ok (false, s)
  else if r.bRequest = 0x06 then
    if r.d2h then
      if r.recipient = 0 then
        if hiByte r.wValue = 1 then getDescriptorDevice r.wLength s
        else if hiByte r.wValue = 2 then getDescriptorConfiguration r.wLength s
        else if hiByte r.wValue = 3 then getDescriptorString (loByte r.wValue) r.wIndex r.wLength s
        else .ok (false, s)
      else if r.recipient = 1 then getDescriptorInterface r s
      else .ok (false, s)
    else .ok (false, s)
  else if r.bRequest = 0x07 then .ok (false, s)
  else if r.bRequest = 0x08 then
    if r.d2h && decide (r.recipient = 0) then getConfiguration r.wLength s else .ok (false, s)
  else if r.bRequest = 0x09 then
    if !r.d2h && decide (r.recipient = 0) then .ok (setConfiguration (loByte r.wValue) s)
    else .ok (false, s)
  else if r.bRequest = 0x0A then
    if r.d2h && decide (r.recipient = 1) then getInterface r.itf r.wLength s else .ok (false, s)
  else if r.bRequest = 0x0B then
    if !r.d2h && decide (r.recipient = 1) then .ok (setInterface r.itf (loByte r.wValue) s)
    else .ok (false, s)
  else if r.bRequest = 0x0C then .ok (false, s)
  else .ok (false, s)

/-- `dispatch(req)` (43_control_engine.md R205). -/
def dispatch (r : Request) (s : State) : Except Fault (Bool × State) :=
  if r.typ = 1 then delegate s.cfg.cap.classRequest (.classRequest r) s
  else if r.typ = 2 then delegate s.cfg.cap.vendorRequest (.vendorRequest r) s
  else standard r s

/-- A request and its end: what `ep0_setup` does after `parse` (43_control_engine.md R201). -/
def serveRequest (r : Request) (s : State) : Except Fault State := do
  let (handled, s) ← dispatch r s
  finishRequest r.d2h handled s

/-! ## The REQ rows -/

/-- A request operation with its end, as the outcome of a step. -/
def requestOutcome (d2h : Bool) (r : Except Fault (Bool × State)) : Host.Outcome State Fault Refusal :=
  lift do
    let (handled, s) ← r
    finishRequest d2h handled s

/-- REQ `CLASS_REQUEST` (43_control_engine.md R205, R206). -/
def execClassRequest (req : Request) (s : State) : Host.Outcome State Fault Refusal :=
  requestOutcome req.d2h (delegate s.cfg.cap.classRequest (.classRequest req) s)

/-- REQ `VENDOR_REQUEST` (43_control_engine.md R205, R206). -/
def execVendorRequest (req : Request) (s : State) : Host.Outcome State Fault Refusal :=
  requestOutcome req.d2h (delegate s.cfg.cap.vendorRequest (.vendorRequest req) s)

/-- REQ `GET_STATUS_DEVICE` (R231). -/
def execGetStatusDevice (wLength : Word) (s : State) : Host.Outcome State Fault Refusal :=
  requestOutcome true (getStatusDevice wLength s)

/-- REQ `GET_STATUS_INTERFACE` (R232). -/
def execGetStatusInterface (itf : Byte) (wLength : Word) (s : State) : Host.Outcome State Fault Refusal :=
  requestOutcome true (getStatusInterface itf wLength s)

/-- REQ `GET_STATUS_ENDPOINT` (R233). -/
def execGetStatusEndpoint (n : BitVec 4) (d : Dir) (wLength : Word) (s : State) : Host.Outcome State Fault Refusal :=
  requestOutcome true (getStatusEndpoint n d wLength s)

/-- REQ `CLEAR_FEATURE_ENDPOINT_HALT` (R236). -/
def execClearFeatureEndpointHalt (n : BitVec 4) (d : Dir) (s : State) : Host.Outcome State Fault Refusal :=
  requestOutcome false (.ok (clearFeatureEndpointHalt n d s))

/-- REQ `CLEAR_FEATURE_OTHER` (R239): always rejected. -/
def execClearFeatureOther (s : State) : Host.Outcome State Fault Refusal := .next (protocolReject s)

/-- REQ `SET_FEATURE_ENDPOINT_HALT` (R238). -/
def execSetFeatureEndpointHalt (n : BitVec 4) (d : Dir) (s : State) : Host.Outcome State Fault Refusal :=
  requestOutcome false (.ok (setFeatureEndpointHalt n d s))

/-- REQ `SET_FEATURE_OTHER` (R239): always rejected. -/
def execSetFeatureOther (s : State) : Host.Outcome State Fault Refusal := .next (protocolReject s)

/-- REQ `SET_ADDRESS` (R240). -/
def execSetAddress (a : BitVec 7) (s : State) : Host.Outcome State Fault Refusal :=
  requestOutcome false (setAddress a s)

/-- REQ `GET_DESCRIPTOR_DEVICE` (R242). -/
def execGetDescriptorDevice (wLength : Word) (s : State) : Host.Outcome State Fault Refusal :=
  requestOutcome true (getDescriptorDevice wLength s)

/-- REQ `GET_DESCRIPTOR_CONFIGURATION` (R243). -/
def execGetDescriptorConfiguration (wLength : Word) (s : State) : Host.Outcome State Fault Refusal :=
  requestOutcome true (getDescriptorConfiguration wLength s)

/-- REQ `GET_DESCRIPTOR_STRING` (R244). -/
def execGetDescriptorString (idx : Byte) (lang : Word) (wLength : Word) (s : State) :
    Host.Outcome State Fault Refusal :=
  requestOutcome true (getDescriptorString idx lang wLength s)

/-- REQ `GET_DESCRIPTOR_DEVICE_OTHER` (R245): always rejected. -/
def execGetDescriptorDeviceOther (s : State) : Host.Outcome State Fault Refusal := .next (protocolReject s)

/-- REQ `GET_DESCRIPTOR_INTERFACE` (R246). -/
def execGetDescriptorInterface (req : Request) (s : State) : Host.Outcome State Fault Refusal :=
  requestOutcome true (getDescriptorInterface req s)

/-- REQ `SET_DESCRIPTOR` (R252): always rejected. -/
def execSetDescriptor (s : State) : Host.Outcome State Fault Refusal := .next (protocolReject s)

/-- REQ `GET_CONFIGURATION` (R247). -/
def execGetConfiguration (wLength : Word) (s : State) : Host.Outcome State Fault Refusal :=
  requestOutcome true (getConfiguration wLength s)

/-- REQ `SET_CONFIGURATION` (R248). -/
def execSetConfiguration (v : Byte) (s : State) : Host.Outcome State Fault Refusal :=
  requestOutcome false (.ok (setConfiguration v s))

/-- REQ `GET_INTERFACE` (R250). -/
def execGetInterface (itf : Byte) (wLength : Word) (s : State) : Host.Outcome State Fault Refusal :=
  requestOutcome true (getInterface itf wLength s)

/-- REQ `SET_INTERFACE` (R251). -/
def execSetInterface (itf alt : Byte) (s : State) : Host.Outcome State Fault Refusal :=
  requestOutcome false (.ok (setInterface itf alt s))

/-- REQ `SYNCH_FRAME` (R253): always rejected. -/
def execSynchFrame (s : State) : Host.Outcome State Fault Refusal := .next (protocolReject s)

/-- REQ `UNSUPPORTED` (R254): rejected. -/
def execUnsupported (s : State) : Host.Outcome State Fault Refusal := .next (protocolReject s)

end Sys2Proof.Machine
end

