-- ==== Sys2Proof/Machine/Events.lean ====
section
/-! DEFINITION. The command `task` and the handlers it selects (45_event_loop.md): the EVT, CTR0 and CTRN rows, with
SETUP reception and the endpoint-0 IN completion of 43_control_engine.md R201 and R216. -/

namespace Sys2Proof.Machine

/-- `on_wkup()` (R273). -/
def onWkup (s : State) : Except Fault State :=
  let s := istrClear (istrWkup ||| istrSusp) s
  hook s.cfg.cap.resumeHook .resumeHook { s with cntr := s.cntr &&& ~~~cntrLpmode }

/-- `on_susp()` (R274). -/
def onSusp (s : State) : Except Fault State :=
  let s := istrClear istrSusp s
  hook s.cfg.cap.suspendHook .suspendHook { s with cntr := s.cntr ||| cntrLpmode }

/-- The part of `on_reset()` between its two hooks (R276). -/
def resetBlock (s : State) : State :=
  let s := allRegs.foldl (fun s i => eprZero i s) s
  let s := { s with devState := .default, pendFlag := false, pendAddr := 0, cont := none, sofCur := 1, daddr := efAddr 0 }
  eprSetStatBoth 0 .nak .valid true (eprSetTypeAddr 0 .control 0 s)

/-- `on_reset()` (R276). -/
def onReset (s : State) : Except Fault State := do
  let s ← hook s.cfg.cap.resetHook (.resetHook true) (istrClear istrReset s)
  let s := resetBlock s
  hook s.cfg.cap.resetHook (.resetHook false) s

/-- The k-th endpoint a scan examines, from `sof_cur` on and wrapping 7 to 1 (R281). -/
def sofCandidate (cur k : Nat) : Fin 8 := ⟨(cur - 1 + k) % 7 + 1, by omega⟩

/-- The three-part test of the scan (R281). -/
def sofEligible (s : State) (e : Fin 8) : Bool :=
  inPresent s.cfg e && decide (Epr.statTx s.epr[e] = .nak) && decide (Epr.ea s.epr[e] = BitVec.ofNat 4 e.val)

/-- The endpoint this SOF offers to `in_cb`, if any (R281). -/
def sofNext (s : State) : Option (Fin 8) :=
  ([0, 1, 2, 3, 4, 5, 6].map (sofCandidate s.sofCur)).find? (sofEligible s)

/-- `sof_scan()` (R281). -/
def sofScan (s : State) : Except Fault State :=
  match sofNext s with
  | none => .ok s
  | some e => do
    let (_, s) ← callback (.inCb e) { s with sofCur := e.val % 7 + 1 }
    .ok s

/-- `on_sof()` (R280). -/
def onSof (s : State) : Except Fault State := sofScan (istrClear istrSof s)

/-- `ep0_setup()` (43_control_engine.md R201), as its pseudocode has it: the test is on `n = min(COUNT, 8)`, what `ep_read`
answers, so a reception of more than 8 bytes is served by its first 8 (DESIGN CHOICE, log 37: 60_exceptions.md R352 (11)
and D22 speak of a count other than 8). -/
def ep0Setup (s : State) : Except Fault State := do
  let (n, s) ← epRead 0 (.setupBuf 0) 8 (eprClearCtrRx 0 s)
  if n ≠ 8 then .ok (protocolReject s) else serveRequest (parse s.setupBuf) s

/-- `ep0_out()` (R285). -/
def ep0Out (s : State) : State := eprClearCtrRx 0 s

/-- The address latch (43_control_engine.md R216). -/
def latchAddress (s : State) : State :=
  if s.pendFlag then { s with daddr := efAddr s.pendAddr, devState := .address, pendFlag := false } else s

/-- `ep0_in_done()` (43_control_engine.md R216). -/
def ep0InDone (s : State) : Except Fault State :=
  let s := latchAddress (eprClearCtrTx 0 s)
  match s.cont with
  | none => .ok s
  | some c => controlInResume c s

/-- A reception on endpoint 0, as the snapshot `v` shows it (R284). -/
def ep0Reception (v : Word) (s : State) : Except Fault State :=
  if Epr.ctrRx v then (if Epr.setup v then ep0Setup s else .ok (ep0Out s)) else .ok s

/-- A transmission on endpoint 0, as the snapshot `v` shows it (R284). -/
def ep0Transmission (v : Word) (s : State) : Except Fault State := if Epr.ctrTx v then ep0InDone s else .ok s

/-- The CTR handler for endpoint 0 (R284): one read of `EPR[0]`, reception first. -/
def ep0Ctr (s : State) : Except Fault State := do
  let u ← ep0Reception s.epr[0] s
  ep0Transmission s.epr[0] u

/-- A completed OUT on endpoint `i` (R287). -/
def epnOutDone (i : Fin 8) (s : State) : Except Fault State := hook s.cfg.cap.outCb (.outCb i) (eprClearCtrRx i s)

/-- A completed IN on endpoint `i` (R287). -/
def epnInDone (i : Fin 8) (s : State) : State := eprClearCtrTx i s

/-- A reception on endpoint `i`, as the snapshot `v` shows it (R287). -/
def epReception (i : Fin 8) (v : Word) (s : State) : Except Fault State :=
  if Epr.ctrRx v then epnOutDone i s else .ok s

/-- A transmission on endpoint `i`, as the snapshot `v` shows it (R287). -/
def epTransmission (i : Fin 8) (v : Word) (s : State) : State := if Epr.ctrTx v then epnInDone i s else s

/-- `ep_ctr(i)` (R287): one read of `EPR[i]`, reception first. -/
def epCtr (i : Fin 8) (s : State) : Except Fault State := do
  let u ← epReception i s.epr[i] s
  .ok (epTransmission i s.epr[i] u)

/-- `on_ctr(id)` (R284, R287, R288): an index above 7 is ignored. -/
def onCtr (id : BitVec 4) (s : State) : Except Fault State :=
  match slotIndex id with
  | none => .ok s
  | some i => if i = 0 then ep0Ctr s else epCtr i s

/-- `task()` once its precondition holds (R271): one read of `ISTR`, the first flag that is set is served. -/
def task (s : State) : Except Fault State :=
  let w := istrRead s
  if w &&& istrWkup ≠ 0 then onWkup s
  else if w &&& istrSusp ≠ 0 then onSusp s
  else if w &&& istrReset ≠ 0 then onReset s
  else if w &&& istrSof ≠ 0 ∧ s.cfg.cap.inCb then onSof s
  else if w &&& istrCtr ≠ 0 then onCtr (w.extractLsb' 0 4) s
  else .ok s

/-- CMD `task` (R271). -/
def execTask (s : State) : Host.Outcome State Fault Refusal := whenInited s (task s)

/-- EVT `EVT_WKUP` (R273). -/
def execEvtWkup (s : State) : Host.Outcome State Fault Refusal := lift (onWkup s)

/-- EVT `EVT_SUSP` (R274). -/
def execEvtSusp (s : State) : Host.Outcome State Fault Refusal := lift (onSusp s)

/-- EVT `EVT_RESET` (R276). -/
def execEvtReset (s : State) : Host.Outcome State Fault Refusal := lift (onReset s)

/-- EVT `EVT_SOF` (R280): only if the IN callback is defined; if it is absent the flag "is never looked at and never
cleared" (log 27). -/
def execEvtSof (s : State) : Host.Outcome State Fault Refusal :=
  if s.cfg.cap.inCb then lift (onSof s) else .next s

/-- EVT `EVT_CTR` (R284). -/
def execEvtCtr (epId : BitVec 4) (s : State) : Host.Outcome State Fault Refusal := lift (onCtr epId s)

/-- EVT `EVT_NONE` (R271): `task` changes nothing. -/
def execEvtNone (s : State) : Host.Outcome State Fault Refusal := .next s

/-- CTR0 `EP0_SETUP` (43_control_engine.md R201). -/
def execEp0Setup (s : State) : Host.Outcome State Fault Refusal := lift (ep0Setup s)

/-- CTR0 `EP0_OUT` (R285). -/
def execEp0Out (s : State) : Host.Outcome State Fault Refusal := .next (ep0Out s)

/-- CTR0 `EP0_IN_DONE` (43_control_engine.md R216). -/
def execEp0InDone (s : State) : Host.Outcome State Fault Refusal := lift (ep0InDone s)

/-- CTRN `EPN_OUT_DONE` (R287). -/
def execEpnOutDone (i : Fin 8) (s : State) : Host.Outcome State Fault Refusal := lift (epnOutDone i s)

/-- CTRN `EPN_IN_DONE` (R287). -/
def execEpnInDone (i : Fin 8) (s : State) : Host.Outcome State Fault Refusal := .next (epnInDone i s)

end Sys2Proof.Machine
end

