-- ==== Sys2Proof/Machine/Fetch.lean ====
section
/-! DEFINITION. How the machine comes to its next input (log 5): the block "fetches no instructions" (10_state.md R23);
what it does next is given from outside, a script of lines (46_usb_engine_agent.md R300, 30_encoding.md R124). -/

namespace Sys2Proof.Machine

/-- The state an input is handled in: the input is taken off the script and the ports are clear (log 26). -/
def takeInput (rest : List Input) (s : State) : State := { s with script := rest, out := [] }

/-- With no input the block does nothing (70_reset_and_hazards.md R391). -/
def idle (s : State) : State := { s with out := [] }

/-- The instruction an input line carries. -/
def fetch (y : Layout) (l : Line) : Except DecodeError Instr := decode y l

/-- What a line that carries no instruction does: nothing where the completion it shows selects no sub-event
(30_encoding.md R122, 45_event_loop.md R284, R287, R288), else it is refused (log 6). -/
def undecoded (e : DecodeError) (s : State) : Host.Outcome State Fault Refusal :=
  if e = .noSubEvent then .next s else .refused (.undecodable e)

/-- The line of a table word for a block with this `LAYOUT`: the table numbers the bits in the default one, so the
instruction it stands for is encoded again. -/
def tableLineIn (y : Layout) (nbits w : Nat) : Line :=
  match decodeTableWord nbits w with
  | some i => encode y i
  | none => tableLine nbits w

/-- The state with a word of the opcode table as its next input (log 7). -/
def withTableWord (s : State) (nbits w : Nat) : State :=
  { s with script := .line (tableLineIn s.cfg.layout nbits w) :: s.script }

end Sys2Proof.Machine
end

