-- ==== Sys2Proof/Machine/Dispatch.lean ====
section
/-! DEFINITION. One arm per instruction, in the order of spec/opcode_table.json. -/

namespace Sys2Proof.Machine

def exec (i : Instr) (s : State) : Host.Outcome State Fault Refusal :=
  match i with
  | .init => Sys2Proof.Machine.execInit s
  | .task => Sys2Proof.Machine.execTask s
  | .epWrite ept buf len => Sys2Proof.Machine.execEpWrite ept buf len s
  | .epRead ept buf cap => Sys2Proof.Machine.execEpRead ept buf cap s
  | .controlIn buf buflen reqlen => Sys2Proof.Machine.execControlIn buf buflen reqlen s
  | .controlInResume => Sys2Proof.Machine.execControlInResume s
  | .serialStringDescriptor => Sys2Proof.Machine.execSerialStringDescriptor s
  | .eprSetStatTx r st => Sys2Proof.Machine.execEprSetStatTx r st s
  | .eprSetStatRx r st => Sys2Proof.Machine.execEprSetStatRx r st s
  | .eprSetStatTxDtog0 r st => Sys2Proof.Machine.execEprSetStatTxDtog0 r st s
  | .eprSetStatRxDtog0 r st => Sys2Proof.Machine.execEprSetStatRxDtog0 r st s
  | .eprSetStatBoth r stx srx clearDtog => Sys2Proof.Machine.execEprSetStatBoth r stx srx clearDtog s
  | .eprClearCtrRx r => Sys2Proof.Machine.execEprClearCtrRx r s
  | .eprClearCtrTx r => Sys2Proof.Machine.execEprClearCtrTx r s
  | .eprSetTypeAddr r t ea => Sys2Proof.Machine.execEprSetTypeAddr r t ea s
  | .eprZero r => Sys2Proof.Machine.execEprZero r s
  | .evtWkup => Sys2Proof.Machine.execEvtWkup s
  | .evtSusp => Sys2Proof.Machine.execEvtSusp s
  | .evtReset => Sys2Proof.Machine.execEvtReset s
  | .evtSof => Sys2Proof.Machine.execEvtSof s
  | .evtCtr epId => Sys2Proof.Machine.execEvtCtr epId s
  | .evtNone => Sys2Proof.Machine.execEvtNone s
  | .ep0Setup => Sys2Proof.Machine.execEp0Setup s
  | .ep0Out => Sys2Proof.Machine.execEp0Out s
  | .ep0InDone => Sys2Proof.Machine.execEp0InDone s
  | .epnOutDone r => Sys2Proof.Machine.execEpnOutDone r s
  | .epnInDone r => Sys2Proof.Machine.execEpnInDone r s
  | .busReset => Sys2Proof.Machine.execBusReset s
  | .busSof => Sys2Proof.Machine.execBusSof s
  | .busSuspend => Sys2Proof.Machine.execBusSuspend s
  | .busWakeup => Sys2Proof.Machine.execBusWakeup s
  | .busSetup p => Sys2Proof.Machine.execBusSetup p s
  | .busOut e data => Sys2Proof.Machine.execBusOut e data s
  | .busIn e => Sys2Proof.Machine.execBusIn e s
  | .classRequest req => Sys2Proof.Machine.execClassRequest req s
  | .vendorRequest req => Sys2Proof.Machine.execVendorRequest req s
  | .getStatusDevice wLength => Sys2Proof.Machine.execGetStatusDevice wLength s
  | .getStatusInterface itf wLength => Sys2Proof.Machine.execGetStatusInterface itf wLength s
  | .getStatusEndpoint n d wLength => Sys2Proof.Machine.execGetStatusEndpoint n d wLength s
  | .clearFeatureEndpointHalt n d => Sys2Proof.Machine.execClearFeatureEndpointHalt n d s
  | .clearFeatureOther => Sys2Proof.Machine.execClearFeatureOther s
  | .setFeatureEndpointHalt n d => Sys2Proof.Machine.execSetFeatureEndpointHalt n d s
  | .setFeatureOther => Sys2Proof.Machine.execSetFeatureOther s
  | .setAddress a => Sys2Proof.Machine.execSetAddress a s
  | .getDescriptorDevice wLength => Sys2Proof.Machine.execGetDescriptorDevice wLength s
  | .getDescriptorConfiguration wLength => Sys2Proof.Machine.execGetDescriptorConfiguration wLength s
  | .getDescriptorString idx lang wLength => Sys2Proof.Machine.execGetDescriptorString idx lang wLength s
  | .getDescriptorDeviceOther => Sys2Proof.Machine.execGetDescriptorDeviceOther s
  | .getDescriptorInterface req => Sys2Proof.Machine.execGetDescriptorInterface req s
  | .setDescriptor => Sys2Proof.Machine.execSetDescriptor s
  | .getConfiguration wLength => Sys2Proof.Machine.execGetConfiguration wLength s
  | .setConfiguration v => Sys2Proof.Machine.execSetConfiguration v s
  | .getInterface itf wLength => Sys2Proof.Machine.execGetInterface itf wLength s
  | .setInterface itf alt => Sys2Proof.Machine.execSetInterface itf alt s
  | .synchFrame => Sys2Proof.Machine.execSynchFrame s
  | .unsupported => Sys2Proof.Machine.execUnsupported s

end Sys2Proof.Machine
end

