-- ==== Sys2Proof/Machine/Step.lean ====
section
/-! DEFINITION. One step: the next input of the script is handled whole, or nothing happens (00_scope.md R15,
46_usb_engine_agent.md R300). -/

namespace Sys2Proof.Machine

/-- One step of the machine. -/
def step (s : State) : Host.Outcome State Fault Refusal :=
  match s.script with
  | [] => .next (idle s)
  | .line l :: rest =>
    match fetch s.cfg.layout l with
    | .ok i => exec i (takeInput rest s)
    | .error e => undecoded e (takeInput rest s)
  | .appStore addr bytes :: rest => .next (appStore addr bytes (takeInput rest s))
  | .busError e :: rest => .next (busError e (takeInput rest s))

/-- The state whose next input is a word of the opcode table (log 5, log 7). -/
def State.withFetchWord (s : State) (nbits w : Nat) : State := withTableWord s nbits w

end Sys2Proof.Machine
end

