-- ==== Sys2Proof/Safety.lean ====
section
/-! DEFINITION. The terms the claims use: the layout `init` leaves (20_memory.md R74), an armed packet, a stalled
endpoint 0, a reply, what a callback leaves, and the two invariants. -/

namespace Sys2Proof.Machine

/-! ## The layout -/

/-- The watermark before index `k` (40_pma_allocator.md R142): 64 plus the sizes of the slots before it. -/
def layoutStart (c : Config) (k : Nat) : Nat := 64 + ((allRegs.take k).map fun j => sizeIn c j + sizeOut c j).sum

/-- Where the IN buffer of endpoint `i` begins (20_memory.md R74). -/
def bufTx (c : Config) (i : Fin 8) : Nat := layoutStart c i.val

/-- Where the OUT buffer of endpoint `i` begins (20_memory.md R74). -/
def bufRx (c : Config) (i : Fin 8) : Nat := bufTx c i + sizeIn c i

/-- Where the buffer of a direction begins. -/
def bufOf (c : Config) (i : Fin 8) (d : Dir) : Nat :=
  match d with
  | .tx => bufTx c i
  | .rx => bufRx c i

/-- The size of a direction. -/
def dirSize (c : Config) (i : Fin 8) (d : Dir) : Nat :=
  match d with
  | .tx => sizeIn c i
  | .rx => sizeOut c i

/-- The descriptor table is the one `init` laid out (40_pma_allocator.md R142, R147), with counts that traffic within
the declared sizes can leave. -/
structure Laid (s : State) : Prop where
  cfgOk : configOk s.cfg = true
  btable : s.btable = 0
  addrTx : ∀ i : Fin 8, s.pma.word (8 * i.val) = BitVec.ofNat 16 (bufTx s.cfg i)
  countTx : ∀ i : Fin 8, (s.pma.word (8 * i.val + 2)).toNat ≤ sizeIn s.cfg i
  addrRx : ∀ i : Fin 8, s.pma.word (8 * i.val + 4) = BitVec.ofNat 16 (bufRx s.cfg i)
  declared : ∀ i : Fin 8, s.pma.word (8 * i.val + 6) &&& 0xFC00 = rxenc s.cfg.rxBlockBias (sizeOut s.cfg i)
  countRx : ∀ i : Fin 8, countField (s.pma.word (8 * i.val + 6)) ≤ sizeOut s.cfg i

/-! ## Effects -/

/-- `t` is `s` but for register `i`, and that register differs inside `mask` only. -/
structure OneReg (s t : State) (i : Fin 8) (mask : Word) : Prop where
  outside : t.epr[i] &&& ~~~mask = s.epr[i] &&& ~~~mask
  others : ∀ j : Fin 8, j ≠ i → t.epr[j] = s.epr[j]
  frame : t = { s with epr := t.epr }

/-- Both directions of endpoint 0 are STALL and nothing else has changed (43_control_engine.md R212). -/
structure Stalled (s t : State) : Prop where
  only : OneReg s t 0 0x3030
  tx : Epr.statTx t.epr[0] = .stall
  rx : Epr.statRx t.epr[0] = .stall

/-- `t` is `s` with the packet `bytes` in the IN buffer of endpoint `i`, its count written and the direction VALID,
and nothing else changed (41_endpoint_io.md R156). The byte after an odd-length packet is kept where
`PAD_BYTE_POLICY` says so, and is left open otherwise (R158). -/
structure Armed (i : Fin 8) (s t : State) (bytes : List Byte) : Prop where
  payload : t.pma.readAll (bufTx s.cfg i) bytes.length = bytes
  count : t.pma.word (8 * i.val + 2) = BitVec.ofNat 16 bytes.length
  otherPma : ∀ a, a ≠ 8 * i.val + 2 → a ≠ 8 * i.val + 3 →
    (a < bufTx s.cfg i ∨ bufTx s.cfg i + bytes.length + bytes.length % 2 ≤ a) → t.pma.read a = s.pma.read a
  pad : s.cfg.padBytePolicy = .unchanged ∨ bytes.length % 2 = 0 →
    t.pma.read (bufTx s.cfg i + bytes.length) = s.pma.read (bufTx s.cfg i + bytes.length) ∧ t.freeCount = s.freeCount
  valid : Epr.statTx t.epr[i] = .valid
  outside : t.epr[i] &&& ~~~(0x0030 : Word) = s.epr[i] &&& ~~~(0x0030 : Word)
  others : ∀ j : Fin 8, j ≠ i → t.epr[j] = s.epr[j]
  frame : t = { s with epr := t.epr, pma := t.pma, freeCount := t.freeCount }

/-- The continuation of a reply of `total` bytes at `a` after its first fragment (41_endpoint_io.md R165). -/
def tailOf (a total : Nat) : Option Cont :=
  if 64 < total then some ⟨.app (a + 64), BitVec.ofNat 16 (total - 64)⟩ else none

/-- `t` is `s` with the first fragment of a reply of `total` bytes of application memory at `p` armed on endpoint 0
and the tail kept (41_endpoint_io.md R165). -/
structure RepliedAt (s t : State) (p total : Nat) : Prop where
  armed : Armed 0 s { t with cont := s.cont } (s.mem.readAll p (min total 64))
  tail : t.cont = tailOf p total

/-- `t` is `s` with the reply `bytes` put into `reply_buf` from its first byte on, armed on endpoint 0 as far as
`wLength` reaches, and no continuation (43_control_engine.md R209, 10_state.md R31). -/
structure RepliedFrom (s t : State) (bytes : List Byte) (wLength : Word) : Prop where
  armed : Armed 0 s { t with cont := s.cont, replyBuf := s.replyBuf } (bytes.take wLength.toNat)
  buf : t.replyBuf.toList = bytes ++ s.replyBuf.toList.drop bytes.length
  tail : t.cont = none

/-- A request ended: the status packet of a handled H→D request, nothing more for a handled D→H request, both
directions of endpoint 0 STALL for a request not handled (43_control_engine.md R210, R211, R212). -/
def Finished (d2h handled : Bool) (s t : State) : Prop :=
  if handled then (if d2h then t = s else Armed 0 s t []) else Stalled s t

/-! ## Callbacks -/

/-- A callback request left `u` and `ret`: the request is on its port, the next answer's moves have been run in order
and its value has come back (47_application_interface.md R332 (c), (d)); where no answer was supplied there is no move
and the value is free (log 10). -/
def Delegated (c : Call) (s u : State) (ret : Bool) : Prop :=
  match s.answers with
  | a :: rest => ret = a.ret ∧ runActs a.acts { s with answers := rest, out := s.out ++ [.called c] } = .ok u
  | [] =>
    ret = Config.freeReply s.freeCount ∧ u = { s with out := s.out ++ [.called c], freeCount := s.freeCount + 1 }

/-- A hook left `u`: skipped when absent, its value not used (47_application_interface.md R334). -/
def HookRan (present : Bool) (c : Call) (s u : State) : Prop :=
  if present then ∃ ret, Delegated c s u ret else u = s

/-! ## The engine -/

/-- Register `i` serves transactions to endpoint number `e` in direction `d`: the lowest with that address whose
direction is not DISABLED (46_usb_engine_agent.md R306). -/
structure Serves (s : State) (e : BitVec 4) (d : Dir) (i : Fin 8) : Prop where
  ea : Epr.ea s.epr[i] = e
  enabled : statOf d s.epr[i] ≠ .disabled
  lowest : ∀ j : Fin 8, j < i → ¬(Epr.ea s.epr[j] = e ∧ statOf d s.epr[j] ≠ .disabled)

/-! ## Sequences of instructions -/

/-- The outcome of one operation and then another on the state it leaves. -/
def andThen (r : Host.Outcome State Fault Refusal) (f : State → Host.Outcome State Fault Refusal) :
    Host.Outcome State Fault Refusal :=
  match r with
  | .next s => f s
  | .fault e => .fault e
  | .refused e => .refused e

/-- The host takes IN packets from endpoint 0 as long as one is armed, the integrator calling `task` after each
(46_usb_engine_agent.md R313): the packets in order, and the state at the end. -/
def drain : Nat → State → Option (List (List Byte) × State)
  | 0, _ => none
  | fuel + 1, s =>
    if Epr.statTx s.epr[0] = .valid then
      match exec (.busIn ⟨0, none⟩) { s with out := [] } with
      | .next u =>
        match u.out, exec .task u with
        | [.packet _ data], .next v => (drain fuel v).map fun q => (data :: q.1, q.2)
        | _, _ => none
      | _ => none
    else some ([], s)

/-- Bytes split at 64-byte boundaries; no bytes are one empty packet (41_endpoint_io.md R169). -/
def packets (bytes : List Byte) : List (List Byte) :=
  (List.range (max 1 ((bytes.length + 63) / 64))).map fun k => (bytes.drop (64 * k)).take 64

/-! ## What a driver row targets -/

/-- The register of a driver row, and whether the row clears `CTR_RX` and `CTR_TX` of it (42_toggle_write.md R178). -/
def ctrTargets : Instr → Option (Fin 8 × Bool × Bool)
  | .eprSetStatTx i _ | .eprSetStatRx i _ | .eprSetStatTxDtog0 i _ | .eprSetStatRxDtog0 i _
  | .eprSetStatBoth i _ _ _ | .eprSetTypeAddr i _ _ => some (i, false, false)
  | .eprClearCtrRx i => some (i, true, false)
  | .eprClearCtrTx i => some (i, false, true)
  | .eprZero i => some (i, true, true)
  | _ => none

/-! ## Inputs an integrator may give -/

/-- A buffer operand of which `n` bytes may be used: application memory, or null with `n = 0` (20_memory.md R84). -/
def Ptr.usable (p : Ptr) (n : Word) : Bool :=
  match p with
  | .app _ => true
  | .null => decide (n = 0)
  | .setupBuf _ => false
  | .replyBuf _ => false

/-- A move of the application that touches no byte of the null reference. -/
def AppAct.safe : AppAct → Bool
  | .epWrite _ buf len => Ptr.usable buf.ptr len
  | .epRead _ buf cap => Ptr.usable buf.ptr cap
  | .controlIn buf buflen _ => Ptr.usable buf.ptr buflen
  | .store _ _ => true

/-- An instruction whose buffer operand touches no byte of the null reference. -/
def Instr.safe : Instr → Bool
  | .epWrite _ buf len => Ptr.usable buf.ptr len
  | .epRead _ buf cap => Ptr.usable buf.ptr cap
  | .controlIn buf buflen _ => Ptr.usable buf.ptr buflen
  | _ => true

/-- An input from outside the block: the command port, the bus, the application's memory, a bus error; no input gives
`control_in_resume` or the driver, event, completion or request rows, which are the block's own
(47_application_interface.md R330, R331, R340; for `control_in_resume` DESIGN CHOICE, log 35). -/
def Input.external : Input → Bool
  | .line l =>
    match l.port with
    | .command =>
      match decodeCommand l.bytes with
      | .ok i => Instr.safe i
      | .error _ => true
    | .bus => true
    | .internal | .driver | .event | .completion | .request => false
  | .appStore _ _ => true
  | .busError _ => true

/-- The layout stands and the application's answers pass usable buffers: under this every handler runs to its end. -/
structure Ready (s : State) : Prop where
  laid : Laid s
  answers : ∀ a ∈ s.answers, ∀ m ∈ a.acts, AppAct.safe m = true
  /-- a continuation refers to application memory -/
  contPtr : ∀ c, s.cont = some c → ∃ a, c.ptr = .app a

/-! ## Invariants -/

/-- What every step keeps, whatever it is. -/
structure CoreInv (s : State) : Prop where
  /-- both memories are in canonical form -/
  pmaWf : s.pma.wf = true
  memWf : s.mem.wf = true
  /-- 10_state.md R29 -/
  cursor : 1 ≤ s.sofCur ∧ s.sofCur ≤ 7
  /-- 10_state.md R28 -/
  contRem : ∀ c, s.cont = some c → c.rem ≠ 0
  /-- 30_encoding.md R103 -/
  epKind : ∀ i : Fin 8, Epr.epKind s.epr[i] = false
  /-- 10_state.md R50: the fields the block leaves 0, with the reserved bits -/
  cntrZero : s.cntr &&& 0x61F8 = 0

/-- What every step keeps while the inputs come from outside the block and the application passes usable buffers. -/
structure DeviceInv (s : State) : Prop where
  core : CoreInv s
  laid : s.inited = true → Laid s
  /-- a zeroed register is not Control: so of the default `LAYOUT` (30_encoding.md R103), and no step changes it -/
  zeroType : s.cfg.layout.typeCodes.control ≠ 0
  /-- only register 0 is ever Control (10_state.md R44) -/
  control : ∀ i : Fin 8, Epr.epType s.cfg.layout.typeCodes s.epr[i] = .control → i = 0
  /-- a register answers to its own number or has been zeroed (46_usb_engine_agent.md R306) -/
  ea : ∀ i : Fin 8, Epr.ea s.epr[i] = 0 ∨ Epr.ea s.epr[i] = BitVec.ofNat 4 i.val
  /-- a direction of size zero is never armed (40_pma_allocator.md R143) -/
  absentTx : ∀ i : Fin 8, sizeIn s.cfg i = 0 → Epr.statTx s.epr[i] = .disabled
  absentRx : ∀ i : Fin 8, sizeOut s.cfg i = 0 → Epr.statRx s.epr[i] = .disabled
  /-- a continuation refers to application memory -/
  contPtr : ∀ c, s.cont = some c → ∃ a, c.ptr = .app a
  script : ∀ x ∈ s.script, Input.external x = true
  answers : ∀ a ∈ s.answers, ∀ m ∈ a.acts, AppAct.safe m = true

end Sys2Proof.Machine
end

