-- ==== Sys2Proof/Certificates/Slice0/Obligations.lean ====
section
/-! DEFINITION. The statements for the provers. "D<n>" is a decision of 92_eei_decisions.md, "log <n>" an entry of
notes/assumptions. A statement about an instruction says which state the instruction leaves, whole: every field it does
not name is as it was. Masks and register words have the fields at the places of the default `LAYOUT`, where the state
keeps them, and hold in every `LAYOUT` so (00_scope.md R10, log 2); `RegisterWriteActsBitByBit` and
`EncodedInstructionsDecodeBack` say what that is in the words of a `LAYOUT`. -/

open Sys2Proof Sys2Proof.Machine

/-! ## The register driver -/

/-- 42_toggle_write.md R176. That `SETUP` is read-only and `EP_KIND` plain is the spec's general knowledge. In the words of
any legal `LAYOUT` the same holds under the masks at that layout's places, and every word can be written (00_scope.md
R10; that the state keeps the fields at their default places is log 2). -/
def Obligations.RegisterWriteActsBitByBit : Prop :=
  ∀ (i : Fin 8) (w : Word) (s : State),
    (eprWrite i w s).epr[i] &&& 0x070F = w &&& 0x070F ∧
    (eprWrite i w s).epr[i] &&& 0x7070 = (s.epr[i] ^^^ w) &&& 0x7070 ∧
    (eprWrite i w s).epr[i] &&& 0x8080 = s.epr[i] &&& w &&& 0x8080 ∧
    (eprWrite i w s).epr[i] &&& 0x0800 = s.epr[i] &&& 0x0800 ∧
    (∀ j : Fin 8, j ≠ i → (eprWrite i w s).epr[j] = s.epr[j]) ∧
    eprWrite i w s = { s with epr := (eprWrite i w s).epr } ∧
    (s.cfg.layout.ok = true →
      eprWord i (eprWrite i w s) &&& moveBits s.cfg.layout.eprBits (0x070F : Word) =
        s.cfg.layout.eprOut w &&& moveBits s.cfg.layout.eprBits (0x070F : Word) ∧
      eprWord i (eprWrite i w s) &&& moveBits s.cfg.layout.eprBits (0x7070 : Word) =
        (eprWord i s ^^^ s.cfg.layout.eprOut w) &&& moveBits s.cfg.layout.eprBits (0x7070 : Word) ∧
      eprWord i (eprWrite i w s) &&& moveBits s.cfg.layout.eprBits (0x8080 : Word) =
        eprWord i s &&& s.cfg.layout.eprOut w &&& moveBits s.cfg.layout.eprBits (0x8080 : Word) ∧
      eprWord i (eprWrite i w s) &&& moveBits s.cfg.layout.eprBits (0x0800 : Word) =
        eprWord i s &&& moveBits s.cfg.layout.eprBits (0x0800 : Word) ∧
      s.cfg.layout.eprIn (s.cfg.layout.eprOut w) = w ∧ s.cfg.layout.eprOut (s.cfg.layout.eprIn w) = w)

/-- 42_toggle_write.md R177, its postcondition (derived there from R176). -/
def Obligations.UpdateSetsTheSelectedFields : Prop :=
  ∀ (i : Fin 8) (sel tgt : Word) (s : State), sel &&& ~~~(0x7070 : Word) = 0 → tgt &&& ~~~sel = 0 →
    (eprUpdate i sel tgt s).epr[i] &&& sel = tgt ∧ OneReg s (eprUpdate i sel tgt s) i sel

/-- 42_toggle_write.md R179 to R182: the four rows that set one direction. -/
def Obligations.StatRowsSetOneDirection : Prop :=
  ∀ (i : Fin 8) (st : Stat) (s : State),
    (∃ t, exec (.eprSetStatTx i st) s = .next t ∧ Epr.statTx t.epr[i] = st ∧ OneReg s t i 0x0030) ∧
    (∃ t, exec (.eprSetStatRx i st) s = .next t ∧ Epr.statRx t.epr[i] = st ∧ OneReg s t i 0x3000) ∧
    (∃ t, exec (.eprSetStatTxDtog0 i st) s = .next t ∧ Epr.statTx t.epr[i] = st ∧ Epr.dtogTx t.epr[i] = false ∧
      OneReg s t i 0x0070) ∧
    (∃ t, exec (.eprSetStatRxDtog0 i st) s = .next t ∧ Epr.statRx t.epr[i] = st ∧ Epr.dtogRx t.epr[i] = false ∧
      OneReg s t i 0x7000)

/-- 42_toggle_write.md R183: both directions in one write (one write rather than two is D36). -/
def Obligations.BothDirectionsAreSetTogether : Prop :=
  ∀ (i : Fin 8) (stx srx : Stat) (c : Bool) (s : State),
    ∃ t, exec (.eprSetStatBoth i stx srx c) s = .next t ∧ Epr.statTx t.epr[i] = stx ∧ Epr.statRx t.epr[i] = srx ∧
      (c = true → Epr.dtogTx t.epr[i] = false ∧ Epr.dtogRx t.epr[i] = false) ∧
      OneReg s t i (if c then 0x7070 else 0x3030)

/-- 42_toggle_write.md R184, R185: each completion flag is cleared alone. -/
def Obligations.CompletionFlagsAreClearedAlone : Prop :=
  ∀ (i : Fin 8) (s : State),
    (∃ t, exec (.eprClearCtrRx i) s = .next t ∧ Epr.ctrRx t.epr[i] = false ∧ OneReg s t i 0x8000) ∧
    (∃ t, exec (.eprClearCtrTx i) s = .next t ∧ Epr.ctrTx t.epr[i] = false ∧ OneReg s t i 0x0080)

/-- 42_toggle_write.md R186 (that the flags are written as 1 is derived there) and R187 (D5): `SETUP`, bit 11, is all
that `epr_zero` leaves. The type is read back by the codes of any legal `LAYOUT` (30_encoding.md R103). -/
def Obligations.TypeAddressAndZeroRows : Prop :=
  ∀ (i : Fin 8) (ty : EpType) (ea : BitVec 4) (s : State),
    (∃ t, exec (.eprSetTypeAddr i ty ea) s = .next t ∧
      (s.cfg.layout.ok = true → Epr.epType s.cfg.layout.typeCodes t.epr[i] = ty) ∧ Epr.ea t.epr[i] = ea ∧
      Epr.epKind t.epr[i] = false ∧ OneReg s t i 0x070F) ∧
    (∃ t, exec (.eprZero i) s = .next t ∧ t.epr[i] = s.epr[i] &&& 0x0800 ∧ OneReg s t i 0xF7FF)

/-- 42_toggle_write.md R178 (the safer form it fixes is D4): a driver row clears the completion flags it targets
(`ctrTargets`) and no other, and never sets one. -/
def Obligations.CompletionFlagsSurviveDriverWrites : Prop :=
  ∀ (x : Instr) (i : Fin 8) (rx tx : Bool) (s t : State),
    ctrTargets x = some (i, rx, tx) → exec x s = .next t →
    ∀ j : Fin 8,
      Epr.ctrRx t.epr[j] = (Epr.ctrRx s.epr[j] && !(rx && decide (j = i))) ∧
      Epr.ctrTx t.epr[j] = (Epr.ctrTx s.epr[j] && !(tx && decide (j = i)))

/-! ## Memory -/

/-- 20_memory.md R83, R84: a stored byte reads back and every other byte is as it was; a word is little-endian (R72,
D42). -/
def Obligations.StoredBytesReadBack : Prop :=
  (∀ (m : Memory) (a : Nat) (b : Byte) (c : Nat), (m.write a b).read c = if c = a then b else m.read c) ∧
  (∀ (m : Memory) (a : Nat) (bs : List Byte) (c : Nat), (m.writeAll a bs).read c =
    if h : a ≤ c ∧ c - a < bs.length then bs[c - a]'h.2 else m.read c) ∧
  (∀ (m : Memory) (a : Nat), (m.word a).toNat = (m.read a).toNat + 256 * (m.read (a + 1)).toNat)

/-! ## The allocator -/

/-- 40_pma_allocator.md R142: the four words of every entry pair, with the watermark before index `i` as `bufTx`
(64 plus the sizes of the slots before it), and no byte outside the table. -/
def Obligations.InitLaysOutTheTable : Prop :=
  ∀ s : State, s.inited = false → configOk s.cfg = true →
    ∃ t, exec .init s = .next t ∧ t.btable = 0 ∧
      (∀ i : Fin 8,
        t.pma.word (8 * i.val) = BitVec.ofNat 16 (bufTx s.cfg i) ∧
        t.pma.word (8 * i.val + 2) = 0 ∧
        t.pma.word (8 * i.val + 4) = BitVec.ofNat 16 (bufTx s.cfg i + sizeIn s.cfg i) ∧
        t.pma.word (8 * i.val + 6) = rxenc s.cfg.rxBlockBias (sizeOut s.cfg i)) ∧
      ∀ a, 64 ≤ a → t.pma.read a = s.pma.read a

/-- 40_pma_allocator.md R141, all the state `init` writes. That `FRES` is cleared with `PDWN` is the spec's general
knowledge (D29). -/
def Obligations.InitBringsUpTheBlock : Prop :=
  ∀ s : State, s.inited = false → configOk s.cfg = true →
    ∃ t, exec .init s = .next t ∧ Laid t ∧
      t = { s with btable := 0, pma := t.pma, istr := 0, cntr := if s.cfg.cap.inCb then 0x9E00 else 0x9C00,
                   dppu := true, inited := true }

/-- 40_pma_allocator.md R145; and R146 with the bias of D8: the capacity a count word declares is the buffer size. -/
def Obligations.ReceiveSizeCodeRoundTrips : Prop :=
  ∀ (bias : Fin 2) (n : Nat),
    (n ≤ 62 → n % 2 = 0 → rxenc bias n = BitVec.ofNat 16 (n / 2) <<< 10) ∧
    (62 < n → n % 32 = 0 → n ≤ 992 → rxenc bias n = 0x8000 ||| (BitVec.ofNat 16 (n / 32 - bias.val) <<< 10)) ∧
    (n = 0 ∨ (n % 2 = 0 ∧ n ≤ 62) ∨ (n % 32 = 0 ∧ n ≤ 992) →
      rxdec bias (rxenc bias n) = n ∧ countField (rxenc bias n) = 0)

/-- 20_memory.md R81: the buffers of two enabled directions are disjoint and lie in [64, `PMA_BYTES`). -/
def Obligations.EnabledBuffersAreDisjoint : Prop :=
  ∀ (s : State), Laid s → ∀ (i j : Fin 8) (d e : Dir), (i, d) ≠ (j, e) → dirSize s.cfg i d ≠ 0 → dirSize s.cfg j e ≠ 0 →
    64 ≤ bufOf s.cfg i d ∧ bufOf s.cfg i d + dirSize s.cfg i d ≤ s.cfg.pmaBytes ∧
    (bufOf s.cfg i d + dirSize s.cfg i d ≤ bufOf s.cfg j e ∨ bufOf s.cfg j e + dirSize s.cfg j e ≤ bufOf s.cfg i d)

/-- What the model turns away, its own choices: a command out of turn (10_state.md R32, D29), `init` with an ill-formed
configuration (00_scope.md R12), `control_in_resume` with no continuation (log 23), a byte of the null reference
(log 13). -/
def Obligations.StopsOfTheModel : Prop :=
  (∀ s : State, s.inited = true → exec .init s = .refused .alreadyInited) ∧
  (∀ s : State, s.inited = false → configOk s.cfg = false → exec .init s = .refused .illFormedConfig) ∧
  (∀ (s : State) (ept : Byte) (buf : AppRef) (x y : Word), s.inited = false →
    exec .task s = .refused .notInited ∧ exec (.epWrite ept buf x) s = .refused .notInited ∧
    exec (.epRead ept buf x) s = .refused .notInited ∧ exec (.controlIn buf x y) s = .refused .notInited ∧
    exec .controlInResume s = .refused .notInited ∧ exec .serialStringDescriptor s = .refused .notInited) ∧
  (∀ s : State, s.inited = true → s.cont = none → exec .controlInResume s = .refused .noContinuation) ∧
  (∀ (s : State) (i : Fin 8) (len : Word), s.inited = true → Laid s →
    (0 < len.toNat → len.toNat ≤ sizeIn s.cfg i →
      exec (.epWrite (BitVec.ofNat 8 i.val) .null len) s = .fault .nullAccess) ∧
    (0 < min (countField (s.pma.word (8 * i.val + 6))) len.toNat →
      exec (.epRead (BitVec.ofNat 8 i.val) .null len) s = .fault .nullAccess))

/-! ## Endpoint input and output -/

/-- 41_endpoint_io.md R156, the path that returns true (how the tests fit together is D10, the pad byte D12): the bytes
at `buf` into the IN buffer, the count, `STAT_TX` VALID, nothing else; a length of 0 needs no buffer (20_memory.md
R84). -/
def Obligations.EpWriteArmsThePacket : Prop :=
  ∀ (s : State) (i : Fin 8) (len : Word), s.inited = true → Laid s → sizeIn s.cfg i ≠ 0 → len.toNat ≤ sizeIn s.cfg i →
    (∀ p, ∃ t, exec (.epWrite (BitVec.ofNat 8 i.val) (.app p) len) s = .next t ∧ t.out = s.out ++ [.wrote true] ∧
      Armed i s { t with out := s.out } (s.mem.readAll p len.toNat)) ∧
    (len = 0 → ∃ t, exec (.epWrite (BitVec.ofNat 8 i.val) .null len) s = .next t ∧ t.out = s.out ++ [.wrote true] ∧
      Armed i s { t with out := s.out } [])

/-- 60_exceptions.md R353: a disabled or absent direction answers false or 0, and no state changes; so at every `ept` from 8
on. -/
def Obligations.DirectionMismatchChangesNothing : Prop :=
  ∀ (s : State) (ept : Byte) (buf : AppRef) (n : Word), s.inited = true →
    (8 ≤ ept.toNat → exec (.epWrite ept buf n) s = .next { s with out := s.out ++ [.wrote false] } ∧
      exec (.epRead ept buf n) s = .next { s with out := s.out ++ [.gotCount 0] }) ∧
    ∀ i : Fin 8, ept = BitVec.ofNat 8 i.val →
      (sizeIn s.cfg i = 0 → exec (.epWrite ept buf n) s = .next { s with out := s.out ++ [.wrote false] }) ∧
      (sizeOut s.cfg i = 0 → exec (.epRead ept buf n) s = .next { s with out := s.out ++ [.gotCount 0] }) ∧
      ∀ a, bdtRead i .addrTx s = .ok a → (a = 0 ∨ sizeIn s.cfg i < n.toNat) →
        exec (.epWrite ept buf n) s = .next { s with out := s.out ++ [.wrote false] }

/-- 41_endpoint_io.md R160 (the count field is D11), with 60_exceptions.md R354: `min(COUNT, cap)` bytes of the OUT
buffer into caller memory, `STAT_RX` VALID, nothing else. -/
def Obligations.EpReadDeliversTheBytes : Prop :=
  ∀ (s : State) (i : Fin 8) (cap : Word) (p : Nat), s.inited = true → Laid s → sizeOut s.cfg i ≠ 0 →
    ∃ m : Word, m.toNat = min (countField (s.pma.word (8 * i.val + 6))) cap.toNat ∧
      ∃ t, exec (.epRead (BitVec.ofNat 8 i.val) (.app p) cap) s = .next t ∧
        t.mem.readAll p m.toNat = s.pma.readAll (bufRx s.cfg i) m.toNat ∧
        (∀ a, a < p ∨ p + m.toNat ≤ a → t.mem.read a = s.mem.read a) ∧
        Epr.statRx t.epr[i] = .valid ∧
        OneReg { s with mem := t.mem, out := s.out ++ [.gotCount m] } t i 0x3000

/-- 41_endpoint_io.md R165: the first `min(total, 64)` bytes armed on endpoint 0, the rest as the continuation; with
nothing to send, a zero-length packet and no continuation. -/
def Obligations.ControlInSendsTheFirstFragment : Prop :=
  ∀ (s : State) (buflen reqlen : Word), s.inited = true → Laid s →
    (∀ p, ∃ t, exec (.controlIn (.app p) buflen reqlen) s = .next t ∧
      RepliedAt s t p (min reqlen.toNat buflen.toNat)) ∧
    (min reqlen.toNat buflen.toNat = 0 → ∃ t, exec (.controlIn .null buflen reqlen) s = .next t ∧ t.cont = none ∧
      Armed 0 s { t with cont := s.cont } [])

/-- 41_endpoint_io.md R168 (its split is derived there): the next `min(rem, 64)` bytes, read as they are now
(20_memory.md R94), and the rest as the continuation. -/
def Obligations.ResumeSendsTheNextFragment : Prop :=
  ∀ (s : State) (p : Nat) (rem : Word), s.inited = true → Laid s → s.cont = some ⟨.app p, rem⟩ →
    ∃ t, exec .controlInResume s = .next t ∧ RepliedAt s t p rem.toNat

/-- 41_endpoint_io.md R169, D0's Property 4, with the engine of D31: from a device whose endpoint 0 has nothing pending,
a host that takes every packet receives the first `min(wLength, L)` bytes split at 64-byte boundaries, and then nothing
is armed and no continuation is left. -/
def Obligations.ReplyReachesTheHostWhole : Prop :=
  ∀ (s : State) (p : Nat) (buflen reqlen : Word), Laid s → engineAnswers s = true → s.istr &&& 0x1E00 = 0 →
    Epr.ea s.epr[0] = 0 → Epr.ctrRx s.epr[0] = false →
    ∃ t, exec (.controlIn (.app p) buflen reqlen) s = .next t ∧
      ∃ v, drain 1025 t = some (packets (s.mem.readAll p (min reqlen.toNat buflen.toNat)), v) ∧
        v.cont = none ∧ Epr.statTx v.epr[0] = .nak

/-- 47_application_interface.md R343; the place, the digits and their case are free values of the model (log 21): the
reference comes back, 50 bytes are stored by the first call only, and the two header bytes and the zero high bytes are
those of a string descriptor. -/
def Obligations.SerialStringIsMaterialisedOnce : Prop :=
  ∀ s : State, s.inited = true →
    ∃ t, exec .serialStringDescriptor s = .next t ∧ t.out = s.out ++ [.descriptor (.app s.cfg.serialAddr)] ∧
      t.serialCached = true ∧ (s.serialCached = true → t.mem = s.mem) ∧
      (s.serialCached = false → t.mem.read s.cfg.serialAddr = 0x32 ∧ t.mem.read (s.cfg.serialAddr + 1) = 0x03 ∧
        (∀ k < 24, t.mem.read (s.cfg.serialAddr + 2 + 2 * k) =
            hexChar (Config.serialUpper k) (Config.serialDigit k) ∧
          t.mem.read (s.cfg.serialAddr + 3 + 2 * k) = 0) ∧
        ∀ a, a < s.cfg.serialAddr ∨ s.cfg.serialAddr + 50 ≤ a → t.mem.read a = s.mem.read a) ∧
      t = { s with mem := t.mem, out := t.out, serialCached := true }

/-! ## The control engine -/

/-- 43_control_engine.md R202: the fields of the request record, from the eight wire bytes. -/
def Obligations.ParseReadsTheFields : Prop :=
  ∀ p : Packet,
    (parse p).bmRequestType = p[0] ∧ (parse p).bRequest = p[1] ∧
    (parse p).wValue.toNat = p[2].toNat + 256 * p[3].toNat ∧
    (parse p).wIndex.toNat = p[4].toNat + 256 * p[5].toNat ∧
    (parse p).wLength.toNat = p[6].toNat + 256 * p[7].toNat ∧
    ((parse p).d2h = true ↔ 128 ≤ p[0].toNat) ∧
    (parse p).typ.toNat = p[0].toNat / 32 % 4 ∧ (parse p).recipient.toNat = p[0].toNat % 32

/-- 43_control_engine.md R205 and R208 (that an absent callback is "not handled" is D15) against the REQ rows of the
opcode table: for every SETUP packet the row it decodes to does what the dispatch of its record does. -/
def Obligations.RequestRowsFollowTheDispatchRules : Prop :=
  ∀ (p : Packet) (s : State), exec (decodeRequest p) s = lift (serveRequest (parse p) s)

/-- 44_standard_requests.md R245, R252, R253, R254 with 43_control_engine.md R212: a standard SETUP packet with one of
these codes is rejected in every state, both directions of endpoint 0 STALL and nothing else changed. That type 3
(reserved) is served as Standard is 30_encoding.md R119 and 43_control_engine.md R205, decision D16. -/
def Obligations.UnsupportedPacketsAreRejected : Prop :=
  ∀ (s : State) (p : Packet), (parse p).typ ≠ 1 → (parse p).typ ≠ 2 →
    ((parse p).bRequest = 0x07 ∨ (parse p).bRequest = 0x0C ∨ (parse p).bRequest = 0x02 ∨ (parse p).bRequest = 0x04 ∨
      0x0D ≤ (parse p).bRequest.toNat ∨
      ((parse p).bRequest = 0x06 ∧ (parse p).d2h = true ∧ (parse p).recipient = 0 ∧
        hiByte (parse p).wValue ≠ 1 ∧ hiByte (parse p).wValue ≠ 2 ∧ hiByte (parse p).wValue ≠ 3)) →
    ∃ t, exec (decodeRequest p) s = .next t ∧ Stalled s t

/-- The rows that are always rejected: the features other than ENDPOINT_HALT (43_control_engine.md R208,
44_standard_requests.md R236, R238, R239), the other descriptors (R245), SET_DESCRIPTOR, SYNCH_FRAME and what no rule
serves (R252, R253, R254); what a reject does is 43_control_engine.md R212. -/
def Obligations.RejectRowsStallEndpointZero : Prop :=
  ∀ (s : State) (x : Instr),
    (x = .clearFeatureOther ∨ x = .setFeatureOther ∨ x = .getDescriptorDeviceOther ∨ x = .setDescriptor ∨
      x = .synchFrame ∨ x = .unsupported) →
    ∃ t, exec x s = .next t ∧ Stalled s t

/-- 44_standard_requests.md R231, R232, R233: GET_STATUS of the three recipients. That an interface needs no state
(D19), that the endpoint operand must be configured (D18), that a null descriptor fails (D15) and that the reply goes
through `reply_buf` (D14) are decisions of the spec. -/
def Obligations.GetStatusReplies : Prop :=
  ∀ (s : State) (w : Word), Laid s →
    -- Device
    ((s.devState ≠ .configured ∨ s.cfg.desc.config = none) →
      ∃ t, exec (.getStatusDevice w) s = .next t ∧ Stalled s t) ∧
    (∀ c, s.devState = .configured → s.cfg.desc.config = some c →
      ∃ t, exec (.getStatusDevice w) s = .next t ∧
        RepliedFrom s t [if (s.mem.read (c + 7)).getLsbD 6 then 1 else 0, 0] w) ∧
    -- Interface
    (∀ itf, interfaceDescriptor s.cfg itf = none → ∃ t, exec (.getStatusInterface itf w) s = .next t ∧ Stalled s t) ∧
    (∀ itf d, interfaceDescriptor s.cfg itf = some d →
      ∃ t, exec (.getStatusInterface itf w) s = .next t ∧ RepliedFrom s t [0, 0] w) ∧
    -- Endpoint
    (∀ n d, (s.devState ≠ .configured ∨ 8 ≤ n.toNat ∨ ∃ i : Fin 8, n = BitVec.ofNat 4 i.val ∧ dirSize s.cfg i d = 0) →
      ∃ t, exec (.getStatusEndpoint n d w) s = .next t ∧ Stalled s t) ∧
    (∀ (i : Fin 8) d, s.devState = .configured → dirSize s.cfg i d ≠ 0 →
      ∃ t, exec (.getStatusEndpoint (BitVec.ofNat 4 i.val) d w) s = .next t ∧
        RepliedFrom s t [if statOf d s.epr[i] = .stall then 1 else 0, 0] w)

/-- 44_standard_requests.md R236, R238 (which endpoint operands are legal is D18): with the status packet of
43_control_engine.md R210 after the change of the one register. -/
def Obligations.EndpointHaltRequests : Prop :=
  ∀ (s : State) (d : Dir), Laid s →
    (∀ n, (s.devState ≠ .configured ∨ 8 ≤ n.toNat ∨ n = 0 ∨
        ∃ i : Fin 8, n = BitVec.ofNat 4 i.val ∧ dirSize s.cfg i d = 0) →
      (∃ t, exec (.clearFeatureEndpointHalt n d) s = .next t ∧ Stalled s t) ∧
      (∃ t, exec (.setFeatureEndpointHalt n d) s = .next t ∧ Stalled s t)) ∧
    ∀ i : Fin 8, s.devState = .configured → i ≠ 0 → dirSize s.cfg i d ≠ 0 →
      (∃ u t, exec (.clearFeatureEndpointHalt (BitVec.ofNat 4 i.val) d) s = .next t ∧ Armed 0 u t [] ∧
        match d with
        | .tx => OneReg s u i 0x0070 ∧ Epr.statTx u.epr[i] = .nak ∧ Epr.dtogTx u.epr[i] = false
        | .rx => OneReg s u i 0x7000 ∧ Epr.statRx u.epr[i] = .valid ∧ Epr.dtogRx u.epr[i] = false) ∧
      (∃ u t, exec (.setFeatureEndpointHalt (BitVec.ofNat 4 i.val) d) s = .next t ∧ Armed 0 u t [] ∧
        match d with
        | .tx => OneReg s u i 0x0030 ∧ Epr.statTx u.epr[i] = .stall
        | .rx => OneReg s u i 0x3000 ∧ Epr.statRx u.epr[i] = .stall)

/-- 44_standard_requests.md R239, D0's Property 5: after SET_FEATURE (ENDPOINT_HALT) GET_STATUS replies `{01 00}`;
after CLEAR_FEATURE it replies `{00 00}` and the data toggle is 0. -/
def Obligations.EndpointHaltIsReportedAndCleared : Prop :=
  ∀ (s : State) (i : Fin 8) (d : Dir) (w : Word), Laid s → s.devState = .configured → i ≠ 0 → dirSize s.cfg i d ≠ 0 →
    (∃ t u, exec (.setFeatureEndpointHalt (BitVec.ofNat 4 i.val) d) s = .next t ∧
      exec (.getStatusEndpoint (BitVec.ofNat 4 i.val) d w) t = .next u ∧ RepliedFrom t u [1, 0] w) ∧
    (∃ t u, exec (.clearFeatureEndpointHalt (BitVec.ofNat 4 i.val) d) s = .next t ∧
      exec (.getStatusEndpoint (BitVec.ofNat 4 i.val) d w) t = .next u ∧ RepliedFrom t u [0, 0] w ∧
      (match d with | .tx => Epr.dtogTx t.epr[i] | .rx => Epr.dtogRx t.epr[i]) = false)

/-- 44_standard_requests.md R240, for both values of `SET_ADDRESS_IN_CONFIGURED` (D20): the latch and the hook, then
the status packet; `DADDR` is not written. -/
def Obligations.SetAddressLatches : Prop :=
  ∀ (s : State) (a : BitVec 7), Ready s →
    (s.devState = .default → a = 0 → ∃ t, exec (.setAddress a) s = .next t ∧ Armed 0 s t []) ∧
    (s.devState = .configured → s.cfg.setAddressInConfigured = .reject →
      ∃ t, exec (.setAddress a) s = .next t ∧ Stalled s t) ∧
    (¬(s.devState = .default ∧ a = 0) → ¬(s.devState = .configured ∧ s.cfg.setAddressInConfigured = .reject) →
      ∃ u t, exec (.setAddress a) s = .next t ∧
        HookRan s.cfg.cap.setAddressHook (.setAddressHook a) { s with pendAddr := a, pendFlag := true } u ∧
        Armed 0 u t [] ∧ t.pendFlag = true ∧ t.pendAddr = a ∧ t.daddr = s.daddr ∧ t.devState = s.devState)

/-- 43_control_engine.md R216 (the clearing of `CTR_TX` first is D24): the latch, then the next fragment of an unfinished
reply. -/
def Obligations.InCompletionLatchesTheAddress : Prop :=
  ∀ s : State, Laid s →
    (∀ c, s.cont = some c → ∃ p, c.ptr = .app p) →
    ∃ u t, exec .ep0InDone s = .next t ∧
      OneReg { s with daddr := if s.pendFlag then 0x80 ||| s.pendAddr.setWidth 8 else s.daddr
                      devState := if s.pendFlag then .address else s.devState
                      pendFlag := false } u 0 0x0080 ∧
      Epr.ctrTx u.epr[0] = false ∧
      (s.cont = none → t = u) ∧
      ∀ p rem, s.cont = some ⟨.app p, rem⟩ → RepliedAt u t p rem.toNat

/-- 43_control_engine.md R217, D0's Property 3: after a SETUP for SET_ADDRESS with value `a` the address register holds
its prior value, and it holds `EF | a` once the endpoint-0 IN status stage completes, taken by the host and served. -/
def Obligations.AddressTakesEffectAfterTheStatusStage : Prop :=
  ∀ (s : State) (a : BitVec 7), Ready s → engineAnswers s = true → Epr.ea s.epr[0] = 0 →
    ¬(s.devState = .default ∧ a = 0) → ¬(s.devState = .configured ∧ s.cfg.setAddressInConfigured = .reject) →
    ∃ t u v, exec (.setAddress a) s = .next t ∧ t.daddr = s.daddr ∧
      exec (.busIn ⟨0, none⟩) t = .next u ∧ u.daddr = s.daddr ∧ Epr.ctrTx u.epr[0] = true ∧
      exec .ep0InDone u = .next v ∧ v.daddr = 0x80 ||| a.setWidth 8 ∧ v.devState = .address ∧ v.pendFlag = false

/-- 44_standard_requests.md R242, R243: the device descriptor as far as `bLength`, the configuration block as far as
`wTotalLength`, both truncated to `wLength`. That a null reference fails is R230 (d), decision D15, and what failing does is
43_control_engine.md R212. -/
def Obligations.DescriptorsAreReplied : Prop :=
  ∀ (s : State) (w : Word), Laid s →
    (s.cfg.desc.device = none → ∃ t, exec (.getDescriptorDevice w) s = .next t ∧ Stalled s t) ∧
    (∀ p, s.cfg.desc.device = some p → ∃ t, exec (.getDescriptorDevice w) s = .next t ∧
      RepliedAt s t p (min w.toNat (s.mem.read p).toNat)) ∧
    (s.cfg.desc.config = none → ∃ t, exec (.getDescriptorConfiguration w) s = .next t ∧ Stalled s t) ∧
    (∀ c, s.cfg.desc.config = some c → ∃ t, exec (.getDescriptorConfiguration w) s = .next t ∧
      RepliedAt s t c (min w.toNat ((s.mem.read (c + 2)).toNat + 256 * (s.mem.read (c + 3)).toNat)))

/-- 44_standard_requests.md R244; that the length is the descriptor's own `bLength` is D44. -/
def Obligations.StringDescriptorsAreReplied : Prop :=
  ∀ (s : State) (idx : Byte) (lang w : Word), Laid s →
    (stringDescriptor s.cfg lang idx = none →
      ∃ t, exec (.getDescriptorString idx lang w) s = .next t ∧ Stalled s t) ∧
    (∀ p, stringDescriptor s.cfg lang idx = some p →
      ∃ t, exec (.getDescriptorString idx lang w) s = .next t ∧ RepliedAt s t p (min w.toNat (s.mem.read p).toNat))

/-- 44_standard_requests.md R247, R250; that the one byte goes through `reply_buf` is D14, that a null descriptor fails
R230 (d), D15, and what failing does 43_control_engine.md R212. -/
def Obligations.ConfigurationAndInterfaceAreReported : Prop :=
  ∀ (s : State) (w : Word), Laid s →
    (s.devState ≠ .configured → ∃ t, exec (.getConfiguration w) s = .next t ∧ RepliedFrom s t [0] w) ∧
    (s.devState = .configured → s.cfg.desc.config = none →
      ∃ t, exec (.getConfiguration w) s = .next t ∧ Stalled s t) ∧
    (∀ c, s.devState = .configured → s.cfg.desc.config = some c →
      ∃ t, exec (.getConfiguration w) s = .next t ∧ RepliedFrom s t [s.mem.read (c + 5)] w) ∧
    (∀ itf, (s.devState ≠ .configured ∨ interfaceDescriptor s.cfg itf = none) →
      ∃ t, exec (.getInterface itf w) s = .next t ∧ Stalled s t) ∧
    (∀ itf d, s.devState = .configured → interfaceDescriptor s.cfg itf = some d →
      ∃ t, exec (.getInterface itf w) s = .next t ∧ RepliedFrom s t [s.mem.read (d + 3)] w)

/-- 44_standard_requests.md R248; that endpoint 0 is not touched is D45, that a null descriptor fails R230 (d), D15, and what
failing does 43_control_engine.md R212. Bits 15, 7 and 11 of a register (the completion
flags and `SETUP`) survive the programming; `epr_zero` leaves `SETUP` only (42_toggle_write.md R187). -/
def Obligations.SetConfigurationProgramsTheEndpoints : Prop :=
  ∀ (s : State) (v : Byte), Laid s →
    ((s.devState = .default ∨ (v ≠ 0 ∧ s.cfg.desc.config = none) ∨
        ∃ c, v ≠ 0 ∧ s.cfg.desc.config = some c ∧ v ≠ s.mem.read (c + 5)) →
      ∃ t, exec (.setConfiguration v) s = .next t ∧ Stalled s t) ∧
    (s.devState ≠ .default → v = 0 →
      ∃ u t, exec (.setConfiguration v) s = .next t ∧ Armed 0 u t [] ∧
        u = { s with devState := .address, epr := u.epr } ∧ u.epr[0] = s.epr[0] ∧
        ∀ i : Fin 8, i ≠ 0 → u.epr[i] = s.epr[i] &&& 0x0800) ∧
    (∀ c, s.devState ≠ .default → v ≠ 0 → s.cfg.desc.config = some c → v = s.mem.read (c + 5) →
      ∃ u t, exec (.setConfiguration v) s = .next t ∧ Armed 0 u t [] ∧
        u = { s with devState := .configured, epr := u.epr } ∧ u.epr[0] = s.epr[0] ∧
        ∀ i : Fin 8, i ≠ 0 →
          if sizeIn s.cfg i = 0 ∧ sizeOut s.cfg i = 0 then u.epr[i] = s.epr[i]
          else Epr.epType s.cfg.layout.typeCodes u.epr[i] = (slot s.cfg i).typ ∧
            Epr.ea u.epr[i] = BitVec.ofNat 4 i.val ∧ Epr.epKind u.epr[i] = false ∧
            u.epr[i] &&& 0x8880 = s.epr[i] &&& 0x8880 ∧
            (if sizeIn s.cfg i = 0 then u.epr[i] &&& 0x0070 = s.epr[i] &&& 0x0070
              else Epr.statTx u.epr[i] = .nak ∧ Epr.dtogTx u.epr[i] = false) ∧
            (if sizeOut s.cfg i = 0 then u.epr[i] &&& 0x7000 = s.epr[i] &&& 0x7000
              else Epr.statRx u.epr[i] = .valid ∧ Epr.dtogRx u.epr[i] = false))

/-- 44_standard_requests.md R248, D0's Property 6: the same configuration set twice leaves the device Configured with
the endpoint registers 1..7 as the first time left them. -/
def Obligations.SettingTheConfigurationTwiceIsIdempotent : Prop :=
  ∀ (s : State) (v : Byte) (c : Nat), Laid s → s.devState ≠ .default → v ≠ 0 → s.cfg.desc.config = some c →
    v = s.mem.read (c + 5) →
    ∃ t u, exec (.setConfiguration v) s = .next t ∧ exec (.setConfiguration v) t = .next u ∧
      t.devState = .configured ∧ u.devState = .configured ∧ ∀ i : Fin 8, i ≠ 0 → u.epr[i] = t.epr[i]

/-- 44_standard_requests.md R251; that no state is required is D35, that a null descriptor fails R230 (d), D15, and what
failing does 43_control_engine.md R212. -/
def Obligations.SetInterfaceAcceptsTheOneSetting : Prop :=
  ∀ (s : State) (itf alt : Byte), Laid s →
    ((interfaceDescriptor s.cfg itf = none ∨ ∃ d, interfaceDescriptor s.cfg itf = some d ∧ alt ≠ s.mem.read (d + 3)) →
      ∃ t, exec (.setInterface itf alt) s = .next t ∧ Stalled s t) ∧
    (∀ d, interfaceDescriptor s.cfg itf = some d → alt = s.mem.read (d + 3) →
      ∃ t, exec (.setInterface itf alt) s = .next t ∧ Armed 0 s t [])

/-- 43_control_engine.md R205, R206 and 44_standard_requests.md R246 (an absent callback is "not handled", D15; an
answer nobody supplied is a free value, log 10): the request goes to the application, and its return value ends it. -/
def Obligations.DelegatedRequestsEndAsTheApplicationSays : Prop :=
  ∀ (s : State) (r : Request), Ready s →
    (∃ ret u t, exec (.classRequest r) s = .next t ∧ Finished r.d2h ret u t ∧
      if s.cfg.cap.classRequest then Delegated (.classRequest r) s u ret else u = s ∧ ret = false) ∧
    (∃ ret u t, exec (.vendorRequest r) s = .next t ∧ Finished r.d2h ret u t ∧
      if s.cfg.cap.vendorRequest then Delegated (.vendorRequest r) s u ret else u = s ∧ ret = false) ∧
    (∃ ret u t, exec (.getDescriptorInterface r) s = .next t ∧ Finished true ret u t ∧
      if s.cfg.cap.getDescriptorInterface then Delegated (.getDescriptorInterface r) s u ret else u = s ∧ ret = false)

/-- 43_control_engine.md R201 (that a short reception is rejected is D22): `CTR_RX` cleared, the packet read into
`setup_buf` and `STAT_RX` VALID, and then the request the packet decodes to. Endpoint 0's OUT buffer is at offset 128
(40_pma_allocator.md R147). That a count above 8 is served by the first 8 bytes, as R201's pseudocode has it, and not
rejected, as 60_exceptions.md R352 (11) may be read, is the model's choice (log 37). -/
def Obligations.SetupRunsTheDecodedRequest : Prop :=
  ∀ s : State, Ready s →
    (8 ≤ countField (s.pma.word 6) →
      ∃ (p : Packet) (u t : State), p.toList = s.pma.readAll 128 8 ∧ OneReg { s with setupBuf := p } u 0 0xB000 ∧
        Epr.ctrRx u.epr[0] = false ∧ Epr.statRx u.epr[0] = .valid ∧
        exec .ep0Setup s = exec (decodeRequest p) u ∧ exec .ep0Setup s = .next t) ∧
    (countField (s.pma.word 6) < 8 →
      ∃ t, exec .ep0Setup s = .next t ∧ OneReg { s with setupBuf := t.setupBuf } t 0 0xB030 ∧
        Epr.ctrRx t.epr[0] = false ∧ Epr.statRx t.epr[0] = .stall ∧ Epr.statTx t.epr[0] = .stall)

/-- 10_state.md R26, R27, R51: which rows may change `dev_state`, the address register and the pending-address latch.
`task`, `EVT_CTR` and `EP0_SETUP` are left out: they only run other rows, as their own statements say. -/
def Obligations.FewRowsChangeTheDeviceState : Prop :=
  ∀ (x : Instr) (s t : State), exec x s = .next t → x ≠ .task → (∀ id, x ≠ .evtCtr id) → x ≠ .ep0Setup →
    (t.devState ≠ s.devState → x = .evtReset ∨ x = .ep0InDone ∨ ∃ v, x = .setConfiguration v) ∧
    (t.daddr ≠ s.daddr → x = .evtReset ∨ x = .ep0InDone) ∧
    (t.pendFlag ≠ s.pendFlag ∨ t.pendAddr ≠ s.pendAddr → x = .evtReset ∨ x = .ep0InDone ∨ ∃ a, x = .setAddress a)

/-! ## Events -/

/-- 45_event_loop.md R271: strict priority WKUP, SUSP, RESET, SOF (only with an IN callback), CTR; one event a call; and
nothing without one. -/
def Obligations.TaskServesTheHighestEvent : Prop :=
  ∀ s : State, s.inited = true →
    (s.istr.getLsbD 12 = true → exec .task s = exec .evtWkup s) ∧
    (s.istr.getLsbD 12 = false → s.istr.getLsbD 11 = true → exec .task s = exec .evtSusp s) ∧
    (s.istr.getLsbD 12 = false → s.istr.getLsbD 11 = false → s.istr.getLsbD 10 = true →
      exec .task s = exec .evtReset s) ∧
    (s.istr.getLsbD 12 = false → s.istr.getLsbD 11 = false → s.istr.getLsbD 10 = false →
      s.istr.getLsbD 9 = true ∧ s.cfg.cap.inCb = true → exec .task s = exec .evtSof s) ∧
    (s.istr.getLsbD 12 = false → s.istr.getLsbD 11 = false → s.istr.getLsbD 10 = false →
      ¬(s.istr.getLsbD 9 = true ∧ s.cfg.cap.inCb = true) →
      (∀ i : Fin 8, pendingEp s = some i → exec .task s = exec (.evtCtr (BitVec.ofNat 4 i.val)) s) ∧
      (pendingEp s = none → exec .task s = .next s ∧ exec .evtNone s = .next s))

/-- 10_state.md R49 and R54 (lowest register number first is D28, the rest the spec's general knowledge): CTR and EP_ID
of `ISTR` name the lowest register with a completed transaction, the other flags are the stored ones, and the interrupt
output is raised by an enabled flag. That all of bits 14:4, `DIR` and the reserved bits among them, read as stored is the
model's choice (log 20). -/
def Obligations.IstrReportsTheLowestPendingEndpoint : Prop :=
  (∀ (s : State) (i : Fin 8), (Epr.ctrRx s.epr[i] || Epr.ctrTx s.epr[i]) = true →
    (∀ j : Fin 8, j < i → (Epr.ctrRx s.epr[j] || Epr.ctrTx s.epr[j]) = false) →
    pendingEp s = some i ∧ (istrRead s).getLsbD 15 = true ∧ (istrRead s).extractLsb' 0 4 = BitVec.ofNat 4 i.val) ∧
  (∀ s : State, (∀ i : Fin 8, (Epr.ctrRx s.epr[i] || Epr.ctrTx s.epr[i]) = false) →
    pendingEp s = none ∧ (istrRead s).getLsbD 15 = false) ∧
  (∀ s : State, istrRead s &&& 0x7FF0 = s.istr &&& 0x7FF0) ∧
  ∀ s : State, irq s = true ↔
    ∃ k, (k = 15 ∨ k = 12 ∨ k = 11 ∨ k = 10 ∨ k = 9) ∧ (istrRead s).getLsbD k = true ∧ s.cntr.getLsbD k = true

/-- 45_event_loop.md R273, R274: the flags (WKUP 0x1000, SUSP 0x0800), the low-power bit (0x0004), and the hook after
them. -/
def Obligations.WakeupAndSuspendHandlers : Prop :=
  ∀ s : State, Ready s →
    (∃ t, exec .evtWkup s = .next t ∧ HookRan s.cfg.cap.resumeHook .resumeHook
      { s with istr := s.istr &&& ~~~0x1800, cntr := s.cntr &&& ~~~0x0004 } t) ∧
    (∃ t, exec .evtSusp s = .next t ∧ HookRan s.cfg.cap.suspendHook .suspendHook
      { s with istr := s.istr &&& ~~~0x0800, cntr := s.cntr ||| 0x0004 } t)

/-- 45_event_loop.md R276 (what is reset beside `dev_state` is D25): RESET cleared, the hook with `before = true`, then
the block's own reset, then the hook with `before = false`. Register 0 is Control, RX VALID, TX NAK (0x3220 with the
default code of Control); all others are zero; `SETUP` (0x0800), which the block cannot write, stays. -/
def Obligations.BusResetHandler : Prop :=
  ∀ s : State, Ready s →
    ∃ u v t, exec .evtReset s = .next t ∧
      HookRan s.cfg.cap.resetHook (.resetHook true) { s with istr := s.istr &&& ~~~0x0400 } u ∧
      HookRan s.cfg.cap.resetHook (.resetHook false) v t ∧
      v = { u with devState := .default, pendFlag := false, pendAddr := 0, cont := none, sofCur := 1, daddr := 0x80,
                   epr := v.epr } ∧
      v.epr[0] = (u.epr[0] &&& 0x0800) |||
        (0x3020 ||| ((EpType.code s.cfg.layout.typeCodes .control).setWidth 16 <<< 9)) ∧
      ∀ i : Fin 8, i ≠ 0 → v.epr[i] = u.epr[i] &&& 0x0800

/-- 45_event_loop.md R280, R281 (the cursor is D26): the flag is cleared and the first eligible endpoint from the cursor
on, if there is one, is offered to the IN callback, the cursor moving past it. That the row executed by itself without
the callback changes nothing is the model's reading (log 27): R280 says of `task` that it does not look at the flag. -/
def Obligations.SofOffersTheNextIdleEndpoint : Prop :=
  ∀ s : State,
    (s.cfg.cap.inCb = false → exec .evtSof s = .next s) ∧
    (s.cfg.cap.inCb = true →
      (∀ k < 7, sofEligible s (sofCandidate s.sofCur k) = false) →
      exec .evtSof s = .next { s with istr := s.istr &&& ~~~0x0200 }) ∧
    (s.cfg.cap.inCb = true → Ready s → ∀ k < 7, sofEligible s (sofCandidate s.sofCur k) = true →
      (∀ j < k, sofEligible s (sofCandidate s.sofCur j) = false) →
      ∃ ret t, exec .evtSof s = .next t ∧ Delegated (.inCb (sofCandidate s.sofCur k))
        { s with istr := s.istr &&& ~~~0x0200, sofCur := (sofCandidate s.sofCur k).val % 7 + 1 } t ret) ∧
    (∀ e : Fin 8, sofEligible s e = true ↔
      sizeIn s.cfg e ≠ 0 ∧ Epr.statTx s.epr[e] = .nak ∧ Epr.ea s.epr[e] = BitVec.ofNat 4 e.val) ∧
    ∀ k, (sofCandidate s.sofCur k).val = (s.sofCur - 1 + k) % 7 + 1

/-- 45_event_loop.md R284, R287, R288 (one snapshot and reception first are D23, nothing above 7 is D27): what the
register shows at the start decides; the reception is served first, then the transmission. -/
def Obligations.CompletionsAreServedReceptionFirst : Prop :=
  ∀ s : State,
    exec (.evtCtr 0) s = andThen
      (if Epr.ctrRx s.epr[0] then (if Epr.setup s.epr[0] then exec .ep0Setup s else exec .ep0Out s) else .next s)
      (fun u => if Epr.ctrTx s.epr[0] then exec .ep0InDone u else .next u) ∧
    (∀ i : Fin 8, i ≠ 0 → exec (.evtCtr (BitVec.ofNat 4 i.val)) s = andThen
      (if Epr.ctrRx s.epr[i] then exec (.epnOutDone i) s else .next s)
      (fun u => if Epr.ctrTx s.epr[i] then exec (.epnInDone i) u else .next u)) ∧
    ∀ id : BitVec 4, 8 ≤ id.toNat → exec (.evtCtr id) s = .next s

/-- 45_event_loop.md R285 (D23) and R287: a completed OUT on endpoint 0 only clears its flag, on 1..7 it also goes to the
OUT callback; a completed IN clears its flag. -/
def Obligations.CompletionRowsClearTheirFlag : Prop :=
  ∀ s : State,
    (∃ t, exec .ep0Out s = .next t ∧ Epr.ctrRx t.epr[0] = false ∧ OneReg s t 0 0x8000) ∧
    ∀ i : Fin 8, i ≠ 0 →
      (∃ t, exec (.epnInDone i) s = .next t ∧ Epr.ctrTx t.epr[i] = false ∧ OneReg s t i 0x0080) ∧
      (Ready s → ∃ u t, exec (.epnOutDone i) s = .next t ∧ Epr.ctrRx u.epr[i] = false ∧ OneReg s u i 0x8000 ∧
        HookRan s.cfg.cap.outCb (.outCb i) u t)

/-- 45_event_loop.md R272, "No operation suspends or blocks": with the layout standing and an application that passes
usable buffers, `task` and every row it can run answer a next state in which the same holds. -/
def Obligations.HandlersRunToTheEnd : Prop :=
  ∀ (x : Instr) (s : State), Ready s → s.inited = true →
    (x = .task ∨ x.port = .event ∨ x.port = .completion ∨ x.port = .request) →
    ∃ t, exec x s = .next t ∧ Ready t

/-! ## The USB engine (the whole file 46_usb_engine_agent.md is D31) -/

/-- 46_usb_engine_agent.md R302, R303, R305: one flag of `ISTR` and nothing else; while the peripheral is down the
engine makes no step (R301 (b), R312; log 16). -/
def Obligations.BusEventsSetOneFlag : Prop :=
  ∀ s : State,
    (engineReady s = true →
      exec .busSuspend s = .next { s with istr := s.istr ||| 0x0800 } ∧
      exec .busWakeup s = .next { s with istr := s.istr ||| 0x1000 } ∧
      exec .busSof s = .next { s with istr := s.istr ||| 0x0200 }) ∧
    (engineReady s = false →
      exec .busSuspend s = .next s ∧ exec .busWakeup s = .next s ∧ exec .busSof s = .next s ∧ exec .busReset s = .next s) ∧
    (engineReady s = true ↔ s.inited = true ∧ s.dppu = true ∧ s.cntr.getLsbD 1 = false ∧ s.cntr.getLsbD 0 = false)

/-- 46_usb_engine_agent.md R304: RESET is set and every register keeps its two completion flags only. -/
def Obligations.BusResetClearsTheRegisters : Prop :=
  ∀ s : State, engineReady s = true →
    ∃ t, exec .busReset s = .next t ∧ t = { s with istr := s.istr ||| 0x0400, epr := t.epr } ∧
      ∀ i : Fin 8, t.epr[i] = s.epr[i] &&& 0x8080

/-- 46_usb_engine_agent.md R307 with R306: an accepted SETUP stores eight bytes and the count and sets the register's
flags; otherwise it is dropped without handshake (where no register serves it, log 24; while the device is not
addressed, log 17). -/
def Obligations.BusSetupDeliversThePacket : Prop :=
  ∀ (s : State) (p : Packet),
    (∀ i : Fin 8, Laid s → engineAnswers s = true → Serves s 0 .rx i →
      Epr.epType s.cfg.layout.typeCodes s.epr[i] = .control →
      Epr.ctrRx s.epr[i] = false → 8 ≤ sizeOut s.cfg i →
      ∃ t, exec (.busSetup p) s = .next t ∧
        t.pma.readAll (bufRx s.cfg i) 8 = p.toList ∧
        t.pma.word (8 * i.val + 6) = (s.pma.word (8 * i.val + 6) &&& 0xFC00) ||| 8 ∧
        (∀ a, a ≠ 8 * i.val + 6 → a ≠ 8 * i.val + 7 → (a < bufRx s.cfg i ∨ bufRx s.cfg i + 8 ≤ a) →
          t.pma.read a = s.pma.read a) ∧
        Epr.setup t.epr[i] = true ∧ Epr.ctrRx t.epr[i] = true ∧ Epr.statRx t.epr[i] = .nak ∧
        Epr.statTx t.epr[i] = .nak ∧ Epr.dtogRx t.epr[i] = true ∧ Epr.dtogTx t.epr[i] = true ∧
        OneReg { s with pma := t.pma, out := s.out ++ [.handshake .ack] } t i 0xF870) ∧
    (∀ i : Fin 8, engineAnswers s = true → Serves s 0 .rx i →
      (Epr.epType s.cfg.layout.typeCodes s.epr[i] ≠ .control ∨ Epr.ctrRx s.epr[i] = true) →
      exec (.busSetup p) s = .next { s with out := s.out ++ [.handshake .silent] }) ∧
    ((engineAnswers s = false ∨ ∀ i : Fin 8, ¬Serves s 0 .rx i) →
      exec (.busSetup p) s = .next { s with out := s.out ++ [.handshake .silent] })

/-- 46_usb_engine_agent.md R308 with R306 and R311 (a packet over the capacity, log 18; the device not addressed, log
17): a packet within the capacity is stored, counted and acknowledged; the byte after an odd one is kept where
`PAD_BYTE_POLICY` says so; NAK and STALL change nothing. -/
def Obligations.BusOutDeliversThePacket : Prop :=
  ∀ (s : State) (e : BitVec 4) (data : List Byte),
    (∀ i : Fin 8, engineAnswers s = true → Serves s e .rx i →
      (Epr.statRx s.epr[i] = .valid → Laid s → data.length ≤ sizeOut s.cfg i →
        ∃ t, exec (.busOut e data) s = .next t ∧
          t.pma.readAll (bufRx s.cfg i) data.length = data ∧
          t.pma.word (8 * i.val + 6) = (s.pma.word (8 * i.val + 6) &&& 0xFC00) ||| BitVec.ofNat 16 data.length ∧
          (∀ a, a ≠ 8 * i.val + 6 → a ≠ 8 * i.val + 7 →
            (a < bufRx s.cfg i ∨ bufRx s.cfg i + data.length + data.length % 2 ≤ a) → t.pma.read a = s.pma.read a) ∧
          (s.cfg.padBytePolicy = .unchanged ∨ data.length % 2 = 0 →
            t.pma.read (bufRx s.cfg i + data.length) = s.pma.read (bufRx s.cfg i + data.length) ∧
              t.freeCount = s.freeCount) ∧
          Epr.ctrRx t.epr[i] = true ∧ Epr.setup t.epr[i] = false ∧ Epr.statRx t.epr[i] = .nak ∧
          Epr.dtogRx t.epr[i] = !Epr.dtogRx s.epr[i] ∧
          OneReg { s with pma := t.pma, freeCount := t.freeCount, out := s.out ++ [.handshake .ack] } t i 0xF800) ∧
      (Epr.statRx s.epr[i] = .valid → Laid s → sizeOut s.cfg i < data.length →
        exec (.busOut e data) s =
          .next { s with istr := s.istr ||| 0x4000, out := s.out ++ [.handshake .silent] }) ∧
      (Epr.statRx s.epr[i] = .nak → exec (.busOut e data) s = .next { s with out := s.out ++ [.handshake .nak] }) ∧
      (Epr.statRx s.epr[i] = .stall → exec (.busOut e data) s = .next { s with out := s.out ++ [.handshake .stall] })) ∧
    ((engineAnswers s = false ∨ ∀ i : Fin 8, ¬Serves s e .rx i) →
      exec (.busOut e data) s = .next { s with out := s.out ++ [.handshake .silent] })

/-- 46_usb_engine_agent.md R309 with R306: the host receives the counted bytes of an armed IN buffer with the data PID of
`DTOG_TX`, and the register shows the completion; NAK and STALL change nothing. A line that states the bytes the host
must receive is checked against what it received (how the result shows is log 36). -/
def Obligations.BusInTakesThePacket : Prop :=
  (∀ (s : State) (e : BitVec 4) (expect : Option (List Byte)),
    (∀ i : Fin 8, engineAnswers s = true → Serves s e .tx i →
      (Epr.statTx s.epr[i] = .valid → Laid s →
        ∃ data t, data = s.pma.readAll (bufTx s.cfg i) (s.pma.word (8 * i.val + 2)).toNat ∧
          exec (.busIn ⟨e, expect⟩) s = .next t ∧
          Epr.ctrTx t.epr[i] = true ∧ Epr.statTx t.epr[i] = .nak ∧ Epr.dtogTx t.epr[i] = !Epr.dtogTx s.epr[i] ∧
          OneReg { s with out := s.out ++ [.packet (Epr.dtogTx s.epr[i]) data] ++ checks expect (some data) }
            t i 0x00F0) ∧
      (Epr.statTx s.epr[i] = .nak → exec (.busIn ⟨e, expect⟩) s =
        .next { s with out := s.out ++ [.handshake .nak] ++ checks expect none }) ∧
      (Epr.statTx s.epr[i] = .stall → exec (.busIn ⟨e, expect⟩) s =
        .next { s with out := s.out ++ [.handshake .stall] ++ checks expect none })) ∧
    ((engineAnswers s = false ∨ ∀ i : Fin 8, ¬Serves s e .tx i) →
      exec (.busIn ⟨e, expect⟩) s = .next { s with out := s.out ++ [.handshake .silent] ++ checks expect none })) ∧
  (∀ got, checks none got = []) ∧
  (∀ bs data, checks (some bs) (some data) = [.checked (decide (data = bs))]) ∧
  ∀ bs, checks (some bs) none = [.checked false]

/-! ## The whole machine -/

/-- 10_state.md R60 (all but `dev_state` is D30), and that the state after reset meets both invariants. What R60 leaves
open (memory contents, scratch buffers, configuration, inputs) is the model's: log 1, 3, 4, 5. -/
def Obligations.ResetHoldsTheSpecValues : Prop :=
  State.reset.devState = .default ∧ State.reset.pendFlag = false ∧ State.reset.pendAddr = 0 ∧
  State.reset.cont = none ∧ State.reset.sofCur = 1 ∧ State.reset.inited = false ∧
  (∀ i : Fin 8, State.reset.epr[i] = 0) ∧ State.reset.istr = 0 ∧ State.reset.cntr = 0x0003 ∧ State.reset.daddr = 0 ∧
  State.reset.btable = 0 ∧ State.reset.dppu = false ∧ CoreInv State.reset ∧ DeviceInv State.reset

/-- A step takes the next input off the script, clears the ports, and runs the instruction the line decodes to; a
completion line that selects no sub-event (`EP_ID` 8..15, or neither flag: 30_encoding.md R122, 45_event_loop.md R284,
R287, R288) changes nothing more, and any other line that encodes no instruction is refused (log 6); a store by the
application and a bus error are themselves; with no input nothing happens (log 5, log 26). -/
def Obligations.StepRunsTheDecodedInstruction : Prop :=
  ∀ (s : State) (rest : List Input),
    (∀ l i, s.script = .line l :: rest → decode s.cfg.layout l = .ok i →
      step s = exec i { s with script := rest, out := [] }) ∧
    (∀ lo hi id v, s.script = .line ⟨.completion, [lo, hi, id]⟩ :: rest → v = s.cfg.layout.eprIn (le16 lo hi) →
      id.toNat < 16 → (8 ≤ id.toNat ∨ (Epr.ctrRx v = false ∧ Epr.ctrTx v = false)) →
      step s = .next { s with script := rest, out := [] }) ∧
    (∀ l e, s.script = .line l :: rest → decode s.cfg.layout l = .error e → e ≠ .noSubEvent →
      step s = .refused (.undecodable e)) ∧
    (∀ a bs, s.script = .appStore a bs :: rest →
      step s = .next { s with script := rest, out := [], mem := s.mem.writeAll a bs }) ∧
    (∀ e, s.script = .busError e :: rest → engineReady s = true →
      step s = .next { s with script := rest, out := [], istr := s.istr |||
        (match e with | .pmaovr => 0x4000 | .err => 0x2000 | .esof => 0x0100) }) ∧
    (s.script = [] → step s = .next { s with out := [] })

/-- 30_encoding.md: the encoder and the decoder agree on every well-formed instruction, every operand at every value, in
every legal `LAYOUT` (00_scope.md R10). The layouts of the lines are log 6, log 8, log 35 and log 36. -/
def Obligations.EncodedInstructionsDecodeBack : Prop :=
  ∀ (y : Layout) (i : Instr), y.ok = true → i.wf = true → decode y (encode y i) = .ok i

/-- 30_encoding.md R119, R121 to R123: whatever the bytes, what the decoder answers is well-formed and belongs to the
line's port. The ports and the layouts of the lines are the model's (log 6, log 8, log 35, log 36), and so is the bound
of well-formedness on a driver row's type (log 30). -/
def Obligations.DecodedLinesAreWellFormed : Prop :=
  ∀ (y : Layout) (l : Line) (i : Instr), decode y l = .ok i → i.wf = true ∧ i.port = l.port

/-- Words written out from the encodings of 30_encoding.md (default `LAYOUT`) and the examples of the rules: one or more
of every port (the layout of the command and bus lines is log 6, of the internal line log 35). -/
def Obligations.SampleWordsDecode : Prop :=
  -- SETUP{80 06 00 01 00 00 40 00} and SETUP{00 05 42 00 00 00 00 00} (43_control_engine.md R201, R216)
  decode .default ⟨.request, [0x80, 0x06, 0x00, 0x01, 0x00, 0x00, 0x40, 0x00]⟩ = .ok (.getDescriptorDevice 64) ∧
  decode .default ⟨.request, [0x00, 0x05, 0x42, 0x00, 0x00, 0x00, 0x00, 0x00]⟩ = .ok (.setAddress 0x42) ∧
  -- SETUP{02 03 00 00 81 00 00 00} (44_standard_requests.md R238)
  decode .default ⟨.request, [0x02, 0x03, 0x00, 0x00, 0x81, 0x00, 0x00, 0x00]⟩ = .ok (.setFeatureEndpointHalt 1 .tx) ∧
  -- the written word 0x8290 of 42_toggle_write.md R179 has STAT_TX VALID over a register whose STAT_TX is NAK; over one
  -- whose STAT_TX is 00 it is 0x82B0
  decode .default ⟨.driver, [0xB0, 0x82, 0x00, 0x00, 0x00]⟩ = .ok (.eprSetStatTx 0 .valid) ∧
  -- ISTR = 0x9600, then 0x8400, then 0x8003 (45_event_loop.md R271, R291)
  decode .default ⟨.event, [0x00, 0x96]⟩ = .ok .evtWkup ∧ decode .default ⟨.event, [0x00, 0x84]⟩ = .ok .evtReset ∧
  decode .default ⟨.event, [0x03, 0x80]⟩ = .ok (.evtCtr 3) ∧
  -- EPR[0] = 0xEA60 after a SETUP (46_usb_engine_agent.md R307), EPR[2] = 0xE002 after an OUT (R308)
  decode .default ⟨.completion, [0x60, 0xEA, 0x00]⟩ = .ok .ep0Setup ∧
  decode .default ⟨.completion, [0x02, 0xE0, 0x02]⟩ = .ok (.epnOutDone 2) ∧
  -- command 3 and bus line 5 (30_encoding.md R123)
  decode .default ⟨.command, [0x03, 0x02, 0x40, 0x00, 0x00, 0x00, 0x01, 0x00, 0x10, 0x00, 0x20]⟩ =
    .ok (.epRead 2 (.app 0x20001000) 64) ∧
  decode .default ⟨.bus, [0x05, 0x02, 0xA1, 0xA2]⟩ = .ok (.busOut 2 [0xA1, 0xA2]) ∧
  -- number 5 is "internal, not on the command port" (R123)
  decode .default ⟨.internal, [0x05]⟩ = .ok .controlInResume ∧
  decode .default ⟨.command, [0x05, 0, 0, 0, 0, 0, 0, 0, 0, 0, 0]⟩ = .error .unknownOrdinal ∧
  -- `EP_ID` 8..15 selects no sub-event (R122)
  decode .default ⟨.completion, [0x60, 0xEA, 0x08]⟩ = .error .noSubEvent

/-- What every step keeps, from every state: both memories canonical, the cursor in 1..7, a continuation never empty,
`EP_KIND` 0, the bits of `CNTR` the block leaves 0 (10_state.md R28, R29, R40, R50). -/
def Obligations.EveryStepKeepsTheCoreInvariant : Prop :=
  ∀ s t : State, CoreInv s → step s = .next t → CoreInv t

/-- While the inputs come from outside the block and the application passes usable buffers, a step never faults and
keeps the device invariant: the layout `init` made, only register 0 Control, each register at its own address or zeroed,
directions of size zero never enabled (40_pma_allocator.md R143, R147; 10_state.md R33, R44;
46_usb_engine_agent.md R306). Premise, part of the invariant: the layout's code 00 is not Control, as in the default
(30_encoding.md R103). -/
def Obligations.EveryStepKeepsTheDeviceInvariant : Prop :=
  ∀ s : State, DeviceInv s → (∀ f, step s ≠ .fault f) ∧ ∀ t, step s = .next t → DeviceInv t

/-- 10_state.md R52, R53: `init` sets the table base to 0 and the pull-up to 1, and no step changes either afterwards,
nor, ever, the configuration (R24, log 3); that `inited` stays is R32 and D29. -/
def Obligations.OnlyInitConfiguresTheBlock : Prop :=
  ∀ s t : State, step s = .next t →
    t.cfg = s.cfg ∧
    (s.inited = true → t.inited = true ∧ t.btable = s.btable ∧ t.dppu = s.dppu) ∧
    (s.inited = false → t.inited = true → t.btable = 0 ∧ t.dppu = true) ∧
    (s.inited = false → t.inited = false → t.btable = s.btable ∧ t.dppu = s.dppu)
end

