-- ==== Sys2Proof/Laws/State.lean ====
section
/-! SUPPORT. One lemma per field per update of the state, and the register operations as one update. -/

namespace Sys2Proof.Machine

@[simp] theorem eprWrite_cfg (i : Fin 8) (w : Word) (s : State) : (eprWrite i w s).cfg = s.cfg := rfl
@[simp] theorem eprWrite_devState (i : Fin 8) (w : Word) (s : State) : (eprWrite i w s).devState = s.devState := rfl
@[simp] theorem eprWrite_pendFlag (i : Fin 8) (w : Word) (s : State) : (eprWrite i w s).pendFlag = s.pendFlag := rfl
@[simp] theorem eprWrite_pendAddr (i : Fin 8) (w : Word) (s : State) : (eprWrite i w s).pendAddr = s.pendAddr := rfl
@[simp] theorem eprWrite_cont (i : Fin 8) (w : Word) (s : State) : (eprWrite i w s).cont = s.cont := rfl
@[simp] theorem eprWrite_sofCur (i : Fin 8) (w : Word) (s : State) : (eprWrite i w s).sofCur = s.sofCur := rfl
@[simp] theorem eprWrite_setupBuf (i : Fin 8) (w : Word) (s : State) : (eprWrite i w s).setupBuf = s.setupBuf := rfl
@[simp] theorem eprWrite_replyBuf (i : Fin 8) (w : Word) (s : State) : (eprWrite i w s).replyBuf = s.replyBuf := rfl
@[simp] theorem eprWrite_inited (i : Fin 8) (w : Word) (s : State) : (eprWrite i w s).inited = s.inited := rfl
@[simp] theorem eprWrite_serialCached (i : Fin 8) (w : Word) (s : State) : (eprWrite i w s).serialCached = s.serialCached := rfl
@[simp] theorem eprWrite_epr (i : Fin 8) (w : Word) (s : State) : (eprWrite i w s).epr = s.epr.set i (writeEffect s.epr[i] w) := rfl
@[simp] theorem eprWrite_istr (i : Fin 8) (w : Word) (s : State) : (eprWrite i w s).istr = s.istr := rfl
@[simp] theorem eprWrite_cntr (i : Fin 8) (w : Word) (s : State) : (eprWrite i w s).cntr = s.cntr := rfl
@[simp] theorem eprWrite_daddr (i : Fin 8) (w : Word) (s : State) : (eprWrite i w s).daddr = s.daddr := rfl
@[simp] theorem eprWrite_btable (i : Fin 8) (w : Word) (s : State) : (eprWrite i w s).btable = s.btable := rfl
@[simp] theorem eprWrite_dppu (i : Fin 8) (w : Word) (s : State) : (eprWrite i w s).dppu = s.dppu := rfl
@[simp] theorem eprWrite_pma (i : Fin 8) (w : Word) (s : State) : (eprWrite i w s).pma = s.pma := rfl
@[simp] theorem eprWrite_mem (i : Fin 8) (w : Word) (s : State) : (eprWrite i w s).mem = s.mem := rfl
@[simp] theorem eprWrite_script (i : Fin 8) (w : Word) (s : State) : (eprWrite i w s).script = s.script := rfl
@[simp] theorem eprWrite_answers (i : Fin 8) (w : Word) (s : State) : (eprWrite i w s).answers = s.answers := rfl
@[simp] theorem eprWrite_out (i : Fin 8) (w : Word) (s : State) : (eprWrite i w s).out = s.out := rfl
@[simp] theorem eprWrite_freeCount (i : Fin 8) (w : Word) (s : State) : (eprWrite i w s).freeCount = s.freeCount := rfl
@[simp] theorem eprWrite_epIdIdle (i : Fin 8) (w : Word) (s : State) : (eprWrite i w s).epIdIdle = s.epIdIdle := rfl

@[simp] theorem setEpr_cfg (i : Fin 8) (w : Word) (s : State) : (setEpr i w s).cfg = s.cfg := rfl
@[simp] theorem setEpr_devState (i : Fin 8) (w : Word) (s : State) : (setEpr i w s).devState = s.devState := rfl
@[simp] theorem setEpr_pendFlag (i : Fin 8) (w : Word) (s : State) : (setEpr i w s).pendFlag = s.pendFlag := rfl
@[simp] theorem setEpr_pendAddr (i : Fin 8) (w : Word) (s : State) : (setEpr i w s).pendAddr = s.pendAddr := rfl
@[simp] theorem setEpr_cont (i : Fin 8) (w : Word) (s : State) : (setEpr i w s).cont = s.cont := rfl
@[simp] theorem setEpr_sofCur (i : Fin 8) (w : Word) (s : State) : (setEpr i w s).sofCur = s.sofCur := rfl
@[simp] theorem setEpr_setupBuf (i : Fin 8) (w : Word) (s : State) : (setEpr i w s).setupBuf = s.setupBuf := rfl
@[simp] theorem setEpr_replyBuf (i : Fin 8) (w : Word) (s : State) : (setEpr i w s).replyBuf = s.replyBuf := rfl
@[simp] theorem setEpr_inited (i : Fin 8) (w : Word) (s : State) : (setEpr i w s).inited = s.inited := rfl
@[simp] theorem setEpr_serialCached (i : Fin 8) (w : Word) (s : State) : (setEpr i w s).serialCached = s.serialCached := rfl
@[simp] theorem setEpr_epr (i : Fin 8) (w : Word) (s : State) : (setEpr i w s).epr = s.epr.set i w := rfl
@[simp] theorem setEpr_istr (i : Fin 8) (w : Word) (s : State) : (setEpr i w s).istr = s.istr := rfl
@[simp] theorem setEpr_cntr (i : Fin 8) (w : Word) (s : State) : (setEpr i w s).cntr = s.cntr := rfl
@[simp] theorem setEpr_daddr (i : Fin 8) (w : Word) (s : State) : (setEpr i w s).daddr = s.daddr := rfl
@[simp] theorem setEpr_btable (i : Fin 8) (w : Word) (s : State) : (setEpr i w s).btable = s.btable := rfl
@[simp] theorem setEpr_dppu (i : Fin 8) (w : Word) (s : State) : (setEpr i w s).dppu = s.dppu := rfl
@[simp] theorem setEpr_pma (i : Fin 8) (w : Word) (s : State) : (setEpr i w s).pma = s.pma := rfl
@[simp] theorem setEpr_mem (i : Fin 8) (w : Word) (s : State) : (setEpr i w s).mem = s.mem := rfl
@[simp] theorem setEpr_script (i : Fin 8) (w : Word) (s : State) : (setEpr i w s).script = s.script := rfl
@[simp] theorem setEpr_answers (i : Fin 8) (w : Word) (s : State) : (setEpr i w s).answers = s.answers := rfl
@[simp] theorem setEpr_out (i : Fin 8) (w : Word) (s : State) : (setEpr i w s).out = s.out := rfl
@[simp] theorem setEpr_freeCount (i : Fin 8) (w : Word) (s : State) : (setEpr i w s).freeCount = s.freeCount := rfl
@[simp] theorem setEpr_epIdIdle (i : Fin 8) (w : Word) (s : State) : (setEpr i w s).epIdIdle = s.epIdIdle := rfl

@[simp] theorem istrClear_cfg (f : Word) (s : State) : (istrClear f s).cfg = s.cfg := rfl
@[simp] theorem istrClear_devState (f : Word) (s : State) : (istrClear f s).devState = s.devState := rfl
@[simp] theorem istrClear_pendFlag (f : Word) (s : State) : (istrClear f s).pendFlag = s.pendFlag := rfl
@[simp] theorem istrClear_pendAddr (f : Word) (s : State) : (istrClear f s).pendAddr = s.pendAddr := rfl
@[simp] theorem istrClear_cont (f : Word) (s : State) : (istrClear f s).cont = s.cont := rfl
@[simp] theorem istrClear_sofCur (f : Word) (s : State) : (istrClear f s).sofCur = s.sofCur := rfl
@[simp] theorem istrClear_setupBuf (f : Word) (s : State) : (istrClear f s).setupBuf = s.setupBuf := rfl
@[simp] theorem istrClear_replyBuf (f : Word) (s : State) : (istrClear f s).replyBuf = s.replyBuf := rfl
@[simp] theorem istrClear_inited (f : Word) (s : State) : (istrClear f s).inited = s.inited := rfl
@[simp] theorem istrClear_serialCached (f : Word) (s : State) : (istrClear f s).serialCached = s.serialCached := rfl
@[simp] theorem istrClear_epr (f : Word) (s : State) : (istrClear f s).epr = s.epr := rfl
@[simp] theorem istrClear_istr (f : Word) (s : State) : (istrClear f s).istr = s.istr &&& ~~~f := rfl
@[simp] theorem istrClear_cntr (f : Word) (s : State) : (istrClear f s).cntr = s.cntr := rfl
@[simp] theorem istrClear_daddr (f : Word) (s : State) : (istrClear f s).daddr = s.daddr := rfl
@[simp] theorem istrClear_btable (f : Word) (s : State) : (istrClear f s).btable = s.btable := rfl
@[simp] theorem istrClear_dppu (f : Word) (s : State) : (istrClear f s).dppu = s.dppu := rfl
@[simp] theorem istrClear_pma (f : Word) (s : State) : (istrClear f s).pma = s.pma := rfl
@[simp] theorem istrClear_mem (f : Word) (s : State) : (istrClear f s).mem = s.mem := rfl
@[simp] theorem istrClear_script (f : Word) (s : State) : (istrClear f s).script = s.script := rfl
@[simp] theorem istrClear_answers (f : Word) (s : State) : (istrClear f s).answers = s.answers := rfl
@[simp] theorem istrClear_out (f : Word) (s : State) : (istrClear f s).out = s.out := rfl
@[simp] theorem istrClear_freeCount (f : Word) (s : State) : (istrClear f s).freeCount = s.freeCount := rfl
@[simp] theorem istrClear_epIdIdle (f : Word) (s : State) : (istrClear f s).epIdIdle = s.epIdIdle := rfl

@[simp] theorem istrSet_cfg (f : Word) (s : State) : (istrSet f s).cfg = s.cfg := rfl
@[simp] theorem istrSet_devState (f : Word) (s : State) : (istrSet f s).devState = s.devState := rfl
@[simp] theorem istrSet_pendFlag (f : Word) (s : State) : (istrSet f s).pendFlag = s.pendFlag := rfl
@[simp] theorem istrSet_pendAddr (f : Word) (s : State) : (istrSet f s).pendAddr = s.pendAddr := rfl
@[simp] theorem istrSet_cont (f : Word) (s : State) : (istrSet f s).cont = s.cont := rfl
@[simp] theorem istrSet_sofCur (f : Word) (s : State) : (istrSet f s).sofCur = s.sofCur := rfl
@[simp] theorem istrSet_setupBuf (f : Word) (s : State) : (istrSet f s).setupBuf = s.setupBuf := rfl
@[simp] theorem istrSet_replyBuf (f : Word) (s : State) : (istrSet f s).replyBuf = s.replyBuf := rfl
@[simp] theorem istrSet_inited (f : Word) (s : State) : (istrSet f s).inited = s.inited := rfl
@[simp] theorem istrSet_serialCached (f : Word) (s : State) : (istrSet f s).serialCached = s.serialCached := rfl
@[simp] theorem istrSet_epr (f : Word) (s : State) : (istrSet f s).epr = s.epr := rfl
@[simp] theorem istrSet_istr (f : Word) (s : State) : (istrSet f s).istr = s.istr ||| f := rfl
@[simp] theorem istrSet_cntr (f : Word) (s : State) : (istrSet f s).cntr = s.cntr := rfl
@[simp] theorem istrSet_daddr (f : Word) (s : State) : (istrSet f s).daddr = s.daddr := rfl
@[simp] theorem istrSet_btable (f : Word) (s : State) : (istrSet f s).btable = s.btable := rfl
@[simp] theorem istrSet_dppu (f : Word) (s : State) : (istrSet f s).dppu = s.dppu := rfl
@[simp] theorem istrSet_pma (f : Word) (s : State) : (istrSet f s).pma = s.pma := rfl
@[simp] theorem istrSet_mem (f : Word) (s : State) : (istrSet f s).mem = s.mem := rfl
@[simp] theorem istrSet_script (f : Word) (s : State) : (istrSet f s).script = s.script := rfl
@[simp] theorem istrSet_answers (f : Word) (s : State) : (istrSet f s).answers = s.answers := rfl
@[simp] theorem istrSet_out (f : Word) (s : State) : (istrSet f s).out = s.out := rfl
@[simp] theorem istrSet_freeCount (f : Word) (s : State) : (istrSet f s).freeCount = s.freeCount := rfl
@[simp] theorem istrSet_epIdIdle (f : Word) (s : State) : (istrSet f s).epIdIdle = s.epIdIdle := rfl

@[simp] theorem emit_cfg (o : Out) (s : State) : (emit o s).cfg = s.cfg := rfl
@[simp] theorem emit_devState (o : Out) (s : State) : (emit o s).devState = s.devState := rfl
@[simp] theorem emit_pendFlag (o : Out) (s : State) : (emit o s).pendFlag = s.pendFlag := rfl
@[simp] theorem emit_pendAddr (o : Out) (s : State) : (emit o s).pendAddr = s.pendAddr := rfl
@[simp] theorem emit_cont (o : Out) (s : State) : (emit o s).cont = s.cont := rfl
@[simp] theorem emit_sofCur (o : Out) (s : State) : (emit o s).sofCur = s.sofCur := rfl
@[simp] theorem emit_setupBuf (o : Out) (s : State) : (emit o s).setupBuf = s.setupBuf := rfl
@[simp] theorem emit_replyBuf (o : Out) (s : State) : (emit o s).replyBuf = s.replyBuf := rfl
@[simp] theorem emit_inited (o : Out) (s : State) : (emit o s).inited = s.inited := rfl
@[simp] theorem emit_serialCached (o : Out) (s : State) : (emit o s).serialCached = s.serialCached := rfl
@[simp] theorem emit_epr (o : Out) (s : State) : (emit o s).epr = s.epr := rfl
@[simp] theorem emit_istr (o : Out) (s : State) : (emit o s).istr = s.istr := rfl
@[simp] theorem emit_cntr (o : Out) (s : State) : (emit o s).cntr = s.cntr := rfl
@[simp] theorem emit_daddr (o : Out) (s : State) : (emit o s).daddr = s.daddr := rfl
@[simp] theorem emit_btable (o : Out) (s : State) : (emit o s).btable = s.btable := rfl
@[simp] theorem emit_dppu (o : Out) (s : State) : (emit o s).dppu = s.dppu := rfl
@[simp] theorem emit_pma (o : Out) (s : State) : (emit o s).pma = s.pma := rfl
@[simp] theorem emit_mem (o : Out) (s : State) : (emit o s).mem = s.mem := rfl
@[simp] theorem emit_script (o : Out) (s : State) : (emit o s).script = s.script := rfl
@[simp] theorem emit_answers (o : Out) (s : State) : (emit o s).answers = s.answers := rfl
@[simp] theorem emit_out (o : Out) (s : State) : (emit o s).out = s.out ++ [o] := rfl
@[simp] theorem emit_freeCount (o : Out) (s : State) : (emit o s).freeCount = s.freeCount := rfl
@[simp] theorem emit_epIdIdle (o : Out) (s : State) : (emit o s).epIdIdle = s.epIdIdle := rfl

@[simp] theorem checkIn_cfg (x : Option (List Byte)) (s : State) : (checkIn x s).cfg = s.cfg := rfl
@[simp] theorem checkIn_devState (x : Option (List Byte)) (s : State) : (checkIn x s).devState = s.devState := rfl
@[simp] theorem checkIn_pendFlag (x : Option (List Byte)) (s : State) : (checkIn x s).pendFlag = s.pendFlag := rfl
@[simp] theorem checkIn_pendAddr (x : Option (List Byte)) (s : State) : (checkIn x s).pendAddr = s.pendAddr := rfl
@[simp] theorem checkIn_cont (x : Option (List Byte)) (s : State) : (checkIn x s).cont = s.cont := rfl
@[simp] theorem checkIn_sofCur (x : Option (List Byte)) (s : State) : (checkIn x s).sofCur = s.sofCur := rfl
@[simp] theorem checkIn_setupBuf (x : Option (List Byte)) (s : State) : (checkIn x s).setupBuf = s.setupBuf := rfl
@[simp] theorem checkIn_replyBuf (x : Option (List Byte)) (s : State) : (checkIn x s).replyBuf = s.replyBuf := rfl
@[simp] theorem checkIn_inited (x : Option (List Byte)) (s : State) : (checkIn x s).inited = s.inited := rfl
@[simp] theorem checkIn_serialCached (x : Option (List Byte)) (s : State) : (checkIn x s).serialCached = s.serialCached := rfl
@[simp] theorem checkIn_epr (x : Option (List Byte)) (s : State) : (checkIn x s).epr = s.epr := rfl
@[simp] theorem checkIn_istr (x : Option (List Byte)) (s : State) : (checkIn x s).istr = s.istr := rfl
@[simp] theorem checkIn_cntr (x : Option (List Byte)) (s : State) : (checkIn x s).cntr = s.cntr := rfl
@[simp] theorem checkIn_daddr (x : Option (List Byte)) (s : State) : (checkIn x s).daddr = s.daddr := rfl
@[simp] theorem checkIn_btable (x : Option (List Byte)) (s : State) : (checkIn x s).btable = s.btable := rfl
@[simp] theorem checkIn_dppu (x : Option (List Byte)) (s : State) : (checkIn x s).dppu = s.dppu := rfl
@[simp] theorem checkIn_pma (x : Option (List Byte)) (s : State) : (checkIn x s).pma = s.pma := rfl
@[simp] theorem checkIn_mem (x : Option (List Byte)) (s : State) : (checkIn x s).mem = s.mem := rfl
@[simp] theorem checkIn_script (x : Option (List Byte)) (s : State) : (checkIn x s).script = s.script := rfl
@[simp] theorem checkIn_answers (x : Option (List Byte)) (s : State) : (checkIn x s).answers = s.answers := rfl
@[simp] theorem checkIn_freeCount (x : Option (List Byte)) (s : State) : (checkIn x s).freeCount = s.freeCount := rfl
@[simp] theorem checkIn_epIdIdle (x : Option (List Byte)) (s : State) : (checkIn x s).epIdIdle = s.epIdIdle := rfl
@[simp] theorem checkIn_out (x : Option (List Byte)) (s : State) :
    (checkIn x s).out = s.out ++ checks x (received s.out) := rfl

@[simp] theorem appStore_cfg (a : Nat) (bs : List Byte) (s : State) : (appStore a bs s).cfg = s.cfg := rfl
@[simp] theorem appStore_devState (a : Nat) (bs : List Byte) (s : State) : (appStore a bs s).devState = s.devState := rfl
@[simp] theorem appStore_pendFlag (a : Nat) (bs : List Byte) (s : State) : (appStore a bs s).pendFlag = s.pendFlag := rfl
@[simp] theorem appStore_pendAddr (a : Nat) (bs : List Byte) (s : State) : (appStore a bs s).pendAddr = s.pendAddr := rfl
@[simp] theorem appStore_cont (a : Nat) (bs : List Byte) (s : State) : (appStore a bs s).cont = s.cont := rfl
@[simp] theorem appStore_sofCur (a : Nat) (bs : List Byte) (s : State) : (appStore a bs s).sofCur = s.sofCur := rfl
@[simp] theorem appStore_setupBuf (a : Nat) (bs : List Byte) (s : State) : (appStore a bs s).setupBuf = s.setupBuf := rfl
@[simp] theorem appStore_replyBuf (a : Nat) (bs : List Byte) (s : State) : (appStore a bs s).replyBuf = s.replyBuf := rfl
@[simp] theorem appStore_inited (a : Nat) (bs : List Byte) (s : State) : (appStore a bs s).inited = s.inited := rfl
@[simp] theorem appStore_serialCached (a : Nat) (bs : List Byte) (s : State) : (appStore a bs s).serialCached = s.serialCached := rfl
@[simp] theorem appStore_epr (a : Nat) (bs : List Byte) (s : State) : (appStore a bs s).epr = s.epr := rfl
@[simp] theorem appStore_istr (a : Nat) (bs : List Byte) (s : State) : (appStore a bs s).istr = s.istr := rfl
@[simp] theorem appStore_cntr (a : Nat) (bs : List Byte) (s : State) : (appStore a bs s).cntr = s.cntr := rfl
@[simp] theorem appStore_daddr (a : Nat) (bs : List Byte) (s : State) : (appStore a bs s).daddr = s.daddr := rfl
@[simp] theorem appStore_btable (a : Nat) (bs : List Byte) (s : State) : (appStore a bs s).btable = s.btable := rfl
@[simp] theorem appStore_dppu (a : Nat) (bs : List Byte) (s : State) : (appStore a bs s).dppu = s.dppu := rfl
@[simp] theorem appStore_pma (a : Nat) (bs : List Byte) (s : State) : (appStore a bs s).pma = s.pma := rfl
@[simp] theorem appStore_mem (a : Nat) (bs : List Byte) (s : State) : (appStore a bs s).mem = s.mem.writeAll a bs := rfl
@[simp] theorem appStore_script (a : Nat) (bs : List Byte) (s : State) : (appStore a bs s).script = s.script := rfl
@[simp] theorem appStore_answers (a : Nat) (bs : List Byte) (s : State) : (appStore a bs s).answers = s.answers := rfl
@[simp] theorem appStore_out (a : Nat) (bs : List Byte) (s : State) : (appStore a bs s).out = s.out := rfl
@[simp] theorem appStore_freeCount (a : Nat) (bs : List Byte) (s : State) : (appStore a bs s).freeCount = s.freeCount := rfl
@[simp] theorem appStore_epIdIdle (a : Nat) (bs : List Byte) (s : State) : (appStore a bs s).epIdIdle = s.epIdIdle := rfl

@[simp] theorem takeInput_cfg (r : List Input) (s : State) : (takeInput r s).cfg = s.cfg := rfl
@[simp] theorem takeInput_devState (r : List Input) (s : State) : (takeInput r s).devState = s.devState := rfl
@[simp] theorem takeInput_pendFlag (r : List Input) (s : State) : (takeInput r s).pendFlag = s.pendFlag := rfl
@[simp] theorem takeInput_pendAddr (r : List Input) (s : State) : (takeInput r s).pendAddr = s.pendAddr := rfl
@[simp] theorem takeInput_cont (r : List Input) (s : State) : (takeInput r s).cont = s.cont := rfl
@[simp] theorem takeInput_sofCur (r : List Input) (s : State) : (takeInput r s).sofCur = s.sofCur := rfl
@[simp] theorem takeInput_setupBuf (r : List Input) (s : State) : (takeInput r s).setupBuf = s.setupBuf := rfl
@[simp] theorem takeInput_replyBuf (r : List Input) (s : State) : (takeInput r s).replyBuf = s.replyBuf := rfl
@[simp] theorem takeInput_inited (r : List Input) (s : State) : (takeInput r s).inited = s.inited := rfl
@[simp] theorem takeInput_serialCached (r : List Input) (s : State) : (takeInput r s).serialCached = s.serialCached := rfl
@[simp] theorem takeInput_epr (r : List Input) (s : State) : (takeInput r s).epr = s.epr := rfl
@[simp] theorem takeInput_istr (r : List Input) (s : State) : (takeInput r s).istr = s.istr := rfl
@[simp] theorem takeInput_cntr (r : List Input) (s : State) : (takeInput r s).cntr = s.cntr := rfl
@[simp] theorem takeInput_daddr (r : List Input) (s : State) : (takeInput r s).daddr = s.daddr := rfl
@[simp] theorem takeInput_btable (r : List Input) (s : State) : (takeInput r s).btable = s.btable := rfl
@[simp] theorem takeInput_dppu (r : List Input) (s : State) : (takeInput r s).dppu = s.dppu := rfl
@[simp] theorem takeInput_pma (r : List Input) (s : State) : (takeInput r s).pma = s.pma := rfl
@[simp] theorem takeInput_mem (r : List Input) (s : State) : (takeInput r s).mem = s.mem := rfl
@[simp] theorem takeInput_script (r : List Input) (s : State) : (takeInput r s).script = r := rfl
@[simp] theorem takeInput_answers (r : List Input) (s : State) : (takeInput r s).answers = s.answers := rfl
@[simp] theorem takeInput_out (r : List Input) (s : State) : (takeInput r s).out = [] := rfl
@[simp] theorem takeInput_freeCount (r : List Input) (s : State) : (takeInput r s).freeCount = s.freeCount := rfl
@[simp] theorem takeInput_epIdIdle (r : List Input) (s : State) : (takeInput r s).epIdIdle = s.epIdIdle := rfl

@[simp] theorem idle_cfg (s : State) : (idle s).cfg = s.cfg := rfl
@[simp] theorem idle_devState (s : State) : (idle s).devState = s.devState := rfl
@[simp] theorem idle_pendFlag (s : State) : (idle s).pendFlag = s.pendFlag := rfl
@[simp] theorem idle_pendAddr (s : State) : (idle s).pendAddr = s.pendAddr := rfl
@[simp] theorem idle_cont (s : State) : (idle s).cont = s.cont := rfl
@[simp] theorem idle_sofCur (s : State) : (idle s).sofCur = s.sofCur := rfl
@[simp] theorem idle_setupBuf (s : State) : (idle s).setupBuf = s.setupBuf := rfl
@[simp] theorem idle_replyBuf (s : State) : (idle s).replyBuf = s.replyBuf := rfl
@[simp] theorem idle_inited (s : State) : (idle s).inited = s.inited := rfl
@[simp] theorem idle_serialCached (s : State) : (idle s).serialCached = s.serialCached := rfl
@[simp] theorem idle_epr (s : State) : (idle s).epr = s.epr := rfl
@[simp] theorem idle_istr (s : State) : (idle s).istr = s.istr := rfl
@[simp] theorem idle_cntr (s : State) : (idle s).cntr = s.cntr := rfl
@[simp] theorem idle_daddr (s : State) : (idle s).daddr = s.daddr := rfl
@[simp] theorem idle_btable (s : State) : (idle s).btable = s.btable := rfl
@[simp] theorem idle_dppu (s : State) : (idle s).dppu = s.dppu := rfl
@[simp] theorem idle_pma (s : State) : (idle s).pma = s.pma := rfl
@[simp] theorem idle_mem (s : State) : (idle s).mem = s.mem := rfl
@[simp] theorem idle_script (s : State) : (idle s).script = s.script := rfl
@[simp] theorem idle_answers (s : State) : (idle s).answers = s.answers := rfl
@[simp] theorem idle_out (s : State) : (idle s).out = [] := rfl
@[simp] theorem idle_freeCount (s : State) : (idle s).freeCount = s.freeCount := rfl
@[simp] theorem idle_epIdIdle (s : State) : (idle s).epIdIdle = s.epIdIdle := rfl

end Sys2Proof.Machine
end

