-- ==== Sys2Proof/Laws/Memory.lean ====
section
/-! SUPPORT. The two memories: a byte reads back, others keep, and the canonical form is kept by every operation. -/

namespace Sys2Proof.Machine

@[simp] theorem Memory.read_nil (a : Nat) : Memory.read [] a = Memory.fill := rfl

theorem Memory.read_erase (m : Memory) (a c : Nat) :
    (m.erase a).read c = if c = a then Memory.fill else m.read c := by
  induction m with
  | nil => simp [Memory.erase]
  | cons p m ih =>
    obtain ⟨k, b⟩ := p
    by_cases hk : k = a
    · subst hk
      by_cases hc : k = c
      · subst hc; simpa [Memory.erase] using ih
      · simp [Memory.erase, Memory.read, ih, hc]
    · by_cases hc : k = c
      · subst hc; simp [Memory.erase, Memory.read, hk]
      · simp [Memory.erase, Memory.read, hk, ih, hc]

theorem Memory.not_mem_erase (m : Memory) (a : Nat) (b : Byte) : (a, b) ∉ m.erase a := by
  induction m with
  | nil => simp [Memory.erase]
  | cons p m ih =>
    obtain ⟨k, c⟩ := p
    by_cases hk : k = a
    · simpa [Memory.erase, hk] using ih
    · simp only [Memory.erase, hk, if_false, List.mem_cons, Prod.mk.injEq, not_or, not_and]
      exact ⟨fun h => absurd h.symm hk, ih⟩

theorem Memory.read_place (m : Memory) (a : Nat) (b : Byte) (c : Nat) (h : ∀ x, (a, x) ∉ m) :
    (m.place a b).read c = if c = a then b else m.read c := by
  induction m with
  | nil => by_cases hc : a = c <;> simp [Memory.place, Memory.read, hc, eq_comm]
  | cons p m ih =>
    obtain ⟨k, x⟩ := p
    have hk : k ≠ a := fun e => h x (by simp [e])
    have ih := ih fun y hy => h y (by simp [hy])
    by_cases ha : a < k
    · by_cases hc : a = c
      · subst hc; simp [Memory.place, Memory.read, ha]
      · simp [Memory.place, Memory.read, ha, hc, Ne.symm hc]
    · by_cases hc : k = c
      · subst hc; simp [Memory.place, Memory.read, ha, hk]
      · simp [Memory.place, Memory.read, ha, hc, ih]

/-- A stored byte reads back, and every other address reads as before. -/
theorem Memory.read_write (m : Memory) (a : Nat) (b : Byte) (c : Nat) :
    (m.write a b).read c = if c = a then b else m.read c := by
  unfold Memory.write
  by_cases hb : b = Memory.fill
  · simp [hb, Memory.read_erase]
  · by_cases hc : c = a
    · simp [hb, hc, Memory.read_place _ _ _ _ (Memory.not_mem_erase m a)]
    · simp [hb, hc, Memory.read_place _ _ _ _ (Memory.not_mem_erase m a), Memory.read_erase]

@[simp] theorem Memory.writeAll_nil (m : Memory) (a : Nat) : m.writeAll a [] = m := rfl

/-- Stored bytes read back in their places, and every other address reads as before. -/
theorem Memory.read_writeAll (m : Memory) (a : Nat) (bs : List Byte) (c : Nat) :
    (m.writeAll a bs).read c = if a ≤ c then bs.getD (c - a) (m.read c) else m.read c := by
  induction bs generalizing m a with
  | nil => simp [Memory.writeAll]
  | cons b bs ih =>
    simp only [Memory.writeAll, ih, Memory.read_write]
    by_cases h1 : a + 1 ≤ c
    · obtain ⟨d, rfl⟩ := Nat.exists_eq_add_of_le h1
      have : a + 1 + d - a = d + 1 := by omega
      simp [h1, this, show a ≤ a + 1 + d by omega, show a + 1 + d ≠ a by omega]
    · by_cases h2 : c = a
      · simp [h2]
      · simp [h1, h2, show ¬a ≤ c by omega]

theorem Memory.read_writeAll_of_lt (m : Memory) (a : Nat) (bs : List Byte) (c : Nat) (h : c < a) :
    (m.writeAll a bs).read c = m.read c := by
  rw [Memory.read_writeAll, if_neg (by omega)]

theorem Memory.read_writeAll_of_le (m : Memory) (a : Nat) (bs : List Byte) (c : Nat) (h : a + bs.length ≤ c) :
    (m.writeAll a bs).read c = m.read c := by
  rw [Memory.read_writeAll, if_pos (by omega), List.getD_eq_getElem?_getD, List.getElem?_eq_none (by omega)]
  rfl

theorem Memory.read_writeAll_outside (m : Memory) (a : Nat) (bs : List Byte) (c : Nat)
    (h : c < a ∨ a + bs.length ≤ c) : (m.writeAll a bs).read c = m.read c := by
  rcases h with h | h
  · exact Memory.read_writeAll_of_lt m a bs c h
  · exact Memory.read_writeAll_of_le m a bs c h

theorem Memory.read_writeAll_inside (m : Memory) (a : Nat) (bs : List Byte) (k : Nat) (h : k < bs.length) :
    (m.writeAll a bs).read (a + k) = bs[k] := by
  simp [Memory.read_writeAll, h]

/-! ## Blocks of bytes -/

@[simp] theorem Memory.length_readAll (m : Memory) (a n : Nat) : (m.readAll a n).length = n := by
  induction n generalizing a with
  | zero => rfl
  | succ n ih => simp [Memory.readAll, ih]

theorem Memory.getElem_readAll (m : Memory) (a n k : Nat) (h : k < (m.readAll a n).length) :
    (m.readAll a n)[k] = m.read (a + k) := by
  induction n generalizing a k with
  | zero => simp [Memory.readAll] at h
  | succ n ih =>
    cases k with
    | zero => simp [Memory.readAll]
    | succ k => simp [Memory.readAll, ih, Nat.add_left_comm, Nat.add_comm]

theorem Memory.readAll_congr (m m' : Memory) (a n : Nat) (h : ∀ k < n, m'.read (a + k) = m.read (a + k)) :
    m'.readAll a n = m.readAll a n := by
  apply List.ext_getElem (by simp)
  intro k h1 h2
  simp only [Memory.getElem_readAll]
  exact h k (by simpa using h1)

theorem Memory.readAll_writeAll (m : Memory) (a : Nat) (bs : List Byte) : (m.writeAll a bs).readAll a bs.length = bs := by
  apply List.ext_getElem (by simp)
  intro k h1 h2
  rw [Memory.getElem_readAll, Memory.read_writeAll_inside m a bs k h2]

theorem Memory.readAll_eq_of_read (m : Memory) (a : Nat) (bs : List Byte)
    (h : ∀ k (hk : k < bs.length), m.read (a + k) = bs[k]) : m.readAll a bs.length = bs := by
  apply List.ext_getElem (by simp)
  intro k h1 h2
  rw [Memory.getElem_readAll, h k h2]

theorem Memory.take_readAll (m : Memory) (a n k : Nat) (h : k ≤ n) : (m.readAll a n).take k = m.readAll a k := by
  apply List.ext_getElem (by simp [h])
  intro j h1 h2
  simp [Memory.getElem_readAll]

theorem Memory.drop_readAll (m : Memory) (a n k : Nat) : (m.readAll a n).drop k = m.readAll (a + k) (n - k) := by
  apply List.ext_getElem (by simp)
  intro j h1 h2
  simp [Memory.getElem_readAll, Nat.add_assoc]

theorem Memory.writeAll_append (m : Memory) (a : Nat) (bs cs : List Byte) :
    m.writeAll a (bs ++ cs) = (m.writeAll a bs).writeAll (a + bs.length) cs := by
  induction bs generalizing m a with
  | nil => simp
  | cons b bs ih => simp [Memory.writeAll, ih, Nat.add_assoc, Nat.add_comm]

/-! ## Words -/

theorem toNat_le16 (lo hi : Byte) : (le16 lo hi).toNat = 256 * hi.toNat + lo.toNat := by
  have h : (le16 lo hi).toNat = hi.toNat <<< 8 ||| lo.toNat := BitVec.toNat_append hi lo
  rw [h, ← Nat.shiftLeft_add_eq_or_of_lt lo.isLt, Nat.shiftLeft_eq]
  omega

theorem toNat_loByte (w : Word) : (loByte w).toNat = w.toNat % 256 := by
  simp [loByte, BitVec.extractLsb'_toNat]

theorem toNat_hiByte (w : Word) : (hiByte w).toNat = w.toNat / 256 := by
  have := w.isLt
  simp only [hiByte, BitVec.extractLsb'_toNat, Nat.shiftRight_eq_div_pow]
  omega

@[simp] theorem loByte_le16 (lo hi : Byte) : loByte (le16 lo hi) = lo := by
  apply BitVec.eq_of_toNat_eq
  have := lo.isLt
  rw [toNat_loByte, toNat_le16]; omega

@[simp] theorem hiByte_le16 (lo hi : Byte) : hiByte (le16 lo hi) = hi := by
  apply BitVec.eq_of_toNat_eq
  have := lo.isLt
  rw [toNat_hiByte, toNat_le16]; omega

@[simp] theorem le16_loByte_hiByte (w : Word) : le16 (loByte w) (hiByte w) = w := by
  apply BitVec.eq_of_toNat_eq
  rw [toNat_le16, toNat_loByte, toNat_hiByte]; omega

theorem Memory.word_congr (m m' : Memory) (a : Nat) (h0 : m'.read a = m.read a) (h1 : m'.read (a + 1) = m.read (a + 1)) :
    m'.word a = m.word a := by simp [Memory.word, h0, h1]

theorem Memory.word_writeAll_self (m : Memory) (a : Nat) (w : Word) :
    (m.writeAll a [loByte w, hiByte w]).word a = w := by
  simp [Memory.word, Memory.read_writeAll]

theorem Memory.word_writeAll_outside (m : Memory) (a : Nat) (bs : List Byte) (c : Nat)
    (h : c + 1 < a ∨ a + bs.length ≤ c) : (m.writeAll a bs).word c = m.word c := by
  apply Memory.word_congr <;> apply Memory.read_writeAll_outside <;> omega

/-! ## The canonical form -/

theorem Memory.wfFrom_mono {lo lo' : Nat} (h : lo' ≤ lo) {m : Memory} (hm : Memory.wfFrom lo m = true) :
    Memory.wfFrom lo' m = true := by
  cases m with
  | nil => rfl
  | cons p m =>
    obtain ⟨k, b⟩ := p
    simp only [Memory.wfFrom, Bool.and_eq_true, decide_eq_true_eq] at hm ⊢
    exact ⟨⟨by omega, hm.1.2⟩, hm.2⟩

theorem Memory.wfFrom_erase (lo : Nat) (m : Memory) (a : Nat) (hm : Memory.wfFrom lo m = true) :
    Memory.wfFrom lo (m.erase a) = true := by
  induction m generalizing lo with
  | nil => rfl
  | cons p m ih =>
    obtain ⟨k, b⟩ := p
    simp only [Memory.wfFrom, Bool.and_eq_true, decide_eq_true_eq] at hm
    by_cases hk : k = a
    · simp only [Memory.erase, hk, if_true]
      exact ih lo (Memory.wfFrom_mono (by omega) hm.2)
    · simp only [Memory.erase, hk, if_false, Memory.wfFrom, Bool.and_eq_true, decide_eq_true_eq]
      exact ⟨hm.1, ih _ hm.2⟩

theorem Memory.wfFrom_place (lo : Nat) (m : Memory) (a : Nat) (b : Byte) (ha : lo ≤ a) (hb : b ≠ Memory.fill)
    (hm : Memory.wfFrom lo m = true) (h : ∀ x, (a, x) ∉ m) : Memory.wfFrom lo (m.place a b) = true := by
  induction m generalizing lo with
  | nil => simp [Memory.place, Memory.wfFrom, ha, hb]
  | cons p m ih =>
    obtain ⟨k, c⟩ := p
    simp only [Memory.wfFrom, Bool.and_eq_true, decide_eq_true_eq] at hm
    have hk : k ≠ a := fun e => h c (by simp [e])
    by_cases hl : a < k
    · simp only [Memory.place, hl, if_true, Memory.wfFrom, Bool.and_eq_true, decide_eq_true_eq]
      exact ⟨⟨ha, hb⟩, ⟨by omega, hm.1.2⟩, hm.2⟩
    · simp only [Memory.place, hl, if_false, Memory.wfFrom, Bool.and_eq_true, decide_eq_true_eq]
      exact ⟨hm.1, ih (k + 1) (by omega) hm.2 fun x hx => h x (by simp [hx])⟩

/-- A write keeps the canonical form. -/
theorem Memory.wf_write (m : Memory) (a : Nat) (b : Byte) (hm : m.wf = true) : (m.write a b).wf = true := by
  unfold Memory.write
  by_cases hb : b = Memory.fill
  · simp only [hb, if_true]; exact Memory.wfFrom_erase 0 m a hm
  · simp only [hb, if_false]
    exact Memory.wfFrom_place 0 _ a b (Nat.zero_le a) hb (Memory.wfFrom_erase 0 m a hm) (Memory.not_mem_erase m a)

/-- A block of writes keeps the canonical form. -/
theorem Memory.wf_writeAll (m : Memory) (a : Nat) (bs : List Byte) (hm : m.wf = true) : (m.writeAll a bs).wf = true := by
  induction bs generalizing m a with
  | nil => exact hm
  | cons b bs ih => exact ih _ _ (Memory.wf_write m a b hm)

theorem Memory.wf_nil : Memory.wf [] = true := rfl

theorem Memory.reset_wf : State.reset.pma.wf = true ∧ State.reset.mem.wf = true := ⟨rfl, rfl⟩

theorem Memory.read_of_wfFrom {lo : Nat} {m : Memory} (hm : Memory.wfFrom lo m = true) {a : Nat} (ha : a < lo) :
    m.read a = Memory.fill := by
  induction m generalizing lo with
  | nil => rfl
  | cons p m ih =>
    obtain ⟨k, b⟩ := p
    simp only [Memory.wfFrom, Bool.and_eq_true, decide_eq_true_eq] at hm
    simp only [Memory.read, show k ≠ a by omega, if_false]
    exact ih hm.2 (by omega)

end Sys2Proof.Machine
end

