-- ==== Sys2Proof/Laws/Registers.lean ====
section
/-! SUPPORT. Endpoint registers: what each word written makes of a register, which fields a change inside a mask keeps,
and every register operation as one update of one register. -/

namespace Sys2Proof.Machine

/-! ## Words written -/

/-- `epr_update` sets the selected fields and keeps every other bit (42_toggle_write.md R177). -/
theorem writeEffect_updateWord (r sel tgt : Word) (hs : sel &&& ~~~toggleMask = 0) (ht : tgt &&& ~~~sel = 0) :
    writeEffect r (updateWord r sel tgt) = (r &&& ~~~sel) ||| tgt := by
  apply BitVec.eq_of_getLsbD_eq
  intro i hi
  have h1 := congrArg (fun v => v.getLsbD i) hs
  have h2 := congrArg (fun v => v.getLsbD i) ht
  simp only [writeEffect, updateWord, rwMask, ctrMask, toggleMask, setupMask, BitVec.getLsbD_and, BitVec.getLsbD_or,
    BitVec.getLsbD_xor, BitVec.getLsbD_not, hi, decide_true, Bool.true_and] at h1 h2 ⊢
  revert h1 h2
  generalize r.getLsbD i = x
  generalize sel.getLsbD i = y
  generalize tgt.getLsbD i = z
  interval_cases i <;> revert x y z <;> decide

theorem writeEffect_clearCtrRx (r : Word) : writeEffect r (clearCtrRxWord r) = r &&& ~~~ctrRxMask := by
  apply BitVec.eq_of_getLsbD_eq
  intro i hi
  simp only [writeEffect, clearCtrRxWord, rwMask, ctrMask, toggleMask, setupMask, ctrTxMask, ctrRxMask,
    BitVec.getLsbD_and, BitVec.getLsbD_or, BitVec.getLsbD_xor, BitVec.getLsbD_not, hi, decide_true, Bool.true_and]
  generalize r.getLsbD i = x
  interval_cases i <;> revert x <;> decide

theorem writeEffect_clearCtrTx (r : Word) : writeEffect r (clearCtrTxWord r) = r &&& ~~~ctrTxMask := by
  apply BitVec.eq_of_getLsbD_eq
  intro i hi
  simp only [writeEffect, clearCtrTxWord, rwMask, ctrMask, toggleMask, setupMask, ctrTxMask, ctrRxMask,
    BitVec.getLsbD_and, BitVec.getLsbD_or, BitVec.getLsbD_xor, BitVec.getLsbD_not, hi, decide_true, Bool.true_and]
  generalize r.getLsbD i = x
  interval_cases i <;> revert x <;> decide

theorem writeEffect_zero (r : Word) : writeEffect r (zeroWord r) = r &&& setupMask := by
  apply BitVec.eq_of_getLsbD_eq
  intro i hi
  simp only [writeEffect, zeroWord, rwMask, ctrMask, toggleMask, setupMask,
    BitVec.getLsbD_and, BitVec.getLsbD_or, BitVec.getLsbD_xor]
  generalize r.getLsbD i = x
  interval_cases i <;> revert x <;> decide

theorem writeEffect_typeAddr (r : Word) (k : TypeCodes) (t : EpType) (ea : BitVec 4) :
    writeEffect r (typeAddrWord k t ea) =
      (r &&& ~~~rwMask) ||| ((t.code k).setWidth 16 <<< 9 ||| ea.setWidth 16) := by
  apply BitVec.eq_of_getLsbD_eq
  intro i hi
  unfold typeAddrWord
  generalize t.code k = c
  simp only [writeEffect, rwMask, ctrMask, toggleMask, setupMask, BitVec.getLsbD_setWidth,
    BitVec.getLsbD_and, BitVec.getLsbD_or, BitVec.getLsbD_xor, BitVec.getLsbD_not, hi, decide_true, Bool.true_and]
  generalize r.getLsbD i = x
  interval_cases i <;> revert ea x c <;> decide

/-! ## Bits and fields outside a mask -/

/-- A bit outside the mask keeps its value. -/
theorem bit_of_outside {r r' m : Word} (h : r' &&& ~~~m = r &&& ~~~m) {k : Nat} (hk : m.getLsbD k = false) :
    r'.getLsbD k = r.getLsbD k := by
  have := congrArg (fun v => v.getLsbD k) h
  by_cases h16 : k < 16
  · simpa only [BitVec.getLsbD_and, BitVec.getLsbD_not, hk, h16, decide_true, Bool.true_and, Bool.not_false,
      Bool.and_true] using this
  · rw [BitVec.getLsbD_of_ge r' k (by omega), BitVec.getLsbD_of_ge r k (by omega)]

theorem getLsbD_zero_word (k : Nat) : (0 : Word).getLsbD k = false := by simp

theorem getLsbD_of_and_zero {m f : Word} (h : m &&& f = 0) {k : Nat} (hf : f.getLsbD k = true) : m.getLsbD k = false := by
  have := congrArg (fun v => v.getLsbD k) h
  simpa [hf] using this

theorem statTx_of_outside {r r' m : Word} (h : r' &&& ~~~m = r &&& ~~~m) (hm : m &&& 0x0030 = 0) :
    Epr.statTx r' = Epr.statTx r := by
  refine congrArg Stat.ofCode (BitVec.eq_of_getLsbD_eq fun i hi => ?_)
  simp only [BitVec.getLsbD_extractLsb', hi, decide_true, Bool.true_and]
  exact bit_of_outside h (getLsbD_of_and_zero hm (by interval_cases i <;> rfl))

theorem statRx_of_outside {r r' m : Word} (h : r' &&& ~~~m = r &&& ~~~m) (hm : m &&& 0x3000 = 0) :
    Epr.statRx r' = Epr.statRx r := by
  refine congrArg Stat.ofCode (BitVec.eq_of_getLsbD_eq fun i hi => ?_)
  simp only [BitVec.getLsbD_extractLsb', hi, decide_true, Bool.true_and]
  exact bit_of_outside h (getLsbD_of_and_zero hm (by interval_cases i <;> rfl))

theorem epType_of_outside {k : TypeCodes} {r r' m : Word} (h : r' &&& ~~~m = r &&& ~~~m) (hm : m &&& 0x0600 = 0) :
    Epr.epType k r' = Epr.epType k r := by
  refine congrArg (EpType.ofCode k) (BitVec.eq_of_getLsbD_eq fun i hi => ?_)
  simp only [BitVec.getLsbD_extractLsb', hi, decide_true, Bool.true_and]
  exact bit_of_outside h (getLsbD_of_and_zero hm (by interval_cases i <;> rfl))

theorem ea_of_outside {r r' m : Word} (h : r' &&& ~~~m = r &&& ~~~m) (hm : m &&& 0x000F = 0) :
    Epr.ea r' = Epr.ea r := by
  refine BitVec.eq_of_getLsbD_eq fun i hi => ?_
  simp only [Epr.ea, BitVec.getLsbD_extractLsb', hi, decide_true, Bool.true_and]
  exact bit_of_outside h (getLsbD_of_and_zero hm (by interval_cases i <;> rfl))

theorem epKind_of_outside {r r' m : Word} (h : r' &&& ~~~m = r &&& ~~~m) (hm : m &&& 0x0100 = 0) :
    Epr.epKind r' = Epr.epKind r := bit_of_outside h (getLsbD_of_and_zero hm rfl)

theorem setup_of_outside {r r' m : Word} (h : r' &&& ~~~m = r &&& ~~~m) (hm : m &&& 0x0800 = 0) :
    Epr.setup r' = Epr.setup r := bit_of_outside h (getLsbD_of_and_zero hm rfl)

theorem ctrRx_of_outside {r r' m : Word} (h : r' &&& ~~~m = r &&& ~~~m) (hm : m &&& 0x8000 = 0) :
    Epr.ctrRx r' = Epr.ctrRx r := bit_of_outside h (getLsbD_of_and_zero hm rfl)

theorem ctrTx_of_outside {r r' m : Word} (h : r' &&& ~~~m = r &&& ~~~m) (hm : m &&& 0x0080 = 0) :
    Epr.ctrTx r' = Epr.ctrTx r := bit_of_outside h (getLsbD_of_and_zero hm rfl)

theorem dtogTx_of_outside {r r' m : Word} (h : r' &&& ~~~m = r &&& ~~~m) (hm : m &&& 0x0040 = 0) :
    Epr.dtogTx r' = Epr.dtogTx r := bit_of_outside h (getLsbD_of_and_zero hm rfl)

theorem dtogRx_of_outside {r r' m : Word} (h : r' &&& ~~~m = r &&& ~~~m) (hm : m &&& 0x4000 = 0) :
    Epr.dtogRx r' = Epr.dtogRx r := bit_of_outside h (getLsbD_of_and_zero hm rfl)

/-- A word with fields set inside a mask differs inside that mask only. -/
theorem outside_of_set (r m v : Word) (hv : v &&& ~~~m = 0) : ((r &&& ~~~m) ||| v) &&& ~~~m = r &&& ~~~m := by
  apply BitVec.eq_of_getLsbD_eq
  intro i hi
  have h := congrArg (fun v => v.getLsbD i) hv
  simp only [BitVec.getLsbD_and, BitVec.getLsbD_or, BitVec.getLsbD_not, hi, decide_true, Bool.true_and,
    getLsbD_zero_word] at h ⊢
  revert h
  generalize r.getLsbD i = x
  generalize m.getLsbD i = y
  generalize v.getLsbD i = z
  revert x y z
  decide

/-- The fields set are the ones given. -/
theorem inside_of_set (r m v : Word) (hv : v &&& ~~~m = 0) : ((r &&& ~~~m) ||| v) &&& m = v := by
  apply BitVec.eq_of_getLsbD_eq
  intro i hi
  have h := congrArg (fun v => v.getLsbD i) hv
  simp only [BitVec.getLsbD_and, BitVec.getLsbD_or, BitVec.getLsbD_not, hi, decide_true, Bool.true_and,
    getLsbD_zero_word] at h ⊢
  revert h
  generalize r.getLsbD i = x
  generalize m.getLsbD i = y
  generalize v.getLsbD i = z
  revert x y z
  decide

theorem outside_of_clear (r m : Word) : (r &&& ~~~m) &&& ~~~m = r &&& ~~~m := by
  rw [BitVec.and_assoc, BitVec.and_self]

/-- Equal outside a mask is equal outside a larger one. -/
theorem outside_mono {r r' m n : Word} (h : r' &&& ~~~m = r &&& ~~~m) (hmn : m &&& ~~~n = 0) :
    r' &&& ~~~n = r &&& ~~~n := by
  apply BitVec.eq_of_getLsbD_eq
  intro i hi
  have h1 := congrArg (fun v => v.getLsbD i) h
  have h2 := congrArg (fun v => v.getLsbD i) hmn
  simp only [BitVec.getLsbD_and, BitVec.getLsbD_not, hi, decide_true, Bool.true_and,
    getLsbD_zero_word] at h1 h2 ⊢
  revert h1 h2
  generalize r.getLsbD i = x
  generalize r'.getLsbD i = x'
  generalize m.getLsbD i = y
  generalize n.getLsbD i = z
  revert x x' y z
  decide

/-! ## Fields set -/

theorem Stat.ofCode_code (s : Stat) : Stat.ofCode s.code = s := by cases s <;> rfl

/-- The codes of a legal layout tell the types apart (00_scope.md R10). -/
theorem EpType.ofCode_code {y : Layout} (h : y.ok = true) (t : EpType) :
    EpType.ofCode y.typeCodes (t.code y.typeCodes) = t := by
  simp only [Layout.ok, Bool.and_eq_true, decide_eq_true_eq, List.nodup_cons, List.mem_cons, not_or] at h
  obtain ⟨-, ⟨h1, h2, h3, -⟩, ⟨h4, h5, -⟩, ⟨h6, -⟩, -⟩ := h
  cases t <;> simp [EpType.code, EpType.ofCode, Ne.symm, h1, h2, h3, h4, h5, h6]

theorem extract_of_bits {n : Nat} {r : Word} {k : Nat} {v : BitVec n} (h : ∀ i < n, r.getLsbD (k + i) = v.getLsbD i) :
    r.extractLsb' k n = v := by
  refine BitVec.eq_of_getLsbD_eq fun i hi => ?_
  simp only [BitVec.getLsbD_extractLsb', hi, decide_true, Bool.true_and]
  exact h i hi

/-- A register whose bits 5:4 are those of `st` shows that state. -/
theorem statTx_of_inside {r' : Word} {st : Stat} (h : r' &&& 0x0030 = st.inTx) : Epr.statTx r' = st := by
  have e : r'.extractLsb' 4 2 = st.code := by
    refine extract_of_bits fun i hi => ?_
    have := congrArg (fun v => v.getLsbD (4 + i)) h
    revert this
    cases st <;> interval_cases i <;> simp [Stat.inTx, Stat.code]
  rw [Epr.statTx, e, Stat.ofCode_code]

theorem statRx_of_inside {r' : Word} {st : Stat} (h : r' &&& 0x3000 = st.inRx) : Epr.statRx r' = st := by
  have e : r'.extractLsb' 12 2 = st.code := by
    refine extract_of_bits fun i hi => ?_
    have := congrArg (fun v => v.getLsbD (12 + i)) h
    revert this
    cases st <;> interval_cases i <;> simp [Stat.inRx, Stat.code]
  rw [Epr.statRx, e, Stat.ofCode_code]

theorem and_of_and {r m f v : Word} (h : r &&& m = v) (hf : f &&& ~~~m = 0) : r &&& f = v &&& f := by
  subst h
  apply BitVec.eq_of_getLsbD_eq
  intro i hi
  have h2 := congrArg (fun v => v.getLsbD i) hf
  simp only [BitVec.getLsbD_and, BitVec.getLsbD_not, hi, decide_true, Bool.true_and,
    getLsbD_zero_word] at h2 ⊢
  revert h2
  generalize r.getLsbD i = x
  generalize m.getLsbD i = y
  generalize f.getLsbD i = z
  revert x y z
  decide

theorem getLsbD_of_and {r m v : Word} (h : r &&& m = v) {k : Nat} (hk : m.getLsbD k = true) : r.getLsbD k = v.getLsbD k := by
  subst h; simp [hk]

/-! ## One register of the file -/

theorem epr_setEpr (i j : Fin 8) (w : Word) (s : State) : (setEpr i w s).epr[j] = if j = i then w else s.epr[j] := by
  by_cases h : j = i
  · subst h; simp [setEpr]
  · have : ¬ i.val = j.val := fun e => h (Fin.ext e.symm)
    simp [setEpr, h, this]

theorem setEpr_setEpr (i : Fin 8) (v w : Word) (s : State) : setEpr i w (setEpr i v s) = setEpr i w s := by
  simp [setEpr, Vector.set_set]

/-- Writing one register inside a mask is a `OneReg` change. -/
theorem oneReg_setEpr {s : State} {i : Fin 8} {w mask : Word} (h : w &&& ~~~mask = s.epr[i] &&& ~~~mask) :
    OneReg s (setEpr i w s) i mask :=
  ⟨by rw [epr_setEpr, if_pos rfl, h], fun j hj => by rw [epr_setEpr, if_neg hj], rfl⟩

theorem OneReg.mono {s t : State} {i : Fin 8} {m n : Word} (h : OneReg s t i m) (hmn : m &&& ~~~n = 0) : OneReg s t i n :=
  ⟨outside_mono h.outside hmn, h.others, h.frame⟩

theorem OneReg.trans {s t u : State} {i : Fin 8} {m : Word} (h : OneReg s t i m) (g : OneReg t u i m) : OneReg s u i m := by
  refine ⟨g.outside.trans h.outside, fun j hj => (g.others j hj).trans (h.others j hj), ?_⟩
  rw [g.frame, h.frame]

theorem OneReg.eq_setEpr {s t : State} {i : Fin 8} {m : Word} (h : OneReg s t i m) : t = setEpr i t.epr[i] s := by
  have : t.epr = s.epr.set i t.epr[i] := by
    apply Vector.ext
    intro k hk
    by_cases e : k = i.val
    · subst e; simp
    · have := h.others ⟨k, hk⟩ fun e' => e (congrArg Fin.val e')
      simpa [Vector.getElem_set, Ne.symm e] using this
  rw [h.frame]
  simp only [setEpr]
  rw [← this]

/-! ## The driver operations (42_toggle_write.md R179 to R187) as one register update -/

theorem inTx_sub (st : Stat) : st.inTx &&& ~~~(0x0030 : Word) = 0 := by cases st <;> rfl

theorem inRx_sub (st : Stat) : st.inRx &&& ~~~(0x3000 : Word) = 0 := by cases st <;> rfl

theorem eprUpdate_eq (i : Fin 8) (sel tgt : Word) (s : State) (hs : sel &&& ~~~toggleMask = 0)
    (ht : tgt &&& ~~~sel = 0) : eprUpdate i sel tgt s = setEpr i ((s.epr[i] &&& ~~~sel) ||| tgt) s := by
  simp only [eprUpdate, eprWrite, writeEffect_updateWord _ _ _ hs ht, setEpr]

theorem eprSetStatTx_eq (i : Fin 8) (st : Stat) (s : State) :
    eprSetStatTx i st s = setEpr i ((s.epr[i] &&& ~~~0x0030) ||| st.inTx) s :=
  eprUpdate_eq i _ _ s (by decide) (by cases st <;> decide)

theorem eprSetStatRx_eq (i : Fin 8) (st : Stat) (s : State) :
    eprSetStatRx i st s = setEpr i ((s.epr[i] &&& ~~~0x3000) ||| st.inRx) s :=
  eprUpdate_eq i _ _ s (by decide) (by cases st <;> decide)

theorem eprSetStatTxDtog0_eq (i : Fin 8) (st : Stat) (s : State) :
    eprSetStatTxDtog0 i st s = setEpr i ((s.epr[i] &&& ~~~0x0070) ||| st.inTx) s :=
  eprUpdate_eq i _ _ s (by decide) (by cases st <;> decide)

theorem eprSetStatRxDtog0_eq (i : Fin 8) (st : Stat) (s : State) :
    eprSetStatRxDtog0 i st s = setEpr i ((s.epr[i] &&& ~~~0x7000) ||| st.inRx) s :=
  eprUpdate_eq i _ _ s (by decide) (by cases st <;> decide)

/-- The bits `epr_set_stat_both` sets. -/
theorem bothMask_eq (c : Bool) : bothMask c = if c then 0x7070 else 0x3030 := by cases c <;> decide

theorem eprSetStatBoth_eq (i : Fin 8) (stx srx : Stat) (c : Bool) (s : State) :
    eprSetStatBoth i stx srx c s = setEpr i ((s.epr[i] &&& ~~~(bothMask c)) ||| (stx.inTx ||| srx.inRx)) s :=
  eprUpdate_eq i _ _ s (by cases c <;> decide) (by cases c <;> cases stx <;> cases srx <;> decide)

theorem eprClearCtrRx_eq (i : Fin 8) (s : State) : eprClearCtrRx i s = setEpr i (s.epr[i] &&& ~~~0x8000) s := by
  simp only [eprClearCtrRx, eprWrite, writeEffect_clearCtrRx, setEpr, ctrRxMask]

theorem eprClearCtrTx_eq (i : Fin 8) (s : State) : eprClearCtrTx i s = setEpr i (s.epr[i] &&& ~~~0x0080) s := by
  simp only [eprClearCtrTx, eprWrite, writeEffect_clearCtrTx, setEpr, ctrTxMask]

theorem eprSetTypeAddr_eq (i : Fin 8) (t : EpType) (ea : BitVec 4) (s : State) :
    eprSetTypeAddr i t ea s =
      setEpr i ((s.epr[i] &&& ~~~(0x070F : Word)) |||
        ((t.code s.cfg.layout.typeCodes).setWidth 16 <<< 9 ||| ea.setWidth 16)) s := by
  simp only [eprSetTypeAddr, eprWrite, writeEffect_typeAddr, setEpr, rwMask]

theorem eprZero_eq (i : Fin 8) (s : State) : eprZero i s = setEpr i (s.epr[i] &&& 0x0800) s := by
  simp only [eprZero, eprWrite, writeEffect_zero, setEpr, setupMask]

/-! ## What each driver operation does -/

theorem eprSetStatTx_oneReg (i : Fin 8) (st : Stat) (s : State) : OneReg s (eprSetStatTx i st s) i 0x0030 := by
  rw [eprSetStatTx_eq]; exact oneReg_setEpr (outside_of_set _ _ _ (inTx_sub st))

theorem eprSetStatTx_statTx (i : Fin 8) (st : Stat) (s : State) : Epr.statTx (eprSetStatTx i st s).epr[i] = st := by
  rw [eprSetStatTx_eq, epr_setEpr, if_pos rfl]; exact statTx_of_inside (inside_of_set _ _ _ (inTx_sub st))

theorem eprSetStatRx_oneReg (i : Fin 8) (st : Stat) (s : State) : OneReg s (eprSetStatRx i st s) i 0x3000 := by
  rw [eprSetStatRx_eq]; exact oneReg_setEpr (outside_of_set _ _ _ (inRx_sub st))

theorem eprSetStatRx_statRx (i : Fin 8) (st : Stat) (s : State) : Epr.statRx (eprSetStatRx i st s).epr[i] = st := by
  rw [eprSetStatRx_eq, epr_setEpr, if_pos rfl]; exact statRx_of_inside (inside_of_set _ _ _ (inRx_sub st))

theorem inTx_sub' (st : Stat) : st.inTx &&& ~~~(0x0070 : Word) = 0 := by cases st <;> rfl

theorem inRx_sub' (st : Stat) : st.inRx &&& ~~~(0x7000 : Word) = 0 := by cases st <;> rfl

theorem eprSetStatTxDtog0_oneReg (i : Fin 8) (st : Stat) (s : State) :
    OneReg s (eprSetStatTxDtog0 i st s) i 0x0070 := by
  rw [eprSetStatTxDtog0_eq]; exact oneReg_setEpr (outside_of_set _ _ _ (inTx_sub' st))

theorem eprSetStatTxDtog0_fields (i : Fin 8) (st : Stat) (s : State) :
    Epr.statTx (eprSetStatTxDtog0 i st s).epr[i] = st ∧ Epr.dtogTx (eprSetStatTxDtog0 i st s).epr[i] = false := by
  rw [eprSetStatTxDtog0_eq, epr_setEpr, if_pos rfl]
  have h := inside_of_set s.epr[i] _ _ (inTx_sub' st)
  refine ⟨statTx_of_inside ((and_of_and h (by decide)).trans (by cases st <;> rfl)), ?_⟩
  exact (getLsbD_of_and h (by decide)).trans (by cases st <;> rfl)

theorem eprSetStatRxDtog0_oneReg (i : Fin 8) (st : Stat) (s : State) :
    OneReg s (eprSetStatRxDtog0 i st s) i 0x7000 := by
  rw [eprSetStatRxDtog0_eq]; exact oneReg_setEpr (outside_of_set _ _ _ (inRx_sub' st))

theorem eprSetStatRxDtog0_fields (i : Fin 8) (st : Stat) (s : State) :
    Epr.statRx (eprSetStatRxDtog0 i st s).epr[i] = st ∧ Epr.dtogRx (eprSetStatRxDtog0 i st s).epr[i] = false := by
  rw [eprSetStatRxDtog0_eq, epr_setEpr, if_pos rfl]
  have h := inside_of_set s.epr[i] _ _ (inRx_sub' st)
  refine ⟨statRx_of_inside ((and_of_and h (by decide)).trans (by cases st <;> rfl)), ?_⟩
  exact (getLsbD_of_and h (by decide)).trans (by cases st <;> rfl)

theorem both_sub (stx srx : Stat) (c : Bool) : (stx.inTx ||| srx.inRx) &&& ~~~(bothMask c) = 0 := by
  cases stx <;> cases srx <;> cases c <;> decide

theorem eprSetStatBoth_oneReg (i : Fin 8) (stx srx : Stat) (c : Bool) (s : State) :
    OneReg s (eprSetStatBoth i stx srx c s) i (bothMask c) := by
  rw [eprSetStatBoth_eq]; exact oneReg_setEpr (outside_of_set _ _ _ (both_sub stx srx c))

theorem eprSetStatBoth_fields (i : Fin 8) (stx srx : Stat) (c : Bool) (s : State) :
    Epr.statTx (eprSetStatBoth i stx srx c s).epr[i] = stx ∧ Epr.statRx (eprSetStatBoth i stx srx c s).epr[i] = srx ∧
    (c = true → Epr.dtogTx (eprSetStatBoth i stx srx c s).epr[i] = false ∧
      Epr.dtogRx (eprSetStatBoth i stx srx c s).epr[i] = false) := by
  rw [eprSetStatBoth_eq, epr_setEpr, if_pos rfl]
  have h := inside_of_set s.epr[i] _ _ (both_sub stx srx c)
  refine ⟨statTx_of_inside ((and_of_and h (by cases c <;> decide)).trans (by cases stx <;> cases srx <;> rfl)),
    statRx_of_inside ((and_of_and h (by cases c <;> decide)).trans (by cases stx <;> cases srx <;> rfl)), ?_⟩
  rintro rfl
  exact ⟨(getLsbD_of_and h (by decide)).trans (by cases stx <;> cases srx <;> rfl),
    (getLsbD_of_and h (by decide)).trans (by cases stx <;> cases srx <;> rfl)⟩

theorem eprClearCtrRx_oneReg (i : Fin 8) (s : State) : OneReg s (eprClearCtrRx i s) i 0x8000 := by
  rw [eprClearCtrRx_eq]; exact oneReg_setEpr (outside_of_clear _ _)

theorem eprClearCtrRx_ctrRx (i : Fin 8) (s : State) : Epr.ctrRx (eprClearCtrRx i s).epr[i] = false := by
  rw [eprClearCtrRx_eq, epr_setEpr, if_pos rfl]; simp [Epr.ctrRx]

theorem eprClearCtrTx_oneReg (i : Fin 8) (s : State) : OneReg s (eprClearCtrTx i s) i 0x0080 := by
  rw [eprClearCtrTx_eq]; exact oneReg_setEpr (outside_of_clear _ _)

theorem eprClearCtrTx_ctrTx (i : Fin 8) (s : State) : Epr.ctrTx (eprClearCtrTx i s).epr[i] = false := by
  rw [eprClearCtrTx_eq, epr_setEpr, if_pos rfl]; simp [Epr.ctrTx]

theorem typeAddr_sub (c : BitVec 2) (ea : BitVec 4) :
    (c.setWidth 16 <<< 9 ||| ea.setWidth 16 : Word) &&& ~~~(0x070F : Word) = 0 := by
  revert ea c; decide

theorem eprSetTypeAddr_oneReg (i : Fin 8) (t : EpType) (ea : BitVec 4) (s : State) :
    OneReg s (eprSetTypeAddr i t ea s) i 0x070F := by
  rw [eprSetTypeAddr_eq]; exact oneReg_setEpr (outside_of_set _ _ _ (typeAddr_sub _ ea))

theorem eprSetTypeAddr_fields (i : Fin 8) (t : EpType) (ea : BitVec 4) (s : State) :
    (s.cfg.layout.ok = true → Epr.epType s.cfg.layout.typeCodes (eprSetTypeAddr i t ea s).epr[i] = t) ∧
    Epr.ea (eprSetTypeAddr i t ea s).epr[i] = ea ∧ Epr.epKind (eprSetTypeAddr i t ea s).epr[i] = false := by
  rw [eprSetTypeAddr_eq, epr_setEpr, if_pos rfl]
  have ht := fun hy => EpType.ofCode_code (y := s.cfg.layout) hy t
  generalize t.code s.cfg.layout.typeCodes = c at ht ⊢
  have h := inside_of_set s.epr[i] _ _ (typeAddr_sub c ea)
  generalize (s.epr[i] &&& ~~~(0x070F : Word)) ||| (c.setWidth 16 <<< 9 ||| ea.setWidth 16) = r at h
  have hk : ∀ k, (0x070F : Word).getLsbD k = true →
      r.getLsbD k = (c.setWidth 16 <<< 9 ||| ea.setWidth 16 : Word).getLsbD k := fun k hk => getLsbD_of_and h hk
  refine ⟨fun hy => ?_, ?_, ?_⟩
  · have e : r.extractLsb' 9 2 = c := by
      refine extract_of_bits fun j hj => ?_
      rw [hk (9 + j) (by interval_cases j <;> decide)]
      clear h hk ht
      interval_cases j <;> revert ea c <;> decide
    rw [Epr.epType, e, ht hy]
  · refine extract_of_bits fun j hj => ?_
    rw [hk (0 + j) (by interval_cases j <;> decide)]
    clear h hk ht
    interval_cases j <;> revert ea c <;> decide
  · refine (hk 8 (by decide)).trans ?_
    clear h hk ht
    revert ea c; decide

theorem eprZero_epr (i : Fin 8) (s : State) : (eprZero i s).epr[i] = s.epr[i] &&& 0x0800 := by
  rw [eprZero_eq, epr_setEpr, if_pos rfl]

theorem protocolReject_stalled (s : State) : Stalled s (protocolReject s) :=
  ⟨eprSetStatBoth_oneReg 0 .stall .stall false s, (eprSetStatBoth_fields 0 .stall .stall false s).1,
    (eprSetStatBoth_fields 0 .stall .stall false s).2.1⟩

end Sys2Proof.Machine
end

