-- ==== Sys2Proof/Laws/Layout.lean ====
section
/-! SUPPORT. What a well-formed configuration says of the layout: sizes, places and the bound of the PMA. -/

namespace Sys2Proof.Machine

theorem toList_seven {α : Type} (v : Vector α 7) : v.toList = [v[0], v[1], v[2], v[3], v[4], v[5], v[6]] := by
  apply List.ext_getElem (by simp)
  intro i h1 h2
  have h : i < 7 := by simpa using h1
  interval_cases i <;> simp

theorem slot_zero (c : Config) : slot c 0 = ⟨.control, 64, 64⟩ := rfl

theorem sizeIn_zero (c : Config) : sizeIn c 0 = 64 := rfl

theorem sizeOut_zero (c : Config) : sizeOut c 0 = 64 := rfl

/-- A slot 1..7 of a well-formed configuration is well-formed. -/
theorem slotOk_of_configOk {c : Config} (h : configOk c = true) (i : Fin 8) (hi : i ≠ 0) : slotOk (slot c i) = true := by
  simp only [configOk, Bool.and_eq_true, toList_seven, List.all_cons, List.all_nil, Bool.and_true] at h
  obtain ⟨⟨⟨-, h0, h1, h2, h3, h4, h5, h6⟩, -⟩, -⟩ := h
  fin_cases i
  · exact absurd rfl hi
  · exact h0
  · exact h1
  · exact h2
  · exact h3
  · exact h4
  · exact h5
  · exact h6

theorem pmaBytes_of_configOk {c : Config} (h : configOk c = true) : 192 ≤ c.pmaBytes ∧ c.pmaBytes ≤ 65535 := by
  simp only [configOk, Bool.and_eq_true, decide_eq_true_eq] at h
  exact h.1.1.1

/-- A well-formed configuration has a legal `LAYOUT`. -/
theorem layoutOk_of_configOk {c : Config} (h : configOk c = true) : c.layout.ok = true := by
  simp only [configOk, Bool.and_eq_true] at h
  exact h.2

theorem slotBytes_eq (c : Config) : slotBytes c =
    (sizeIn c 1 + sizeOut c 1) + (sizeIn c 2 + sizeOut c 2) + (sizeIn c 3 + sizeOut c 3) +
    (sizeIn c 4 + sizeOut c 4) + (sizeIn c 5 + sizeOut c 5) + (sizeIn c 6 + sizeOut c 6) +
    (sizeIn c 7 + sizeOut c 7) := by
  simp only [slotBytes, toList_seven, List.map_cons, List.map_nil, List.sum_cons, List.sum_nil]
  have e : ∀ k (hk : k < 7), sizeIn c ⟨k + 1, by omega⟩ = c.slots[k].sizeIn ∧
      sizeOut c ⟨k + 1, by omega⟩ = c.slots[k].sizeOut := fun k hk => ⟨by simp [sizeIn, slot], by simp [sizeOut, slot]⟩
  rw [← (e 0 (by omega)).1, ← (e 1 (by omega)).1, ← (e 2 (by omega)).1, ← (e 3 (by omega)).1, ← (e 4 (by omega)).1,
    ← (e 5 (by omega)).1, ← (e 6 (by omega)).1, ← (e 0 (by omega)).2, ← (e 1 (by omega)).2, ← (e 2 (by omega)).2,
    ← (e 3 (by omega)).2, ← (e 4 (by omega)).2, ← (e 5 (by omega)).2, ← (e 6 (by omega)).2]
  simp only [Nat.add_zero, Nat.add_assoc]
  rfl

theorem sum_of_configOk {c : Config} (h : configOk c = true) : slotBytes c + 192 ≤ c.pmaBytes := by
  have := pmaBytes_of_configOk h
  simp only [configOk, Bool.and_eq_true, decide_eq_true_eq] at h
  omega

/-- The places and sizes of the sixteen buffers, as sums. -/
theorem bufTx_eq (c : Config) :
    bufTx c 0 = 64 ∧ bufTx c 1 = 192 ∧
    bufTx c 2 = bufTx c 1 + sizeIn c 1 + sizeOut c 1 ∧ bufTx c 3 = bufTx c 2 + sizeIn c 2 + sizeOut c 2 ∧
    bufTx c 4 = bufTx c 3 + sizeIn c 3 + sizeOut c 3 ∧ bufTx c 5 = bufTx c 4 + sizeIn c 4 + sizeOut c 4 ∧
    bufTx c 6 = bufTx c 5 + sizeIn c 5 + sizeOut c 5 ∧ bufTx c 7 = bufTx c 6 + sizeIn c 6 + sizeOut c 6 := by
  simp [bufTx, layoutStart, allRegs, sizeIn_zero, sizeOut_zero]
  omega

theorem le_bufTx (c : Config) (i : Fin 8) : 64 ≤ bufTx c i := by simp [bufTx, layoutStart]

/-- Every buffer pair ends inside the PMA (40_pma_allocator.md R147 (c)). -/
theorem buf_le {c : Config} (h : configOk c = true) (i : Fin 8) : bufRx c i + sizeOut c i ≤ c.pmaBytes := by
  have hs := sum_of_configOk h
  have := bufTx_eq c
  rw [slotBytes_eq] at hs
  fin_cases i <;> simp only [bufRx, Fin.zero_eta, Fin.mk_one, Fin.reduceFinMk, sizeIn_zero, sizeOut_zero] at * <;> omega

theorem buf_next (c : Config) (i j : Fin 8) (h : j.val = i.val + 1) : bufRx c i + sizeOut c i = bufTx c j := by
  obtain ⟨k, hk⟩ := i
  obtain ⟨l, hl⟩ := j
  simp only at h
  subst h
  have h7 : k < 7 := by omega
  unfold bufRx bufTx layoutStart
  interval_cases k <;> simp [allRegs] <;> omega

/-- Buffer pairs of a lower index end before those of a higher one begin (40_pma_allocator.md R147 (b)). -/
theorem buf_lt (c : Config) {i j : Fin 8} (hij : i < j) : bufRx c i + sizeOut c i ≤ bufTx c j := by
  have mono : ∀ d (k l : Fin 8), l.val = k.val + d → bufTx c k ≤ bufTx c l := by
    intro d
    induction d with
    | zero => intro k l h; exact Nat.le_of_eq (congrArg (bufTx c) (Fin.ext h.symm))
    | succ d ih =>
      intro k l h
      have h1 := buf_next c ⟨l.val - 1, by omega⟩ l (by simp only; omega)
      have h2 := ih k ⟨l.val - 1, by omega⟩ (by simp only; omega)
      simp only [bufRx] at h1
      omega
  have hij : i.val < j.val := hij
  rw [buf_next c i ⟨i.val + 1, by omega⟩ rfl]
  exact mono (j.val - (i.val + 1)) _ _ (by simp only; omega)

theorem bufTx_le_bufRx (c : Config) (i : Fin 8) : bufTx c i ≤ bufRx c i := by simp [bufRx]

theorem sizeIn_even {c : Config} (h : configOk c = true) (i : Fin 8) : sizeIn c i % 2 = 0 ∧ sizeIn c i ≤ 1023 := by
  by_cases hi : i = 0
  · subst hi; simp [sizeIn_zero]
  · have := slotOk_of_configOk h i hi
    simp only [slotOk, txSizeOk, Bool.and_eq_true, decide_eq_true_eq] at this
    exact this.2

theorem sizeOut_ok {c : Config} (h : configOk c = true) (i : Fin 8) : rxSizeOk (sizeOut c i) = true := by
  by_cases hi : i = 0
  · subst hi; simp [sizeOut_zero, rxSizeOk]
  · have := slotOk_of_configOk h i hi
    simp only [slotOk, Bool.and_eq_true] at this
    exact this.1.2

theorem sizeOut_even {c : Config} (h : configOk c = true) (i : Fin 8) : sizeOut c i % 2 = 0 ∧ sizeOut c i ≤ 992 := by
  have := sizeOut_ok h i
  simp only [rxSizeOk, decide_eq_true_eq] at this
  omega

theorem type_of_configOk {c : Config} (h : configOk c = true) (i : Fin 8) (hi : i ≠ 0) :
    (slot c i).typ = .bulk ∨ (slot c i).typ = .interrupt := by
  have := slotOk_of_configOk h i hi
  simp only [slotOk, Bool.and_eq_true, decide_eq_true_eq] at this
  exact this.1.1

theorem isControl_iff {c : Config} (h : configOk c = true) (i : Fin 8) : isControl c i = true ↔ i = 0 := by
  constructor
  · intro hc
    by_contra hi
    have := type_of_configOk h i hi
    simp only [isControl, decide_eq_true_eq] at hc
    simp [hc] at this
  · rintro rfl; rfl

end Sys2Proof.Machine
end

