-- ==== Sys2Proof/Laws/Access.lean ====
section
/-! SUPPORT. Accesses to the PMA, the descriptor table and caller memory: what each answers, and when it faults. -/

namespace Sys2Proof.Machine

theorem bind_eq_ok {ε α β : Type} {x : Except ε α} {f : α → Except ε β} {b : β} :
    (x >>= f) = .ok b ↔ ∃ a, x = .ok a ∧ f a = .ok b := by
  cases x with
  | error e => simp [bind, Except.bind]
  | ok a => simp [bind, Except.bind]

theorem ok_bind {ε α β : Type} (a : α) (f : α → Except ε β) : ((Except.ok a : Except ε α) >>= f) = f a := rfl

theorem error_bind {ε α β : Type} (e : ε) (f : α → Except ε β) : ((Except.error e : Except ε α) >>= f) = .error e := rfl

/-! ## The PMA -/

theorem pmaHas_eq_true {s : State} {a n : Nat} : pmaHas s a n = true ↔ n = 0 ∨ a + n ≤ s.cfg.pmaBytes := by
  simp [pmaHas]

theorem pmaReadN_eq_ok {a n : Nat} {s : State} {bs : List Byte} :
    pmaReadN a n s = .ok bs ↔ (n = 0 ∨ a + n ≤ s.cfg.pmaBytes) ∧ bs = s.pma.readAll a n := by
  unfold pmaReadN
  by_cases h : pmaHas s a n = true
  · simp [h, pmaHas_eq_true.1 h, eq_comm]
  · have : ¬(n = 0 ∨ a + n ≤ s.cfg.pmaBytes) := fun e => h (pmaHas_eq_true.2 e)
    simp [h, this]

theorem pmaWriteN_eq_ok {a : Nat} {bs : List Byte} {s t : State} :
    pmaWriteN a bs s = .ok t ↔
      (bs = [] ∨ a + bs.length ≤ s.cfg.pmaBytes) ∧ t = { s with pma := s.pma.writeAll a bs } := by
  unfold pmaWriteN
  have e : (bs = [] ∨ a + bs.length ≤ s.cfg.pmaBytes) ↔ pmaHas s a bs.length = true := by
    rw [pmaHas_eq_true, List.length_eq_zero_iff]
  by_cases h : pmaHas s a bs.length = true
  · simp [h, e, eq_comm]
  · simp [h, e]

theorem bdtRead_eq_ok {i : Fin 8} {w : BdtWord} {s : State} {v : Word} :
    bdtRead i w s = .ok v ↔ bdtOffset s i w + 2 ≤ s.cfg.pmaBytes ∧ v = s.pma.word (bdtOffset s i w) := by
  unfold bdtRead
  by_cases h : pmaHas s (bdtOffset s i w) 2 = true
  · have := pmaHas_eq_true.1 h
    simp [h, show bdtOffset s i w + 2 ≤ s.cfg.pmaBytes by omega, eq_comm]
  · have : ¬(bdtOffset s i w + 2 ≤ s.cfg.pmaBytes) := fun e => h (pmaHas_eq_true.2 (.inr e))
    simp [h, this]

theorem bdtWrite_eq_ok {i : Fin 8} {w : BdtWord} {v : Word} {s t : State} :
    bdtWrite i w v s = .ok t ↔
      bdtOffset s i w + 2 ≤ s.cfg.pmaBytes ∧
        t = { s with pma := s.pma.writeAll (bdtOffset s i w) [loByte v, hiByte v] } := by
  simp [bdtWrite, pmaWriteN_eq_ok]

/-! ## Caller memory -/

theorem memReadN_app (n p : Nat) (s : State) : memReadN n (.app p) s = .ok (s.mem.readAll p n) := by
  induction n generalizing p with
  | zero => rfl
  | succ n ih => simp only [memReadN, memRead, ok_bind, ptrPlus, ih]; rfl

theorem memReadN_zero (p : Ptr) (s : State) : memReadN 0 p s = .ok [] := rfl

theorem memReadN_null (n : Nat) (s : State) : memReadN (n + 1) .null s = .error .nullAccess := rfl

theorem length_of_memReadN {n : Nat} {p : Ptr} {s : State} {bs : List Byte} (h : memReadN n p s = .ok bs) :
    bs.length = n := by
  induction n generalizing p bs with
  | zero => simp only [memReadN, Except.ok.injEq] at h; simp [← h]
  | succ n ih =>
    simp only [memReadN, bind_eq_ok, Except.ok.injEq] at h
    obtain ⟨b, -, cs, h, rfl⟩ := h
    simp [ih h]

theorem memReadN_replyBuf (n : Nat) (hn : n ≤ 2) (s : State) :
    memReadN n (.replyBuf 0) s = .ok (s.replyBuf.toList.take n) := by
  have e : s.replyBuf.toList = [s.replyBuf[0], s.replyBuf[1]] := by
    apply List.ext_getElem (by simp)
    intro i h1 h2
    have h : i < 2 := by simpa using h1
    interval_cases i <;> simp
  rw [e]
  interval_cases n <;> simp [memReadN, memRead, ok_bind, ptrPlus]

theorem memWriteN_app (bs : List Byte) (p : Nat) (s : State) :
    memWriteN bs (.app p) s = .ok { s with mem := s.mem.writeAll p bs } := by
  induction bs generalizing p s with
  | nil => rfl
  | cons b bs ih => simp only [memWriteN, memWrite, ok_bind, ptrPlus, ih, Memory.writeAll]

/-- A caller-memory write changes caller memory and the two scratch buffers only. -/
theorem memWriteN_frame {bs : List Byte} {p : Ptr} {s t : State} (h : memWriteN bs p s = .ok t) :
    t = { s with mem := t.mem, setupBuf := t.setupBuf, replyBuf := t.replyBuf } := by
  induction bs generalizing p s with
  | nil => simp only [memWriteN, Except.ok.injEq] at h; subst h; rfl
  | cons b bs ih =>
    simp only [memWriteN, bind_eq_ok] at h
    obtain ⟨u, hu, h⟩ := h
    have hv := ih h
    have : u = { s with mem := u.mem, setupBuf := u.setupBuf, replyBuf := u.replyBuf } := by
      cases p with
      | null => simp [memWrite] at hu
      | app a => simp only [memWrite, Except.ok.injEq] at hu; subst hu; rfl
      | setupBuf o =>
        simp only [memWrite] at hu
        split at hu
        · simp only [Except.ok.injEq] at hu; subst hu; rfl
        · simp at hu
      | replyBuf o =>
        simp only [memWrite] at hu
        split at hu
        · simp only [Except.ok.injEq] at hu; subst hu; rfl
        · simp at hu
    rw [hv, this]

theorem memWriteN_wf {bs : List Byte} {p : Ptr} {s t : State} (hs : s.mem.wf = true) (h : memWriteN bs p s = .ok t) :
    t.mem.wf = true := by
  induction bs generalizing p s with
  | nil => simp only [memWriteN, Except.ok.injEq] at h; subst h; exact hs
  | cons b bs ih =>
    simp only [memWriteN, bind_eq_ok] at h
    obtain ⟨u, hu, h⟩ := h
    refine ih ?_ h
    cases p with
    | null => simp [memWrite] at hu
    | app a => simp only [memWrite, Except.ok.injEq] at hu; subst hu; exact Memory.wf_write _ _ _ hs
    | setupBuf o =>
      simp only [memWrite] at hu
      split at hu
      · simp only [Except.ok.injEq] at hu; subst hu; exact hs
      · simp at hu
    | replyBuf o =>
      simp only [memWrite] at hu
      split at hu
      · simp only [Except.ok.injEq] at hu; subst hu; exact hs
      · simp at hu

theorem toList_eight {α : Type} (v : Vector α 8) : v.toList = [v[0], v[1], v[2], v[3], v[4], v[5], v[6], v[7]] := by
  apply List.ext_getElem (by simp)
  intro i h1 h2
  have h : i < 8 := by simpa using h1
  interval_cases i <;> simp

/-- Eight bytes written to `setup_buf` are its contents. -/
theorem memWriteN_setupBuf {bs : List Byte} (hb : bs.length = 8) (s : State) :
    ∃ v : Vector Byte 8, v.toList = bs ∧ memWriteN bs (.setupBuf 0) s = .ok { s with setupBuf := v } := by
  obtain ⟨b0, b1, b2, b3, b4, b5, b6, b7, rfl⟩ :
      ∃ b0 b1 b2 b3 b4 b5 b6 b7, bs = [b0, b1, b2, b3, b4, b5, b6, b7] := by
    match bs, hb with
    | [b0, b1, b2, b3, b4, b5, b6, b7], _ => exact ⟨_, _, _, _, _, _, _, _, rfl⟩
  refine ⟨#v[b0, b1, b2, b3, b4, b5, b6, b7], rfl, ?_⟩
  simp only [memWriteN, memWrite, ptrPlus, ok_bind, Nat.zero_add, Nat.reduceAdd, Nat.reduceLT, Nat.ofNat_pos, dite_true]
  have : ((((((((s.setupBuf.set 0 b0).set 1 b1).set 2 b2).set 3 b3).set 4 b4).set 5 b5).set 6 b6).set 7 b7) =
      #v[b0, b1, b2, b3, b4, b5, b6, b7] := by
    apply Vector.ext
    intro i hi
    interval_cases i <;> simp
  rw [this]

theorem memWriteN_setupBuf_ok {bs : List Byte} (o : Nat) (hb : o + bs.length ≤ 8) (s : State) :
    ∃ v : Vector Byte 8, memWriteN bs (.setupBuf o) s = .ok { s with setupBuf := v } := by
  induction bs generalizing o s with
  | nil => exact ⟨s.setupBuf, rfl⟩
  | cons b bs ih =>
    simp only [List.length_cons] at hb
    have h : o < 8 := by omega
    simp only [memWriteN, memWrite, h, dite_true, ok_bind, ptrPlus]
    obtain ⟨v, hv⟩ := ih (o + 1) (by omega) { s with setupBuf := s.setupBuf.set o b }
    exact ⟨v, hv⟩

/-! ## Under the layout -/

theorem bdtOffset_of_laid {s : State} (h : s.btable = 0) (i : Fin 8) (w : BdtWord) :
    bdtOffset s i w = 8 * i.val + w.offset := by simp [bdtOffset, h]

theorem BdtWord.offset_le (w : BdtWord) : w.offset ≤ 6 := by cases w <;> simp [BdtWord.offset]

theorem bdtRead_of_laid {s : State} (h : Laid s) (i : Fin 8) (w : BdtWord) :
    bdtRead i w s = .ok (s.pma.word (8 * i.val + w.offset)) := by
  rw [bdtRead_eq_ok, bdtOffset_of_laid h.btable]
  have := pmaBytes_of_configOk h.cfgOk
  have := w.offset_le
  exact ⟨by omega, rfl⟩

theorem bdtWrite_of_laid {s : State} (h : Laid s) (i : Fin 8) (w : BdtWord) (v : Word) :
    bdtWrite i w v s = .ok { s with pma := s.pma.writeAll (8 * i.val + w.offset) [loByte v, hiByte v] } := by
  rw [bdtWrite_eq_ok, bdtOffset_of_laid h.btable]
  have := pmaBytes_of_configOk h.cfgOk
  have := w.offset_le
  exact ⟨by omega, rfl⟩

theorem toNat_addr {c : Config} (h : configOk c = true) {a : Nat} (ha : a ≤ c.pmaBytes) : (BitVec.ofNat 16 a).toNat = a := by
  have := pmaBytes_of_configOk h
  rw [BitVec.toNat_ofNat, Nat.mod_eq_of_lt (by omega)]

theorem bufTx_le {c : Config} (h : configOk c = true) (i : Fin 8) : bufTx c i + sizeIn c i ≤ c.pmaBytes := by
  have := buf_le h i
  simp only [bufRx] at this
  omega

theorem toNat_bufTx {c : Config} (h : configOk c = true) (i : Fin 8) : (BitVec.ofNat 16 (bufTx c i)).toNat = bufTx c i :=
  toNat_addr h (by have := bufTx_le h i; omega)

theorem toNat_bufRx {c : Config} (h : configOk c = true) (i : Fin 8) : (BitVec.ofNat 16 (bufRx c i)).toNat = bufRx c i :=
  toNat_addr h (by have := buf_le h i; omega)

/-- The layout depends on the configuration, `BTABLE` and the table only. -/
theorem Laid.congr {s t : State} (h : Laid s) (hc : t.cfg = s.cfg) (hb : t.btable = s.btable)
    (hp : ∀ a < 64, t.pma.read a = s.pma.read a) : Laid t := by
  have w : ∀ a, a + 1 < 64 → t.pma.word a = s.pma.word a := fun a ha =>
    Memory.word_congr _ _ _ (hp a (by omega)) (hp (a + 1) ha)
  constructor
  · rw [hc]; exact h.cfgOk
  · rw [hb]; exact h.btable
  · intro i; rw [hc, w _ (by omega)]; exact h.addrTx i
  · intro i; rw [hc, w _ (by omega)]; exact h.countTx i
  · intro i; rw [hc, w _ (by omega)]; exact h.addrRx i
  · intro i; rw [hc, w _ (by omega)]; exact h.declared i
  · intro i; rw [hc, w _ (by omega)]; exact h.countRx i

/-- A new transmit count within the size keeps the layout. -/
theorem Laid.setCountTx {s : State} (h : Laid s) (i : Fin 8) (v : Word) (hv : v.toNat ≤ sizeIn s.cfg i) :
    Laid { s with pma := s.pma.writeAll (8 * i.val + 2) [loByte v, hiByte v] } := by
  have w : ∀ a, a + 1 < 8 * i.val + 2 ∨ 8 * i.val + 2 + 2 ≤ a →
      (s.pma.writeAll (8 * i.val + 2) [loByte v, hiByte v]).word a = s.pma.word a := fun a ha =>
    Memory.word_writeAll_outside _ _ _ _ (by simpa using ha)
  constructor
  · exact h.cfgOk
  · exact h.btable
  · intro j; rw [w _ (by omega)]; exact h.addrTx j
  · intro j
    by_cases e : j = i
    · subst e; simpa only [Memory.word_writeAll_self] using hv
    · have : j.val ≠ i.val := fun e' => e (Fin.ext e')
      rw [w _ (by omega)]; exact h.countTx j
  · intro j; rw [w _ (by omega)]; exact h.addrRx j
  · intro j; rw [w _ (by omega)]; exact h.declared j
  · intro j; rw [w _ (by omega)]; exact h.countRx j

/-- The receive count word with a new count: the declared capacity stays, the count reads back. -/
theorem countWord (c : Word) (n : Nat) (hn : n < 1024) :
    ((c &&& 0xFC00) ||| BitVec.ofNat 16 n) &&& 0xFC00 = c &&& 0xFC00 ∧
    countField ((c &&& 0xFC00) ||| BitVec.ofNat 16 n) = n := by
  have hb : ∀ k, 10 ≤ k → (BitVec.ofNat 16 n).getLsbD k = false := by
    intro k hk
    rw [BitVec.getLsbD_ofNat]
    have : n.testBit k = false := Nat.testBit_lt_two_pow 
      (Nat.lt_of_lt_of_le hn (show 2 ^ 10 ≤ 2 ^ k from Nat.pow_le_pow_right (by decide) hk))
    simp [this]
  constructor
  · apply BitVec.eq_of_getLsbD_eq
    intro k hk
    simp only [BitVec.getLsbD_and, BitVec.getLsbD_or]
    by_cases h : k < 10
    · have : (0xFC00 : Word).getLsbD k = false := by interval_cases k <;> decide
      rw [this]; simp
    · rw [hb k (by omega)]; cases c.getLsbD k <;> cases (0xFC00 : Word).getLsbD k <;> rfl
  · unfold countField
    have : ((c &&& 0xFC00) ||| BitVec.ofNat 16 n).extractLsb' 0 10 = BitVec.ofNat 10 n := by
      apply BitVec.eq_of_getLsbD_eq
      intro k hk
      have : (0xFC00 : Word).getLsbD k = false := by interval_cases k <;> decide
      simp only [BitVec.getLsbD_extractLsb', BitVec.getLsbD_or, BitVec.getLsbD_and, Nat.zero_add, this, Bool.and_false,
        Bool.false_or, BitVec.getLsbD_ofNat]
      simp [hk, show k < 16 by omega]
    rw [this, BitVec.toNat_ofNat, Nat.mod_eq_of_lt hn]

/-- A new receive count within the size keeps the layout. -/
theorem Laid.setCountRx {s : State} (h : Laid s) (i : Fin 8) (n : Nat) (hn : n ≤ sizeOut s.cfg i) (v : Word)
    (hv : v = (s.pma.word (8 * i.val + 6) &&& 0xFC00) ||| BitVec.ofNat 16 n) :
    Laid { s with pma := s.pma.writeAll (8 * i.val + 6) [loByte v, hiByte v] } := by
  have hs := sizeOut_even h.cfgOk i
  have cw := countWord (s.pma.word (8 * i.val + 6)) n (by omega)
  rw [← hv] at cw
  have w : ∀ a, a + 1 < 8 * i.val + 6 ∨ 8 * i.val + 6 + 2 ≤ a →
      (s.pma.writeAll (8 * i.val + 6) [loByte v, hiByte v]).word a = s.pma.word a := fun a ha =>
    Memory.word_writeAll_outside _ _ _ _ (by simpa using ha)
  constructor
  · exact h.cfgOk
  · exact h.btable
  · intro j; rw [w _ (by omega)]; exact h.addrTx j
  · intro j; rw [w _ (by omega)]; exact h.countTx j
  · intro j; rw [w _ (by omega)]; exact h.addrRx j
  · intro j
    by_cases e : j = i
    · subst e; rw [Memory.word_writeAll_self, cw.1]; exact h.declared j
    · have : j.val ≠ i.val := fun e' => e (Fin.ext e')
      rw [w _ (by omega)]; exact h.declared j
  · intro j
    by_cases e : j = i
    · subst e; rw [Memory.word_writeAll_self, cw.2]; exact hn
    · have : j.val ≠ i.val := fun e' => e (Fin.ext e')
      rw [w _ (by omega)]; exact h.countRx j

/-! ## Lengths -/

theorem toNat_minWord (a b : Word) : (minWord a b).toNat = min a.toNat b.toNat := by
  unfold minWord; split <;> omega

theorem countField_lt (w : Word) : countField w < 1024 := by
  have := (w.extractLsb' 0 10).isLt
  simpa [countField] using this

theorem slotIndex_ofNat (i : Fin 8) : slotIndex (BitVec.ofNat 4 i.val) = some i := by
  fin_cases i <;> rfl

theorem slotIndex_ofByte (i : Fin 8) : slotIndex (BitVec.ofNat 8 i.val) = some i := by
  fin_cases i <;> rfl

theorem slotIndex_eq_none {n : Nat} {e : BitVec n} : slotIndex e = none ↔ 8 ≤ e.toNat := by
  unfold slotIndex; split <;> simp <;> omega

theorem slotIndex_eq_some {n : Nat} {e : BitVec n} {i : Fin 8} (h : slotIndex e = some i) : e = BitVec.ofNat n i.val := by
  unfold slotIndex at h
  split at h
  · simp only [Option.some.injEq] at h
    subst h
    simp
  · simp at h

end Sys2Proof.Machine
end

