-- ==== Sys2Proof/Laws/Io.lean ====
section
/-! SUPPORT. Everything `ep_write`, `ep_read` and `control_in` can do: their results under the layout, and their effect
whatever the state. -/

namespace Sys2Proof.Machine

/-! ## The pad byte -/

/-- The pad byte changes at most one PMA byte and the free-value counter. -/
theorem padByte_cases {a n : Nat} {s t : State} (h : padByte a n s = .ok t) :
    t = s ∨ (s.cfg.padBytePolicy = .any ∧ n % 2 = 1 ∧
      t = { s with pma := s.pma.writeAll (a + n) [Config.freeByte s.freeCount], freeCount := s.freeCount + 1 }) := by
  unfold padByte at h
  split at h
  · simp only [Except.ok.injEq] at h; exact .inl h.symm
  · rename_i hp
    split at h
    · rename_i hn
      rw [pmaWriteN_eq_ok] at h
      exact .inr ⟨hp, hn, h.2⟩
    · simp only [Except.ok.injEq] at h; exact .inl h.symm

theorem padByte_ok (a n : Nat) (s : State) (h : n % 2 = 1 → a + n + 1 ≤ s.cfg.pmaBytes) : ∃ t, padByte a n s = .ok t := by
  unfold padByte
  split
  · exact ⟨_, rfl⟩
  · split
    · rename_i hn
      exact ⟨_, pmaWriteN_eq_ok.2 ⟨.inr (by simpa using h hn), rfl⟩⟩
    · exact ⟨_, rfl⟩

/-! ## `ep_write` -/

/-- What `ep_write` does, whatever the state: nothing with result false, or one packet armed. -/
theorem epWrite_cases {ept : Byte} {buf : Ptr} {len : Word} {s t : State} {b : Bool}
    (h : epWrite ept buf len s = .ok (b, t)) :
    (b = false ∧ t = s) ∨
    (b = true ∧ ∃ i, slotIndex ept = some i ∧ sizeIn s.cfg i ≠ 0 ∧ len.toNat ≤ sizeIn s.cfg i ∧
      t = eprSetStatTx i .valid { s with pma := t.pma, freeCount := t.freeCount } ∧
      (s.pma.wf = true → t.pma.wf = true)) := by
  unfold epWrite at h
  split at h
  · simp only [Except.ok.injEq, Prod.mk.injEq] at h; exact .inl ⟨h.1.symm, h.2.symm⟩
  · rename_i i hi
    split at h
    · simp only [Except.ok.injEq, Prod.mk.injEq] at h; exact .inl ⟨h.1.symm, h.2.symm⟩
    · rename_i hp
      rw [bind_eq_ok] at h
      obtain ⟨a, -, h⟩ := h
      split at h
      · simp only [Except.ok.injEq, Prod.mk.injEq] at h; exact .inl ⟨h.1.symm, h.2.symm⟩
      · split at h
        · simp only [Except.ok.injEq, Prod.mk.injEq] at h; exact .inl ⟨h.1.symm, h.2.symm⟩
        · rename_i hl
          simp only [bind_eq_ok, Except.ok.injEq, Prod.mk.injEq] at h
          obtain ⟨bytes, -, u, hu, v, hv, w, hw, rfl, rfl⟩ := h
          rw [pmaWriteN_eq_ok] at hu
          rw [bdtWrite_eq_ok] at hw
          refine .inr ⟨rfl, i, hi, hp, by omega, ?_, ?_⟩
          · obtain ⟨-, rfl⟩ := hu
            obtain ⟨-, rfl⟩ := hw
            rcases padByte_cases hv with rfl | ⟨-, -, rfl⟩ <;> rfl
          · intro hwf
            obtain ⟨-, rfl⟩ := hu
            obtain ⟨-, rfl⟩ := hw
            rcases padByte_cases hv with rfl | ⟨-, -, rfl⟩
            · exact Memory.wf_writeAll _ _ _ (Memory.wf_writeAll _ _ _ hwf)
            · exact Memory.wf_writeAll _ _ _ (Memory.wf_writeAll _ _ _ (Memory.wf_writeAll _ _ _ hwf))

/-- `ep_write` under the layout with its tests passed and its bytes readable arms the packet, and the layout stands. -/
theorem epWrite_of_laid {ept : Byte} {buf : Ptr} {len : Word} {s : State} {i : Fin 8} {bytes : List Byte}
    (h : Laid s) (hi : slotIndex ept = some i) (hp : sizeIn s.cfg i ≠ 0) (hl : len.toNat ≤ sizeIn s.cfg i)
    (hm : memReadN len.toNat buf s = .ok bytes) :
    ∃ t, epWrite ept buf len s = .ok (true, t) ∧ Armed i s t bytes ∧ Laid t := by
  have hlen := length_of_memReadN hm
  have hb := bufTx_le h.cfgOk i
  have h64 := le_bufTx s.cfg i
  have hev := sizeIn_even h.cfgOk i
  have hi8 := i.isLt
  have ha : (BitVec.ofNat 16 (bufTx s.cfg i)).toNat = bufTx s.cfg i := toNat_bufTx h.cfgOk i
  have ha0 : BitVec.ofNat 16 (bufTx s.cfg i) ≠ 0 := by
    intro e; rw [e] at ha; simp at ha; omega
  have hlw : BitVec.ofNat 16 bytes.length = len := by rw [hlen]; simp
  -- the payload
  let s1 : State := { s with pma := s.pma.writeAll (bufTx s.cfg i) bytes }
  have w1 : pmaWriteN (bufTx s.cfg i) bytes s = .ok s1 := pmaWriteN_eq_ok.2 ⟨.inr (by omega), rfl⟩
  -- the pad byte
  obtain ⟨s2, w2⟩ : ∃ s2, padByte (bufTx s.cfg i) len.toNat s1 = .ok s2 :=
    padByte_ok _ _ _ (by intro ho; show _ ≤ s.cfg.pmaBytes; omega)
  have e2 : ∃ p n, s2 = { s with pma := p, freeCount := n } ∧
      (∀ a, (a < bufTx s.cfg i ∨ bufTx s.cfg i + bytes.length + bytes.length % 2 ≤ a) → p.read a = s.pma.read a) ∧
      (∀ k (hk : k < bytes.length), p.read (bufTx s.cfg i + k) = bytes[k]) ∧
      (s.cfg.padBytePolicy = .unchanged ∨ bytes.length % 2 = 0 →
        p.read (bufTx s.cfg i + bytes.length) = s.pma.read (bufTx s.cfg i + bytes.length) ∧ n = s.freeCount) := by
    rcases padByte_cases w2 with rfl | ⟨hp, ho, rfl⟩
    · refine ⟨_, _, rfl, ?_, ?_, ?_⟩
      · intro a ha; exact Memory.read_writeAll_outside _ _ _ _ (by omega)
      · intro k hk; exact Memory.read_writeAll_inside _ _ _ _ hk
      · intro _; exact ⟨Memory.read_writeAll_outside _ _ _ _ (by omega), rfl⟩
    · refine ⟨_, _, rfl, ?_, ?_, ?_⟩
      · intro a ha
        rw [Memory.read_writeAll_outside _ _ _ _ (by simp only [List.length_cons, List.length_nil]; omega)]
        exact Memory.read_writeAll_outside _ _ _ _ (by omega)
      · intro k hk
        rw [Memory.read_writeAll_outside _ _ _ _ (by omega)]
        exact Memory.read_writeAll_inside _ _ _ _ hk
      · rintro (hu | hu)
        · have hp : s.cfg.padBytePolicy = .any := hp
          rw [hu] at hp; simp at hp
        · omega
  obtain ⟨p, n, rfl, ho, hin, hpad⟩ := e2
  have l2 : Laid { s with pma := p, freeCount := n } :=
    h.congr rfl rfl fun a ha => ho a (.inl (by omega))
  have w3 := bdtWrite_of_laid l2 i .countTx len
  refine ⟨eprSetStatTx i .valid
    { s with pma := p.writeAll (8 * i.val + 2) [loByte len, hiByte len], freeCount := n }, ?_, ?_, ?_⟩
  · unfold epWrite
    simp only [hi, hp, if_false, bdtRead_of_laid h i .addrTx, BdtWord.offset, Nat.add_zero, h.addrTx i, ok_bind, ha0,
      show ¬sizeIn s.cfg i < len.toNat by omega, hm, ha, w1, w2, w3]
  · have hr : ∀ a, a ≠ 8 * i.val + 2 → a ≠ 8 * i.val + 3 →
        (p.writeAll (8 * i.val + 2) [loByte len, hiByte len]).read a = p.read a := fun a h1 h2 =>
      Memory.read_writeAll_outside _ _ _ _ (by simp only [List.length_cons, List.length_nil]; omega)
    have or := eprSetStatTx_oneReg i .valid
      { s with pma := p.writeAll (8 * i.val + 2) [loByte len, hiByte len], freeCount := n }
    exact
      { payload := Memory.readAll_eq_of_read _ _ _ fun k hk => by
          rw [eprSetStatTx_eq]; exact (hr _ (by omega) (by omega)).trans (hin k hk)
        count := by rw [eprSetStatTx_eq, hlw]; exact Memory.word_writeAll_self _ _ _
        otherPma := fun a h1 h2 h3 => by rw [eprSetStatTx_eq]; exact (hr a h1 h2).trans (ho a h3)
        pad := fun hu => by
          rw [eprSetStatTx_eq]; exact ⟨(hr _ (by omega) (by omega)).trans (hpad hu).1, (hpad hu).2⟩
        valid := eprSetStatTx_statTx i .valid _
        outside := or.outside
        others := or.others
        frame := or.frame }
  · have := l2.setCountTx i len hl
    exact this.congr (by rw [eprSetStatTx_eq]; rfl) (by rw [eprSetStatTx_eq]; rfl)
      fun a _ => by rw [eprSetStatTx_eq]; rfl

/-! ## `ep_read` -/

/-- What `ep_read` does, whatever the state: nothing with result 0, or bytes copied out and RX armed. -/
theorem epRead_cases {ept : Byte} {buf : Ptr} {cap : Word} {s t : State} {n : Word}
    (h : epRead ept buf cap s = .ok (n, t)) :
    (n = 0 ∧ t = s) ∨
    (∃ i u, slotIndex ept = some i ∧ sizeOut s.cfg i ≠ 0 ∧ t = eprSetStatRx i .valid u ∧
      u = { s with mem := u.mem, setupBuf := u.setupBuf, replyBuf := u.replyBuf } ∧
      (s.mem.wf = true → u.mem.wf = true)) := by
  unfold epRead at h
  split at h
  · simp only [Except.ok.injEq, Prod.mk.injEq] at h; exact .inl ⟨h.1.symm, h.2.symm⟩
  · rename_i i hi
    split at h
    · simp only [Except.ok.injEq, Prod.mk.injEq] at h; exact .inl ⟨h.1.symm, h.2.symm⟩
    · rename_i hp
      simp only [bind_eq_ok, Except.ok.injEq, Prod.mk.injEq] at h
      obtain ⟨a, -, c, -, bytes, -, u, hu, rfl, rfl⟩ := h
      exact .inr ⟨i, u, hi, hp, rfl, memWriteN_frame hu, fun hw => memWriteN_wf hw hu⟩

/-- The packet `ep_read` copies: as many bytes of the OUT buffer as the count and the capacity allow. -/
def readLen (s : State) (i : Fin 8) (cap : Word) : Word :=
  minWord (BitVec.ofNat 16 (countField (s.pma.word (8 * i.val + 6)))) cap

theorem toNat_readLen (s : State) (i : Fin 8) (cap : Word) :
    (readLen s i cap).toNat = min (countField (s.pma.word (8 * i.val + 6))) cap.toNat := by
  have := countField_lt (s.pma.word (8 * i.val + 6))
  rw [readLen, toNat_minWord, BitVec.toNat_ofNat, Nat.mod_eq_of_lt (by omega)]

/-- `ep_read` under the layout, on an enabled direction, is the copy and the arming. -/
theorem epRead_of_laid {ept : Byte} {cap : Word} {s : State} {i : Fin 8} (buf : Ptr)
    (h : Laid s) (hi : slotIndex ept = some i) (hp : sizeOut s.cfg i ≠ 0) :
    epRead ept buf cap s =
      (memWriteN (s.pma.readAll (bufRx s.cfg i) (readLen s i cap).toNat) buf s).map
        fun u => (readLen s i cap, eprSetStatRx i .valid u) := by
  have hb := buf_le h.cfgOk i
  have hc := h.countRx i
  have hn := toNat_readLen s i cap
  have ha := toNat_bufRx h.cfgOk i
  unfold epRead
  simp only [hi, hp, if_false, bdtRead_of_laid h i .addrRx, bdtRead_of_laid h i .countRx, BdtWord.offset, h.addrRx i,
    ok_bind, ha]
  rw [show minWord (BitVec.ofNat 16 (countField (s.pma.word (8 * i.val + 6)))) cap = readLen s i cap from rfl,
    pmaReadN_eq_ok.2 ⟨.inr (by omega), rfl⟩, ok_bind]
  cases memWriteN (s.pma.readAll (bufRx s.cfg i) (readLen s i cap).toNat) buf s <;> rfl

/-! ## `control_in` -/

theorem sendFragment_cases {buf : Ptr} {total : Word} {s t : State} (h : sendFragment buf total s = .ok t) :
    ∃ b u, epWrite 0 buf (minWord total 64) s = .ok (b, u) ∧ t = { u with cont := contAfter buf total } := by
  simp only [sendFragment, bind_eq_ok, Except.ok.injEq] at h
  obtain ⟨⟨b, u⟩, hu, rfl⟩ := h
  exact ⟨b, u, hu, rfl⟩

theorem slotIndex_zero : slotIndex (0 : Byte) = some 0 := rfl

/-- A fragment whose bytes can be read is armed on endpoint 0 and the tail kept. -/
theorem sendFragment_of_laid {buf : Ptr} {total : Word} {s : State} {bytes : List Byte} (h : Laid s)
    (hm : memReadN (min total.toNat 64) buf s = .ok bytes) :
    ∃ t, sendFragment buf total s = .ok t ∧ t.cont = contAfter buf total ∧
      Armed 0 s { t with cont := s.cont } bytes ∧ Laid t := by
  have e : (minWord total 64).toNat = min total.toNat 64 := toNat_minWord total 64
  obtain ⟨u, hu, ha, hl⟩ := epWrite_of_laid (len := minWord total 64) h slotIndex_zero (by simp [sizeIn_zero])
    (by rw [sizeIn_zero]; omega) (e ▸ hm)
  refine ⟨{ u with cont := contAfter buf total }, ?_, rfl, ?_, hl.congr rfl rfl fun _ _ => rfl⟩
  · simp only [sendFragment, hu, ok_bind]
  · have hf := ha.frame
    have : { ({ u with cont := contAfter buf total } : State) with cont := s.cont } = u := by rw [hf]
    rw [this]; exact ha

theorem contAfter_app (p : Nat) (total : Word) : contAfter (.app p) total = tailOf p total.toNat := by
  unfold contAfter tailOf
  split
  · rename_i h
    simp only [ptrPlus, Option.some.injEq, Cont.mk.injEq, true_and]
    apply BitVec.eq_of_toNat_eq
    have := total.isLt
    rw [BitVec.toNat_sub_of_le (by rw [BitVec.le_def]; exact Nat.le_of_lt h), BitVec.toNat_ofNat, Nat.mod_eq_of_lt (by omega)]
    rfl
  · rfl

/-- `control_in` from application memory. -/
theorem controlIn_app {p : Nat} {buflen reqlen : Word} {s : State} (h : Laid s) :
    ∃ t, controlIn (.app p) buflen reqlen s = .ok t ∧ Laid t ∧
      RepliedAt s t p (min reqlen.toNat buflen.toNat) := by
  obtain ⟨t, ht, hc, ha, hl⟩ := sendFragment_of_laid (total := minWord reqlen buflen) h
    (memReadN_app (min (minWord reqlen buflen).toNat 64) p s)
  rw [toNat_minWord] at ha
  refine ⟨t, ht, hl, ?_, by rw [hc, contAfter_app, toNat_minWord]⟩
  rw [Nat.min_comm (min _ _) 64] at ha
  rw [Nat.min_comm (min _ _) 64]
  exact ha

/-- `control_in` with nothing to send. -/
theorem controlIn_empty {buf : Ptr} {buflen reqlen : Word} {s : State} (h : Laid s)
    (h0 : min reqlen.toNat buflen.toNat = 0) :
    ∃ t, controlIn buf buflen reqlen s = .ok t ∧ Laid t ∧ t.cont = none ∧ Armed 0 s { t with cont := s.cont } [] := by
  have e : (minWord reqlen buflen).toNat = 0 := by rw [toNat_minWord]; exact h0
  obtain ⟨t, ht, hc, ha, hl⟩ := sendFragment_of_laid (buf := buf) (total := minWord reqlen buflen) (bytes := []) h
    (by rw [e]; rfl)
  exact ⟨t, ht, hl, by rw [hc, contAfter, if_neg (by omega)], ha⟩

/-- `control_in` of one or two bytes from `reply_buf`. -/
theorem controlIn_replyBuf {n reqlen : Word} {s : State} (h : Laid s) (hn : n.toNat ≤ 2) :
    ∃ t, controlIn (.replyBuf 0) n reqlen s = .ok t ∧ Laid t ∧ t.cont = none ∧
      Armed 0 s { t with cont := s.cont } ((s.replyBuf.toList.take n.toNat).take reqlen.toNat) := by
  have e : (minWord reqlen n).toNat = min reqlen.toNat n.toNat := toNat_minWord _ _
  obtain ⟨t, ht, hc, ha, hl⟩ := sendFragment_of_laid (buf := .replyBuf 0) (total := minWord reqlen n) h
    (memReadN_replyBuf (min (minWord reqlen n).toNat 64) (by omega) s)
  refine ⟨t, ht, hl, by rw [hc, contAfter, if_neg (by omega)], ?_⟩
  rw [List.take_take]
  rwa [show min (minWord reqlen n).toNat 64 = min reqlen.toNat n.toNat by omega] at ha

end Sys2Proof.Machine
end

