-- ==== Sys2Proof/Laws/Callback.lean ====
section
/-! SUPPORT. What endpoint input and output and a callback may change, whatever the application does, and that they run
to their end when the layout stands and the application passes usable buffers. -/

namespace Sys2Proof.Machine

/-- What endpoint input and output, replies and callbacks may change: STAT and DTOG fields of present directions, the
PMA, caller memory, the scratch buffers, the continuation, the answers, the outputs and the free-value counter. -/
structure IoFrame (s t : State) : Prop where
  cfg : t.cfg = s.cfg
  devState : t.devState = s.devState
  pendFlag : t.pendFlag = s.pendFlag
  pendAddr : t.pendAddr = s.pendAddr
  sofCur : t.sofCur = s.sofCur
  inited : t.inited = s.inited
  serialCached : t.serialCached = s.serialCached
  istr : t.istr = s.istr
  cntr : t.cntr = s.cntr
  daddr : t.daddr = s.daddr
  btable : t.btable = s.btable
  dppu : t.dppu = s.dppu
  script : t.script = s.script
  epIdIdle : t.epIdIdle = s.epIdIdle
  answers : ∀ a ∈ t.answers, a ∈ s.answers
  epr : ∀ i : Fin 8, t.epr[i] &&& ~~~(0x7070 : Word) = s.epr[i] &&& ~~~(0x7070 : Word)
  tx : ∀ i : Fin 8, sizeIn s.cfg i = 0 → Epr.statTx t.epr[i] = Epr.statTx s.epr[i]
  rx : ∀ i : Fin 8, sizeOut s.cfg i = 0 → Epr.statRx t.epr[i] = Epr.statRx s.epr[i]
  pmaWf : s.pma.wf = true → t.pma.wf = true
  memWf : s.mem.wf = true → t.mem.wf = true
  contRem : (∀ c, s.cont = some c → c.rem ≠ 0) → ∀ c, t.cont = some c → c.rem ≠ 0

theorem IoFrame.refl (s : State) : IoFrame s s :=
  ⟨rfl, rfl, rfl, rfl, rfl, rfl, rfl, rfl, rfl, rfl, rfl, rfl, rfl, rfl, fun _ h => h, fun _ => rfl, fun _ _ => rfl,
    fun _ _ => rfl, id, id, id⟩

theorem IoFrame.trans {s t u : State} (h : IoFrame s t) (g : IoFrame t u) : IoFrame s u where
  cfg := g.cfg.trans h.cfg
  devState := g.devState.trans h.devState
  pendFlag := g.pendFlag.trans h.pendFlag
  pendAddr := g.pendAddr.trans h.pendAddr
  sofCur := g.sofCur.trans h.sofCur
  inited := g.inited.trans h.inited
  serialCached := g.serialCached.trans h.serialCached
  istr := g.istr.trans h.istr
  cntr := g.cntr.trans h.cntr
  daddr := g.daddr.trans h.daddr
  btable := g.btable.trans h.btable
  dppu := g.dppu.trans h.dppu
  script := g.script.trans h.script
  epIdIdle := g.epIdIdle.trans h.epIdIdle
  answers := fun a ha => h.answers a (g.answers a ha)
  epr := fun i => (g.epr i).trans (h.epr i)
  tx := fun i hi => (g.tx i (by rw [h.cfg]; exact hi)).trans (h.tx i hi)
  rx := fun i hi => (g.rx i (by rw [h.cfg]; exact hi)).trans (h.rx i hi)
  pmaWf := fun hw => g.pmaWf (h.pmaWf hw)
  memWf := fun hw => g.memWf (h.memWf hw)
  contRem := fun hw => g.contRem (h.contRem hw)

/-- A change of one register inside STAT and DTOG, on present directions, is within the frame. -/
theorem OneReg.ioFrame {s t : State} {i : Fin 8} {m : Word} (h : OneReg s t i m) (hm : m &&& ~~~(0x7070 : Word) = 0)
    (ht : m &&& 0x0030 = 0 ∨ sizeIn s.cfg i ≠ 0) (hr : m &&& 0x3000 = 0 ∨ sizeOut s.cfg i ≠ 0) : IoFrame s t := by
  have g := h.mono hm
  have ho : ∀ j : Fin 8, t.epr[j] &&& ~~~(0x7070 : Word) = s.epr[j] &&& ~~~(0x7070 : Word) := fun j => by
    by_cases e : j = i
    · subst e; exact g.outside
    · rw [h.others j e]
  have htx : ∀ j : Fin 8, sizeIn s.cfg j = 0 → Epr.statTx t.epr[j] = Epr.statTx s.epr[j] := fun j hj => by
    by_cases e : j = i
    · subst e; exact statTx_of_outside h.outside (ht.resolve_right fun hne => hne hj)
    · rw [h.others j e]
  have hrx : ∀ j : Fin 8, sizeOut s.cfg j = 0 → Epr.statRx t.epr[j] = Epr.statRx s.epr[j] := fun j hj => by
    by_cases e : j = i
    · subst e; exact statRx_of_outside h.outside (hr.resolve_right fun hne => hne hj)
    · rw [h.others j e]
  obtain ⟨e, rfl⟩ : ∃ e, t = { s with epr := e } := ⟨_, h.frame⟩
  exact { IoFrame.refl s with epr := ho, tx := htx, rx := hrx }

theorem epWrite_frame {ept : Byte} {buf : Ptr} {len : Word} {s t : State} {b : Bool}
    (h : epWrite ept buf len s = .ok (b, t)) : IoFrame s t ∧ t.cont = s.cont ∧ t.mem = s.mem ∧ t.answers = s.answers ∧ t.out = s.out := by
  rcases epWrite_cases h with ⟨-, rfl⟩ | ⟨-, i, -, hp, -, he, hw⟩
  · exact ⟨IoFrame.refl t, rfl, rfl, rfl, rfl⟩
  · have o := eprSetStatTx_oneReg i .valid { s with pma := t.pma, freeCount := t.freeCount }
    rw [← he] at o
    have f := o.ioFrame (by decide) (.inr hp) (.inl (by decide))
    refine ⟨{ f with pmaWf := hw }, ?_, ?_, ?_, ?_⟩ <;> rw [he] <;> rfl

theorem epRead_frame {ept : Byte} {buf : Ptr} {cap : Word} {s t : State} {n : Word}
    (h : epRead ept buf cap s = .ok (n, t)) : IoFrame s t ∧ t.cont = s.cont ∧ t.pma = s.pma ∧ t.answers = s.answers ∧ t.out = s.out := by
  rcases epRead_cases h with ⟨-, rfl⟩ | ⟨i, u, -, hp, rfl, hu, hw⟩
  · exact ⟨IoFrame.refl t, rfl, rfl, rfl, rfl⟩
  · have o := eprSetStatRx_oneReg i .valid u
    have hc : u.cfg = s.cfg := by rw [hu]
    have f := o.ioFrame (by decide) (.inl (by decide)) (.inr (by rw [hc]; exact hp))
    obtain ⟨m, v, r, rfl⟩ : ∃ m v r, u = { s with mem := m, setupBuf := v, replyBuf := r } := ⟨_, _, _, hu⟩
    have g : IoFrame s { s with mem := m, setupBuf := v, replyBuf := r } := { IoFrame.refl s with memWf := hw }
    exact ⟨g.trans f, rfl, rfl, rfl, rfl⟩

theorem contAfter_rem {buf : Ptr} {total : Word} {c : Cont} (h : contAfter buf total = some c) : c.rem ≠ 0 := by
  unfold contAfter at h
  split at h
  · rename_i hl
    simp only [Option.some.injEq] at h
    subst h
    intro e
    have e : total - 64 = 0 := e
    have := congrArg BitVec.toNat e
    rw [BitVec.toNat_sub_of_le (by rw [BitVec.le_def]; exact Nat.le_of_lt hl)] at this
    simp at this
    omega
  · simp at h

/-- Replacing the continuation by a legal one is within the frame. -/
theorem ioFrame_setCont (s : State) (c : Option Cont) (hc : ∀ x, c = some x → x.rem ≠ 0) :
    IoFrame s { s with cont := c } :=
  { IoFrame.refl s with contRem := fun _ x hx => hc x hx }

theorem sendFragment_frame {buf : Ptr} {total : Word} {s t : State} (h : sendFragment buf total s = .ok t) :
    IoFrame s t ∧ t.cont = contAfter buf total ∧ t.mem = s.mem ∧ t.answers = s.answers ∧ t.out = s.out := by
  obtain ⟨b, u, hu, rfl⟩ := sendFragment_cases h
  obtain ⟨f, -, hm, ha, ho⟩ := epWrite_frame hu
  exact ⟨f.trans (ioFrame_setCont u _ fun _ hx => contAfter_rem hx), rfl, hm, ha, ho⟩

theorem controlIn_frame {buf : Ptr} {buflen reqlen : Word} {s t : State} (h : controlIn buf buflen reqlen s = .ok t) :
    IoFrame s t ∧ t.mem = s.mem ∧ t.answers = s.answers ∧ t.out = s.out :=
  have ⟨f, _, hm, ha, ho⟩ := sendFragment_frame h
  ⟨f, hm, ha, ho⟩

theorem emit_frame (o : Out) (s : State) : IoFrame s (emit o s) := { IoFrame.refl s with }

theorem appStore_frame (a : Nat) (bs : List Byte) (s : State) : IoFrame s (appStore a bs s) :=
  { IoFrame.refl s with memWf := fun h => Memory.wf_writeAll _ _ _ h }

theorem runAct_frame {a : AppAct} {s t : State} (h : runAct a s = .ok t) : IoFrame s t ∧ t.answers = s.answers := by
  cases a with
  | epWrite ept buf len =>
    simp only [runAct, bind_eq_ok, Except.ok.injEq] at h
    obtain ⟨⟨b, u⟩, hu, rfl⟩ := h
    have := epWrite_frame hu
    exact ⟨this.1.trans (emit_frame _ u), this.2.2.2.1⟩
  | epRead ept buf cap =>
    simp only [runAct, bind_eq_ok, Except.ok.injEq] at h
    obtain ⟨⟨b, u⟩, hu, rfl⟩ := h
    have := epRead_frame hu
    exact ⟨this.1.trans (emit_frame _ u), this.2.2.2.1⟩
  | controlIn buf buflen reqlen =>
    have := controlIn_frame h
    exact ⟨this.1, this.2.2.1⟩
  | store a bs =>
    simp only [runAct, Except.ok.injEq] at h
    subst h
    exact ⟨appStore_frame a bs s, rfl⟩

theorem runActs_frame {as : List AppAct} {s t : State} (h : runActs as s = .ok t) : IoFrame s t ∧ t.answers = s.answers := by
  induction as generalizing s with
  | nil => simp only [runActs, Except.ok.injEq] at h; subst h; exact ⟨IoFrame.refl s, rfl⟩
  | cons a as ih =>
    simp only [runActs, bind_eq_ok] at h
    obtain ⟨u, hu, h⟩ := h
    have h1 := runAct_frame hu
    have h2 := ih h
    exact ⟨h1.1.trans h2.1, h2.2.trans h1.2⟩

/-! ## Callbacks -/

/-- A callback answers what the application's next answer says (47_application_interface.md R332). -/
theorem callback_eq_ok {c : Call} {s t : State} {r : Bool} : callback c s = .ok (r, t) ↔ Delegated c s t r := by
  unfold callback Delegated nextAnswer
  cases h : s.answers with
  | nil => simp [emit, h, runActs, ok_bind, eq_comm]
  | cons a rest =>
    simp only [emit, h, bind_eq_ok, Except.ok.injEq, Prod.mk.injEq]
    constructor
    · rintro ⟨u, hu, rfl, rfl⟩; exact ⟨rfl, hu⟩
    · rintro ⟨rfl, hu⟩; exact ⟨t, hu, rfl, rfl⟩

theorem Delegated.frame {c : Call} {s t : State} {r : Bool} (h : Delegated c s t r) : IoFrame s t := by
  unfold Delegated at h
  split at h
  · rename_i a rest hs
    have f := (runActs_frame h.2).1
    refine IoFrame.trans ?_ f
    exact { IoFrame.refl s with answers := fun x hx => by rw [hs]; exact List.mem_cons_of_mem _ hx }
  · rw [h.2]; exact { IoFrame.refl s with }

theorem hook_eq_ok {p : Bool} {c : Call} {s t : State} : hook p c s = .ok t ↔ HookRan p c s t := by
  unfold hook HookRan
  split
  · simp only [bind_eq_ok, Except.ok.injEq]
    constructor
    · rintro ⟨⟨r, u⟩, hu, rfl⟩; exact ⟨r, callback_eq_ok.1 hu⟩
    · rintro ⟨r, hu⟩; exact ⟨(r, t), callback_eq_ok.2 hu, rfl⟩
  · simp [eq_comm]

theorem HookRan.frame {p : Bool} {c : Call} {s t : State} (h : HookRan p c s t) : IoFrame s t := by
  unfold HookRan at h
  split at h
  · exact h.choose_spec.frame
  · rw [h]; exact IoFrame.refl s

theorem delegate_eq_ok {p : Bool} {c : Call} {s t : State} {r : Bool} :
    delegate p c s = .ok (r, t) ↔ if p then Delegated c s t r else r = false ∧ t = s := by
  unfold delegate
  split
  · exact callback_eq_ok
  · simp [eq_comm]

theorem delegate_frame {p : Bool} {c : Call} {s t : State} {r : Bool} (h : delegate p c s = .ok (r, t)) : IoFrame s t := by
  rw [delegate_eq_ok] at h
  split at h
  · exact h.frame
  · rw [h.2]; exact IoFrame.refl s

/-! ## Everything runs to its end -/

theorem Laid.of_frame {s t : State} (h : Laid s) (f : IoFrame s t) (hp : ∀ a < 64, t.pma.read a = s.pma.read a) : Laid t :=
  h.congr f.cfg f.btable hp

theorem tailOf_app {p n : Nat} {c : Cont} (h : tailOf p n = some c) : ∃ a, c.ptr = .app a := by
  unfold tailOf at h
  split at h
  · simp only [Option.some.injEq] at h; subst h; exact ⟨_, rfl⟩
  · simp at h

theorem slotIndex_cases {n : Nat} (e : BitVec n) : slotIndex e = none ∨ ∃ i, slotIndex e = some i := by
  cases h : slotIndex e
  · exact .inl rfl
  · exact .inr ⟨_, rfl⟩

/-- A usable buffer can be read as far as its length. -/
theorem memReadN_usable {p : Ptr} {n : Word} (h : Ptr.usable p n = true) (s : State) :
    ∃ bs, memReadN n.toNat p s = .ok bs := by
  cases p with
  | app a => exact ⟨_, memReadN_app _ _ _⟩
  | null =>
    simp only [Ptr.usable, decide_eq_true_eq] at h
    subst h
    exact ⟨[], rfl⟩
  | setupBuf o => simp [Ptr.usable] at h
  | replyBuf o => simp [Ptr.usable] at h

/-- `ep_write` of a usable buffer runs to its end and keeps the layout. -/
theorem epWrite_runs {ept : Byte} {buf : Ptr} {len : Word} {s : State} (h : Laid s)
    (hu : Ptr.usable buf len = true) : ∃ b t, epWrite ept buf len s = .ok (b, t) ∧ Laid t := by
  rcases slotIndex_cases ept with hi | ⟨i, hi⟩
  · exact ⟨false, s, by simp [epWrite, hi], h⟩
  · by_cases hp : sizeIn s.cfg i = 0
    · exact ⟨false, s, by simp [epWrite, hi, hp], h⟩
    · by_cases hl : sizeIn s.cfg i < len.toNat
      · have ha := bdtRead_of_laid h i .addrTx
        unfold epWrite
        simp only [hi, hp, if_false, ha, ok_bind, hl, if_true]
        split <;> exact ⟨false, s, rfl, h⟩
      · obtain ⟨bs, hbs⟩ := memReadN_usable hu s
        obtain ⟨t, ht, -, hl'⟩ := epWrite_of_laid h hi hp (by omega) hbs
        exact ⟨true, t, ht, hl'⟩

theorem memWriteN_usable {bs : List Byte} {p : Ptr} {n : Word} (h : Ptr.usable p n = true) (hb : bs.length ≤ n.toNat)
    (s : State) : ∃ t, memWriteN bs p s = .ok t := by
  cases p with
  | app a => exact ⟨_, memWriteN_app _ _ _⟩
  | null =>
    simp only [Ptr.usable, decide_eq_true_eq] at h
    subst h
    have : bs = [] := List.length_eq_zero_iff.1 (by simpa using hb)
    subst this
    exact ⟨s, rfl⟩
  | setupBuf o => simp [Ptr.usable] at h
  | replyBuf o => simp [Ptr.usable] at h

theorem epRead_laid {ept : Byte} {buf : Ptr} {cap : Word} {s t : State} {n : Word} (h : Laid s)
    (hr : epRead ept buf cap s = .ok (n, t)) : Laid t := by
  obtain ⟨f, -, hp, -⟩ := epRead_frame hr
  exact h.of_frame f fun a _ => by rw [hp]

/-- `ep_read` into a usable buffer runs to its end and keeps the layout. -/
theorem epRead_runs {ept : Byte} {buf : Ptr} {cap : Word} {s : State} (h : Laid s)
    (hu : Ptr.usable buf cap = true) : ∃ n t, epRead ept buf cap s = .ok (n, t) ∧ Laid t := by
  rcases slotIndex_cases ept with hi | ⟨i, hi⟩
  · exact ⟨0, s, by simp [epRead, hi], h⟩
  · by_cases hp : sizeOut s.cfg i = 0
    · exact ⟨0, s, by simp [epRead, hi, hp], h⟩
    · have e := epRead_of_laid (cap := cap) buf h hi hp
      obtain ⟨u, hu⟩ := memWriteN_usable (bs := s.pma.readAll (bufRx s.cfg i) (readLen s i cap).toNat) hu
        (by rw [Memory.length_readAll, toNat_readLen]; omega) s
      rw [hu] at e
      exact ⟨_, _, e, epRead_laid h e⟩

/-- `control_in` of a usable buffer runs to its end, keeps the layout, and its tail is in application memory. -/
theorem controlIn_runs {buf : Ptr} {buflen reqlen : Word} {s : State} (h : Laid s) (hu : Ptr.usable buf buflen = true) :
    ∃ t, controlIn buf buflen reqlen s = .ok t ∧ Laid t ∧ ∀ c, t.cont = some c → ∃ a, c.ptr = .app a := by
  cases buf with
  | app p =>
    obtain ⟨t, ht, hl, hr⟩ := controlIn_app (p := p) (buflen := buflen) (reqlen := reqlen) h
    exact ⟨t, ht, hl, fun c hc => tailOf_app (hr.tail ▸ hc)⟩
  | null =>
    simp only [Ptr.usable, decide_eq_true_eq] at hu
    subst hu
    obtain ⟨t, ht, hl, hc, -⟩ := controlIn_empty (buf := .null) (buflen := 0) (reqlen := reqlen) h (by simp)
    exact ⟨t, ht, hl, fun c e => by rw [hc] at e; simp at e⟩
  | setupBuf o => simp [Ptr.usable] at hu
  | replyBuf o => simp [Ptr.usable] at hu

theorem Ready.congr {s t : State} (h : Ready s) (f : IoFrame s t) (hl : Laid t)
    (hc : ∀ c, t.cont = some c → ∃ a, c.ptr = .app a) : Ready t :=
  ⟨hl, fun a ha => h.answers a (f.answers a ha), hc⟩

theorem runAct_runs {a : AppAct} {s : State} (h : Ready s) (ha : AppAct.safe a = true) : ∃ t, runAct a s = .ok t ∧ Ready t := by
  cases a with
  | epWrite ept buf len =>
    obtain ⟨b, t, ht, hl⟩ := epWrite_runs (ept := ept) (buf := buf.ptr) (len := len) h.laid ha
    have e : runAct (.epWrite ept buf len) s = .ok (emit (.wrote b) t) := by simp only [runAct, ht, ok_bind]
    have f := epWrite_frame ht
    exact ⟨_, e, h.congr (runAct_frame e).1 (hl.congr rfl rfl fun _ _ => rfl)
      (by rw [emit_cont, f.2.1]; exact h.contPtr)⟩
  | epRead ept buf cap =>
    obtain ⟨n, t, ht, hl⟩ := epRead_runs (ept := ept) (buf := buf.ptr) (cap := cap) h.laid ha
    have e : runAct (.epRead ept buf cap) s = .ok (emit (.gotCount n) t) := by simp only [runAct, ht, ok_bind]
    have f := epRead_frame ht
    exact ⟨_, e, h.congr (runAct_frame e).1 (hl.congr rfl rfl fun _ _ => rfl)
      (by rw [emit_cont, f.2.1]; exact h.contPtr)⟩
  | controlIn buf buflen reqlen =>
    obtain ⟨t, ht, hl, hc⟩ := controlIn_runs (buf := buf.ptr) (buflen := buflen) (reqlen := reqlen) h.laid ha
    exact ⟨t, ht, h.congr (controlIn_frame ht).1 hl hc⟩
  | store a bs =>
    exact ⟨_, rfl, h.congr (appStore_frame a bs s) (h.laid.congr rfl rfl fun _ _ => rfl) h.contPtr⟩

theorem runActs_runs {as : List AppAct} {s : State} (h : Ready s) (ha : ∀ m ∈ as, AppAct.safe m = true) :
    ∃ t, runActs as s = .ok t ∧ Ready t := by
  induction as generalizing s with
  | nil => exact ⟨s, rfl, h⟩
  | cons a as ih =>
    obtain ⟨t, ht, hr⟩ := runAct_runs h (ha a (by simp))
    obtain ⟨u, hu, hr⟩ := ih hr fun m hm => ha m (by simp [hm])
    exact ⟨u, by simp only [runActs, ht, ok_bind, hu], hr⟩

/-- A callback runs to its end and leaves the block ready. -/
theorem delegated_runs {s : State} (c : Call) (h : Ready s) : ∃ r t, Delegated c s t r ∧ Ready t := by
  unfold Delegated
  cases hs : s.answers with
  | nil =>
    exact ⟨_, _, ⟨rfl, rfl⟩, h.laid.congr rfl rfl fun _ _ => rfl, by simp, h.contPtr⟩
  | cons a rest =>
    have hr : Ready { s with answers := rest, out := s.out ++ [.called c] } :=
      ⟨h.laid.congr rfl rfl fun _ _ => rfl, fun x hx => h.answers x (by rw [hs]; exact List.mem_cons_of_mem _ hx), h.contPtr⟩
    obtain ⟨t, ht, hr'⟩ := runActs_runs hr (h.answers a (by rw [hs]; exact List.mem_cons_self))
    exact ⟨a.ret, t, ⟨rfl, ht⟩, hr'⟩

theorem hookRan_runs {s : State} (p : Bool) (c : Call) (h : Ready s) : ∃ t, HookRan p c s t ∧ Ready t := by
  unfold HookRan
  cases p with
  | false => exact ⟨s, by simp, h⟩
  | true =>
    obtain ⟨r, t, ht, hr⟩ := delegated_runs c h
    exact ⟨t, ⟨r, ht⟩, hr⟩

theorem hook_runs {s : State} (p : Bool) (c : Call) (h : Ready s) : ∃ t, hook p c s = .ok t ∧ HookRan p c s t ∧ Ready t := by
  obtain ⟨t, ht, hr⟩ := hookRan_runs p c h
  exact ⟨t, hook_eq_ok.2 ht, ht, hr⟩

theorem delegate_runs {s : State} (p : Bool) (c : Call) (h : Ready s) :
    ∃ r t, delegate p c s = .ok (r, t) ∧ Ready t := by
  cases p with
  | false => exact ⟨false, s, rfl, h⟩
  | true =>
    obtain ⟨r, t, ht, hr⟩ := delegated_runs c h
    exact ⟨r, t, delegate_eq_ok.2 ht, hr⟩

/-! ## The end of a request -/

theorem protocolReject_frame (s : State) : IoFrame s (protocolReject s) :=
  (protocolReject_stalled s).only.ioFrame (by decide) (.inr (by simp [sizeIn_zero])) (.inr (by simp [sizeOut_zero]))

theorem protocolReject_ready {s : State} (h : Ready s) : Ready (protocolReject s) := by
  have f := (protocolReject_stalled s).only.frame
  refine h.congr (protocolReject_frame s) (h.laid.of_frame (protocolReject_frame s) fun a _ => by rw [f]) ?_
  rw [f]; exact h.contPtr

/-- The zero-length status packet (43_control_engine.md R210). -/
theorem statusPacket {s : State} (h : Laid s) : ∃ t, epWrite 0 .null 0 s = .ok (true, t) ∧ Armed 0 s t [] ∧ Laid t :=
  epWrite_of_laid h slotIndex_zero (by simp [sizeIn_zero]) (by simp) rfl

theorem finishRequest_runs {s : State} (d2h handled : Bool) (h : Ready s) :
    ∃ t, finishRequest d2h handled s = .ok t ∧ Finished d2h handled s t ∧ Ready t := by
  unfold finishRequest Finished
  cases handled with
  | false => exact ⟨_, rfl, protocolReject_stalled s, protocolReject_ready h⟩
  | true =>
    cases d2h with
    | true => exact ⟨s, rfl, rfl, h⟩
    | false =>
      obtain ⟨t, ht, ha, hl⟩ := statusPacket h.laid
      have f := epWrite_frame ht
      exact ⟨t, by simp only [if_true, Bool.false_eq_true, if_false, ht, ok_bind], by simpa using ha, h.congr f.1 hl (by rw [f.2.1]; exact h.contPtr)⟩

theorem finishRequest_frame {s t : State} {d2h handled : Bool} (h : finishRequest d2h handled s = .ok t) : IoFrame s t := by
  unfold finishRequest at h
  split at h
  · split at h
    · simp only [Except.ok.injEq] at h; subst h; exact IoFrame.refl s
    · simp only [bind_eq_ok, Except.ok.injEq] at h
      obtain ⟨⟨b, u⟩, hu, rfl⟩ := h
      exact (epWrite_frame hu).1
  · simp only [Except.ok.injEq] at h; subst h; exact protocolReject_frame s

end Sys2Proof.Machine
end

