-- ==== Sys2Proof/Laws/Requests.lean ====
section
/-! SUPPORT. The standard requests: the replies, what a request may change, and that every request runs to its end. -/

namespace Sys2Proof.Machine

theorem setReplyBuf_frame (v : Vector Byte 2) (s : State) : IoFrame s { s with replyBuf := v } :=
  { IoFrame.refl s with }

theorem Armed.eq_of_cont {i : Fin 8} {s t : State} {bytes : List Byte} (h : Armed i s { t with cont := s.cont } bytes) :
    t = { s with epr := t.epr, pma := t.pma, freeCount := t.freeCount, cont := t.cont } :=
  congrArg (fun x : State => { x with cont := t.cont }) h.frame

/-- A reply of one byte (43_control_engine.md R209). -/
theorem replyOne_ok (b : Byte) (w : Word) {s : State} (h : Laid s) :
    ∃ t, replyOne b w s = .ok (true, t) ∧ Laid t ∧ RepliedFrom s t [b] w := by
  have h' : Laid { s with replyBuf := s.replyBuf.set 0 b } := h.congr rfl rfl fun _ _ => rfl
  obtain ⟨t, ht, hl, hc, ha⟩ := controlIn_replyBuf (n := 1) (reqlen := w) h' (by decide)
  obtain ⟨e, p, n, c, rfl⟩ : ∃ e p n c, t = { s with
      epr := e, pma := p, freeCount := n, cont := c, replyBuf := s.replyBuf.set 0 b } := ⟨_, _, _, _, ha.eq_of_cont⟩
  have hc : c = none := hc
  subst hc
  refine ⟨_, by simp only [replyOne, ht, ok_bind], hl, ?_, ?_, rfl⟩
  · have e1 : (s.replyBuf.set 0 b).toList.take 1 = [b] := by
      generalize s.replyBuf = v
      obtain ⟨⟨l⟩, hl⟩ := v
      match l, hl with
      | [x, y], _ => rfl
    have ha' := ha
    rw [show (1 : Word).toNat = 1 from rfl, e1] at ha'
    exact
      { payload := ha'.payload, count := ha'.count, otherPma := ha'.otherPma, pad := ha'.pad, valid := ha'.valid,
        outside := ha'.outside, others := ha'.others, frame := rfl }
  · obtain ⟨⟨l⟩, hl⟩ := s.replyBuf
    match l, hl with
    | [x, y], _ => rfl

/-- A reply of two bytes (43_control_engine.md R209). -/
theorem replyTwo_ok (b0 b1 : Byte) (w : Word) {s : State} (h : Laid s) :
    ∃ t, replyTwo b0 b1 w s = .ok (true, t) ∧ Laid t ∧ RepliedFrom s t [b0, b1] w := by
  have h' : Laid { s with replyBuf := #v[b0, b1] } := h.congr rfl rfl fun _ _ => rfl
  obtain ⟨t, ht, hl, hc, ha⟩ := controlIn_replyBuf (n := 2) (reqlen := w) h' (by decide)
  obtain ⟨e, p, n, c, rfl⟩ : ∃ e p n c, t = { s with
      epr := e, pma := p, freeCount := n, cont := c, replyBuf := #v[b0, b1] } := ⟨_, _, _, _, ha.eq_of_cont⟩
  have hc : c = none := hc
  subst hc
  refine ⟨_, by simp only [replyTwo, ht, ok_bind], hl, ?_, ?_, rfl⟩
  · exact
      { payload := ha.payload, count := ha.count, otherPma := ha.otherPma, pad := ha.pad, valid := ha.valid,
        outside := ha.outside, others := ha.others, frame := rfl }
  · obtain ⟨⟨l⟩, hl⟩ := s.replyBuf
    match l, hl with
    | [x, y], _ => rfl

/-- A reply from application memory (43_control_engine.md R209). -/
theorem replyDescriptor_ok (p : Nat) (len w : Word) {s : State} (h : Laid s) :
    ∃ t, replyDescriptor p len w s = .ok (true, t) ∧ Laid t ∧ RepliedAt s t p (min w.toNat len.toNat) := by
  obtain ⟨t, ht, hl, hr⟩ := controlIn_app (p := p) (buflen := len) (reqlen := w) h
  exact ⟨t, by simp only [replyDescriptor, ht, ok_bind], hl, hr⟩

theorem replyOne_frame {b : Byte} {w : Word} {s t : State} {r : Bool} (h : replyOne b w s = .ok (r, t)) :
    IoFrame s t := by
  simp only [replyOne, bind_eq_ok, Except.ok.injEq, Prod.mk.injEq] at h
  obtain ⟨u, hu, -, rfl⟩ := h
  exact (setReplyBuf_frame _ s).trans (controlIn_frame hu).1

theorem replyTwo_frame {b0 b1 : Byte} {w : Word} {s t : State} {r : Bool} (h : replyTwo b0 b1 w s = .ok (r, t)) :
    IoFrame s t := by
  simp only [replyTwo, bind_eq_ok, Except.ok.injEq, Prod.mk.injEq] at h
  obtain ⟨u, hu, -, rfl⟩ := h
  exact (setReplyBuf_frame _ s).trans (controlIn_frame hu).1

theorem replyDescriptor_frame {p : Nat} {len w : Word} {s t : State} {r : Bool}
    (h : replyDescriptor p len w s = .ok (r, t)) : IoFrame s t := by
  simp only [replyDescriptor, bind_eq_ok, Except.ok.injEq, Prod.mk.injEq] at h
  obtain ⟨u, hu, -, rfl⟩ := h
  exact (controlIn_frame hu).1

/-! ## The endpoint operand -/

/-- `ep_operand_ok` (44_standard_requests.md R234): the number is below 8 and the direction is present. -/
theorem epOperand_eq_some {c : Config} {n : BitVec 4} {d : Dir} {i : Fin 8} :
    epOperand c n d = some i ↔ slotIndex n = some i ∧ dirSize c i d ≠ 0 := by
  unfold epOperand dirSize
  cases hs : slotIndex n with
  | none => simp
  | some j =>
    cases d with
    | tx =>
      by_cases hp : sizeIn c j = 0
      · simp only [inPresent, hp, ne_eq, not_true_eq_false, decide_false, Bool.false_eq_true, if_false, reduceCtorEq,
          Option.some.injEq, false_iff, not_and, not_not]
        rintro rfl; exact hp
      · simp only [inPresent, hp, ne_eq, not_false_eq_true, decide_true, if_true, Option.some.injEq]
        constructor
        · rintro rfl; exact ⟨rfl, hp⟩
        · rintro ⟨rfl, -⟩; rfl
    | rx =>
      by_cases hp : sizeOut c j = 0
      · simp only [outPresent, hp, ne_eq, not_true_eq_false, decide_false, Bool.false_eq_true, if_false, reduceCtorEq,
          Option.some.injEq, false_iff, not_and, not_not]
        rintro rfl; exact hp
      · simp only [outPresent, hp, ne_eq, not_false_eq_true, decide_true, if_true, Option.some.injEq]
        constructor
        · rintro rfl; exact ⟨rfl, hp⟩
        · rintro ⟨rfl, -⟩; rfl

/-! ## Loops over registers -/

/-- A property kept by the body is kept by a loop. -/
theorem foldl_keeps {α β : Type} (P : β → Prop) (f : β → α → β) (h : ∀ b a, P b → P (f b a)) (l : List α) (b : β)
    (hb : P b) : P (l.foldl f b) := by
  induction l generalizing b with
  | nil => exact hb
  | cons a l ih => exact ih _ (h b a hb)

/-- A loop of updates of distinct registers, each from the register's own value, updates each of them once. -/
theorem foldl_setEpr (f : Fin 8 → Word → Word) (l : List (Fin 8)) (hl : l.Nodup) (s : State) :
    ∃ e, l.foldl (fun s i => setEpr i (f i s.epr[i]) s) s = { s with epr := e } ∧
      ∀ j : Fin 8, e[j] = if j ∈ l then f j s.epr[j] else s.epr[j] := by
  induction l generalizing s with
  | nil => exact ⟨s.epr, rfl, fun j => by simp⟩
  | cons i l ih =>
    obtain ⟨hi, hl⟩ := List.nodup_cons.1 hl
    obtain ⟨e, he, hj⟩ := ih hl (setEpr i (f i s.epr[i]) s)
    refine ⟨e, he, fun j => ?_⟩
    rw [hj j, epr_setEpr]
    by_cases e1 : j = i
    · subst e1; simp [hi]
    · simp [e1]

theorem foldl_eprZero (l : List (Fin 8)) (hl : l.Nodup) (s : State) :
    ∃ e, l.foldl (fun s i => eprZero i s) s = { s with epr := e } ∧
      ∀ j : Fin 8, e[j] = if j ∈ l then s.epr[j] &&& 0x0800 else s.epr[j] := by
  have := foldl_setEpr (fun _ r => r &&& 0x0800) l hl s
  simpa only [← eprZero_eq] using this

/-- What a matching SET_CONFIGURATION makes of a register (44_standard_requests.md R248). -/
def confWord (c : Config) (i : Fin 8) (r : Word) : Word :=
  if inPresent c i || outPresent c i then
    let r := (r &&& ~~~(0x070F : Word)) |||
      (((slot c i).typ.code c.layout.typeCodes).setWidth 16 <<< 9 ||| (BitVec.ofNat 4 i.val).setWidth 16)
    let r := if inPresent c i then (r &&& ~~~(0x0070 : Word)) ||| Stat.nak.inTx else r
    if outPresent c i then (r &&& ~~~(0x7000 : Word)) ||| Stat.valid.inRx else r
  else r

theorem setEpr_self (i : Fin 8) (s : State) : setEpr i s.epr[i] s = s := by
  simp [setEpr]

theorem configureReg_eq (s : State) (i : Fin 8) : configureReg s i = setEpr i (confWord s.cfg i s.epr[i]) s := by
  unfold configureReg confWord
  split
  · simp only [eprSetTypeAddr_eq, eprSetStatTxDtog0_eq, eprSetStatRxDtog0_eq]
    cases hi : inPresent s.cfg i <;> cases ho : outPresent s.cfg i
    · simp [setEpr, hi, ho]
    · simp [setEpr, hi, ho, Vector.set_set]
    · simp [setEpr, hi, ho, Vector.set_set]
    · simp [setEpr, hi, ho, Vector.set_set]
  · rw [setEpr_self]

theorem foldl_configure (l : List (Fin 8)) (hl : l.Nodup) (s : State) :
    ∃ e, l.foldl configureReg s = { s with epr := e } ∧
      ∀ j : Fin 8, e[j] = if j ∈ l then confWord s.cfg j s.epr[j] else s.epr[j] := by
  induction l generalizing s with
  | nil => exact ⟨s.epr, rfl, fun j => by simp⟩
  | cons i l ih =>
    obtain ⟨hi, hl⟩ := List.nodup_cons.1 hl
    obtain ⟨e, he, hj⟩ := ih hl (configureReg s i)
    rw [configureReg_eq] at he hj
    refine ⟨e, by rw [List.foldl_cons, configureReg_eq]; exact he, fun j => ?_⟩
    rw [hj j, epr_setEpr]
    by_cases e1 : j = i
    · subst e1; simp [hi]
    · simp [e1, setEpr]

theorem mem_configurableRegs (i : Fin 8) : i ∈ configurableRegs ↔ i ≠ 0 := by revert i; decide

theorem configurableRegs_nodup : configurableRegs.Nodup := by decide

theorem mem_allRegs (i : Fin 8) : i ∈ allRegs := by revert i; decide

theorem allRegs_nodup : allRegs.Nodup := by decide

/-! ## SET_CONFIGURATION -/

/-- SET_CONFIGURATION changes nothing, or `dev_state` and the registers 1..7 (44_standard_requests.md R248). -/
theorem setConfiguration_cases (v : Byte) (s : State) :
    (setConfiguration v s = (false, s)) ∨
    (s.devState ≠ .default ∧ v = 0 ∧ ∃ e, setConfiguration v s = (true, { s with devState := .address, epr := e }) ∧
      ∀ j : Fin 8, e[j] = if j = 0 then s.epr[j] else s.epr[j] &&& 0x0800) ∨
    (s.devState ≠ .default ∧ v ≠ 0 ∧ ∃ c, s.cfg.desc.config = some c ∧ v = s.mem.read (c + 5) ∧
      ∃ e, setConfiguration v s = (true, { s with devState := .configured, epr := e }) ∧
        ∀ j : Fin 8, e[j] = if j = 0 then s.epr[j] else confWord s.cfg j s.epr[j]) := by
  unfold setConfiguration
  split
  · exact .inl rfl
  · rename_i hd
    split
    · rename_i hv
      obtain ⟨e, he, hj⟩ := foldl_eprZero configurableRegs configurableRegs_nodup { s with devState := .address }
      refine .inr (.inl ⟨hd, hv, e, by rw [he], fun j => ?_⟩)
      rw [hj j]
      simp only [mem_configurableRegs]
      by_cases e : j = 0 <;> simp [e]
    · rename_i hv
      split
      · exact .inl rfl
      · rename_i c hc
        split
        · rename_i hm
          obtain ⟨e, he, hj⟩ := foldl_configure configurableRegs configurableRegs_nodup { s with devState := .configured }
          refine .inr (.inr ⟨hd, hv, c, hc, hm, e, by rw [he], fun j => ?_⟩)
          rw [hj j]
          simp only [mem_configurableRegs]
          by_cases e : j = 0 <;> simp [e]
        · exact .inl rfl

/-- The fields `SET_CONFIGURATION` programs (44_standard_requests.md R248). -/
theorem confWord_fields (c : Config) (i : Fin 8) (r : Word) (h : inPresent c i || outPresent c i) :
    (c.layout.ok = true → Epr.epType c.layout.typeCodes (confWord c i r) = (slot c i).typ) ∧
    Epr.ea (confWord c i r) = BitVec.ofNat 4 i.val ∧
    Epr.epKind (confWord c i r) = false ∧
    confWord c i r &&& 0x8880 = r &&& 0x8880 ∧
    (if inPresent c i then Epr.statTx (confWord c i r) = .nak ∧ Epr.dtogTx (confWord c i r) = false
      else confWord c i r &&& 0x0070 = r &&& 0x0070) ∧
    (if outPresent c i then Epr.statRx (confWord c i r) = .valid ∧ Epr.dtogRx (confWord c i r) = false
      else confWord c i r &&& 0x7000 = r &&& 0x7000) := by
  let s0 : State := { State.reset with cfg := c, epr := State.reset.epr.set i r }
  have hr : s0.epr[i] = r := by simp [s0]
  have and_and : ∀ {x y m f : Word}, x &&& ~~~m = y &&& ~~~m → m &&& f = 0 → x &&& f = y &&& f := by
    intro x y m f hx hm
    apply BitVec.eq_of_getLsbD_eq
    intro k hk
    simp only [BitVec.getLsbD_and]
    by_cases hf : f.getLsbD k = true
    · rw [bit_of_outside hx (getLsbD_of_and_zero hm hf)]
    · simp [hf]
  unfold confWord
  rw [if_pos h]
  simp only []
  have ht := typeAddr_sub ((slot c i).typ.code c.layout.typeCodes) (BitVec.ofNat 4 i.val)
  have o1 := outside_of_set r _ _ ht
  have f1 := eprSetTypeAddr_fields i (slot c i).typ (BitVec.ofNat 4 i.val) s0
  rw [eprSetTypeAddr_eq, epr_setEpr, if_pos rfl, hr] at f1
  generalize (r &&& ~~~(0x070F : Word)) |||
    (((slot c i).typ.code c.layout.typeCodes).setWidth 16 <<< 9 ||| (BitVec.ofNat 4 i.val).setWidth 16) = r1 at o1 f1
  have tx : ∀ x : Word, ((x &&& ~~~(0x0070 : Word)) ||| Stat.nak.inTx) &&& ~~~(0x0070 : Word) = x &&& ~~~(0x0070 : Word) :=
    fun x => outside_of_set x _ _ (inTx_sub' _)
  have txi : ∀ x : Word, Epr.statTx ((x &&& ~~~(0x0070 : Word)) ||| Stat.nak.inTx) = .nak ∧
      Epr.dtogTx ((x &&& ~~~(0x0070 : Word)) ||| Stat.nak.inTx) = false := fun x => by
    have h := inside_of_set x _ _ (inTx_sub' .nak)
    exact ⟨statTx_of_inside ((and_of_and h (by decide)).trans (by decide)), (getLsbD_of_and h (by decide)).trans (by decide)⟩
  have rx : ∀ x : Word, ((x &&& ~~~(0x7000 : Word)) ||| Stat.valid.inRx) &&& ~~~(0x7000 : Word) = x &&& ~~~(0x7000 : Word) :=
    fun x => outside_of_set x _ _ (inRx_sub' _)
  have rxi : ∀ x : Word, Epr.statRx ((x &&& ~~~(0x7000 : Word)) ||| Stat.valid.inRx) = .valid ∧
      Epr.dtogRx ((x &&& ~~~(0x7000 : Word)) ||| Stat.valid.inRx) = false := fun x => by
    have h := inside_of_set x _ _ (inRx_sub' .valid)
    exact ⟨statRx_of_inside ((and_of_and h (by decide)).trans (by decide)), (getLsbD_of_and h (by decide)).trans (by decide)⟩
  obtain ⟨p1, p2, p3⟩ := f1
  cases hi : inPresent c i <;> cases ho : outPresent c i
  · simp [hi, ho] at h
  · simp only [Bool.false_eq_true, if_false, if_true]
    refine ⟨fun hy => (epType_of_outside (rx r1) (by decide)).trans (p1 hy), (ea_of_outside (rx r1) (by decide)).trans p2,
      (epKind_of_outside (rx r1) (by decide)).trans p3, ?_, ?_, rxi r1⟩
    · rw [and_and (rx r1) (by decide), and_and o1 (by decide)]
    · rw [and_and (rx r1) (by decide), and_and o1 (by decide)]
  · simp only [Bool.false_eq_true, if_false, if_true]
    refine ⟨fun hy => (epType_of_outside (tx r1) (by decide)).trans (p1 hy), (ea_of_outside (tx r1) (by decide)).trans p2,
      (epKind_of_outside (tx r1) (by decide)).trans p3, ?_, txi r1, ?_⟩
    · rw [and_and (tx r1) (by decide), and_and o1 (by decide)]
    · rw [and_and (tx r1) (by decide), and_and o1 (by decide)]
  · simp only [if_true]
    generalize hr2 : (r1 &&& ~~~(0x0070 : Word)) ||| Stat.nak.inTx = r2
    have o2 := tx r1
    have f2 := txi r1
    rw [hr2] at o2 f2
    refine ⟨fun hy => (epType_of_outside (rx r2) (by decide)).trans ((epType_of_outside o2 (by decide)).trans (p1 hy)),
      (ea_of_outside (rx r2) (by decide)).trans ((ea_of_outside o2 (by decide)).trans p2),
      (epKind_of_outside (rx r2) (by decide)).trans ((epKind_of_outside o2 (by decide)).trans p3), ?_,
      ⟨(statTx_of_outside (rx r2) (by decide)).trans f2.1, (dtogTx_of_outside (rx r2) (by decide)).trans f2.2⟩, rxi r2⟩
    rw [and_and (rx r2) (by decide), and_and o2 (by decide), and_and o1 (by decide)]

end Sys2Proof.Machine
end

