-- ==== Sys2Proof/Laws/Frames.lean ====
section
/-! SUPPORT. What one instruction other than `init` may change, whatever the state: the frame every instruction keeps,
and the one the endpoint registers keep under the rows of the command port and of the bus. -/

namespace Sys2Proof.Machine

/-- What every instruction but `init` keeps. -/
structure CoreFrame (s t : State) : Prop where
  cfg : t.cfg = s.cfg
  inited : t.inited = s.inited
  btable : t.btable = s.btable
  dppu : t.dppu = s.dppu
  script : t.script = s.script
  epIdIdle : t.epIdIdle = s.epIdIdle
  answers : ∀ a ∈ t.answers, a ∈ s.answers
  pmaWf : s.pma.wf = true → t.pma.wf = true
  memWf : s.mem.wf = true → t.mem.wf = true
  contRem : (∀ c, s.cont = some c → c.rem ≠ 0) → ∀ c, t.cont = some c → c.rem ≠ 0
  cursor : 1 ≤ s.sofCur ∧ s.sofCur ≤ 7 → 1 ≤ t.sofCur ∧ t.sofCur ≤ 7
  cntr : s.cntr &&& 0x61F8 = 0 → t.cntr &&& 0x61F8 = 0
  kind : (∀ i : Fin 8, Epr.epKind s.epr[i] = false) → ∀ i : Fin 8, Epr.epKind t.epr[i] = false

theorem CoreFrame.refl (s : State) : CoreFrame s s :=
  ⟨rfl, rfl, rfl, rfl, rfl, rfl, fun _ h => h, id, id, id, id, id, id⟩

theorem CoreFrame.trans {s t u : State} (h : CoreFrame s t) (g : CoreFrame t u) : CoreFrame s u where
  cfg := g.cfg.trans h.cfg
  inited := g.inited.trans h.inited
  btable := g.btable.trans h.btable
  dppu := g.dppu.trans h.dppu
  script := g.script.trans h.script
  epIdIdle := g.epIdIdle.trans h.epIdIdle
  answers := fun a ha => h.answers a (g.answers a ha)
  pmaWf := fun hw => g.pmaWf (h.pmaWf hw)
  memWf := fun hw => g.memWf (h.memWf hw)
  contRem := fun hw => g.contRem (h.contRem hw)
  cursor := fun hw => g.cursor (h.cursor hw)
  cntr := fun hw => g.cntr (h.cntr hw)
  kind := fun hw => g.kind (h.kind hw)

theorem IoFrame.core {s t : State} (h : IoFrame s t) : CoreFrame s t where
  cfg := h.cfg
  inited := h.inited
  btable := h.btable
  dppu := h.dppu
  script := h.script
  epIdIdle := h.epIdIdle
  answers := h.answers
  pmaWf := h.pmaWf
  memWf := h.memWf
  contRem := h.contRem
  cursor := fun hw => by rw [h.sofCur]; exact hw
  cntr := fun hw => by rw [h.cntr]; exact hw
  kind := fun hw i => (epKind_of_outside (h.epr i) (by decide)).trans (hw i)

/-- What a register may be on this block: only register 0 is Control, a register answers to its own number or has been
zeroed, and a direction of size zero is disabled. -/
structure RegOk (c : Config) (i : Fin 8) (r : Word) : Prop where
  control : Epr.epType c.layout.typeCodes r = .control → i = 0
  ea : Epr.ea r = 0 ∨ Epr.ea r = BitVec.ofNat 4 i.val
  absentTx : sizeIn c i = 0 → Epr.statTx r = .disabled
  absentRx : sizeOut c i = 0 → Epr.statRx r = .disabled

/-- All registers are as this block leaves them. -/
def RegsOk (s : State) : Prop := ∀ i : Fin 8, RegOk s.cfg i s.epr[i]

/-- The frame of the command port and the bus: `CoreFrame`, and the registers stay as the block leaves them. -/
structure BlockFrame (s t : State) : Prop where
  core : CoreFrame s t
  regs : configOk s.cfg = true → s.cfg.layout.typeCodes.control ≠ 0 → RegsOk s → RegsOk t

theorem BlockFrame.refl (s : State) : BlockFrame s s := ⟨CoreFrame.refl s, fun _ _ h => h⟩

theorem BlockFrame.trans {s t u : State} (h : BlockFrame s t) (g : BlockFrame t u) : BlockFrame s u :=
  ⟨h.core.trans g.core, fun hc hz hr => g.regs (by rw [h.core.cfg]; exact hc) (by rw [h.core.cfg]; exact hz) (h.regs hc hz hr)⟩

theorem RegOk.of_outside {c : Config} {i : Fin 8} {r r' : Word} (h : RegOk c i r)
    (ho : r' &&& ~~~(0x7070 : Word) = r &&& ~~~(0x7070 : Word))
    (ht : sizeIn c i = 0 → Epr.statTx r' = Epr.statTx r) (hr : sizeOut c i = 0 → Epr.statRx r' = Epr.statRx r) :
    RegOk c i r' where
  control := fun e => h.control (by rw [← epType_of_outside ho (by decide)]; exact e)
  ea := by rw [ea_of_outside ho (by decide)]; exact h.ea
  absentTx := fun e => (ht e).trans (h.absentTx e)
  absentRx := fun e => (hr e).trans (h.absentRx e)

theorem IoFrame.block {s t : State} (h : IoFrame s t) : BlockFrame s t :=
  ⟨h.core, fun _ _ hr i => by rw [h.cfg]; exact (hr i).of_outside (h.epr i) (h.tx i) (h.rx i)⟩

/-- A change of one register that leaves it legal. -/
theorem blockFrame_setEpr {s : State} {i : Fin 8} {w : Word}
    (hk : Epr.epKind s.epr[i] = false → Epr.epKind w = false)
    (hr : configOk s.cfg = true → s.cfg.layout.typeCodes.control ≠ 0 → RegOk s.cfg i s.epr[i] → RegOk s.cfg i w) :
    BlockFrame s (setEpr i w s) := by
  refine ⟨{ CoreFrame.refl s with kind := fun h j => ?_ }, fun hc hz h j => ?_⟩
  · rw [epr_setEpr]
    split
    · exact hk (h i)
    · exact h j
  · show RegOk s.cfg j (setEpr i w s).epr[j]
    rw [epr_setEpr]
    split
    · rename_i e; subst e; exact hr hc hz (h j)
    · exact h j

/-- A cleared register is legal. -/
theorem regOk_cleared {c : Config} {i : Fin 8} {r : Word} (hz : c.layout.typeCodes.control ≠ 0)
    (h : r &&& 0x773F = 0) : RegOk c i r := by
  have bit : ∀ k, (0x773F : Word).getLsbD k = true → r.getLsbD k = false := fun k hk =>
    (getLsbD_of_and h hk).trans (getLsbD_zero_word k)
  have tx : r.extractLsb' 4 2 = 0 := extract_of_bits fun i hi =>
    (bit (4 + i) (by interval_cases i <;> decide)).trans (by interval_cases i <;> decide)
  have rx : r.extractLsb' 12 2 = 0 := extract_of_bits fun i hi =>
    (bit (12 + i) (by interval_cases i <;> decide)).trans (by interval_cases i <;> decide)
  have ty : r.extractLsb' 9 2 = 0 := extract_of_bits fun i hi =>
    (bit (9 + i) (by interval_cases i <;> decide)).trans (by interval_cases i <;> decide)
  have ea : Epr.ea r = 0 := extract_of_bits fun i hi =>
    (bit (0 + i) (by interval_cases i <;> decide)).trans (by interval_cases i <;> decide)
  refine ⟨fun e => ?_, .inl ea, fun _ => by rw [Epr.statTx, tx]; rfl, fun _ => by rw [Epr.statRx, rx]; rfl⟩
  rw [Epr.epType, ty, EpType.ofCode] at e
  split at e
  · simp at e
  · rw [if_neg (Ne.symm hz)] at e
    split at e <;> simp at e

theorem epKind_cleared {r : Word} (h : r &&& 0x0100 = 0) : Epr.epKind r = false :=
  (getLsbD_of_and h (by decide)).trans (getLsbD_zero_word 8)

theorem and_masked (r m f : Word) (h : m &&& f = 0) : (r &&& m) &&& f = 0 := by
  rw [BitVec.and_assoc, h]; simp

theorem eprZero_block (i : Fin 8) (s : State) : BlockFrame s (eprZero i s) := by
  rw [eprZero_eq]
  exact blockFrame_setEpr (fun _ => epKind_cleared (and_masked _ _ _ (by decide)))
    (fun _ hz _ => regOk_cleared hz (and_masked _ _ _ (by decide)))

theorem eprClearCtrRx_block (i : Fin 8) (s : State) : BlockFrame s (eprClearCtrRx i s) := by
  rw [eprClearCtrRx_eq]
  have o := outside_of_clear s.epr[i] 0x8000
  refine blockFrame_setEpr (fun h => (epKind_of_outside o (by decide)).trans h) fun _ _ h => ⟨?_, ?_, ?_, ?_⟩
  · rw [epType_of_outside o (by decide)]; exact h.control
  · rw [ea_of_outside o (by decide)]; exact h.ea
  · rw [statTx_of_outside o (by decide)]; exact h.absentTx
  · rw [statRx_of_outside o (by decide)]; exact h.absentRx

theorem eprClearCtrTx_block (i : Fin 8) (s : State) : BlockFrame s (eprClearCtrTx i s) := by
  rw [eprClearCtrTx_eq]
  have o := outside_of_clear s.epr[i] 0x0080
  refine blockFrame_setEpr (fun h => (epKind_of_outside o (by decide)).trans h) fun _ _ h => ⟨?_, ?_, ?_, ?_⟩
  · rw [epType_of_outside o (by decide)]; exact h.control
  · rw [ea_of_outside o (by decide)]; exact h.ea
  · rw [statTx_of_outside o (by decide)]; exact h.absentTx
  · rw [statRx_of_outside o (by decide)]; exact h.absentRx

/-! ## Requests -/

theorem getStatusDevice_frame {w : Word} {s t : State} {r : Bool} (h : getStatusDevice w s = .ok (r, t)) : IoFrame s t := by
  unfold getStatusDevice at h
  split at h
  · simp only [Except.ok.injEq, Prod.mk.injEq] at h; rw [← h.2]; exact IoFrame.refl s
  · split at h
    · simp only [Except.ok.injEq, Prod.mk.injEq] at h; rw [← h.2]; exact IoFrame.refl s
    · exact replyTwo_frame h

theorem getStatusInterface_frame {i : Byte} {w : Word} {s t : State} {r : Bool}
    (h : getStatusInterface i w s = .ok (r, t)) : IoFrame s t := by
  unfold getStatusInterface at h
  split at h
  · simp only [Except.ok.injEq, Prod.mk.injEq] at h; rw [← h.2]; exact IoFrame.refl s
  · exact replyTwo_frame h

theorem getStatusEndpoint_frame {n : BitVec 4} {d : Dir} {w : Word} {s t : State} {r : Bool}
    (h : getStatusEndpoint n d w s = .ok (r, t)) : IoFrame s t := by
  unfold getStatusEndpoint at h
  split at h
  · simp only [Except.ok.injEq, Prod.mk.injEq] at h; rw [← h.2]; exact IoFrame.refl s
  · split at h
    · simp only [Except.ok.injEq, Prod.mk.injEq] at h; rw [← h.2]; exact IoFrame.refl s
    · exact replyTwo_frame h

theorem clearFeature_frame (n : BitVec 4) (d : Dir) (s : State) : IoFrame s (clearFeatureEndpointHalt n d s).2 := by
  unfold clearFeatureEndpointHalt
  split
  · exact IoFrame.refl s
  · split
    · exact IoFrame.refl s
    · rename_i i hi
      have hp := (epOperand_eq_some.1 hi).2
      split
      · exact IoFrame.refl s
      · cases d with
        | tx => exact (eprSetStatTxDtog0_oneReg i .nak s).ioFrame (by decide) (.inr hp) (.inl (by decide))
        | rx => exact (eprSetStatRxDtog0_oneReg i .valid s).ioFrame (by decide) (.inl (by decide)) (.inr hp)

theorem setFeature_frame (n : BitVec 4) (d : Dir) (s : State) : IoFrame s (setFeatureEndpointHalt n d s).2 := by
  unfold setFeatureEndpointHalt
  split
  · exact IoFrame.refl s
  · split
    · exact IoFrame.refl s
    · rename_i i hi
      have hp := (epOperand_eq_some.1 hi).2
      split
      · exact IoFrame.refl s
      · cases d with
        | tx => exact (eprSetStatTx_oneReg i .stall s).ioFrame (by decide) (.inr hp) (.inl (by decide))
        | rx => exact (eprSetStatRx_oneReg i .stall s).ioFrame (by decide) (.inl (by decide)) (.inr hp)

theorem getDescriptorDevice_frame {w : Word} {s t : State} {r : Bool} (h : getDescriptorDevice w s = .ok (r, t)) :
    IoFrame s t := by
  unfold getDescriptorDevice at h
  split at h
  · simp only [Except.ok.injEq, Prod.mk.injEq] at h; rw [← h.2]; exact IoFrame.refl s
  · exact replyDescriptor_frame h

theorem getDescriptorConfiguration_frame {w : Word} {s t : State} {r : Bool}
    (h : getDescriptorConfiguration w s = .ok (r, t)) : IoFrame s t := by
  unfold getDescriptorConfiguration at h
  split at h
  · simp only [Except.ok.injEq, Prod.mk.injEq] at h; rw [← h.2]; exact IoFrame.refl s
  · exact replyDescriptor_frame h

theorem getDescriptorString_frame {i : Byte} {l w : Word} {s t : State} {r : Bool}
    (h : getDescriptorString i l w s = .ok (r, t)) : IoFrame s t := by
  unfold getDescriptorString at h
  split at h
  · simp only [Except.ok.injEq, Prod.mk.injEq] at h; rw [← h.2]; exact IoFrame.refl s
  · exact replyDescriptor_frame h

theorem getConfiguration_frame {w : Word} {s t : State} {r : Bool} (h : getConfiguration w s = .ok (r, t)) :
    IoFrame s t := by
  unfold getConfiguration at h
  split at h
  · split at h
    · simp only [Except.ok.injEq, Prod.mk.injEq] at h; rw [← h.2]; exact IoFrame.refl s
    · exact replyOne_frame h
  · exact replyOne_frame h

theorem getInterface_frame {i : Byte} {w : Word} {s t : State} {r : Bool} (h : getInterface i w s = .ok (r, t)) :
    IoFrame s t := by
  unfold getInterface at h
  split at h
  · simp only [Except.ok.injEq, Prod.mk.injEq] at h; rw [← h.2]; exact IoFrame.refl s
  · split at h
    · simp only [Except.ok.injEq, Prod.mk.injEq] at h; rw [← h.2]; exact IoFrame.refl s
    · exact replyOne_frame h

theorem setInterface_state (i a : Byte) (s : State) : (setInterface i a s).2 = s := by
  unfold setInterface; split <;> rfl

theorem setAddress_cases {a : BitVec 7} {s t : State} {r : Bool} (h : setAddress a s = .ok (r, t)) :
    t = s ∨ (r = true ∧ IoFrame { s with pendAddr := a, pendFlag := true } t) := by
  unfold setAddress at h
  split at h
  · simp only [Except.ok.injEq, Prod.mk.injEq] at h; exact .inl h.2.symm
  · split at h
    · simp only [Except.ok.injEq, Prod.mk.injEq] at h; exact .inl h.2.symm
    · simp only [bind_eq_ok, Except.ok.injEq, Prod.mk.injEq] at h
      obtain ⟨u, hu, rfl, rfl⟩ := h
      exact .inr ⟨rfl, (hook_eq_ok.1 hu).frame⟩

theorem setAddress_block {a : BitVec 7} {s t : State} {r : Bool} (h : setAddress a s = .ok (r, t)) : BlockFrame s t := by
  rcases setAddress_cases h with rfl | ⟨-, f⟩
  · exact BlockFrame.refl t
  · refine BlockFrame.trans ?_ f.block
    exact ⟨{ CoreFrame.refl s with }, fun _ _ h => h⟩

theorem confWord_regOk {c : Config} (hc : configOk c = true) {i : Fin 8} (hi : i ≠ 0) {r : Word} (h : RegOk c i r) :
    RegOk c i (confWord c i r) := by
  by_cases hp : inPresent c i || outPresent c i
  · obtain ⟨h1, h2, -, -, h5, h6⟩ := confWord_fields c i r hp
    refine ⟨fun e => ?_, .inr h2, fun e => ?_, fun e => ?_⟩
    · have := type_of_configOk hc i hi
      rw [h1 (layoutOk_of_configOk hc)] at e; rw [e] at this; simp at this
    · have hn : inPresent c i = false := by simp [inPresent, e]
      rw [hn] at h5
      have e5 : confWord c i r &&& 0x0070 = r &&& 0x0070 := by simpa using h5
      have : Epr.statTx (confWord c i r) = Epr.statTx r :=
        congrArg Stat.ofCode (BitVec.eq_of_getLsbD_eq fun k hk => by
          simp only [BitVec.getLsbD_extractLsb', hk, decide_true, Bool.true_and]
          have hm : (0x0070 : Word).getLsbD (4 + k) = true := by interval_cases k <;> decide
          exact (getLsbD_of_and e5 hm).trans (by rw [BitVec.getLsbD_and, hm, Bool.and_true]))
      rw [this]; exact h.absentTx e
    · have hn : outPresent c i = false := by simp [outPresent, e]
      rw [hn] at h6
      have e6 : confWord c i r &&& 0x7000 = r &&& 0x7000 := by simpa using h6
      have : Epr.statRx (confWord c i r) = Epr.statRx r :=
        congrArg Stat.ofCode (BitVec.eq_of_getLsbD_eq fun k hk => by
          simp only [BitVec.getLsbD_extractLsb', hk, decide_true, Bool.true_and]
          have hm : (0x7000 : Word).getLsbD (12 + k) = true := by interval_cases k <;> decide
          exact (getLsbD_of_and e6 hm).trans (by rw [BitVec.getLsbD_and, hm, Bool.and_true]))
      rw [this]; exact h.absentRx e
  · have : confWord c i r = r := by unfold confWord; rw [if_neg hp]
    rw [this]; exact h

theorem confWord_epKind {c : Config} {i : Fin 8} {r : Word} (h : Epr.epKind r = false) :
    Epr.epKind (confWord c i r) = false := by
  by_cases hp : inPresent c i || outPresent c i
  · exact (confWord_fields c i r hp).2.2.1
  · have : confWord c i r = r := by unfold confWord; rw [if_neg hp]
    rw [this]; exact h

theorem setConfiguration_block (v : Byte) (s : State) : BlockFrame s (setConfiguration v s).2 := by
  rcases setConfiguration_cases v s with h | ⟨-, -, e, h, he⟩ | ⟨-, -, c, -, -, e, h, he⟩
  · rw [h]; exact BlockFrame.refl s
  · rw [h]
    refine ⟨{ CoreFrame.refl s with kind := fun hk i => ?_ }, fun hc hz hr i => ?_⟩
    · show Epr.epKind e[i] = false
      rw [he i]; split
      · exact hk i
      · exact epKind_cleared (and_masked _ _ _ (by decide))
    · show RegOk s.cfg i e[i]
      rw [he i]; split
      · exact hr i
      · exact regOk_cleared hz (and_masked _ _ _ (by decide))
  · rw [h]
    refine ⟨{ CoreFrame.refl s with kind := fun hk i => ?_ }, fun hc hz hr i => ?_⟩
    · show Epr.epKind e[i] = false
      rw [he i]; split
      · exact hk i
      · exact confWord_epKind (hk i)
    · show RegOk s.cfg i e[i]
      rw [he i]; split
      · exact hr i
      · rename_i hi; exact confWord_regOk hc hi (hr i)

theorem ok_snd {ε α β : Type} {p : α × β} {a : α} {b : β} (h : (Except.ok p : Except ε (α × β)) = .ok (a, b)) : b = p.2 := by
  simp only [Except.ok.injEq] at h; rw [h]

theorem ite_elim {α : Type} (P : α → Prop) {c : Prop} [Decidable c] {x y : α} (hx : P x) (hy : P y) :
    P (if c then x else y) := by
  by_cases hc : c
  · rw [if_pos hc]; exact hx
  · rw [if_neg hc]; exact hy

/-- The arms of the standard switch (43_control_engine.md R208): what each of them satisfies, the switch satisfies. -/
theorem standard_elim (P : Except Fault (Bool × State) → Prop) (q : Request) (s : State)
    (no : P (.ok (false, s)))
    (statusDevice : P (getStatusDevice q.wLength s))
    (statusInterface : P (getStatusInterface q.itf q.wLength s))
    (statusEndpoint : P (getStatusEndpoint q.epn q.epdir q.wLength s))
    (clearFeature : P (.ok (clearFeatureEndpointHalt q.epn q.epdir s)))
    (setFeature : P (.ok (setFeatureEndpointHalt q.epn q.epdir s)))
    (address : P (setAddress (q.wValue.extractLsb' 0 7) s))
    (descDevice : P (getDescriptorDevice q.wLength s))
    (descConfiguration : P (getDescriptorConfiguration q.wLength s))
    (descString : P (getDescriptorString (loByte q.wValue) q.wIndex q.wLength s))
    (descInterface : P (getDescriptorInterface q s))
    (getConf : P (getConfiguration q.wLength s))
    (setConf : P (.ok (setConfiguration (loByte q.wValue) s)))
    (getItf : P (getInterface q.itf q.wLength s))
    (setItf : P (.ok (setInterface q.itf (loByte q.wValue) s))) : P (standard q s) := by
  unfold standard
  repeat' first
    | exact no
    | exact statusDevice
    | exact statusInterface
    | exact statusEndpoint
    | exact clearFeature
    | exact setFeature
    | exact address
    | exact descDevice
    | exact descConfiguration
    | exact descString
    | exact descInterface
    | exact getConf
    | exact setConf
    | exact getItf
    | exact setItf
    | refine ite_elim P ?_ ?_

/-- Every standard request keeps the frame. -/
theorem standard_block {q : Request} {s t : State} {r : Bool} (h : standard q s = .ok (r, t)) : BlockFrame s t :=
  standard_elim (fun o => o = .ok (r, t) → BlockFrame s t) q s
    (fun e => by rw [ok_snd e]; exact BlockFrame.refl s)
    (fun e => (getStatusDevice_frame e).block)
    (fun e => (getStatusInterface_frame e).block)
    (fun e => (getStatusEndpoint_frame e).block)
    (fun e => by rw [ok_snd e]; exact (clearFeature_frame _ _ s).block)
    (fun e => by rw [ok_snd e]; exact (setFeature_frame _ _ s).block)
    (fun e => setAddress_block e)
    (fun e => (getDescriptorDevice_frame e).block)
    (fun e => (getDescriptorConfiguration_frame e).block)
    (fun e => (getDescriptorString_frame e).block)
    (fun e => (delegate_frame e).block)
    (fun e => (getConfiguration_frame e).block)
    (fun e => by rw [ok_snd e]; exact setConfiguration_block _ s)
    (fun e => (getInterface_frame e).block)
    (fun e => by rw [ok_snd e, setInterface_state]; exact BlockFrame.refl s) h

theorem dispatch_block {q : Request} {s t : State} {r : Bool} (h : dispatch q s = .ok (r, t)) : BlockFrame s t := by
  unfold dispatch at h
  split at h
  · exact (delegate_frame h).block
  · split at h
    · exact (delegate_frame h).block
    · exact standard_block h

theorem serveRequest_block {q : Request} {s t : State} (h : serveRequest q s = .ok t) : BlockFrame s t := by
  simp only [serveRequest, bind_eq_ok] at h
  obtain ⟨⟨b, u⟩, hu, h⟩ := h
  exact (dispatch_block hu).trans (finishRequest_frame h).block

/-! ## Handlers -/

theorem istrClear_block (f : Word) (s : State) : BlockFrame s (istrClear f s) :=
  ⟨{ CoreFrame.refl s with }, fun _ _ h => h⟩

theorem and_zero_of_clear {x m f : Word} (h : x &&& f = 0) : (x &&& m) &&& f = 0 := by
  rw [BitVec.and_assoc, BitVec.and_comm m, ← BitVec.and_assoc, h]; simp

theorem onWkup_block {s t : State} (h : onWkup s = .ok t) : BlockFrame s t := by
  refine BlockFrame.trans ?_ (hook_eq_ok.1 h).frame.block
  exact ⟨{ CoreFrame.refl s with cntr := fun hc => and_zero_of_clear hc }, fun _ _ h => h⟩

theorem or_zero {x m f : Word} (h : x &&& f = 0) (hm : m &&& f = 0) : (x ||| m) &&& f = 0 := by
  apply BitVec.eq_of_getLsbD_eq
  intro i hi
  have h1 := congrArg (fun v => v.getLsbD i) h
  have h2 := congrArg (fun v => v.getLsbD i) hm
  simp only [BitVec.getLsbD_and, BitVec.getLsbD_or] at h1 h2 ⊢
  rw [Bool.and_or_distrib_right, h1, h2]; simp

theorem onSusp_block {s t : State} (h : onSusp s = .ok t) : BlockFrame s t := by
  refine BlockFrame.trans ?_ (hook_eq_ok.1 h).frame.block
  exact ⟨{ CoreFrame.refl s with cntr := fun hc => or_zero hc (by decide) }, fun _ _ h => h⟩

/-- The registers after the block's part of a bus reset. -/
theorem resetBlock_cases (s : State) : ∃ e, resetBlock s =
    { s with devState := .default, pendFlag := false, pendAddr := 0, cont := none, sofCur := 1, daddr := 0x80, epr := e } ∧
      e[0] = (s.epr[0] &&& 0x0800) ||| (0x3020 ||| ((EpType.code s.cfg.layout.typeCodes .control).setWidth 16 <<< 9)) ∧
      ∀ j : Fin 8, j ≠ 0 → e[j] = s.epr[j] &&& 0x0800 := by
  obtain ⟨e, he, hj⟩ := foldl_eprZero allRegs allRegs_nodup s
  have hall : ∀ j : Fin 8, e[j] = s.epr[j] &&& 0x0800 := fun j => by rw [hj j, if_pos (mem_allRegs j)]
  have h0 := hall 0
  generalize hk : EpType.code s.cfg.layout.typeCodes .control = k
  refine ⟨e.set 0 ((s.epr[0] &&& 0x0800) ||| (0x3020 ||| (k.setWidth 16 <<< 9))), ?_, by simp, fun j hne => ?_⟩
  · have hw : ∀ r : Word, ((((r &&& (0x0800 : Word)) &&& ~~~(0x070F : Word)) |||
        (k.setWidth 16 <<< 9 ||| (0 : BitVec 4).setWidth 16)) &&& ~~~(bothMask true) |||
          (Stat.nak.inTx ||| Stat.valid.inRx)) = (r &&& (0x0800 : Word)) ||| (0x3020 ||| (k.setWidth 16 <<< 9)) := by
      intro r
      clear hk
      apply BitVec.eq_of_getLsbD_eq
      intro i hi
      simp only [BitVec.getLsbD_and, BitVec.getLsbD_or, BitVec.getLsbD_not, hi, decide_true, Bool.true_and]
      generalize r.getLsbD i = x
      interval_cases i <;> revert x k <;> decide
    have hd : efAddr 0 = 0x80 := by decide
    unfold resetBlock
    rw [he]
    simp only [eprSetTypeAddr_eq, eprSetStatBoth_eq, setEpr_setEpr, epr_setEpr, if_true, h0, hk, hw, hd]
    rfl
  · have : ¬(0 : Nat) = j.val := fun e => hne (Fin.ext e.symm)
    have h := hall j
    simp only [Fin.getElem_fin] at h ⊢
    rw [Vector.getElem_set_ne _ _ this, h]

theorem resetBlock_block (s : State) : BlockFrame s (resetBlock s) := by
  obtain ⟨e, he, h0, hj⟩ := resetBlock_cases s
  rw [he]
  have hm : ∀ f : Word, (0x0800 : Word) &&& f = 0 → ∀ j : Fin 8, j ≠ 0 → e[j] &&& f = 0 := fun f hf j h => by
    rw [hj j h]; exact and_masked _ _ _ hf
  have k0 : e[(0 : Fin 8)] &&& 0x010F = 0 := by
    have hc : ∀ c : BitVec 2, ((0x3020 : Word) ||| (c.setWidth 16 <<< 9)) &&& 0x010F = 0 := by decide
    exact (congrArg (· &&& 0x010F) h0).trans (or_zero (and_masked _ _ _ (by decide)) (hc _))
  have bit : ∀ k, (0x010F : Word).getLsbD k = true → e[(0 : Fin 8)].getLsbD k = false := fun k hk =>
    (getLsbD_of_and k0 hk).trans (getLsbD_zero_word k)
  refine ⟨{ CoreFrame.refl s with
      contRem := fun _ c hc => by simp at hc
      cursor := fun _ => ⟨Nat.le_refl 1, by show (1 : Nat) ≤ 7; omega⟩
      kind := fun _ i => ?_ }, fun _ hz _ i => ?_⟩
  · show Epr.epKind e[i] = false
    by_cases hi : i = 0
    · subst hi; exact bit 8 (by decide)
    · exact epKind_cleared (hm _ (by decide) i hi)
  · show RegOk s.cfg i e[i]
    by_cases hi : i = 0
    · subst hi
      refine ⟨fun _ => rfl, .inl ?_, fun h => by simp [sizeIn_zero] at h, fun h => by simp [sizeOut_zero] at h⟩
      exact extract_of_bits fun k hk =>
        (bit (0 + k) (by interval_cases k <;> decide)).trans (by interval_cases k <;> decide)
    · exact regOk_cleared hz (hm _ (by decide) i hi)

theorem onReset_block {s t : State} (h : onReset s = .ok t) : BlockFrame s t := by
  simp only [onReset, bind_eq_ok] at h
  obtain ⟨u, hu, h⟩ := h
  exact (istrClear_block _ s).trans ((hook_eq_ok.1 hu).frame.block.trans
    ((resetBlock_block u).trans (hook_eq_ok.1 h).frame.block))

theorem onSof_block {s t : State} (h : onSof s = .ok t) : BlockFrame s t := by
  refine (istrClear_block istrSof s).trans ?_
  unfold onSof sofScan at h
  split at h
  · simp only [Except.ok.injEq] at h; subst h; exact BlockFrame.refl _
  · rename_i e he
    simp only [bind_eq_ok, Except.ok.injEq] at h
    obtain ⟨⟨b, u⟩, hu, rfl⟩ := h
    refine BlockFrame.trans ?_ (callback_eq_ok.1 hu).frame.block
    have hc : 1 ≤ e.val % 7 + 1 ∧ e.val % 7 + 1 ≤ 7 := by omega
    exact ⟨{ CoreFrame.refl _ with cursor := fun _ => hc }, fun _ _ h => h⟩

theorem ep0Setup_block {s t : State} (h : ep0Setup s = .ok t) : BlockFrame s t := by
  simp only [ep0Setup, bind_eq_ok] at h
  obtain ⟨⟨n, u⟩, hu, h⟩ := h
  refine (eprClearCtrRx_block 0 s).trans ((epRead_frame hu).1.block.trans ?_)
  simp only at h
  split at h
  · simp only [Except.ok.injEq] at h; subst h; exact (protocolReject_frame u).block
  · exact serveRequest_block h

theorem latchAddress_block (s : State) : BlockFrame s (latchAddress s) := by
  unfold latchAddress
  split
  · exact ⟨{ CoreFrame.refl s with }, fun _ _ h => h⟩
  · exact BlockFrame.refl s

theorem ep0InDone_block {s t : State} (h : ep0InDone s = .ok t) : BlockFrame s t := by
  refine (eprClearCtrTx_block 0 s).trans ((latchAddress_block _).trans ?_)
  unfold ep0InDone at h
  simp only at h
  split at h
  · simp only [Except.ok.injEq] at h; subst h; exact BlockFrame.refl _
  · exact (sendFragment_frame h).1.block

theorem epnOutDone_block {i : Fin 8} {s t : State} (h : epnOutDone i s = .ok t) : BlockFrame s t :=
  (eprClearCtrRx_block i s).trans (hook_eq_ok.1 h).frame.block

theorem ep0Ctr_block {s t : State} (h : ep0Ctr s = .ok t) : BlockFrame s t := by
  simp only [ep0Ctr, bind_eq_ok] at h
  obtain ⟨u, hu, h⟩ := h
  have f : BlockFrame s u := by
    unfold ep0Reception at hu
    split at hu
    · split at hu
      · exact ep0Setup_block hu
      · simp only [Except.ok.injEq] at hu; subst hu; exact eprClearCtrRx_block 0 s
    · simp only [Except.ok.injEq] at hu; subst hu; exact BlockFrame.refl s
  refine f.trans ?_
  unfold ep0Transmission at h
  split at h
  · exact ep0InDone_block h
  · simp only [Except.ok.injEq] at h; subst h; exact BlockFrame.refl u

theorem epCtr_block {i : Fin 8} {s t : State} (h : epCtr i s = .ok t) : BlockFrame s t := by
  simp only [epCtr, bind_eq_ok, Except.ok.injEq] at h
  obtain ⟨u, hu, rfl⟩ := h
  have f : BlockFrame s u := by
    unfold epReception at hu
    split at hu
    · exact epnOutDone_block hu
    · simp only [Except.ok.injEq] at hu; subst hu; exact BlockFrame.refl s
  refine f.trans ?_
  unfold epTransmission
  split
  · exact eprClearCtrTx_block i u
  · exact BlockFrame.refl u

theorem onCtr_block {id : BitVec 4} {s t : State} (h : onCtr id s = .ok t) : BlockFrame s t := by
  unfold onCtr at h
  split at h
  · simp only [Except.ok.injEq] at h; subst h; exact BlockFrame.refl s
  · split at h
    · exact ep0Ctr_block h
    · exact epCtr_block h

theorem task_block {s t : State} (h : task s = .ok t) : BlockFrame s t := by
  unfold task at h
  simp only at h
  split at h
  · exact onWkup_block h
  · split at h
    · exact onSusp_block h
    · split at h
      · exact onReset_block h
      · split at h
        · exact onSof_block h
        · split at h
          · exact onCtr_block h
          · simp only [Except.ok.injEq] at h; subst h; exact BlockFrame.refl s

end Sys2Proof.Machine
end

