-- ==== Sys2Proof/Laws/Engine.lean ====
section
/-! SUPPORT. The steps of the USB engine: what a stored packet leaves, and the frames of the BUS rows. -/

namespace Sys2Proof.Machine

/-- A stored packet changes the PMA and the free-value counter only. -/
theorem storePacket_frame {i : Fin 8} {data : List Byte} {pad : Bool} {s t : State}
    (h : storePacket i data pad s = .ok t) :
    t = { s with pma := t.pma, freeCount := t.freeCount } ∧ (s.pma.wf = true → t.pma.wf = true) := by
  simp only [storePacket, bind_eq_ok] at h
  obtain ⟨a, -, c, -, u, hu, v, hv, h⟩ := h
  obtain ⟨-, rfl⟩ := pmaWriteN_eq_ok.1 hu
  obtain ⟨-, rfl⟩ := bdtWrite_eq_ok.1 h
  have hv' : v = { s with pma := s.pma.writeAll a.toNat data } ∨ ∃ n b, v = { s with
      pma := (s.pma.writeAll a.toNat data).writeAll n [b], freeCount := s.freeCount + 1 } := by
    unfold packetPad at hv
    split at hv
    · rcases padByte_cases hv with rfl | ⟨-, -, rfl⟩
      · exact .inl rfl
      · exact .inr ⟨_, _, rfl⟩
    · simp only [Except.ok.injEq] at hv; exact .inl hv.symm
  rcases hv' with rfl | ⟨n, b, rfl⟩
  · exact ⟨rfl, fun hw => Memory.wf_writeAll _ _ _ (Memory.wf_writeAll _ _ _ hw)⟩
  · exact ⟨rfl, fun hw => Memory.wf_writeAll _ _ _ (Memory.wf_writeAll _ _ _ (Memory.wf_writeAll _ _ _ hw))⟩

/-- Under the layout a packet within the size is stored: its bytes and its count, and nothing else but a pad byte
(46_usb_engine_agent.md R307, R308). -/
theorem storePacket_of_laid {i : Fin 8} {data : List Byte} (pad : Bool) {s : State} (h : Laid s)
    (hn : data.length ≤ sizeOut s.cfg i) :
    ∃ t, storePacket i data pad s = .ok t ∧ Laid t ∧
      t.pma.readAll (bufRx s.cfg i) data.length = data ∧
      t.pma.word (8 * i.val + 6) = (s.pma.word (8 * i.val + 6) &&& 0xFC00) ||| BitVec.ofNat 16 data.length ∧
      (∀ a, a ≠ 8 * i.val + 6 → a ≠ 8 * i.val + 7 →
        (a < bufRx s.cfg i ∨ bufRx s.cfg i + data.length + (if pad then data.length % 2 else 0) ≤ a) →
        t.pma.read a = s.pma.read a) ∧
      (pad = false ∨ s.cfg.padBytePolicy = .unchanged ∨ data.length % 2 = 0 →
        t.pma.read (bufRx s.cfg i + data.length) = s.pma.read (bufRx s.cfg i + data.length) ∧
          t.freeCount = s.freeCount) ∧
      t = { s with pma := t.pma, freeCount := t.freeCount } := by
  have hb := buf_le h.cfgOk i
  have h64 := le_bufTx s.cfg i
  have hrx := bufTx_le_bufRx s.cfg i
  have hev := sizeOut_even h.cfgOk i
  have hi8 := i.isLt
  have ha := toNat_bufRx h.cfgOk i
  let s1 : State := { s with pma := s.pma.writeAll (bufRx s.cfg i) data }
  have w1 : pmaWriteN (bufRx s.cfg i) data s = .ok s1 := pmaWriteN_eq_ok.2 ⟨.inr (by omega), rfl⟩
  obtain ⟨s2, w2⟩ : ∃ s2, packetPad pad (bufRx s.cfg i) data.length s1 = .ok s2 := by
    unfold packetPad
    split
    · exact padByte_ok _ _ _ (by intro ho; show _ ≤ s.cfg.pmaBytes; omega)
    · exact ⟨_, rfl⟩
  have e2 : ∃ p n, s2 = { s with pma := p, freeCount := n } ∧
      (∀ a, (a < bufRx s.cfg i ∨ bufRx s.cfg i + data.length + (if pad then data.length % 2 else 0) ≤ a) →
        p.read a = s.pma.read a) ∧
      (∀ k (hk : k < data.length), p.read (bufRx s.cfg i + k) = data[k]) ∧
      (pad = false ∨ s.cfg.padBytePolicy = .unchanged ∨ data.length % 2 = 0 →
        p.read (bufRx s.cfg i + data.length) = s.pma.read (bufRx s.cfg i + data.length) ∧ n = s.freeCount) := by
    have same : ∃ p n, s1 = { s with pma := p, freeCount := n } ∧
        (∀ a, (a < bufRx s.cfg i ∨ bufRx s.cfg i + data.length + (if pad then data.length % 2 else 0) ≤ a) →
          p.read a = s.pma.read a) ∧
        (∀ k (hk : k < data.length), p.read (bufRx s.cfg i + k) = data[k]) ∧
        (pad = false ∨ s.cfg.padBytePolicy = .unchanged ∨ data.length % 2 = 0 →
          p.read (bufRx s.cfg i + data.length) = s.pma.read (bufRx s.cfg i + data.length) ∧ n = s.freeCount) := by
      refine ⟨_, _, rfl, ?_, ?_, ?_⟩
      · intro a ha; exact Memory.read_writeAll_outside _ _ _ _ (by omega)
      · intro k hk; exact Memory.read_writeAll_inside _ _ _ _ hk
      · intro _; exact ⟨Memory.read_writeAll_outside _ _ _ _ (by omega), rfl⟩
    unfold packetPad at w2
    split at w2
    · rename_i hp
      rcases padByte_cases w2 with rfl | ⟨hpol, ho, rfl⟩
      · exact same
      · refine ⟨_, _, rfl, ?_, ?_, ?_⟩
        · intro a ha
          rw [if_pos hp] at ha
          rw [Memory.read_writeAll_outside _ _ _ _ (by simp only [List.length_cons, List.length_nil]; omega)]
          exact Memory.read_writeAll_outside _ _ _ _ (by omega)
        · intro k hk
          rw [Memory.read_writeAll_outside _ _ _ _ (by omega)]
          exact Memory.read_writeAll_inside _ _ _ _ hk
        · rintro (hu | hu | hu)
          · rw [hp] at hu; simp at hu
          · have hpol : s.cfg.padBytePolicy = .any := hpol
            rw [hu] at hpol; simp at hpol
          · omega
    · simp only [Except.ok.injEq] at w2; subst w2; exact same
  obtain ⟨p, n, rfl, ho, hin, hpad⟩ := e2
  have l2 : Laid { s with pma := p, freeCount := n } := h.congr rfl rfl fun a ha => ho a (.inl (by omega))
  have w3 := bdtWrite_of_laid l2 i .countRx ((s.pma.word (8 * i.val + 6) &&& 0xFC00) ||| BitVec.ofNat 16 data.length)
  have hr : ∀ v : Word, ∀ a, a ≠ 8 * i.val + 6 → a ≠ 8 * i.val + 7 →
      (p.writeAll (8 * i.val + 6) [loByte v, hiByte v]).read a = p.read a := fun v a h1 h2 =>
    Memory.read_writeAll_outside _ _ _ _ (by simp only [List.length_cons, List.length_nil]; omega)
  have hw6 : p.word (8 * i.val + 6) = s.pma.word (8 * i.val + 6) :=
    Memory.word_congr _ _ _ (ho _ (.inl (by omega))) (ho _ (.inl (by omega)))
  refine ⟨_, ?_, l2.setCountRx i data.length hn _ (by rw [hw6]), ?_, ?_, ?_, ?_, rfl⟩
  · simp only [storePacket, bdtRead_of_laid h i .addrRx, bdtRead_of_laid h i .countRx, BdtWord.offset, h.addrRx i,
      ok_bind, ha, w1, w2, w3]
  · exact Memory.readAll_eq_of_read _ _ _ fun k hk => (hr _ _ (by omega) (by omega)).trans (hin k hk)
  · exact Memory.word_writeAll_self _ _ _
  · intro a h1 h2 h3; exact (hr _ a h1 h2).trans (ho a h3)
  · intro hu; exact ⟨(hr _ _ (by omega) (by omega)).trans (hpad hu).1, (hpad hu).2⟩

/-! ## What the engine makes of a register -/

theorem word_ext {x y : Word} (h : ∀ i < 16, x.getLsbD i = y.getLsbD i) : x = y :=
  BitVec.eq_of_getLsbD_eq fun i hi => h i hi

/-- A completed SETUP sets flags, STAT and DTOG and keeps every other field (46_usb_engine_agent.md R307). -/
theorem afterSetup_fields (r : Word) :
    afterSetup r &&& ~~~(0xF870 : Word) = r &&& ~~~(0xF870 : Word) ∧ Epr.ctrRx (afterSetup r) = true ∧
    Epr.setup (afterSetup r) = true ∧ Epr.statRx (afterSetup r) = .nak ∧ Epr.statTx (afterSetup r) = .nak ∧
    Epr.dtogRx (afterSetup r) = true ∧ Epr.dtogTx (afterSetup r) = true := by
  have h : afterSetup r = (r &&& ~~~(0xF870 : Word)) ||| 0xE860 := by
    apply word_ext
    intro i hi
    simp only [afterSetup, rwMask, ctrTxMask, setupMask, ctrRxMask, Stat.inRx, Stat.inTx, Stat.code, dtogRxMask, dtogTxMask,
      BitVec.getLsbD_and, BitVec.getLsbD_or, BitVec.getLsbD_not, hi, decide_true, Bool.true_and]
    generalize r.getLsbD i = x
    interval_cases i <;> revert x <;> decide
  have o := outside_of_set r 0xF870 0xE860 (by decide)
  have n := inside_of_set r 0xF870 0xE860 (by decide)
  rw [h]
  exact ⟨o, (getLsbD_of_and n (by decide)).trans (by decide), (getLsbD_of_and n (by decide)).trans (by decide),
    statRx_of_inside ((and_of_and n (by decide)).trans (by decide)),
    statTx_of_inside ((and_of_and n (by decide)).trans (by decide)),
    (getLsbD_of_and n (by decide)).trans (by decide), (getLsbD_of_and n (by decide)).trans (by decide)⟩

/-- A completed OUT (46_usb_engine_agent.md R308). -/
theorem afterOut_fields (r : Word) :
    afterOut r &&& ~~~(0xF800 : Word) = r &&& ~~~(0xF800 : Word) ∧ Epr.ctrRx (afterOut r) = true ∧
    Epr.setup (afterOut r) = false ∧ Epr.statRx (afterOut r) = .nak ∧ Epr.dtogRx (afterOut r) = !Epr.dtogRx r := by
  have h : afterOut r = (r &&& ~~~(0xF800 : Word)) ||| (0xA000 ||| ((r ^^^ 0x4000) &&& 0x4000)) := by
    apply word_ext
    intro i hi
    simp only [afterOut, setupMask, statRxMask, ctrRxMask, Stat.inRx, Stat.code, dtogRxMask,
      BitVec.getLsbD_and, BitVec.getLsbD_or, BitVec.getLsbD_not, BitVec.getLsbD_xor, hi, decide_true, Bool.true_and]
    generalize r.getLsbD i = x
    interval_cases i <;> revert x <;> decide
  have hv : (0xA000 ||| ((r ^^^ 0x4000) &&& 0x4000) : Word) &&& ~~~(0xF800 : Word) = 0 := by
    apply word_ext
    intro i hi
    simp only [BitVec.getLsbD_and, BitVec.getLsbD_or, BitVec.getLsbD_not, BitVec.getLsbD_xor, hi, decide_true, Bool.true_and]
    generalize r.getLsbD i = x
    interval_cases i <;> revert x <;> decide
  have o := outside_of_set r _ _ hv
  have n := inside_of_set r _ _ hv
  rw [h]
  refine ⟨o, ?_, ?_, ?_, ?_⟩
  · refine (getLsbD_of_and n (by decide)).trans ?_
    simp only [BitVec.getLsbD_and, BitVec.getLsbD_or]
    generalize (r ^^^ 0x4000).getLsbD 15 = x
    revert x; decide
  · refine (getLsbD_of_and n (by decide)).trans ?_
    simp only [BitVec.getLsbD_and, BitVec.getLsbD_or]
    generalize (r ^^^ 0x4000).getLsbD 11 = x
    revert x; decide
  · apply statRx_of_inside
    refine (and_of_and n (by decide)).trans ?_
    apply word_ext
    intro i hi
    simp only [BitVec.getLsbD_and, BitVec.getLsbD_or]
    generalize (r ^^^ 0x4000).getLsbD i = x
    interval_cases i <;> revert x <;> decide
  · refine (getLsbD_of_and n (by decide)).trans ?_
    simp only [BitVec.getLsbD_and, BitVec.getLsbD_or, BitVec.getLsbD_xor, Epr.dtogRx]
    generalize r.getLsbD 14 = x
    revert x; decide

/-- A completed IN (46_usb_engine_agent.md R309). -/
theorem afterIn_fields (r : Word) :
    afterIn r &&& ~~~(0x00F0 : Word) = r &&& ~~~(0x00F0 : Word) ∧ Epr.ctrTx (afterIn r) = true ∧
    Epr.statTx (afterIn r) = .nak ∧ Epr.dtogTx (afterIn r) = !Epr.dtogTx r := by
  have h : afterIn r = (r &&& ~~~(0x00F0 : Word)) ||| (0x00A0 ||| ((r ^^^ 0x0040) &&& 0x0040)) := by
    apply word_ext
    intro i hi
    simp only [afterIn, statTxMask, ctrTxMask, Stat.inTx, Stat.code, dtogTxMask,
      BitVec.getLsbD_and, BitVec.getLsbD_or, BitVec.getLsbD_not, BitVec.getLsbD_xor, hi, decide_true, Bool.true_and]
    generalize r.getLsbD i = x
    interval_cases i <;> revert x <;> decide
  have hv : (0x00A0 ||| ((r ^^^ 0x0040) &&& 0x0040) : Word) &&& ~~~(0x00F0 : Word) = 0 := by
    apply word_ext
    intro i hi
    simp only [BitVec.getLsbD_and, BitVec.getLsbD_or, BitVec.getLsbD_not, BitVec.getLsbD_xor, hi, decide_true, Bool.true_and]
    generalize r.getLsbD i = x
    interval_cases i <;> revert x <;> decide
  have o := outside_of_set r _ _ hv
  have n := inside_of_set r _ _ hv
  rw [h]
  refine ⟨o, ?_, ?_, ?_⟩
  · refine (getLsbD_of_and n (by decide)).trans ?_
    simp only [BitVec.getLsbD_and, BitVec.getLsbD_or]
    generalize (r ^^^ 0x0040).getLsbD 7 = x
    revert x; decide
  · apply statTx_of_inside
    refine (and_of_and n (by decide)).trans ?_
    apply word_ext
    intro i hi
    simp only [BitVec.getLsbD_and, BitVec.getLsbD_or]
    generalize (r ^^^ 0x0040).getLsbD i = x
    interval_cases i <;> revert x <;> decide
  · refine (getLsbD_of_and n (by decide)).trans ?_
    simp only [BitVec.getLsbD_and, BitVec.getLsbD_or, BitVec.getLsbD_xor, Epr.dtogTx]
    generalize r.getLsbD 6 = x
    revert x; decide

/-! ## The frames of the BUS rows -/

theorem emit_block (o : Out) (s : State) : BlockFrame s (emit o s) := (emit_frame o s).block

theorem istrSet_block (f : Word) (s : State) : BlockFrame s (istrSet f s) := ⟨{ CoreFrame.refl s with }, fun _ _ h => h⟩

theorem servingReg_eq_some {e : BitVec 4} {d : Dir} {s : State} {i : Fin 8} (h : servingReg e d s = some i) :
    Epr.ea s.epr[i] = e ∧ statOf d s.epr[i] ≠ .disabled := by
  have := List.find?_some h
  simpa using this

theorem busReset_block (s : State) : BlockFrame s (busReset s) := by
  unfold busReset
  split
  · refine BlockFrame.trans ?_ (istrSet_block istrReset _)
    have hm : ∀ i : Fin 8, (s.epr.map afterBusReset)[i] = s.epr[i] &&& 0x8080 := fun i => by
      simp [afterBusReset, ctrMask]
    refine ⟨{ CoreFrame.refl s with kind := fun _ i => ?_ }, fun _ hz _ i => ?_⟩
    · show Epr.epKind (s.epr.map afterBusReset)[i] = false
      rw [hm i]; exact epKind_cleared (and_masked _ _ _ (by decide))
    · show RegOk s.cfg i (s.epr.map afterBusReset)[i]
      rw [hm i]; exact regOk_cleared hz (and_masked _ _ _ (by decide))
  · exact BlockFrame.refl s

theorem storePacket_block {i : Fin 8} {data : List Byte} {pad : Bool} {s t : State}
    (h : storePacket i data pad s = .ok t) : BlockFrame s t ∧ t.epr = s.epr ∧ t.cfg = s.cfg := by
  obtain ⟨hf, hw⟩ := storePacket_frame h
  obtain ⟨p, n, rfl⟩ : ∃ p n, t = { s with pma := p, freeCount := n } := ⟨_, _, hf⟩
  exact ⟨⟨{ CoreFrame.refl s with pmaWf := hw }, fun _ _ h => h⟩, rfl, rfl⟩

theorem busSetup_block {p : Packet} {s t : State} (h : busSetup p s = .ok t) : BlockFrame s t := by
  unfold busSetup at h
  split at h
  · split at h
    · simp only [Except.ok.injEq] at h; subst h; exact emit_block _ s
    · rename_i i hi
      split at h
      · simp only [Except.ok.injEq] at h; subst h; exact emit_block _ s
      · rename_i hc
        simp only [bind_eq_ok, Except.ok.injEq] at h
        obtain ⟨u, hu, rfl⟩ := h
        obtain ⟨f, he, hcfg⟩ := storePacket_block hu
        obtain ⟨ho, -, -, hrx, htx, -, -⟩ := afterSetup_fields s.epr[i]
        refine f.trans (BlockFrame.trans ?_ (emit_block _ _))
        refine blockFrame_setEpr (fun hk => ?_) fun _ _ hr => ?_
        · rw [he] at hk; exact (epKind_of_outside ho (by decide)).trans hk
        · rw [he] at hr
          have hz : i = 0 := hr.control (by rw [hcfg]; exact Decidable.of_not_not fun e => hc (.inl e))
          subst hz
          refine ⟨fun _ => rfl, ?_, fun e => absurd e (by simp [sizeIn_zero]), fun e => absurd e (by simp [sizeOut_zero])⟩
          rw [ea_of_outside ho (by decide)]; exact hr.ea
  · simp only [Except.ok.injEq] at h; subst h; exact emit_block _ s

theorem busOut_block {e : BitVec 4} {data : List Byte} {s t : State} (h : busOut e data s = .ok t) : BlockFrame s t := by
  unfold busOut at h
  split at h
  · split at h
    · simp only [Except.ok.injEq] at h; subst h; exact emit_block _ s
    · rename_i i hi
      split at h
      · rename_i hv
        simp only [bind_eq_ok] at h
        obtain ⟨c, -, h⟩ := h
        split at h
        · simp only [Except.ok.injEq] at h; subst h; exact (istrSet_block _ s).trans (emit_block _ _)
        · simp only [bind_eq_ok, Except.ok.injEq] at h
          obtain ⟨u, hu, rfl⟩ := h
          obtain ⟨f, he, hcfg⟩ := storePacket_block hu
          obtain ⟨ho, -, -, hrx, -⟩ := afterOut_fields s.epr[i]
          refine f.trans (BlockFrame.trans ?_ (emit_block _ _))
          refine blockFrame_setEpr (fun hk => ?_) fun _ _ hr => ?_
          · rw [he] at hk; exact (epKind_of_outside ho (by decide)).trans hk
          · rw [he] at hr
            refine ⟨fun h => hr.control ((epType_of_outside ho (by decide)).symm.trans h), ?_, fun h => ?_, fun h => ?_⟩
            · rw [ea_of_outside ho (by decide)]; exact hr.ea
            · exact (statTx_of_outside ho (by decide)).trans (hr.absentTx h)
            · have := hr.absentRx h; rw [hv] at this; simp at this
      all_goals (simp only [Except.ok.injEq] at h; subst h; exact emit_block _ s)
  · simp only [Except.ok.injEq] at h; subst h; exact emit_block _ s

theorem busIn_block {e : BitVec 4} {s t : State} (h : busIn e s = .ok t) : BlockFrame s t := by
  unfold busIn at h
  split at h
  · split at h
    · simp only [Except.ok.injEq] at h; subst h; exact emit_block _ s
    · rename_i i hi
      split at h
      · rename_i hv
        simp only [bind_eq_ok, Except.ok.injEq] at h
        obtain ⟨c, -, a, -, data, -, rfl⟩ := h
        obtain ⟨ho, -, -, -⟩ := afterIn_fields s.epr[i]
        refine (emit_block _ s).trans (blockFrame_setEpr (fun hk => ?_) fun _ _ hr => ?_)
        · exact (epKind_of_outside ho (by decide)).trans hk
        · refine ⟨fun h => hr.control ((epType_of_outside ho (by decide)).symm.trans h), ?_, fun h => ?_, fun h => ?_⟩
          · rw [ea_of_outside ho (by decide)]; exact hr.ea
          · have := hr.absentTx h
            have hv' : Epr.statTx (emit (.packet (Epr.dtogTx s.epr[i]) data) s).epr[i] = .valid := hv
            rw [hv'] at this; simp at this
          · exact (statRx_of_outside ho (by decide)).trans (hr.absentRx h)
      all_goals (simp only [Except.ok.injEq] at h; subst h; exact emit_block _ s)
  · simp only [Except.ok.injEq] at h; subst h; exact emit_block _ s

theorem checkIn_block (expect : Option (List Byte)) (s : State) : BlockFrame s (checkIn expect s) :=
  ⟨{ CoreFrame.refl s with }, fun _ _ h => h⟩

theorem execBusIn_eq_next {e : InLine} {s t : State} :
    execBusIn e s = .next t ↔ ∃ u, busIn e.ept s = .ok u ∧ t = checkIn e.expect u := by
  unfold execBusIn
  cases h : busIn e.ept s <;> simp [Except.map, lift, eq_comm]

end Sys2Proof.Machine
end

