-- ==== Sys2Proof/Laws/Init.lean ====
section
/-! SUPPORT. The PMA allocator (40_pma_allocator.md R142): the table `init` leaves, and that it is a laid-out table. -/

namespace Sys2Proof.Machine

/-- The eight bytes of the entry pair of endpoint `i` whose buffers begin at `wm` (40_pma_allocator.md R142). -/
def entryBytes (c : Config) (i : Fin 8) (wm : Nat) : List Byte :=
  let a : Word := BitVec.ofNat 16 wm
  let b : Word := BitVec.ofNat 16 (wm + sizeIn c i)
  let d : Word := rxenc c.rxBlockBias (sizeOut c i)
  [loByte a, hiByte a, loByte 0, hiByte 0, loByte b, hiByte b, loByte d, hiByte d]

theorem bdtWrite_ok (i : Fin 8) (w : BdtWord) (v : Word) {s : State} (h0 : s.btable = 0) (hp : 64 ≤ s.cfg.pmaBytes) :
    bdtWrite i w v s = .ok { s with pma := s.pma.writeAll (8 * i.val + w.offset) [loByte v, hiByte v] } := by
  have e : bdtOffset s i w = 8 * i.val + w.offset := bdtOffset_of_laid h0 i w
  have := i.isLt
  have := w.offset_le
  rw [← e]
  exact bdtWrite_eq_ok.2 ⟨by omega, rfl⟩

theorem layoutFrom_cons (i : Fin 8) (is : List (Fin 8)) (wm : Nat) {s : State} (h0 : s.btable = 0)
    (hp : 64 ≤ s.cfg.pmaBytes) : layoutFrom (i :: is) wm s =
      layoutFrom is (wm + sizeIn s.cfg i + sizeOut s.cfg i)
        { s with pma := s.pma.writeAll (8 * i.val) (entryBytes s.cfg i wm) } := by
  rw [layoutFrom]
  rw [bdtWrite_ok i .addrTx _ h0 hp, ok_bind, bdtWrite_ok i .countTx _ (by exact h0) (by exact hp), ok_bind,
    bdtWrite_ok i .addrRx _ (by exact h0) (by exact hp), ok_bind, bdtWrite_ok i .countRx _ (by exact h0) (by exact hp),
    ok_bind]
  rfl

/-- The memory after `pma_layout`: one entry pair after another. -/
def layoutMemory (c : Config) (m : Memory) : Memory :=
  allRegs.foldl (fun m i => m.writeAll (8 * i.val) (entryBytes c i (bufTx c i))) m

theorem pmaLayout_ok {s : State} (hp : 64 ≤ s.cfg.pmaBytes) :
    pmaLayout s = .ok { s with btable := 0, pma := layoutMemory s.cfg s.pma } := by
  obtain ⟨h0, h1, h2, h3, h4, h5, h6, h7⟩ := bufTx_eq s.cfg
  have z : ∀ n, n + sizeIn s.cfg 0 + sizeOut s.cfg 0 = n + 64 + 64 := fun n => rfl
  have l : ∀ i is wm (m : Memory), layoutFrom (i :: is) wm { s with btable := 0, pma := m } =
      layoutFrom is (wm + sizeIn s.cfg i + sizeOut s.cfg i)
        { s with btable := 0, pma := m.writeAll (8 * i.val) (entryBytes s.cfg i wm) } := fun i is wm m =>
    layoutFrom_cons (s := { s with btable := 0, pma := m }) i is wm rfl hp
  have hm : pmaLayout s = layoutFrom allRegs 64 { s with btable := 0, pma := s.pma } := rfl
  rw [hm, allRegs, l, z, l, l, l, l, l, l, l]
  simp only [layoutMemory, allRegs, List.foldl, h7, h6, h5, h4, h3, h2, h1, h0]
  rfl

/-- The other entries leave an entry's words and every byte from 64 on alone. -/
theorem layoutMemory_read (c : Config) (m : Memory) (a : Nat) (h : 64 ≤ a) : (layoutMemory c m).read a = m.read a := by
  have e : ∀ i wm (m : Memory), (m.writeAll (8 * (i : Fin 8).val) (entryBytes c i wm)).read a = m.read a := fun i wm m =>
    Memory.read_writeAll_outside _ _ _ _ (.inr (by have := i.isLt; simp [entryBytes]; omega))
  simp only [layoutMemory, allRegs, List.foldl, e]

theorem word_entry (c : Config) (m : Memory) (i : Fin 8) (wm : Nat) :
    let p := m.writeAll (8 * i.val) (entryBytes c i wm)
    p.word (8 * i.val) = BitVec.ofNat 16 wm ∧ p.word (8 * i.val + 2) = 0 ∧
    p.word (8 * i.val + 4) = BitVec.ofNat 16 (wm + sizeIn c i) ∧
    p.word (8 * i.val + 6) = rxenc c.rxBlockBias (sizeOut c i) := by
  have hl : (entryBytes c i wm).length = 8 := rfl
  have r : ∀ k (hk : k < 8), (m.writeAll (8 * i.val) (entryBytes c i wm)).read (8 * i.val + k) =
      (entryBytes c i wm)[k] := fun k hk => Memory.read_writeAll_inside _ _ _ _ (by rw [hl]; exact hk)
  have r0 := r 0 (by omega)
  have r1 := r 1 (by omega)
  have r2 := r 2 (by omega)
  have r3 := r 3 (by omega)
  have r4 := r 4 (by omega)
  have r5 := r 5 (by omega)
  have r6 := r 6 (by omega)
  have r7 := r 7 (by omega)
  simp only [Nat.add_zero] at r0
  refine ⟨?_, ?_, ?_, ?_⟩
  · rw [Memory.word, r0, r1]; exact le16_loByte_hiByte _
  · rw [Memory.word, r2, Nat.add_assoc, r3]; exact le16_loByte_hiByte _
  · rw [Memory.word, r4, Nat.add_assoc, r5]; exact le16_loByte_hiByte _
  · rw [Memory.word, r6, Nat.add_assoc, r7]; exact le16_loByte_hiByte _

theorem word_other (c : Config) (m : Memory) {i j : Fin 8} (h : i ≠ j) (wm k : Nat) (hk : k ≤ 6) :
    (m.writeAll (8 * j.val) (entryBytes c j wm)).word (8 * i.val + k) = m.word (8 * i.val + k) := by
  have hl : (entryBytes c j wm).length = 8 := rfl
  have : i.val ≠ j.val := fun e => h (Fin.ext e)
  exact Memory.word_writeAll_outside _ _ _ _ (by rw [hl]; omega)

theorem foldl_entries (c : Config) (f : Fin 8 → Nat) (i : Fin 8) (l : List (Fin 8)) (m : Memory) (hl : l.Nodup)
    (k : Nat) (hk : k ≤ 6) :
    (i ∉ l → (l.foldl (fun m i => m.writeAll (8 * i.val) (entryBytes c i (f i))) m).word (8 * i.val + k) =
      m.word (8 * i.val + k)) ∧
    (i ∈ l → ∃ m' : Memory, (l.foldl (fun m i => m.writeAll (8 * i.val) (entryBytes c i (f i))) m).word (8 * i.val + k) =
      (m'.writeAll (8 * i.val) (entryBytes c i (f i))).word (8 * i.val + k)) := by
  induction l generalizing m with
  | nil => simp
  | cons j l ih =>
    obtain ⟨hj, hl⟩ := List.nodup_cons.1 hl
    have g := ih (m.writeAll (8 * j.val) (entryBytes c j (f j))) hl
    constructor
    · intro hn
      rw [List.foldl_cons, g.1 (fun h => hn (List.mem_cons_of_mem _ h)), word_other c m (fun e => hn (by simp [e])) _ _ hk]
    · intro hi
      rw [List.foldl_cons]
      by_cases e : i = j
      · subst e; exact ⟨m, g.1 hj⟩
      · exact g.2 (by simpa [e] using hi)

/-- The four words of every entry pair (40_pma_allocator.md R142). -/
theorem layoutMemory_words (c : Config) (m : Memory) (i : Fin 8) :
    (layoutMemory c m).word (8 * i.val) = BitVec.ofNat 16 (bufTx c i) ∧
    (layoutMemory c m).word (8 * i.val + 2) = 0 ∧
    (layoutMemory c m).word (8 * i.val + 4) = BitVec.ofNat 16 (bufRx c i) ∧
    (layoutMemory c m).word (8 * i.val + 6) = rxenc c.rxBlockBias (sizeOut c i) := by
  have hn : allRegs.Nodup := by decide
  have hm : i ∈ allRegs := by revert i; decide
  have g := fun k hk => (foldl_entries c (bufTx c) i allRegs m hn k hk).2 hm
  refine ⟨?_, ?_, ?_, ?_⟩
  · obtain ⟨m', e⟩ := g 0 (by omega); exact e.trans (word_entry c m' i _).1
  · obtain ⟨m', e⟩ := g 2 (by omega); exact e.trans (word_entry c m' i _).2.1
  · obtain ⟨m', e⟩ := g 4 (by omega); exact e.trans (word_entry c m' i _).2.2.1
  · obtain ⟨m', e⟩ := g 6 (by omega); exact e.trans (word_entry c m' i _).2.2.2

theorem layoutMemory_wf (c : Config) (m : Memory) (h : m.wf = true) : (layoutMemory c m).wf = true := by
  have : ∀ l : List (Fin 8), ∀ m : Memory, m.wf = true →
      (l.foldl (fun m i => m.writeAll (8 * i.val) (entryBytes c i (bufTx c i))) m).wf = true := by
    intro l
    induction l with
    | nil => intro m h; exact h
    | cons i l ih => intro m h; exact ih _ (Memory.wf_writeAll _ _ _ h)
  exact this allRegs m h

/-- `rxenc` writes the declared-size bits only (40_pma_allocator.md R145). -/
theorem rxenc_fields (bias : Fin 2) (n : Nat) (h : rxSizeOk n = true) :
    rxenc bias n &&& 0xFC00 = rxenc bias n ∧ countField (rxenc bias n) = 0 := by
  simp only [rxSizeOk, decide_eq_true_eq] at h
  have hc : ∀ w : Word, w &&& 0xFC00 = w → countField w = 0 := by
    intro w hw
    have : w.extractLsb' 0 10 = 0 := BitVec.eq_of_getLsbD_eq fun k hk => by
      rw [BitVec.getLsbD_extractLsb']
      rw [← hw]
      interval_cases k <;> simp
    simp [countField, this]
  suffices hs : rxenc bias n &&& 0xFC00 = rxenc bias n from ⟨hs, hc _ hs⟩
  have hn : n ≤ 992 := by omega
  revert h
  revert bias
  interval_cases n <;> decide

/-- `pma_layout` leaves a laid-out table (40_pma_allocator.md R142, R147). -/
theorem laid_of_layout {s : State} (hc : configOk s.cfg = true) (hb : s.btable = 0) {m : Memory}
    (hm : s.pma = layoutMemory s.cfg m) : Laid s := by
  refine ⟨hc, hb, fun i => ?_, fun i => ?_, fun i => ?_, fun i => ?_, fun i => ?_⟩ <;>
    obtain ⟨h0, h1, h2, h3⟩ := layoutMemory_words s.cfg m i <;> rw [hm]
  · exact h0
  · rw [h1]; exact Nat.zero_le _
  · exact h2
  · rw [h3]; exact (rxenc_fields _ _ (sizeOut_ok hc i)).1
  · rw [h3, (rxenc_fields _ _ (sizeOut_ok hc i)).2]; exact Nat.zero_le _

/-- What `init` leaves (40_pma_allocator.md R141). -/
theorem initBlock_ok {s : State} (hc : configOk s.cfg = true) :
    initBlock s = .ok { s with
      btable := 0, pma := layoutMemory s.cfg s.pma, istr := 0, cntr := initCntr s.cfg, dppu := true, inited := true } := by
  have hp := pmaBytes_of_configOk hc
  rw [initBlock, pmaLayout_ok (by exact Nat.le_trans (by omega) hp.1), ok_bind]

theorem initBlock_laid {s t : State} (hc : configOk s.cfg = true) (h : initBlock s = .ok t) : Laid t := by
  rw [initBlock_ok hc, Except.ok.injEq] at h
  subst h
  exact laid_of_layout hc rfl rfl

end Sys2Proof.Machine
end

