-- ==== Sys2Proof/Laws/Exec.lean ====
section
/-! SUPPORT. The frames at the level of `exec` and `step`: whatever instruction runs, it keeps `CoreFrame`, and the rows
outside the register driver keep `BlockFrame`. -/

namespace Sys2Proof.Machine

theorem lift_eq_next {r : Except Fault State} {t : State} : lift r = .next t ↔ r = .ok t := by
  cases r <;> simp [lift]

theorem lift_ok (t : State) : lift (.ok t) = .next t := rfl

theorem whenInited_eq_next {s : State} {r : Except Fault State} {t : State} :
    whenInited s r = .next t ↔ s.inited = true ∧ r = .ok t := by
  unfold whenInited
  cases h : s.inited <;> simp [lift_eq_next]

theorem whenInited_ok {s : State} (h : s.inited = true) (t : State) : whenInited s (.ok t) = .next t := by
  simp [whenInited, h, lift]

theorem requestOutcome_eq_next {d : Bool} {r : Except Fault (Bool × State)} {t : State} :
    requestOutcome d r = .next t ↔ ∃ b u, r = .ok (b, u) ∧ finishRequest d b u = .ok t := by
  unfold requestOutcome
  rw [lift_eq_next, bind_eq_ok]
  constructor
  · rintro ⟨⟨b, u⟩, h, g⟩; exact ⟨b, u, h, g⟩
  · rintro ⟨b, u, h, g⟩; exact ⟨(b, u), h, g⟩

theorem next_inj {s t : State} (h : (Host.Outcome.next s : Host.Outcome State Fault Refusal) = .next t) : s = t := by
  cases h; rfl

theorem oneReg_core {s t : State} {i : Fin 8} {m : Word} (h : OneReg s t i m) (hm : m &&& 0x0100 = 0) : CoreFrame s t := by
  have hk : ∀ j : Fin 8, Epr.epKind t.epr[j] = Epr.epKind s.epr[j] := fun j => by
    by_cases e : j = i
    · subst e; exact epKind_of_outside h.outside hm
    · rw [h.others j e]
  obtain ⟨e, rfl⟩ : ∃ e, t = { s with epr := e } := ⟨_, h.frame⟩
  exact { CoreFrame.refl s with kind := fun g j => (hk j).trans (g j) }

theorem eprSetTypeAddr_core (i : Fin 8) (t : EpType) (ea : BitVec 4) (s : State) :
    CoreFrame s (eprSetTypeAddr i t ea s) := by
  have o := eprSetTypeAddr_oneReg i t ea s
  have f := eprSetTypeAddr_fields i t ea s
  refine { CoreFrame.refl s with kind := fun g j => ?_ }
  by_cases e : j = i
  · subst e; exact f.2.2
  · exact (congrArg Epr.epKind (o.others j e)).trans (g j)

theorem serialDescriptor_block (s : State) : BlockFrame s (serialDescriptor s) := by
  unfold serialDescriptor
  split
  · exact BlockFrame.refl s
  · exact ⟨{ CoreFrame.refl s with memWf := fun h => Memory.wf_writeAll _ _ _ h }, fun _ _ h => h⟩

theorem requestOutcome_block {d : Bool} {r : Except Fault (Bool × State)} {s t : State}
    (hr : ∀ b u, r = .ok (b, u) → BlockFrame s u) (h : requestOutcome d r = .next t) : BlockFrame s t := by
  obtain ⟨b, u, hu, hf⟩ := requestOutcome_eq_next.1 h
  exact (hr b u hu).trans (finishRequest_frame hf).block

theorem reject_block {s t : State} (h : (Host.Outcome.next (protocolReject s) : Host.Outcome State Fault Refusal) = .next t) :
    BlockFrame s t := by
  rw [← next_inj h]; exact (protocolReject_frame s).block

/-- Every row but `init` and the driver rows keeps the frame of the block. -/
theorem exec_block {i : Instr} {s t : State} (hi : i ≠ .init) (hp : i.port ≠ .driver) (h : exec i s = .next t) :
    BlockFrame s t := by
  cases i with
  | init => exact absurd rfl hi
  | task => exact task_block (whenInited_eq_next.1 h).2
  | epWrite ept buf len =>
    obtain ⟨⟨b, u⟩, hu, e⟩ := bind_eq_ok.1 (whenInited_eq_next.1 h).2
    simp only [Except.ok.injEq] at e; subst e
    exact (epWrite_frame hu).1.block.trans (emit_block _ u)
  | epRead ept buf cap =>
    obtain ⟨⟨b, u⟩, hu, e⟩ := bind_eq_ok.1 (whenInited_eq_next.1 h).2
    simp only [Except.ok.injEq] at e; subst e
    exact (epRead_frame hu).1.block.trans (emit_block _ u)
  | controlIn buf buflen reqlen => exact (controlIn_frame (whenInited_eq_next.1 h).2).1.block
  | controlInResume =>
    unfold exec execControlInResume at h
    cases hc : s.cont with
    | none => rw [hc] at h; simp only at h; split at h <;> simp at h
    | some c => rw [hc] at h; exact (sendFragment_frame (whenInited_eq_next.1 h).2).1.block
  | serialStringDescriptor =>
    have e := (whenInited_eq_next.1 h).2
    simp only [Except.ok.injEq] at e; subst e
    exact (serialDescriptor_block s).trans (emit_block _ _)
  | eprSetStatTx _ _ | eprSetStatRx _ _ | eprSetStatTxDtog0 _ _ | eprSetStatRxDtog0 _ _ | eprSetStatBoth _ _ _ _
  | eprClearCtrRx _ | eprClearCtrTx _ | eprSetTypeAddr _ _ _ | eprZero _ => exact absurd rfl hp
  | evtWkup => exact onWkup_block (lift_eq_next.1 h)
  | evtSusp => exact onSusp_block (lift_eq_next.1 h)
  | evtReset => exact onReset_block (lift_eq_next.1 h)
  | evtSof =>
    unfold exec execEvtSof at h
    simp only at h
    split at h
    · exact onSof_block (lift_eq_next.1 h)
    · rw [← next_inj h]; exact BlockFrame.refl s
  | evtCtr id => exact onCtr_block (lift_eq_next.1 h)
  | evtNone => rw [← next_inj h]; exact BlockFrame.refl s
  | ep0Setup => exact ep0Setup_block (lift_eq_next.1 h)
  | ep0Out => rw [← next_inj h]; exact eprClearCtrRx_block 0 s
  | ep0InDone => exact ep0InDone_block (lift_eq_next.1 h)
  | epnOutDone i => exact epnOutDone_block (lift_eq_next.1 h)
  | epnInDone i => rw [← next_inj h]; exact eprClearCtrTx_block i s
  | busReset => rw [← next_inj h]; exact busReset_block s
  | busSof => rw [← next_inj h]; split; exacts [istrSet_block _ s, BlockFrame.refl s]
  | busSuspend => rw [← next_inj h]; split; exacts [istrSet_block _ s, BlockFrame.refl s]
  | busWakeup => rw [← next_inj h]; split; exacts [istrSet_block _ s, BlockFrame.refl s]
  | busSetup p => exact busSetup_block (lift_eq_next.1 h)
  | busOut e data => exact busOut_block (lift_eq_next.1 h)
  | busIn e =>
    obtain ⟨u, hu, rfl⟩ := execBusIn_eq_next.1 h
    exact (busIn_block hu).trans (checkIn_block e.expect u)
  | classRequest req => exact requestOutcome_block (fun b u e => (delegate_frame e).block) h
  | vendorRequest req => exact requestOutcome_block (fun b u e => (delegate_frame e).block) h
  | getStatusDevice w => exact requestOutcome_block (fun b u e => (getStatusDevice_frame e).block) h
  | getStatusInterface i w => exact requestOutcome_block (fun b u e => (getStatusInterface_frame e).block) h
  | getStatusEndpoint n d w => exact requestOutcome_block (fun b u e => (getStatusEndpoint_frame e).block) h
  | clearFeatureEndpointHalt n d =>
    exact requestOutcome_block (fun b u e => by rw [ok_snd e]; exact (clearFeature_frame n d s).block) h
  | clearFeatureOther => exact reject_block h
  | setFeatureEndpointHalt n d =>
    exact requestOutcome_block (fun b u e => by rw [ok_snd e]; exact (setFeature_frame n d s).block) h
  | setFeatureOther => exact reject_block h
  | setAddress a => exact requestOutcome_block (fun b u e => setAddress_block e) h
  | getDescriptorDevice w => exact requestOutcome_block (fun b u e => (getDescriptorDevice_frame e).block) h
  | getDescriptorConfiguration w =>
    exact requestOutcome_block (fun b u e => (getDescriptorConfiguration_frame e).block) h
  | getDescriptorString i l w => exact requestOutcome_block (fun b u e => (getDescriptorString_frame e).block) h
  | getDescriptorDeviceOther => exact reject_block h
  | getDescriptorInterface req => exact requestOutcome_block (fun b u e => (delegate_frame e).block) h
  | setDescriptor => exact reject_block h
  | getConfiguration w => exact requestOutcome_block (fun b u e => (getConfiguration_frame e).block) h
  | setConfiguration v =>
    exact requestOutcome_block (fun b u e => by rw [ok_snd e]; exact setConfiguration_block v s) h
  | getInterface i w => exact requestOutcome_block (fun b u e => (getInterface_frame e).block) h
  | setInterface i a =>
    exact requestOutcome_block (fun b u e => by rw [ok_snd e, setInterface_state]; exact BlockFrame.refl s) h
  | synchFrame => exact reject_block h
  | unsupported => exact reject_block h

/-- Every row but `init` keeps `CoreFrame`. -/
theorem exec_core {i : Instr} {s t : State} (hi : i ≠ .init) (h : exec i s = .next t) : CoreFrame s t := by
  by_cases hp : i.port = .driver
  · cases i with
    | eprSetStatTx i st => rw [← next_inj h]; exact oneReg_core (eprSetStatTx_oneReg i st s) (by decide)
    | eprSetStatRx i st => rw [← next_inj h]; exact oneReg_core (eprSetStatRx_oneReg i st s) (by decide)
    | eprSetStatTxDtog0 i st => rw [← next_inj h]; exact oneReg_core (eprSetStatTxDtog0_oneReg i st s) (by decide)
    | eprSetStatRxDtog0 i st => rw [← next_inj h]; exact oneReg_core (eprSetStatRxDtog0_oneReg i st s) (by decide)
    | eprSetStatBoth i x y c =>
      rw [← next_inj h]; exact oneReg_core (eprSetStatBoth_oneReg i x y c s) (by cases c <;> decide)
    | eprClearCtrRx i => rw [← next_inj h]; exact (eprClearCtrRx_block i s).core
    | eprClearCtrTx i => rw [← next_inj h]; exact (eprClearCtrTx_block i s).core
    | eprSetTypeAddr i t ea => rw [← next_inj h]; exact eprSetTypeAddr_core i t ea s
    | eprZero i => rw [← next_inj h]; exact (eprZero_block i s).core
    | _ => exact absurd hp (by simp [Instr.port])
  · exact (exec_block hi hp h).core

/-- `init` with its preconditions (40_pma_allocator.md R141). -/
theorem exec_init_ok {s : State} (hi : s.inited = false) (hc : configOk s.cfg = true) : exec .init s = .next { s with
    btable := 0, pma := layoutMemory s.cfg s.pma, istr := 0, cntr := initCntr s.cfg, dppu := true, inited := true } := by
  unfold exec execInit
  rw [initBlock_ok hc]
  simp [hi, hc, lift]

/-- The two outcomes of `init`: refused, or the configured block (40_pma_allocator.md R141). -/
theorem exec_init_next {s t : State} (h : exec .init s = .next t) :
    s.inited = false ∧ configOk s.cfg = true ∧ t = { s with
      btable := 0, pma := layoutMemory s.cfg s.pma, istr := 0, cntr := initCntr s.cfg, dppu := true, inited := true } := by
  unfold exec execInit at h
  simp only at h
  split at h
  · simp at h
  · rename_i hi
    split at h
    · rename_i hc
      rw [initBlock_ok hc] at h
      exact ⟨by simpa using hi, hc, (next_inj h).symm⟩
    · simp at h

/-- The inputs of a step other than an instruction keep the frame of the block. -/
theorem appStore_block (a : Nat) (bs : List Byte) (s : State) : BlockFrame s (appStore a bs s) :=
  (appStore_frame a bs s).block

theorem busError_block (e : BusError) (s : State) : BlockFrame s (busError e s) := by
  unfold busError
  split
  · exact istrSet_block _ s
  · exact BlockFrame.refl s

/-- A line that carries no instruction runs only as nothing (30_encoding.md R122). -/
theorem undecoded_eq_next {e : DecodeError} {s t : State} : undecoded e s = .next t ↔ e = .noSubEvent ∧ t = s := by
  unfold undecoded
  split <;> simp [*, eq_comm]

/-- What a step can be: idle, an instruction, a completion that selects no sub-event, a store by the application, a bus
error. -/
theorem step_cases {s t : State} (h : step s = .next t) :
    (s.script = [] ∧ t = idle s) ∨
    (∃ l rest i, s.script = .line l :: rest ∧ decode s.cfg.layout l = .ok i ∧ exec i (takeInput rest s) = .next t) ∨
    (∃ l rest, s.script = .line l :: rest ∧ decode s.cfg.layout l = .error .noSubEvent ∧ t = takeInput rest s) ∨
    (∃ a bs rest, s.script = .appStore a bs :: rest ∧ t = appStore a bs (takeInput rest s)) ∨
    (∃ e rest, s.script = .busError e :: rest ∧ t = busError e (takeInput rest s)) := by
  unfold step at h
  split at h
  · rename_i hs; exact .inl ⟨hs, (next_inj h).symm⟩
  · rename_i l rest hs
    split at h
    · rename_i i hd; exact .inr (.inl ⟨l, rest, i, hs, hd, h⟩)
    · rename_i e hd
      obtain ⟨rfl, rfl⟩ := undecoded_eq_next.1 h
      exact .inr (.inr (.inl ⟨l, rest, hs, hd, rfl⟩))
  · rename_i a bs rest hs; exact .inr (.inr (.inr (.inl ⟨a, bs, rest, hs, (next_inj h).symm⟩)))
  · rename_i e rest hs; exact .inr (.inr (.inr (.inr ⟨e, rest, hs, (next_inj h).symm⟩)))

end Sys2Proof.Machine
end

