-- ==== Sys2Proof/Laws/Words.lean ====
section
/-! SUPPORT. The words of a `LAYOUT` (00_scope.md R10): a legal placement keeps every field, so what the rules say of
fields holds of the register words whatever the layout. -/

namespace Sys2Proof.Machine

/-! ## Moving bits -/

theorem getLsbD_moveBits {n : Nat} (ps : List (Nat × Nat)) (w : BitVec n) {j : Nat} (hj : j < n) :
    (moveBits ps w).getLsbD j = ps.any fun p => w.getLsbD p.1 && decide (p.2 = j) := by
  induction ps with
  | nil => simp [moveBits]
  | cons p ps ih =>
    have e : moveBits (p :: ps) w =
        if w.getLsbD p.1 then moveBits ps w ||| BitVec.twoPow n p.2 else moveBits ps w := rfl
    rw [e, List.any_cons, ← ih]
    cases h : w.getLsbD p.1
    · simp
    · simp [Bool.or_comm, eq_comm, hj]

/-- Where no two bits go to one place, a moved bit is the bit it was. -/
theorem getLsbD_moveBits_of_mem {n : Nat} {ps : List (Nat × Nat)} (hd : (ps.map Prod.snd).Nodup) (w : BitVec n)
    {p : Nat × Nat} (hp : p ∈ ps) (hj : p.2 < n) : (moveBits ps w).getLsbD p.2 = w.getLsbD p.1 := by
  rw [getLsbD_moveBits ps w hj, Bool.eq_iff_iff, List.any_eq_true]
  constructor
  · rintro ⟨q, hq, h⟩
    simp only [Bool.and_eq_true, decide_eq_true_eq] at h
    rw [← List.inj_on_of_nodup_map hd hq hp h.2]
    exact h.1
  · exact fun h => ⟨p, hp, by simp [h]⟩

/-- Moved out and back, the bits of the fields are as they were and the others are 0. -/
theorem moveBits_back {n : Nat} {ps : List (Nat × Nat)} (hd : (ps.map Prod.snd).Nodup) (hn : ∀ p ∈ ps, p.2 < n)
    (w : BitVec n) {k : Nat} (hk : k < n) :
    (moveBits (ps.map Prod.swap) (moveBits ps w)).getLsbD k = (w.getLsbD k && decide (k ∈ ps.map Prod.fst)) := by
  rw [getLsbD_moveBits _ _ hk, Bool.eq_iff_iff, List.any_eq_true]
  constructor
  · rintro ⟨q, hq, h⟩
    obtain ⟨p, hp, rfl⟩ := List.mem_map.1 hq
    simp only [Prod.fst_swap, Prod.snd_swap, Bool.and_eq_true, decide_eq_true_eq] at h
    rw [getLsbD_moveBits_of_mem hd w hp (hn p hp)] at h
    obtain ⟨h, rfl⟩ := h
    simp only [h, Bool.true_and, decide_eq_true_eq]
    exact List.mem_map_of_mem hp
  · intro h
    simp only [Bool.and_eq_true, decide_eq_true_eq, List.mem_map] at h
    obtain ⟨h, p, hp, rfl⟩ := h
    refine ⟨p.swap, List.mem_map_of_mem hp, ?_⟩
    simp only [Prod.fst_swap, Prod.snd_swap, decide_true, Bool.and_true]
    rw [getLsbD_moveBits_of_mem hd w hp (hn p hp)]
    exact h

theorem placesOk_iff {n : Nat} {ps : List (Nat × Nat)} :
    placesOk n ps = true ↔ (ps.map Prod.snd).Nodup ∧ ∀ p ∈ ps, p.2 < n := by
  simp [placesOk]

/-! ## What a legal layout gives -/

theorem eprPlaces_of_ok {y : Layout} (h : y.ok = true) : placesOk 16 y.eprBits = true := by
  simp only [Layout.ok, Bool.and_eq_true] at h; exact h.1.1.1.1.1.1.1.1

theorem istrPlaces_of_ok {y : Layout} (h : y.ok = true) : placesOk 16 y.istrBits = true := by
  simp only [Layout.ok, Bool.and_eq_true] at h; exact h.1.1.1.1.1.1.1.2

theorem statCodes_of_ok {y : Layout} (h : y.ok = true) :
    [0, y.statCodes.stall, y.statCodes.nak, y.statCodes.valid].Nodup := by
  simp only [Layout.ok, Bool.and_eq_true, decide_eq_true_eq] at h; exact h.1.2

theorem typeCodes_of_ok {y : Layout} (h : y.ok = true) :
    [y.typeCodes.bulk, y.typeCodes.control, y.typeCodes.iso, y.typeCodes.interrupt].Nodup := by
  simp only [Layout.ok, Bool.and_eq_true, decide_eq_true_eq] at h; exact h.2

/-- The one legal placement of the receive count word (30_encoding.md R110). -/
theorem countPlaces_of_ok {y : Layout} (h : y.ok = true) : y.count = ⟨15, 10, 0⟩ := by
  simp only [Layout.ok, Bool.and_eq_true, decide_eq_true_eq] at h
  obtain ⟨hd, hn⟩ := placesOk_iff.1 h.1.1.1.2
  have hb := h.1.1.2
  unfold Layout.countBits at hd hn
  generalize y.count = q at *
  obtain ⟨b, n, c⟩ := q
  obtain rfl : n = 10 := hb
  simp only [fieldBits, List.range_succ, List.range_zero, List.nil_append, List.map_cons, List.map_nil,
    List.cons_append, List.mem_cons, List.not_mem_nil, or_false, forall_eq_or_imp, forall_eq, List.nodup_cons,
    List.nodup_nil, not_or] at hd hn
  obtain rfl : c = 0 := by omega
  obtain rfl : b = 15 := by omega
  rfl

theorem layoutDefault_ok : Layout.default.ok = true := by decide

/-- The bits of `EPnR` are all sixteen. -/
theorem eprBits_fst (y : Layout) : y.eprBits.map Prod.fst = [15, 14, 12, 13, 11, 9, 10, 8, 7, 6, 4, 5, 0, 1, 2, 3] := rfl

theorem istrBits_fst (y : Layout) : y.istrBits.map Prod.fst = [15, 14, 13, 12, 11, 10, 9, 8, 4, 0, 1, 2, 3] := rfl

/-- Stat codes of a legal layout name the states. -/
theorem StatCodes.ofCode_code {y : Layout} (h : y.ok = true) (st : Stat) :
    y.statCodes.ofCode (y.statCodes.code st) = st := by
  have := statCodes_of_ok h
  revert this
  obtain ⟨p, q, r⟩ := y.statCodes
  show [0, p, q, r].Nodup → _
  cases st <;> revert p q r <;> decide

theorem Stat.code_ofCode (c : BitVec 2) : (Stat.ofCode c).code = c := by revert c; decide

/-! ## Endpoint registers -/

/-- The bits of a recoded register: the two `STAT` fields are recoded, the others are as they were. -/
theorem getLsbD_recodeStat (f : BitVec 2 → BitVec 2) (r : Word) {k : Nat} (hk : k < 16) :
    (recodeStat f r).getLsbD k =
      if k = 4 ∨ k = 5 then (f (r.extractLsb' 4 2)).getLsbD (k - 4)
      else if k = 12 ∨ k = 13 then (f (r.extractLsb' 12 2)).getLsbD (k - 12) else r.getLsbD k := by
  unfold recodeStat
  generalize f (r.extractLsb' 4 2) = a
  generalize f (r.extractLsb' 12 2) = b
  simp only [BitVec.getLsbD_or, BitVec.getLsbD_and]
  generalize r.getLsbD k = x
  interval_cases k <;> revert a b x <;> decide

theorem extract_recodeStat (f : BitVec 2 → BitVec 2) (r : Word) :
    (recodeStat f r).extractLsb' 4 2 = f (r.extractLsb' 4 2) ∧
    (recodeStat f r).extractLsb' 12 2 = f (r.extractLsb' 12 2) := by
  constructor <;> refine extract_of_bits fun i hi => ?_ <;> rw [getLsbD_recodeStat f r (by omega)] <;>
    interval_cases i <;> simp

theorem recodeStat_recodeStat {f g : BitVec 2 → BitVec 2} (h : ∀ c, g (f c) = c) (r : Word) :
    recodeStat g (recodeStat f r) = r := by
  apply BitVec.eq_of_getLsbD_eq
  intro k hk
  obtain ⟨e1, e2⟩ := extract_recodeStat f r
  rw [getLsbD_recodeStat g _ hk, e1, e2, h, h, getLsbD_recodeStat f r hk]
  interval_cases k <;> simp

/-- A register word in a legal `LAYOUT` has the fields it had. -/
@[simp] theorem eprIn_eprOut {y : Layout} (h : y.ok = true) (r : Word) : y.eprIn (y.eprOut r) = r := by
  obtain ⟨hd, hn⟩ := placesOk_iff.1 (eprPlaces_of_ok h)
  have e : ∀ v : Word, moveBits (y.eprBits.map Prod.swap) (moveBits y.eprBits v) = v := fun v => by
    apply BitVec.eq_of_getLsbD_eq
    intro k hk
    rw [moveBits_back hd hn v hk, eprBits_fst]
    interval_cases k <;> simp
  unfold Layout.eprIn Layout.eprOut
  rw [e]
  exact recodeStat_recodeStat (fun c => by rw [StatCodes.ofCode_code h, Stat.code_ofCode]) r

/-- The bits of a legal `LAYOUT` of `EPnR` are all sixteen. -/
theorem eprBits_snd {y : Layout} (h : y.ok = true) {j : Nat} (hj : j < 16) : j ∈ y.eprBits.map Prod.snd := by
  obtain ⟨hd, hn⟩ := placesOk_iff.1 (eprPlaces_of_ok h)
  have hs : (y.eprBits.map Prod.snd).toFinset ⊆ Finset.range 16 := fun x hx => by
    obtain ⟨p, hp, rfl⟩ := List.mem_map.1 (List.mem_toFinset.1 hx)
    exact Finset.mem_range.2 (hn p hp)
  have hc : (y.eprBits.map Prod.snd).toFinset.card = 16 := by
    rw [List.toFinset_card_of_nodup hd, List.length_map]; rfl
  have he := Finset.eq_of_subset_of_card_le hs (by rw [hc, Finset.card_range])
  exact List.mem_toFinset.1 (he ▸ Finset.mem_range.2 hj)

/-- Every word is the word of some fields: what can be written or read in `LAYOUT` is covered. -/
@[simp] theorem eprOut_eprIn {y : Layout} (h : y.ok = true) (w : Word) : y.eprOut (y.eprIn w) = w := by
  obtain ⟨hd, hn⟩ := placesOk_iff.1 (eprPlaces_of_ok h)
  have hc : ∀ c, y.statCodes.code (y.statCodes.ofCode c) = c := fun c => by
    have := statCodes_of_ok h
    revert this
    obtain ⟨p, q, r⟩ := y.statCodes
    show [0, p, q, r].Nodup → _
    revert p q r c
    decide
  unfold Layout.eprIn Layout.eprOut
  rw [recodeStat_recodeStat (fun c => by rw [Stat.ofCode_code, hc]) _]
  apply BitVec.eq_of_getLsbD_eq
  intro j hj
  obtain ⟨p, hp, rfl⟩ := List.mem_map.1 (eprBits_snd h hj)
  have hf : p.1 < 16 := by
    have : p.1 ∈ y.eprBits.map Prod.fst := List.mem_map_of_mem hp
    rw [eprBits_fst] at this
    revert this
    generalize p.1 = k
    simp only [List.mem_cons, List.not_mem_nil, or_false]
    omega
  rw [getLsbD_moveBits_of_mem hd _ hp hj]
  have hw : ((y.eprBits.map Prod.swap).map Prod.snd).Nodup := by
    rw [List.map_map, show (Prod.snd ∘ Prod.swap : Nat × Nat → Nat) = Prod.fst from rfl, eprBits_fst]
    decide
  exact getLsbD_moveBits_of_mem hw w (List.mem_map_of_mem (f := Prod.swap) hp) hf

/-! ## The event word -/

/-- `ISTR` in a legal `LAYOUT` has the fields it had; the reserved bits 7:5 read as 0. -/
theorem istrIn_istrOut {y : Layout} (h : y.ok = true) (r : Word) : y.istrIn (y.istrOut r) = r &&& 0xFF1F := by
  obtain ⟨hd, hn⟩ := placesOk_iff.1 (istrPlaces_of_ok h)
  apply BitVec.eq_of_getLsbD_eq
  intro k hk
  unfold Layout.istrIn Layout.istrOut
  rw [moveBits_back hd hn r hk, istrBits_fst, BitVec.getLsbD_and]
  generalize r.getLsbD k = x
  interval_cases k <;> revert x <;> decide

/-! ## Endpoint types -/

/-- Type codes of a legal layout tell apart every code of the field. -/
theorem EpType.ofCode_inj {y : Layout} (h : y.ok = true) {a b : BitVec 2}
    (he : EpType.ofCode y.typeCodes a = EpType.ofCode y.typeCodes b) : a = b := by
  have := typeCodes_of_ok h
  revert this he
  obtain ⟨p, q, r, t⟩ := y.typeCodes
  show _ → [p, q, r, t].Nodup → _
  revert p q r t a b
  decide

end Sys2Proof.Machine
end

