-- ==== Sys2Proof/Laws/Encoding.lean ====
section
/-! SUPPORT. The fields of encoded lines (30_encoding.md): what the encoder writes is what the decoder reads. -/

namespace Sys2Proof.Machine

theorem ofNat_eight (i : Fin 8) : decodeReg (BitVec.ofNat 8 i.val) = some i := by revert i; decide

theorem widen_nibble (e : BitVec 4) : (e.setWidth 8 : Byte).extractLsb' 0 4 = e ∧ (e.setWidth 8 : Byte).toNat < 16 := by
  revert e; decide

/-- A pointer operand round-trips (log 6). -/
theorem decodePtr_encode (p : AppRef) (h : p.wf = true) : ∃ t a0 a1 a2 a3, encodePtr p = [t, a0, a1, a2, a3] ∧
    decodePtr t a0 a1 a2 a3 = p := by
  cases p with
  | null => exact ⟨_, _, _, _, _, rfl, rfl⟩
  | app a =>
    refine ⟨_, _, _, _, _, rfl, ?_⟩
    have ha : a < 2 ^ 32 := by simpa [AppRef.wf] using h
    have e : ∀ v : BitVec 32, (v.extractLsb' 24 8 ++ v.extractLsb' 16 8 ++ v.extractLsb' 8 8 ++ v.extractLsb' 0 8 : BitVec 32) = v := by
      intro v
      apply BitVec.eq_of_getLsbD_eq
      intro i hi
      simp only [BitVec.getLsbD_append, BitVec.getLsbD_extractLsb']
      interval_cases i <;> simp
    have e2 := congrArg BitVec.toNat (e (BitVec.ofNat 32 a))
    rw [BitVec.toNat_ofNat, Nat.mod_eq_of_lt ha] at e2
    exact congrArg AppRef.app e2

theorem decodePtr_wf (t a0 a1 a2 a3 : Byte) : (decodePtr t a0 a1 a2 a3).wf = true := by
  unfold decodePtr
  split
  · rfl
  · simp only [AppRef.wf, decide_eq_true_eq]; exact BitVec.isLt _

/-- The endpoint number of a transaction line reads back (46_usb_engine_agent.md R306). -/
theorem decodeEndpoint_setWidth (e : BitVec 4) : decodeEndpoint (e.setWidth 8) = .ok e := by
  simp only [decodeEndpoint, widen_nibble, if_true]

theorem map_eq_ok {ε α β : Type} {x : Except ε α} {f : α → β} {b : β} :
    x.map f = .ok b ↔ ∃ a, x = .ok a ∧ f a = b := by
  cases x <;> simp [Except.map]

/-- The bytes of a request record parse to it (43_control_engine.md R202). -/
theorem parse_unparse (r : Request) : parse (unparse r) = r := by
  obtain ⟨a, b, v, i, l⟩ := r
  simp [parse, unparse]

theorem unparse_toList (r : Request) : (unparse r).toList =
    [r.bmRequestType, r.bRequest, loByte r.wValue, hiByte r.wValue, loByte r.wIndex, hiByte r.wIndex, loByte r.wLength,
      hiByte r.wLength] := rfl

theorem decode_request (y : Layout) (bm br : Byte) (v i l : Word) :
    decode y (encodeRequest bm br v i l) = .ok (decodeRequest (unparse ⟨bm, br, v, i, l⟩)) := rfl

/-- An event line reads back but for the reserved bits of `ISTR`. -/
theorem decode_event {y : Layout} (h : y.ok = true) (r : Word) :
    decode y (encodeEvent y r) = .ok (decodeEvent (r &&& 0xFF1F)) := by
  simp [decode, encodeEvent, istrIn_istrOut h]

theorem decode_completion {y : Layout} (h : y.ok = true) (r : Word) (i : Fin 8) :
    decode y (encodeCompletion y r i) = decodeCompletion r (BitVec.ofNat 8 i.val) := by
  simp [decode, encodeCompletion, h]

/-- The fields of an endpoint operand (30_encoding.md R115). -/
theorem epIndex_fields (n : BitVec 4) (d : Dir) (a b : Byte) (v l : Word) :
    Request.epn ⟨a, b, v, epIndex n d, l⟩ = n ∧ Request.epdir ⟨a, b, v, epIndex n d, l⟩ = d := by
  have h : ∀ (n : BitVec 4) (d : Dir), (epIndex n d).extractLsb' 0 4 = n ∧
      (if (epIndex n d).getLsbD 7 then Dir.tx else Dir.rx) = d := by
    intro n d
    cases d <;> revert n <;> decide
  exact h n d

theorem decode_driver {y : Layout} (h : y.ok = true) {op : DriverOp} {opb : Byte}
    (ho : DriverOp.ofByte opb = some op) (r : Word) (i : Fin 8) (c : Bool) (hf : op.fits r = true)
    (hc : c = true → op = .setStatBoth) :
    decode y (encodeDriver y opb r i c) = decodeDriverWord y.typeCodes op r i c := by
  simp only [decode, encodeDriver, decodeDriver, ho, ofNat_eight, le16_loByte_hiByte, eprIn_eprOut h, hf, if_true]
  cases c with
  | false => simp
  | true => simp [hc rfl]

theorem setWidth_loByte (b : Byte) : loByte (b.setWidth 16) = b := by revert b; decide

theorem extract_seven (a : BitVec 7) : (a.setWidth 16 : Word).extractLsb' 0 7 = a := by revert a; decide

theorem decodeEvent_ctr (id : BitVec 4) : decodeEvent ((0x8000 ||| id.setWidth 16) &&& 0xFF1F) = .evtCtr id := by
  revert id; decide

/-- The two request types with a row of their own (30_encoding.md R119). -/
theorem typ_bits (b : Byte) : (b &&& 0x60 = 0x20 ↔ b.extractLsb' 5 2 = (1 : BitVec 2)) ∧
    (b &&& 0x60 = 0x40 ↔ b.extractLsb' 5 2 = (2 : BitVec 2)) := by
  revert b; decide

theorem ite_of {α : Type} {P : α → Prop} {c : Prop} [Decidable c] {a b : α} (h1 : c → P a) (h2 : ¬c → P b) :
    P (if c then a else b) := by split <;> simp_all

/-- Every SETUP packet decodes to a well-formed request row (30_encoding.md R119, R120). -/
theorem decodeRequest_wf (p : Packet) : (decodeRequest p).wf = true ∧ (decodeRequest p).port = .request := by
  let P : Instr → Prop := fun i => i.wf = true ∧ i.port = .request
  have bits := typ_bits (parse p).bmRequestType
  show P _
  unfold decodeRequest
  dsimp only
  refine ite_of (fun h => ⟨decide_eq_true (bits.1.1 h), rfl⟩) fun g1 => ?_
  refine ite_of (fun h => ⟨decide_eq_true (bits.2.1 h), rfl⟩) fun g2 => ?_
  iterate 12 refine ite_of (fun _ => ⟨rfl, rfl⟩) fun _ => ?_
  refine ite_of (fun h => ⟨?_, rfl⟩) fun _ => ?_
  · simp only [Instr.wf, Bool.and_eq_true, decide_eq_true_eq]
    exact ⟨⟨⟨mt bits.1.2 g1, mt bits.2.2 g2⟩, h.1⟩, h.2⟩
  iterate 6 refine ite_of (fun _ => ⟨rfl, rfl⟩) fun _ => ?_
  exact ⟨rfl, rfl⟩

end Sys2Proof.Machine
end

