-- ==== Sys2Proof/Laws/Runs.lean ====
section
/-! SUPPORT. Every request, handler, command and engine step runs to its end from a state that is ready, and leaves a
state that is ready. -/

namespace Sys2Proof.Machine

/-- A result that is a next state which is ready. -/
def Runs (r : Except Fault State) : Prop := ∃ t, r = .ok t ∧ Ready t

/-- The same for an operation that also answers a value. -/
def RunsTo {α : Type} (r : Except Fault (α × State)) : Prop := ∃ a t, r = .ok (a, t) ∧ Ready t

theorem Runs.ok {s : State} (h : Ready s) : Runs (.ok s) := ⟨s, rfl, h⟩

theorem RunsTo.ok {α : Type} (a : α) {s : State} (h : Ready s) : RunsTo (.ok (a, s)) := ⟨a, s, rfl, h⟩

theorem Runs.bind {α : Type} {r : Except Fault (α × State)} {f : α × State → Except Fault State} (h : RunsTo r)
    (g : ∀ a t, Ready t → Runs (f (a, t))) : Runs (r >>= f) := by
  obtain ⟨a, t, rfl, ht⟩ := h
  exact g a t ht

theorem Runs.andThen {r : Except Fault State} {f : State → Except Fault State} (h : Runs r)
    (g : ∀ t, Ready t → Runs (f t)) : Runs (r >>= f) := by
  obtain ⟨t, rfl, ht⟩ := h
  exact g t ht

/-- A change of fields the layout, the answers and the continuation do not depend on keeps the block ready. -/
theorem Ready.of_fields {s t : State} (h : Ready s) (hc : t.cfg = s.cfg) (hb : t.btable = s.btable)
    (hp : ∀ a < 64, t.pma.read a = s.pma.read a) (ha : t.answers = s.answers)
    (hk : ∀ c, t.cont = some c → ∃ a, c.ptr = .app a) : Ready t :=
  ⟨h.laid.congr hc hb hp, fun a ha' => h.answers a (by rw [← ha]; exact ha'), hk⟩

theorem OneReg.ready {s t : State} {i : Fin 8} {m : Word} (o : OneReg s t i m) (h : Ready s) : Ready t := by
  obtain ⟨e, rfl⟩ : ∃ e, t = { s with epr := e } := ⟨_, o.frame⟩
  exact h.of_fields rfl rfl (fun _ _ => rfl) rfl h.contPtr

theorem emit_ready (o : Out) {s : State} (h : Ready s) : Ready (emit o s) :=
  h.of_fields rfl rfl (fun _ _ => rfl) rfl h.contPtr

theorem replyBuf_cont {s t : State} {bytes : List Byte} {w : Word} (h : RepliedFrom s t bytes w) :
    ∀ c, t.cont = some c → ∃ a, c.ptr = .app a := fun c hc => by rw [h.tail] at hc; simp at hc

theorem replyOne_runs (b : Byte) (w : Word) {s : State} (h : Ready s) : RunsTo (replyOne b w s) := by
  obtain ⟨t, ht, hl, hr⟩ := replyOne_ok b w h.laid
  exact ⟨true, t, ht, h.congr (replyOne_frame ht) hl (replyBuf_cont hr)⟩

theorem replyTwo_runs (b0 b1 : Byte) (w : Word) {s : State} (h : Ready s) : RunsTo (replyTwo b0 b1 w s) := by
  obtain ⟨t, ht, hl, hr⟩ := replyTwo_ok b0 b1 w h.laid
  exact ⟨true, t, ht, h.congr (replyTwo_frame ht) hl (replyBuf_cont hr)⟩

theorem replyDescriptor_runs (p : Nat) (len w : Word) {s : State} (h : Ready s) : RunsTo (replyDescriptor p len w s) := by
  obtain ⟨t, ht, hl, hr⟩ := replyDescriptor_ok p len w h.laid
  exact ⟨true, t, ht, h.congr (replyDescriptor_frame ht) hl fun c hc => tailOf_app (hr.tail ▸ hc)⟩

theorem delegate_runsTo {s : State} (p : Bool) (c : Call) (h : Ready s) : RunsTo (delegate p c s) :=
  delegate_runs p c h

theorem hook_runsTo {s : State} (p : Bool) (c : Call) (h : Ready s) : Runs (hook p c s) := by
  obtain ⟨t, ht, -, hr⟩ := hook_runs p c h
  exact ⟨t, ht, hr⟩

theorem callback_runsTo {s : State} (c : Call) (h : Ready s) : RunsTo (callback c s) := by
  obtain ⟨r, t, ht, hr⟩ := delegated_runs c h
  exact ⟨r, t, callback_eq_ok.2 ht, hr⟩

theorem getStatusDevice_runs (w : Word) {s : State} (h : Ready s) : RunsTo (getStatusDevice w s) := by
  unfold getStatusDevice
  split
  · exact .ok _ h
  · split
    · exact .ok _ h
    · exact replyTwo_runs _ _ w h

theorem getStatusInterface_runs (i : Byte) (w : Word) {s : State} (h : Ready s) : RunsTo (getStatusInterface i w s) := by
  unfold getStatusInterface
  split
  · exact .ok _ h
  · exact replyTwo_runs _ _ w h

theorem getStatusEndpoint_runs (n : BitVec 4) (d : Dir) (w : Word) {s : State} (h : Ready s) :
    RunsTo (getStatusEndpoint n d w s) := by
  unfold getStatusEndpoint
  split
  · exact .ok _ h
  · split
    · exact .ok _ h
    · exact replyTwo_runs _ _ w h

theorem clearFeature_ready (n : BitVec 4) (d : Dir) {s : State} (h : Ready s) :
    Ready (clearFeatureEndpointHalt n d s).2 := by
  unfold clearFeatureEndpointHalt
  split
  · exact h
  · split
    · exact h
    · split
      · exact h
      · cases d with
        | tx => exact (eprSetStatTxDtog0_oneReg _ .nak s).ready h
        | rx => exact (eprSetStatRxDtog0_oneReg _ .valid s).ready h

theorem setFeature_ready (n : BitVec 4) (d : Dir) {s : State} (h : Ready s) :
    Ready (setFeatureEndpointHalt n d s).2 := by
  unfold setFeatureEndpointHalt
  split
  · exact h
  · split
    · exact h
    · split
      · exact h
      · cases d with
        | tx => exact (eprSetStatTx_oneReg _ .stall s).ready h
        | rx => exact (eprSetStatRx_oneReg _ .stall s).ready h

theorem setAddress_runs (a : BitVec 7) {s : State} (h : Ready s) : RunsTo (setAddress a s) := by
  unfold setAddress
  split
  · exact .ok _ h
  · split
    · exact .ok _ h
    · have h' : Ready { s with pendAddr := a, pendFlag := true } := h.of_fields rfl rfl (fun _ _ => rfl) rfl h.contPtr
      obtain ⟨t, ht, hr⟩ := hook_runsTo s.cfg.cap.setAddressHook (.setAddressHook a) h'
      exact ⟨true, t, by rw [ht, ok_bind], hr⟩

theorem getDescriptorDevice_runs (w : Word) {s : State} (h : Ready s) : RunsTo (getDescriptorDevice w s) := by
  unfold getDescriptorDevice
  split
  · exact .ok _ h
  · exact replyDescriptor_runs _ _ w h

theorem getDescriptorConfiguration_runs (w : Word) {s : State} (h : Ready s) :
    RunsTo (getDescriptorConfiguration w s) := by
  unfold getDescriptorConfiguration
  split
  · exact .ok _ h
  · exact replyDescriptor_runs _ _ w h

theorem getDescriptorString_runs (i : Byte) (l w : Word) {s : State} (h : Ready s) :
    RunsTo (getDescriptorString i l w s) := by
  unfold getDescriptorString
  split
  · exact .ok _ h
  · exact replyDescriptor_runs _ _ w h

theorem getConfiguration_runs (w : Word) {s : State} (h : Ready s) : RunsTo (getConfiguration w s) := by
  unfold getConfiguration
  split
  · split
    · exact .ok _ h
    · exact replyOne_runs _ w h
  · exact replyOne_runs _ w h

theorem getInterface_runs (i : Byte) (w : Word) {s : State} (h : Ready s) : RunsTo (getInterface i w s) := by
  unfold getInterface
  split
  · exact .ok _ h
  · split
    · exact .ok _ h
    · exact replyOne_runs _ w h

theorem setConfiguration_ready (v : Byte) {s : State} (h : Ready s) : Ready (setConfiguration v s).2 := by
  rcases setConfiguration_cases v s with e | ⟨-, -, r, e, -⟩ | ⟨-, -, c, -, -, r, e, -⟩ <;> rw [e]
  · exact h
  · exact h.of_fields rfl rfl (fun _ _ => rfl) rfl h.contPtr
  · exact h.of_fields rfl rfl (fun _ _ => rfl) rfl h.contPtr

theorem runsTo_pair {p : Bool × State} (h : Ready p.2) : RunsTo (.ok p) := ⟨p.1, p.2, rfl, h⟩

theorem standard_runs (q : Request) {s : State} (h : Ready s) : RunsTo (standard q s) :=
  standard_elim RunsTo q s (.ok _ h) (getStatusDevice_runs _ h) (getStatusInterface_runs _ _ h)
    (getStatusEndpoint_runs _ _ _ h) (runsTo_pair (clearFeature_ready _ _ h)) (runsTo_pair (setFeature_ready _ _ h))
    (setAddress_runs _ h) (getDescriptorDevice_runs _ h) (getDescriptorConfiguration_runs _ h)
    (getDescriptorString_runs _ _ _ h) (delegate_runsTo _ _ h) (getConfiguration_runs _ h)
    (runsTo_pair (setConfiguration_ready _ h)) (getInterface_runs _ _ h)
    (runsTo_pair (by rw [setInterface_state]; exact h))

theorem dispatch_runs (q : Request) {s : State} (h : Ready s) : RunsTo (dispatch q s) := by
  unfold dispatch
  split
  · exact delegate_runsTo _ _ h
  · split
    · exact delegate_runsTo _ _ h
    · exact standard_runs q h

theorem finishRequest_runsTo {s : State} (d b : Bool) (h : Ready s) : Runs (finishRequest d b s) := by
  obtain ⟨t, ht, -, hr⟩ := finishRequest_runs d b h
  exact ⟨t, ht, hr⟩

theorem serveRequest_runs (q : Request) {s : State} (h : Ready s) : Runs (serveRequest q s) :=
  Runs.bind (dispatch_runs q h) fun _ _ ht => finishRequest_runsTo _ _ ht

/-- `ep_read` of a SETUP packet into `setup_buf` (43_control_engine.md R201). -/
theorem epRead_setup_runs {s : State} (h : Ready s) : RunsTo (epRead 0 (.setupBuf 0) 8 s) := by
  have e := epRead_of_laid (cap := 8) (.setupBuf 0) h.laid slotIndex_zero (by rw [sizeOut_zero]; decide)
  have hl : (readLen s 0 8).toNat ≤ 8 := by rw [toNat_readLen]; exact Nat.min_le_right _ _
  obtain ⟨v, hv⟩ := memWriteN_setupBuf_ok (bs := s.pma.readAll (bufRx s.cfg 0) (readLen s 0 8).toNat) 0
    (by rw [Memory.length_readAll]; omega) s
  rw [hv] at e
  refine ⟨_, _, e, ?_⟩
  have h' : Ready { s with setupBuf := v } := h.of_fields rfl rfl (fun _ _ => rfl) rfl h.contPtr
  exact (eprSetStatRx_oneReg 0 .valid _).ready h'

theorem onWkup_runs {s : State} (h : Ready s) : Runs (onWkup s) :=
  hook_runsTo _ _ (h.of_fields rfl rfl (fun _ _ => rfl) rfl h.contPtr)

theorem onSusp_runs {s : State} (h : Ready s) : Runs (onSusp s) :=
  hook_runsTo _ _ (h.of_fields rfl rfl (fun _ _ => rfl) rfl h.contPtr)

theorem istrClear_ready (f : Word) {s : State} (h : Ready s) : Ready (istrClear f s) :=
  h.of_fields rfl rfl (fun _ _ => rfl) rfl h.contPtr

theorem resetBlock_ready {s : State} (h : Ready s) : Ready (resetBlock s) := by
  obtain ⟨e, he, -, -⟩ := resetBlock_cases s
  rw [he]
  exact h.of_fields rfl rfl (fun _ _ => rfl) rfl fun c hc => by simp at hc

theorem onReset_runs {s : State} (h : Ready s) : Runs (onReset s) :=
  (hook_runsTo _ _ (istrClear_ready istrReset h)).andThen fun _ ht =>
    hook_runsTo _ _ (resetBlock_ready ht)

theorem onSof_runs {s : State} (h : Ready s) : Runs (onSof s) := by
  unfold onSof sofScan
  split
  · exact .ok (istrClear_ready _ h)
  · exact Runs.bind (callback_runsTo _ ((istrClear_ready istrSof h).of_fields rfl rfl (fun _ _ => rfl) rfl h.contPtr))
      fun _ _ ht => .ok ht

theorem ep0Setup_runs {s : State} (h : Ready s) : Runs (ep0Setup s) :=
  Runs.bind (epRead_setup_runs ((eprClearCtrRx_oneReg 0 s).ready h)) fun n t ht => by
    simp only
    split
    · exact .ok (protocolReject_ready ht)
    · exact serveRequest_runs _ ht

theorem latchAddress_ready {s : State} (h : Ready s) : Ready (latchAddress s) := by
  unfold latchAddress
  split
  · exact h.of_fields rfl rfl (fun _ _ => rfl) rfl h.contPtr
  · exact h

theorem sendFragment_runs {p : Nat} {total : Word} {s : State} (h : Ready s) : Runs (sendFragment (.app p) total s) := by
  obtain ⟨t, ht, hc, -, hl⟩ := sendFragment_of_laid (total := total) h.laid (memReadN_app (min total.toNat 64) p s)
  exact ⟨t, ht, h.congr (sendFragment_frame ht).1 hl fun c e =>
    tailOf_app (p := p) (n := total.toNat) (by rw [← contAfter_app, ← hc]; exact e)⟩

theorem controlInResume_runs {c : Cont} {s : State} (hp : ∃ a, c.ptr = .app a) (h : Ready s) :
    Runs (controlInResume c s) := by
  obtain ⟨a, ha⟩ := hp
  unfold controlInResume
  rw [ha]
  exact sendFragment_runs h

theorem ep0InDone_runs {s : State} (h : Ready s) : Runs (ep0InDone s) := by
  have h' := latchAddress_ready ((eprClearCtrTx_oneReg 0 s).ready h)
  unfold ep0InDone
  simp only
  split
  · exact .ok h'
  · rename_i c hc
    exact controlInResume_runs (h'.contPtr c hc) h'

theorem epnOutDone_runs (i : Fin 8) {s : State} (h : Ready s) : Runs (epnOutDone i s) :=
  hook_runsTo _ _ ((eprClearCtrRx_oneReg i s).ready h)

theorem ep0Ctr_runs {s : State} (h : Ready s) : Runs (ep0Ctr s) := by
  refine Runs.andThen ?_ fun t ht => ?_
  · unfold ep0Reception
    split
    · split
      · exact ep0Setup_runs h
      · exact .ok ((eprClearCtrRx_oneReg 0 s).ready h)
    · exact .ok h
  · unfold ep0Transmission
    split
    · exact ep0InDone_runs ht
    · exact .ok ht

theorem epCtr_runs (i : Fin 8) {s : State} (h : Ready s) : Runs (epCtr i s) := by
  refine Runs.andThen ?_ fun t ht => .ok ?_
  · unfold epReception
    split
    · exact epnOutDone_runs i h
    · exact .ok h
  · unfold epTransmission
    split
    · exact (eprClearCtrTx_oneReg i t).ready ht
    · exact ht

theorem onCtr_runs (id : BitVec 4) {s : State} (h : Ready s) : Runs (onCtr id s) := by
  unfold onCtr
  split
  · exact .ok h
  · split
    · exact ep0Ctr_runs h
    · exact epCtr_runs _ h

theorem task_runs {s : State} (h : Ready s) : Runs (task s) := by
  unfold task
  simp only
  repeat' split
  · exact onWkup_runs h
  · exact onSusp_runs h
  · exact onReset_runs h
  · exact onSof_runs h
  · exact onCtr_runs _ h
  · exact .ok h

/-! ## The engine -/

theorem shake_ready (k : Handshake) {s : State} (h : Ready s) : Ready (shake k s) := emit_ready _ h

theorem setEpr_ready (i : Fin 8) (w : Word) {s : State} (h : Ready s) : Ready (setEpr i w s) :=
  h.of_fields rfl rfl (fun _ _ => rfl) rfl h.contPtr

theorem istrSet_ready (f : Word) {s : State} (h : Ready s) : Ready (istrSet f s) :=
  h.of_fields rfl rfl (fun _ _ => rfl) rfl h.contPtr

theorem storePacket_runs {i : Fin 8} {data : List Byte} (pad : Bool) {s : State} (h : Ready s)
    (hn : data.length ≤ sizeOut s.cfg i) : Runs (storePacket i data pad s) := by
  obtain ⟨t, ht, hl, -⟩ := storePacket_of_laid pad h.laid hn
  obtain ⟨hf, -⟩ := storePacket_frame ht
  obtain ⟨p, n, rfl⟩ : ∃ p n, t = { s with pma := p, freeCount := n } := ⟨_, _, hf⟩
  exact ⟨_, ht, hl, h.answers, h.contPtr⟩

/-- The capacity a laid-out count word declares is the size of the direction (40_pma_allocator.md R146). -/
theorem rxdec_rxenc (bias : Fin 2) (n : Nat) (h : rxSizeOk n = true) : rxdec bias (rxenc bias n) = n := by
  simp only [rxSizeOk, decide_eq_true_eq] at h
  have hn : n ≤ 992 := by omega
  revert h
  revert bias
  interval_cases n <;> decide

theorem rxdec_congr (bias : Fin 2) {c d : Word} (h : c &&& 0xFC00 = d &&& 0xFC00) : rxdec bias c = rxdec bias d := by
  have b : ∀ k, (0xFC00 : Word).getLsbD k = true → c.getLsbD k = d.getLsbD k := fun k hk =>
    (getLsbD_of_and h hk).trans (by rw [BitVec.getLsbD_and, hk, Bool.and_true])
  have e : c.extractLsb' 10 5 = d.extractLsb' 10 5 := extract_of_bits fun i hi => by
    rw [b (10 + i) (by interval_cases i <;> decide), BitVec.getLsbD_extractLsb']; simp [hi]
  unfold rxdec
  rw [b 15 (by decide), e]

theorem rxdec_of_laid {s : State} (h : Laid s) (i : Fin 8) :
    rxdec s.cfg.rxBlockBias (s.pma.word (8 * i.val + 6)) = sizeOut s.cfg i := by
  have hs := sizeOut_ok h.cfgOk i
  rw [rxdec_congr (d := rxenc s.cfg.rxBlockBias (sizeOut s.cfg i)) _
    ((h.declared i).trans (rxenc_fields _ _ hs).1.symm), rxdec_rxenc _ _ hs]

/-- `BUS SETUP` runs to its end: the register that serves endpoint 0 as Control is register 0. -/
theorem busSetup_runs (p : Packet) {s : State} (h : Ready s)
    (hc : ∀ i : Fin 8, Epr.epType s.cfg.layout.typeCodes s.epr[i] = .control → i = 0) : Runs (busSetup p s) := by
  unfold busSetup
  split
  · split
    · exact .ok (shake_ready _ h)
    · rename_i i hi
      split
      · exact .ok (shake_ready _ h)
      · rename_i hn
        have h0 : i = 0 := hc i (by by_contra e; exact hn (.inl e))
        subst h0
        exact (storePacket_runs false h (by rw [sizeOut_zero]; simp)).andThen fun t ht =>
          .ok (shake_ready _ (setEpr_ready _ _ ht))
  · exact .ok (shake_ready _ h)

theorem busOut_runs (e : BitVec 4) (data : List Byte) {s : State} (h : Ready s) : Runs (busOut e data s) := by
  unfold busOut
  split
  · split
    · exact .ok (shake_ready _ h)
    · rename_i i hi
      split
      · rw [bdtRead_of_laid h.laid i .countRx, ok_bind]
        split
        · exact .ok (shake_ready _ (istrSet_ready _ h))
        · rename_i hn
          rw [BdtWord.offset, rxdec_of_laid h.laid i] at hn
          exact (storePacket_runs true h (by omega)).andThen fun t ht => .ok (shake_ready _ (setEpr_ready _ _ ht))
      · exact .ok (shake_ready _ h)
      · exact .ok (shake_ready _ h)
      · exact .ok (shake_ready _ h)
  · exact .ok (shake_ready _ h)

/-- The count and place of an armed IN packet lie inside the PMA. -/
theorem inPacket_ok {s : State} (h : Laid s) (i : Fin 8) :
    pmaReadN (s.pma.word (8 * i.val)).toNat (countField (s.pma.word (8 * i.val + 2))) s =
      .ok (s.pma.readAll (bufTx s.cfg i) (s.pma.word (8 * i.val + 2)).toNat) := by
  have h1 := h.countTx i
  have h2 := sizeIn_even h.cfgOk i
  have h3 := bufTx_le h.cfgOk i
  have hc : countField (s.pma.word (8 * i.val + 2)) = (s.pma.word (8 * i.val + 2)).toNat := by
    simp only [countField, BitVec.extractLsb'_toNat, Nat.shiftRight_zero]
    exact Nat.mod_eq_of_lt (by omega)
  rw [hc, h.addrTx i, toNat_bufTx h.cfgOk i]
  exact pmaReadN_eq_ok.2 ⟨.inr (by omega), rfl⟩

theorem busIn_runs (e : BitVec 4) {s : State} (h : Ready s) : Runs (busIn e s) := by
  unfold busIn
  split
  · split
    · exact .ok (shake_ready _ h)
    · rename_i i hi
      split
      · rw [bdtRead_of_laid h.laid i .countTx, ok_bind, bdtRead_of_laid h.laid i .addrTx, ok_bind]
        simp only [BdtWord.offset, Nat.add_zero]
        rw [inPacket_ok h.laid i, ok_bind]
        exact .ok (setEpr_ready _ _ (emit_ready _ h))
      · exact .ok (shake_ready _ h)
      · exact .ok (shake_ready _ h)
      · exact .ok (shake_ready _ h)
  · exact .ok (shake_ready _ h)

/-- The whole of `BUS IN`, with the check of its line (46_usb_engine_agent.md R309). -/
theorem busInChecked_runs (e : BitVec 4) (expect : Option (List Byte)) {s : State} (h : Ready s) :
    Runs ((busIn e s).map (checkIn expect)) := by
  obtain ⟨u, hu, hr⟩ := busIn_runs e h
  rw [hu]
  exact ⟨_, rfl, hr.laid.congr rfl rfl fun _ _ => rfl, hr.answers, hr.contPtr⟩

theorem lift_runs {r : Except Fault State} (h : Runs r) : ∃ t, lift r = .next t ∧ Ready t := by
  obtain ⟨t, rfl, ht⟩ := h
  exact ⟨t, rfl, ht⟩

end Sys2Proof.Machine
end

