-- ==== Sys2Proof/Laws/Dispatch.lean ====
section
/-! SUPPORT. The bit patterns of the request rows against the fields of the dispatch rules (30_encoding.md R113,
43_control_engine.md R205, R208), and the request operations as whole rows. -/

namespace Sys2Proof.Machine

theorem typ_patterns (r : Request) :
    (r.bmRequestType &&& 0x60 = 0x20 ↔ r.typ = 1) ∧ (r.bmRequestType &&& 0x60 = 0x40 ↔ r.typ = 2) := by
  have : ∀ b : Byte, (b &&& 0x60 = 0x20 ↔ b.extractLsb' 5 2 = (1 : BitVec 2)) ∧
      (b &&& 0x60 = 0x40 ↔ b.extractLsb' 5 2 = (2 : BitVec 2)) := by decide
  exact this r.bmRequestType

theorem direction_patterns (r : Request) :
    (r.bmRequestType &&& 0x9F = 0x80 ↔ r.d2h = true ∧ r.recipient = 0) ∧
    (r.bmRequestType &&& 0x9F = 0x81 ↔ r.d2h = true ∧ r.recipient = 1) ∧
    (r.bmRequestType &&& 0x9F = 0x82 ↔ r.d2h = true ∧ r.recipient = 2) ∧
    (r.bmRequestType &&& 0x9F = 0x00 ↔ r.d2h = false ∧ r.recipient = 0) ∧
    (r.bmRequestType &&& 0x9F = 0x01 ↔ r.d2h = false ∧ r.recipient = 1) ∧
    (r.bmRequestType &&& 0x9F = 0x02 ↔ r.d2h = false ∧ r.recipient = 2) := by
  have : ∀ b : Byte,
      (b &&& 0x9F = 0x80 ↔ b.getLsbD 7 = true ∧ b.extractLsb' 0 5 = (0 : BitVec 5)) ∧
      (b &&& 0x9F = 0x81 ↔ b.getLsbD 7 = true ∧ b.extractLsb' 0 5 = (1 : BitVec 5)) ∧
      (b &&& 0x9F = 0x82 ↔ b.getLsbD 7 = true ∧ b.extractLsb' 0 5 = (2 : BitVec 5)) ∧
      (b &&& 0x9F = 0x00 ↔ b.getLsbD 7 = false ∧ b.extractLsb' 0 5 = (0 : BitVec 5)) ∧
      (b &&& 0x9F = 0x01 ↔ b.getLsbD 7 = false ∧ b.extractLsb' 0 5 = (1 : BitVec 5)) ∧
      (b &&& 0x9F = 0x02 ↔ b.getLsbD 7 = false ∧ b.extractLsb' 0 5 = (2 : BitVec 5)) := by decide
  exact this r.bmRequestType

/-- A request operation with its end is what `ep0_setup` does with it (43_control_engine.md R201). -/
theorem requestOutcome_eq (d : Bool) (r : Except Fault (Bool × State)) :
    requestOutcome d r = lift (r >>= fun q => finishRequest d q.1 q.2) := rfl

theorem serveRequest_eq (q : Request) (s : State) :
    lift (serveRequest q s) = requestOutcome q.d2h (dispatch q s) := rfl

theorem requestOutcome_reject (d : Bool) (s : State) : requestOutcome d (.ok (false, s)) = .next (protocolReject s) := rfl

theorem requestOutcome_ok (d b : Bool) (s : State) : requestOutcome d (.ok (b, s)) = lift (finishRequest d b s) := rfl

end Sys2Proof.Machine
end

