-- ==== Sys2Proof/Laws/PerInstr.lean ====
section
/-! SUPPORT. One lemma per instruction: the encoder writes an instruction's line for the port its row belongs to. -/

namespace Sys2Proof.Laws.EncodePort

/-- The line of an instruction is given on the port of its row, whatever the `LAYOUT`. -/
def Statement (i : Instr) : Prop := ∀ y : Layout, (encode y i).port = i.port

theorem init : Statement .init := fun _ => rfl
theorem task : Statement .task := fun _ => rfl
theorem epWrite (ept : Byte) (buf : AppRef) (len : Word) : Statement (.epWrite ept buf len) := fun _ => rfl
theorem epRead (ept : Byte) (buf : AppRef) (cap : Word) : Statement (.epRead ept buf cap) := fun _ => rfl
theorem controlIn (buf : AppRef) (buflen reqlen : Word) : Statement (.controlIn buf buflen reqlen) := fun _ => rfl
theorem controlInResume : Statement .controlInResume := fun _ => rfl
theorem serialStringDescriptor : Statement .serialStringDescriptor := fun _ => rfl
theorem eprSetStatTx (i : Fin 8) (st : Stat) : Statement (.eprSetStatTx i st) := fun _ => rfl
theorem eprSetStatRx (i : Fin 8) (st : Stat) : Statement (.eprSetStatRx i st) := fun _ => rfl
theorem eprSetStatTxDtog0 (i : Fin 8) (st : Stat) : Statement (.eprSetStatTxDtog0 i st) := fun _ => rfl
theorem eprSetStatRxDtog0 (i : Fin 8) (st : Stat) : Statement (.eprSetStatRxDtog0 i st) := fun _ => rfl
theorem eprSetStatBoth (i : Fin 8) (stx srx : Stat) (clearDtog : Bool) : Statement (.eprSetStatBoth i stx srx clearDtog) := fun _ => rfl
theorem eprClearCtrRx (i : Fin 8) : Statement (.eprClearCtrRx i) := fun _ => rfl
theorem eprClearCtrTx (i : Fin 8) : Statement (.eprClearCtrTx i) := fun _ => rfl
theorem eprSetTypeAddr (i : Fin 8) (t : EpType) (ea : BitVec 4) : Statement (.eprSetTypeAddr i t ea) := fun _ => rfl
theorem eprZero (i : Fin 8) : Statement (.eprZero i) := fun _ => rfl
theorem evtWkup : Statement .evtWkup := fun _ => rfl
theorem evtSusp : Statement .evtSusp := fun _ => rfl
theorem evtReset : Statement .evtReset := fun _ => rfl
theorem evtSof : Statement .evtSof := fun _ => rfl
theorem evtCtr (epId : BitVec 4) : Statement (.evtCtr epId) := fun _ => rfl
theorem evtNone : Statement .evtNone := fun _ => rfl
theorem ep0Setup : Statement .ep0Setup := fun _ => rfl
theorem ep0Out : Statement .ep0Out := fun _ => rfl
theorem ep0InDone : Statement .ep0InDone := fun _ => rfl
theorem epnOutDone (i : Fin 8) : Statement (.epnOutDone i) := fun _ => rfl
theorem epnInDone (i : Fin 8) : Statement (.epnInDone i) := fun _ => rfl
theorem busReset : Statement .busReset := fun _ => rfl
theorem busSof : Statement .busSof := fun _ => rfl
theorem busSuspend : Statement .busSuspend := fun _ => rfl
theorem busWakeup : Statement .busWakeup := fun _ => rfl
theorem busSetup (p : Packet) : Statement (.busSetup p) := fun _ => rfl
theorem busOut (e : BitVec 4) (data : List Byte) : Statement (.busOut e data) := fun _ => rfl
theorem busIn (e : InLine) : Statement (.busIn e) := fun _ => rfl
theorem classRequest (req : Request) : Statement (.classRequest req) := fun _ => rfl
theorem vendorRequest (req : Request) : Statement (.vendorRequest req) := fun _ => rfl
theorem getStatusDevice (wLength : Word) : Statement (.getStatusDevice wLength) := fun _ => rfl
theorem getStatusInterface (itf : Byte) (wLength : Word) : Statement (.getStatusInterface itf wLength) := fun _ => rfl
theorem getStatusEndpoint (n : BitVec 4) (d : Dir) (wLength : Word) : Statement (.getStatusEndpoint n d wLength) := fun _ => rfl
theorem clearFeatureEndpointHalt (n : BitVec 4) (d : Dir) : Statement (.clearFeatureEndpointHalt n d) := fun _ => rfl
theorem clearFeatureOther : Statement .clearFeatureOther := fun _ => rfl
theorem setFeatureEndpointHalt (n : BitVec 4) (d : Dir) : Statement (.setFeatureEndpointHalt n d) := fun _ => rfl
theorem setFeatureOther : Statement .setFeatureOther := fun _ => rfl
theorem setAddress (a : BitVec 7) : Statement (.setAddress a) := fun _ => rfl
theorem getDescriptorDevice (wLength : Word) : Statement (.getDescriptorDevice wLength) := fun _ => rfl
theorem getDescriptorConfiguration (wLength : Word) : Statement (.getDescriptorConfiguration wLength) := fun _ => rfl
theorem getDescriptorString (idx : Byte) (lang : Word) (wLength : Word) : Statement (.getDescriptorString idx lang wLength) := fun _ => rfl
theorem getDescriptorDeviceOther : Statement .getDescriptorDeviceOther := fun _ => rfl
theorem getDescriptorInterface (req : Request) : Statement (.getDescriptorInterface req) := fun _ => rfl
theorem setDescriptor : Statement .setDescriptor := fun _ => rfl
theorem getConfiguration (wLength : Word) : Statement (.getConfiguration wLength) := fun _ => rfl
theorem setConfiguration (v : Byte) : Statement (.setConfiguration v) := fun _ => rfl
theorem getInterface (itf : Byte) (wLength : Word) : Statement (.getInterface itf wLength) := fun _ => rfl
theorem setInterface (itf : Byte) (alt : Byte) : Statement (.setInterface itf alt) := fun _ => rfl
theorem synchFrame : Statement .synchFrame := fun _ => rfl
theorem unsupported : Statement .unsupported := fun _ => rfl

end Sys2Proof.Laws.EncodePort
end

