-- ==== Sys2Proof/Laws/Serve.lean ====
section
/-! SUPPORT. Which register serves a transaction (46_usb_engine_agent.md R306), what an IN transaction answers, and what
`task` does with a completed endpoint-0 transmission (45_event_loop.md R271, R284). -/

namespace Sys2Proof.Machine

/-- The first match of a rising list is the smallest match. -/
theorem find_rising {p : Fin 8 → Bool} {l : List (Fin 8)} (hl : l.Pairwise (· < ·)) {i : Fin 8} :
    l.find? p = some i ↔ i ∈ l ∧ p i = true ∧ ∀ j ∈ l, j < i → p j = false := by
  induction l with
  | nil => simp
  | cons k l ih =>
    obtain ⟨hk, hl⟩ := List.pairwise_cons.1 hl
    rw [List.find?_cons]
    cases h : p k with
    | true =>
      constructor
      · intro e
        simp only [Option.some.injEq] at e
        subst e
        refine ⟨List.mem_cons_self, h, fun j hj hlt => ?_⟩
        rcases List.mem_cons.1 hj with rfl | hj
        · exact absurd hlt (Nat.lt_irrefl _)
        · exact absurd (hk j hj) (Nat.lt_asymm hlt)
      · rintro ⟨hm, hp, hlow⟩
        rcases List.mem_cons.1 hm with rfl | hm
        · rfl
        · have := hlow k List.mem_cons_self (hk i hm)
          rw [h] at this; simp at this
    | false =>
      simp only [ih hl, List.mem_cons]
      constructor
      · rintro ⟨hm, hp, hlow⟩
        refine ⟨.inr hm, hp, fun j hj hlt => ?_⟩
        rcases hj with rfl | hj
        · exact h
        · exact hlow j hj hlt
      · rintro ⟨hm, hp, hlow⟩
        rcases hm with rfl | hm
        · rw [h] at hp; simp at hp
        · exact ⟨hm, hp, fun j hj hlt => hlow j (.inr hj) hlt⟩

theorem find_allRegs {p : Fin 8 → Bool} {i : Fin 8} :
    allRegs.find? p = some i ↔ p i = true ∧ ∀ j : Fin 8, j < i → p j = false := by
  rw [find_rising (by decide)]
  constructor
  · rintro ⟨-, h, g⟩; exact ⟨h, fun j => g j (mem_allRegs j)⟩
  · rintro ⟨h, g⟩; exact ⟨mem_allRegs i, h, fun j _ => g j⟩

theorem find_allRegs_none {p : Fin 8 → Bool} : allRegs.find? p = none ↔ ∀ j : Fin 8, p j = false := by
  rw [List.find?_eq_none]
  constructor
  · intro h j; simpa using h j (mem_allRegs j)
  · intro h j _; simp [h j]

/-- The register that serves a transaction (46_usb_engine_agent.md R306). -/
theorem servingReg_iff {e : BitVec 4} {d : Dir} {s : State} {i : Fin 8} : servingReg e d s = some i ↔ Serves s e d i := by
  unfold servingReg
  rw [find_allRegs]
  simp only [Bool.and_eq_true, decide_eq_true_eq, Bool.and_eq_false_iff, decide_eq_false_iff_not, not_not]
  constructor
  · rintro ⟨⟨h1, h2⟩, h3⟩
    exact ⟨h1, h2, fun j hj g => (h3 j hj).elim (fun n => n g.1) fun n => g.2 n⟩
  · rintro ⟨h1, h2, h3⟩
    refine ⟨⟨h1, h2⟩, fun j hj => ?_⟩
    by_cases hd : statOf d s.epr[j] = .disabled
    · exact .inr hd
    · exact .inl fun he => h3 j hj ⟨he, hd⟩

theorem servingReg_none {e : BitVec 4} {d : Dir} {s : State} :
    servingReg e d s = none ↔ ∀ i : Fin 8, ¬(Epr.ea s.epr[i] = e ∧ statOf d s.epr[i] ≠ .disabled) := by
  unfold servingReg
  rw [find_allRegs_none]
  refine forall_congr' fun i => ?_
  simp only [Bool.and_eq_false_iff, decide_eq_false_iff_not, not_not, not_and]
  constructor
  · intro h he; exact h.elim (fun n => absurd he n) id
  · intro h
    by_cases he : Epr.ea s.epr[i] = e
    · exact .inr (h he)
    · exact .inl he

/-- The lowest register with a completed transaction (10_state.md R49). -/
theorem pendingEp_iff {s : State} {i : Fin 8} :
    pendingEp s = some i ↔ ctrPending s.epr[i] = true ∧ ∀ j : Fin 8, j < i → ctrPending s.epr[j] = false := find_allRegs

/-- The flags `task` tests, as bits of the stored register (10_state.md R49). -/
theorem istrRead_flag {s : State} {m : Word} (hm : m &&& ~~~(0x7FF0 : Word) = 0) : istrRead s &&& m = s.istr &&& m := by
  have key : ∀ x : Word, x &&& 0x7FF0 = 0 → (s.istr &&& istrStored ||| x) &&& m = s.istr &&& m := by
    intro x hx
    apply BitVec.eq_of_getLsbD_eq
    intro k hk
    have h1 := congrArg (fun v => v.getLsbD k) hx
    have h2 := congrArg (fun v => v.getLsbD k) hm
    simp only [istrStored, BitVec.getLsbD_and, BitVec.getLsbD_or, BitVec.getLsbD_not, hk, decide_true, Bool.true_and,
      getLsbD_zero_word] at h1 h2 ⊢
    revert h1 h2
    cases x.getLsbD k <;> cases m.getLsbD k <;> cases (0x7FF0 : Word).getLsbD k <;> simp
  unfold istrRead
  split
  · rename_i i _
    rw [BitVec.or_assoc]
    exact key _ (by fin_cases i <;> decide)
  · exact key _ (by
      generalize s.epIdIdle = e
      revert e
      decide)

/-- `EP_ID` and `CTR` while a transaction is pending (10_state.md R49). -/
theorem istrRead_pending {s : State} {i : Fin 8} (h : pendingEp s = some i) :
    istrRead s &&& istrCtr ≠ 0 ∧ (istrRead s).extractLsb' 0 4 = BitVec.ofNat 4 i.val := by
  unfold istrRead
  rw [h]
  simp only
  have hb : ∀ k, k < 4 ∨ k = 15 → (s.istr &&& istrStored ||| istrCtr ||| BitVec.ofNat 16 i.val).getLsbD k =
      (istrCtr ||| BitVec.ofNat 16 i.val : Word).getLsbD k := by
    intro k hk
    simp only [istrStored, BitVec.getLsbD_or, BitVec.getLsbD_and]
    have : (0x7FF0 : Word).getLsbD k = false := by rcases hk with hk | rfl <;> [interval_cases k <;> decide; decide]
    rw [this]; simp
  constructor
  · intro e
    have := congrArg (fun v => v.getLsbD 15) e
    simp only [BitVec.getLsbD_and, hb 15 (.inr rfl)] at this
    fin_cases i <;> simp [istrCtr] at this
  · refine extract_of_bits fun k hk => ?_
    rw [hb _ (.inl (by omega))]
    fin_cases i <;> interval_cases k <;> rfl

theorem istrRead_idle {s : State} (h : pendingEp s = none) : istrRead s &&& istrCtr = 0 := by
  unfold istrRead
  rw [h]
  apply BitVec.eq_of_getLsbD_eq
  intro k hk
  by_cases h15 : k = 15
  · subst h15; simp [istrStored]
  · have : istrCtr.getLsbD k = false := by interval_cases k <;> first | rfl | exact absurd rfl h15
    simp [this]

/-- `task` with no event flag of the bus serves the lowest pending endpoint (45_event_loop.md R271). -/
theorem task_ctr {s : State} (hz : s.istr &&& 0x1E00 = 0) {i : Fin 8} (hp : pendingEp s = some i) :
    task s = onCtr (BitVec.ofNat 4 i.val) s := by
  have z : ∀ m : Word, m &&& ~~~(0x7FF0 : Word) = 0 → m &&& 0x1E00 = m → istrRead s &&& m = 0 := fun m h1 h2 => by
    rw [istrRead_flag h1, ← h2, BitVec.and_comm m, ← BitVec.and_assoc, hz]; simp
  obtain ⟨h1, h2⟩ := istrRead_pending hp
  unfold task
  simp only [z istrWkup (by decide) (by decide), z istrSusp (by decide) (by decide), z istrReset (by decide) (by decide),
    z istrSof (by decide) (by decide), ne_eq, not_true_eq_false, if_false, false_and, h1, not_false_eq_true, if_true, h2]

/-- An IN transaction that register `i` serves while it is armed (46_usb_engine_agent.md R309). -/
theorem busIn_valid {s : State} {e : BitVec 4} {i : Fin 8} (hl : Laid s) (ha : engineAnswers s = true)
    (hs : servingReg e .tx s = some i) (hv : Epr.statTx s.epr[i] = .valid) :
    busIn e s = .ok (setEpr i (afterIn s.epr[i]) (emit
      (.packet (Epr.dtogTx s.epr[i]) (s.pma.readAll (bufTx s.cfg i) (s.pma.word (8 * i.val + 2)).toNat)) s)) := by
  unfold busIn
  simp only [ha, hs, hv, if_true, bdtRead_of_laid hl i .countTx, bdtRead_of_laid hl i .addrTx, ok_bind, BdtWord.offset,
    Nat.add_zero, inPacket_ok hl i]

/-- `task` with only an endpoint-0 transmission to serve is the endpoint-0 IN completion (45_event_loop.md R284). -/
theorem task_ep0In {s : State} (hz : s.istr &&& 0x1E00 = 0) (hr : Epr.ctrRx s.epr[0] = false)
    (ht : Epr.ctrTx s.epr[0] = true) : task s = ep0InDone s := by
  have hp : pendingEp s = some 0 := pendingEp_iff.2 ⟨by simp [ctrPending, ht], fun j hj => absurd hj (by omega)⟩
  rw [task_ctr hz hp]
  have e0 : slotIndex (BitVec.ofNat 4 (0 : Fin 8).val) = some 0 := rfl
  simp only [onCtr, e0, if_true, ep0Ctr, ep0Reception, hr, Bool.false_eq_true, if_false, ok_bind, ep0Transmission, ht]

/-- A test of one bit, as the spec writes it with a mask. -/
theorem and_bit_ne_zero {w m : Word} {k : Nat} (hm : m = (1 : Word) <<< k) (hk : k < 16) :
    (w &&& m ≠ 0) = (w.getLsbD k = true) := by
  subst hm
  have hb : ((1 : Word) <<< k).getLsbD k = true := by interval_cases k <;> decide
  have hn : ∀ i, i ≠ k → ((1 : Word) <<< k).getLsbD i = false := fun i hi => by
    by_cases h : i < 16
    · interval_cases k <;> interval_cases i <;> first | decide | exact absurd rfl hi
    · exact BitVec.getLsbD_of_ge _ _ (by omega)
  apply propext
  constructor
  · intro h
    by_contra e
    refine h (BitVec.eq_of_getLsbD_eq fun i hi => ?_)
    by_cases hik : i = k
    · subst hik; rw [BitVec.getLsbD_and, Bool.eq_false_iff.2 e]; simp
    · rw [BitVec.getLsbD_and, hn i hik]; simp
  · intro h e
    have := congrArg (fun v => v.getLsbD k) e
    rw [BitVec.getLsbD_and, h, hb] at this
    simp at this

/-- A stored flag reads as stored (10_state.md R49). -/
theorem istrRead_bit (s : State) {k : Nat} (h4 : 4 ≤ k) (h15 : k < 15) : (istrRead s).getLsbD k = s.istr.getLsbD k := by
  have hm : ((1 : Word) <<< k) &&& ~~~(0x7FF0 : Word) = 0 := by interval_cases k <;> decide
  have := congrArg (fun v => v.getLsbD k) (istrRead_flag (s := s) hm)
  have hb : ((1 : Word) <<< k).getLsbD k = true := by interval_cases k <;> decide
  simp only [BitVec.getLsbD_and, hb, Bool.and_true] at this
  exact this

theorem engineReady_iff (s : State) : engineReady s = true ↔
    s.inited = true ∧ s.dppu = true ∧ s.cntr.getLsbD 1 = false ∧ s.cntr.getLsbD 0 = false := by
  unfold engineReady
  simp only [Bool.and_eq_true, decide_eq_true_eq, and_assoc]
  refine and_congr_right fun _ => and_congr_right fun _ => ?_
  constructor
  · intro h
    have b := fun k => congrArg (fun v => v.getLsbD k) h
    have b1 := b 1
    have b0 := b 0
    simp only [BitVec.getLsbD_and, getLsbD_zero_word] at b1 b0
    exact ⟨by simpa [cntrPdwn, cntrFres] using b1, by simpa [cntrPdwn, cntrFres] using b0⟩
  · rintro ⟨h1, h0⟩
    refine BitVec.eq_of_getLsbD_eq fun k hk => ?_
    rw [BitVec.getLsbD_and]
    interval_cases k <;> simp_all [cntrPdwn, cntrFres]

end Sys2Proof.Machine
end

