-- ==== Sys2Proof/Laws/Replies.lean ====
section
/-! SUPPORT. How a request row ends: rejected, replied, or with the status packet; and the endpoint operand it took. -/

namespace Sys2Proof.Machine

/-- A request that is not handled stalls endpoint 0 and changes nothing else (43_control_engine.md R212). -/
theorem request_fails {d : Bool} {r : Except Fault (Bool × State)} {s : State} (h : r = .ok (false, s)) :
    ∃ t, requestOutcome d r = .next t ∧ Stalled s t := ⟨_, by rw [h]; rfl, protocolReject_stalled s⟩

/-- A handled D→H request ends as its reply leaves it (43_control_engine.md R211). -/
theorem request_replies {r : Except Fault (Bool × State)} {P : State → Prop} (h : ∃ t, r = .ok (true, t) ∧ P t) :
    ∃ t, requestOutcome true r = .next t ∧ P t := by
  obtain ⟨t, rfl, h⟩ := h
  exact ⟨t, rfl, h⟩

/-- A handled H→D request ends with the status packet (43_control_engine.md R210). -/
theorem request_status {r : Except Fault (Bool × State)} {u : State} (h : r = .ok (true, u)) (hl : Laid u) :
    ∃ t, requestOutcome false r = .next t ∧ Armed 0 u t [] ∧ Laid t := by
  obtain ⟨t, h1, h2, h3⟩ := statusPacket hl
  refine ⟨t, ?_, h2, h3⟩
  rw [h, requestOutcome_ok, finishRequest, if_pos rfl, h1]; rfl

theorem epOperand_of_absent {c : Config} {n : BitVec 4} {d : Dir}
    (h : 8 ≤ n.toNat ∨ ∃ i : Fin 8, n = BitVec.ofNat 4 i.val ∧ dirSize c i d = 0) : epOperand c n d = none := by
  unfold epOperand
  rcases h with h | ⟨i, rfl, h⟩
  · rw [slotIndex_eq_none.2 h]
  · rw [slotIndex_ofNat]
    cases d <;> simp_all [dirSize, inPresent, outPresent]

theorem epOperand_of_present {c : Config} {i : Fin 8} {d : Dir} (h : dirSize c i d ≠ 0) :
    epOperand c (BitVec.ofNat 4 i.val) d = some i := epOperand_eq_some.2 ⟨slotIndex_ofNat i, h⟩

theorem halted_eq (s : State) (i : Fin 8) (d : Dir) : halted s i d = decide (statOf d s.epr[i] = .stall) := by
  cases d <;> rfl

theorem OneReg.laid {s t : State} {i : Fin 8} {m : Word} (o : OneReg s t i m) (h : Laid s) : Laid t := by
  obtain ⟨e, rfl⟩ : ∃ e, t = { s with epr := e } := ⟨_, o.frame⟩
  exact h.congr rfl rfl fun _ _ => rfl

/-- CLEAR_FEATURE (ENDPOINT_HALT) on a present direction of a non-control endpoint (44_standard_requests.md R236). -/
theorem clearFeature_ok {s : State} {i : Fin 8} {d : Dir} (hl : Laid s) (hd : s.devState = .configured) (hi : i ≠ 0)
    (hp : dirSize s.cfg i d ≠ 0) : clearFeatureEndpointHalt (BitVec.ofNat 4 i.val) d s =
      (true, match d with | .tx => eprSetStatTxDtog0 i .nak s | .rx => eprSetStatRxDtog0 i .valid s) := by
  have hc : isControl s.cfg i = false := by rw [← Bool.not_eq_true, isControl_iff hl.cfgOk]; exact hi
  unfold clearFeatureEndpointHalt
  rw [if_neg (by simp [hd]), epOperand_of_present hp]
  simp only [hc]
  cases d <;> rfl

/-- SET_FEATURE (ENDPOINT_HALT) on a present direction of a non-control endpoint (44_standard_requests.md R238). -/
theorem setFeature_ok {s : State} {i : Fin 8} {d : Dir} (hl : Laid s) (hd : s.devState = .configured) (hi : i ≠ 0)
    (hp : dirSize s.cfg i d ≠ 0) : setFeatureEndpointHalt (BitVec.ofNat 4 i.val) d s =
      (true, match d with | .tx => eprSetStatTx i .stall s | .rx => eprSetStatRx i .stall s) := by
  have hc : isControl s.cfg i = false := by rw [← Bool.not_eq_true, isControl_iff hl.cfgOk]; exact hi
  unfold setFeatureEndpointHalt
  rw [if_neg (by simp [hd]), epOperand_of_present hp]
  simp only [hc]
  cases d <;> rfl

/-- An armed packet leaves the layout standing. -/
theorem Armed.laid {s t : State} {bytes : List Byte} (h : Armed 0 s t bytes) (hl : Laid s)
    (hb : bytes.length ≤ 64) : Laid t := by
  obtain ⟨e, p, n, rfl⟩ : ∃ e p n, t = { s with epr := e, pma := p, freeCount := n } := ⟨_, _, _, h.frame⟩
  have he : bufTx s.cfg 0 = 64 := (bufTx_eq s.cfg).1
  have cnt : Memory.word p 2 = BitVec.ofNat 16 bytes.length := h.count
  have oth : ∀ a, a ≠ 2 → a ≠ 3 → a < 64 → Memory.read p a = s.pma.read a := fun a x y z =>
    h.otherPma a x y (.inl (by rw [he]; exact z))
  have wd : ∀ k, k ≠ 1 → k ≠ 2 → k ≠ 3 → k + 1 < 64 → Memory.word p k = s.pma.word k := fun k a b c d =>
    Memory.word_congr _ _ _ (oth k (by omega) (by omega) (by omega)) (oth (k + 1) (by omega) (by omega) (by omega))
  refine ⟨hl.cfgOk, hl.btable, fun j => ?_, fun j => ?_, fun j => ?_, fun j => ?_, fun j => ?_⟩
  · exact (wd _ (by omega) (by omega) (by omega) (by omega)).trans (hl.addrTx j)
  · by_cases hj : j = 0
    · subst hj
      show (Memory.word p 2).toNat ≤ 64
      rw [cnt, BitVec.toNat_ofNat, Nat.mod_eq_of_lt (by omega)]; exact hb
    · show (Memory.word p _).toNat ≤ _
      rw [wd _ (by omega) (by omega) (by omega) (by omega)]; exact hl.countTx j
  · exact (wd _ (by omega) (by omega) (by omega) (by omega)).trans (hl.addrRx j)
  · show Memory.word p _ &&& _ = _
    rw [wd _ (by omega) (by omega) (by omega) (by omega)]; exact hl.declared j
  · show countField (Memory.word p _) ≤ _
    rw [wd _ (by omega) (by omega) (by omega) (by omega)]; exact hl.countRx j

/-! ## Endpoint registers by their fields -/

theorem Stat.ofCode_inj {a b : BitVec 2} (h : Stat.ofCode a = Stat.ofCode b) : a = b := by
  revert a b; decide

/-- Two endpoint registers with the same fields are equal (30_encoding.md R101). -/
theorem Epr.ext_fields {l : Layout} (hl : l.ok = true) {x y : Word} (tx : Epr.statTx x = Epr.statTx y)
    (rx : Epr.statRx x = Epr.statRx y)
    (dt : Epr.dtogTx x = Epr.dtogTx y) (dr : Epr.dtogRx x = Epr.dtogRx y)
    (ty : Epr.epType l.typeCodes x = Epr.epType l.typeCodes y)
    (ea : Epr.ea x = Epr.ea y) (rest : x &&& 0x8980 = y &&& 0x8980) : x = y := by
  have bit : ∀ k, (0x8980 : Word).getLsbD k = true → x.getLsbD k = y.getLsbD k := fun k hk =>
    (getLsbD_of_and rest hk).trans (by rw [BitVec.getLsbD_and, hk, Bool.and_true])
  have two : ∀ {n : Nat} (p k : Nat), x.extractLsb' p n = y.extractLsb' p n → k < n → x.getLsbD (p + k) = y.getLsbD (p + k) :=
    fun {n} p k h hk => by simpa [hk] using congrArg (fun v => v.getLsbD k) h
  have t := fun k => two 4 k (Stat.ofCode_inj tx)
  have r := fun k => two 12 k (Stat.ofCode_inj rx)
  have c := fun k => two 9 k (EpType.ofCode_inj hl ty)
  have a := fun k => two 0 k ea
  refine word_ext fun i hi => ?_
  interval_cases i
  exacts [a 0 (by omega), a 1 (by omega), a 2 (by omega), a 3 (by omega), t 0 (by omega), t 1 (by omega), dt,
    bit 7 (by decide), bit 8 (by decide), c 0 (by omega), c 1 (by omega), bit 11 (by decide), r 0 (by omega),
    r 1 (by omega), dr, bit 15 (by decide)]

end Sys2Proof.Machine
end

