-- ==== Sys2Proof/Tests/Slice0.lean ====
section
/-! SUPPORT. Tests: ill-formed terms the checks refuse, words written out from the encodings of 30_encoding.md, one step
per instruction on the examples of the rules, and, for every statement of Certificates/Slice0/Obligations.lean with
hypotheses, a state and operands that meet them. -/

namespace Sys2Proof.Machine.Tests

/-! ## WellFormed refuses -/

theorem test_wf_refuses_wide_address : (Instr.controlIn (.app 0x100000000) 1 1).wf = false ∧
    (Instr.epWrite 1 (.app 0x100000000) 3).wf = false ∧ (Instr.epRead 1 (.app 0x100000000) 3).wf = false := by decide
theorem test_wf_refuses_iso : (Instr.eprSetTypeAddr 1 .iso 1).wf = false := by decide
theorem test_wf_refuses_epn_zero : (Instr.epnOutDone 0).wf = false ∧ (Instr.epnInDone 0).wf = false := by decide
theorem test_wf_refuses_class_kind : (Instr.classRequest ⟨0x40, 0, 0, 0, 0⟩).wf = false := by decide
theorem test_wf_refuses_vendor_kind : (Instr.vendorRequest ⟨0x20, 0, 0, 0, 0⟩).wf = false := by decide
theorem test_wf_refuses_interface_kind : (Instr.getDescriptorInterface ⟨0x80, 6, 0, 0, 0⟩).wf = false := by decide
theorem test_wf_refuses_interface_code : (Instr.getDescriptorInterface ⟨0x81, 7, 0, 0, 0⟩).wf = false := by decide

/-! ## Words written out from the encodings -/

/-- A request line of eight packet bytes (30_encoding.md R112). -/
def req (b : List Byte) : Line := ⟨.request, b⟩

-- 30_encoding.md R123: ordinals 0 to 6; endpoint, two lengths, tag and address bytes (log 6)
theorem test_decode_commands :
    decode .default ⟨.command, [0, 0, 0, 0, 0, 0, 0, 0, 0, 0, 0]⟩ = .ok .init ∧
    decode .default ⟨.command, [1, 0, 0, 0, 0, 0, 0, 0, 0, 0, 0]⟩ = .ok .task ∧
    decode .default ⟨.command, [2, 0x01, 0x08, 0x01, 0, 0, 1, 0x00, 0x10, 0x00, 0x20]⟩ =
      .ok (.epWrite 1 (.app 0x20001000) 0x108) ∧
    decode .default ⟨.command, [3, 0x0F, 0x40, 0x00, 0, 0, 0, 0, 0, 0, 0]⟩ = .ok (.epRead 15 .null 64) ∧
    decode .default ⟨.command, [4, 0, 0x12, 0x00, 0xFF, 0xFE, 1, 0x78, 0x56, 0x34, 0x12]⟩ =
      .ok (.controlIn (.app 0x12345678) 0x12 0xFEFF) ∧
    decode .default ⟨.internal, [5]⟩ = .ok .controlInResume ∧
    decode .default ⟨.command, [6, 0, 0, 0, 0, 0, 0, 0, 0, 0, 0]⟩ = .ok .serialStringDescriptor := by decide

-- the UOP rows of the opcode table bit by bit, on the words of the examples of 42_toggle_write.md R179 to R187:
-- 10000ttk10xxaaaa, 10yy0ttk1000aaaa, 10000ttk1dxxaaaa, 1eyy0ttk1000aaaa, 1eyy0ttk1dxxaaaa, 00000ttk1000aaaa,
-- 10000ttk0000aaaa, 10000tt01000aaaa, 0eyy00000dxx0000
theorem test_decode_driver_rows :
    decode .default ⟨.driver, [0b10110001, 0b10000110, 0, 1, 0]⟩ = .ok (.eprSetStatTx 1 .valid) ∧
    decode .default ⟨.driver, [0b10000010, 0b10110000, 1, 2, 0]⟩ = .ok (.eprSetStatRx 2 .valid) ∧
    decode .default ⟨.driver, [0b10100001, 0b10000110, 2, 1, 0]⟩ = .ok (.eprSetStatTxDtog0 1 .nak) ∧
    decode .default ⟨.driver, [0b10000010, 0b10110000, 3, 2, 0]⟩ = .ok (.eprSetStatRxDtog0 2 .valid) ∧
    decode .default ⟨.driver, [0b10100000, 0b10110010, 4, 0, 1]⟩ = .ok (.eprSetStatBoth 0 .nak .valid true) ∧
    decode .default ⟨.driver, [0b10010000, 0b10010010, 4, 0, 0]⟩ = .ok (.eprSetStatBoth 0 .stall .stall false) ∧
    decode .default ⟨.driver, [0b10000000, 0b00000010, 5, 0, 0]⟩ = .ok (.eprClearCtrRx 0) ∧
    decode .default ⟨.driver, [0b00000010, 0b10000000, 6, 2, 0]⟩ = .ok (.eprClearCtrTx 2) ∧
    decode .default ⟨.driver, [0b10000001, 0b10000110, 7, 1, 0]⟩ = .ok (.eprSetTypeAddr 1 .interrupt 1) ∧
    decode .default ⟨.driver, [0b00100000, 0b00110000, 8, 7, 0]⟩ = .ok (.eprZero 7) := by decide

-- ISTR: CTR 15, WKUP 12, SUSP 11, RESET 10, SOF 9, EP_ID 3:0 (30_encoding.md R105, R121)
theorem test_decode_events :
    decode .default ⟨.event, [0b00000000, 0b10011110]⟩ = .ok .evtWkup ∧
    decode .default ⟨.event, [0b00000011, 0b10001110]⟩ = .ok .evtSusp ∧
    decode .default ⟨.event, [0b00000000, 0b10000110]⟩ = .ok .evtReset ∧
    decode .default ⟨.event, [0b00000101, 0b10000010]⟩ = .ok .evtSof ∧
    decode .default ⟨.event, [0b00010101, 0b10000000]⟩ = .ok (.evtCtr 5) ∧
    decode .default ⟨.event, [0b00000101, 0b01100001]⟩ = .ok .evtNone := by decide

-- CTR_RX 15, SETUP 11, CTR_TX 7 (30_encoding.md R101, R122)
theorem test_decode_completions :
    decode .default ⟨.completion, [0b01100000, 0b11101010, 0]⟩ = .ok .ep0Setup ∧
    decode .default ⟨.completion, [0b10100000, 0b10100010, 0]⟩ = .ok .ep0Out ∧
    decode .default ⟨.completion, [0b10100000, 0b01100010, 0]⟩ = .ok .ep0InDone ∧
    decode .default ⟨.completion, [0b10000010, 0b11100000, 2]⟩ = .ok (.epnOutDone 2) ∧
    decode .default ⟨.completion, [0b11100001, 0b00000110, 1]⟩ = .ok (.epnInDone 1) := by decide

-- 30_encoding.md R123
theorem test_decode_bus :
    decode .default ⟨.bus, [0, 0]⟩ = .ok .busReset ∧ decode .default ⟨.bus, [1, 0]⟩ = .ok .busSof ∧
    decode .default ⟨.bus, [2, 0]⟩ = .ok .busSuspend ∧ decode .default ⟨.bus, [3, 0]⟩ = .ok .busWakeup ∧
    decode .default ⟨.bus, [4, 0, 0x80, 6, 0, 1, 0, 0, 0x40, 0]⟩ = .ok (.busSetup #v[0x80, 6, 0, 1, 0, 0, 0x40, 0]) ∧
    decode .default ⟨.bus, [5, 2, 0xA1, 0xA2, 0xA3]⟩ = .ok (.busOut 2 [0xA1, 0xA2, 0xA3]) ∧
    decode .default ⟨.bus, [6, 1]⟩ = .ok (.busIn ⟨1, none⟩) ∧
    decode .default ⟨.bus, [6, 1, 1, 0x11, 0x22]⟩ = .ok (.busIn ⟨1, some [0x11, 0x22]⟩) ∧
    decode .default ⟨.bus, [6, 1, 1]⟩ = .ok (.busIn ⟨1, some []⟩) := by decide

-- the SETUP packets of the examples of 44_standard_requests.md R231 to R254
theorem test_decode_requests_a :
    decode .default (req [0x21, 0x20, 0x34, 0x12, 1, 0, 7, 0]) = .ok (.classRequest ⟨0x21, 0x20, 0x1234, 1, 7⟩) ∧
    decode .default (req [0xC0, 0x06, 0, 1, 0, 0, 8, 0]) = .ok (.vendorRequest ⟨0xC0, 6, 0x100, 0, 8⟩) ∧
    decode .default (req [0x80, 0x00, 0, 0, 0, 0, 2, 0]) = .ok (.getStatusDevice 2) ∧
    decode .default (req [0x81, 0x00, 0, 0, 5, 0, 2, 0]) = .ok (.getStatusInterface 5 2) ∧
    decode .default (req [0x82, 0x00, 0, 0, 0x81, 0, 2, 0]) = .ok (.getStatusEndpoint 1 .tx 2) ∧
    decode .default (req [0x02, 0x01, 0, 0, 0x81, 0, 0, 0]) = .ok (.clearFeatureEndpointHalt 1 .tx) ∧
    decode .default (req [0x00, 0x01, 1, 0, 0, 0, 0, 0]) = .ok .clearFeatureOther ∧
    decode .default (req [0x02, 0x01, 1, 0, 0x81, 0, 0, 0]) = .ok .clearFeatureOther ∧
    decode .default (req [0x02, 0x03, 0, 0, 0x02, 0, 0, 0]) = .ok (.setFeatureEndpointHalt 2 .rx) ∧
    decode .default (req [0x00, 0x03, 1, 0, 0, 0, 0, 0]) = .ok .setFeatureOther ∧
    decode .default (req [0x00, 0x05, 0x42, 0, 0, 0, 0, 0]) = .ok (.setAddress 0x42) := by decide

theorem test_decode_requests_b :
    decode .default (req [0x80, 0x06, 0, 1, 0, 0, 0x40, 0]) = .ok (.getDescriptorDevice 64) ∧
    decode .default (req [0x80, 0x06, 0, 2, 0, 0, 0xFF, 0xFE]) = .ok (.getDescriptorConfiguration 0xFEFF) ∧
    decode .default (req [0x80, 0x06, 1, 3, 0x09, 0x04, 0xFF, 0]) = .ok (.getDescriptorString 1 0x0409 0xFF) ∧
    decode .default (req [0x80, 0x06, 0, 6, 0, 0, 0x0A, 0]) = .ok .getDescriptorDeviceOther ∧
    decode .default (req [0x81, 0x06, 0, 0x22, 1, 0, 0x40, 0]) = .ok (.getDescriptorInterface ⟨0x81, 6, 0x2200, 1, 64⟩) ∧
    decode .default (req [0x00, 0x07, 0, 1, 0, 0, 0x12, 0]) = .ok .setDescriptor ∧
    decode .default (req [0x80, 0x08, 0, 0, 0, 0, 1, 0]) = .ok (.getConfiguration 1) ∧
    decode .default (req [0x00, 0x09, 1, 0, 0, 0, 0, 0]) = .ok (.setConfiguration 1) ∧
    decode .default (req [0x81, 0x0A, 0, 0, 3, 0, 1, 0]) = .ok (.getInterface 3 1) ∧
    decode .default (req [0x01, 0x0B, 1, 0, 2, 0, 0, 0]) = .ok (.setInterface 2 1) ∧
    decode .default (req [0x82, 0x0C, 0, 0, 0x81, 0, 2, 0]) = .ok .synchFrame ∧
    decode .default (req [0x80, 0xFF, 0, 0, 0, 0, 0, 0]) = .ok .unsupported := by decide

-- refused by name: ordinals and operations past the last, bytes too many or too few, operands out of range
theorem test_decode_refuses :
    decode .default ⟨.command, [7, 0, 0, 0, 0, 0, 0, 0, 0, 0, 0]⟩ = .error .unknownOrdinal ∧
    decode .default ⟨.command, [0]⟩ = .error .wrongLength ∧
    decode .default ⟨.driver, [0x80, 0x80, 9, 0, 0]⟩ = .error .unknownOrdinal ∧
    decode .default ⟨.driver, [0x80, 0x80, 0, 8, 0]⟩ = .error .badRegister ∧
    decode .default ⟨.driver, [0x00, 0x80, 0, 0, 0]⟩ = .error .wrongPattern ∧
    decode .default ⟨.driver, [0x80, 0x84, 7, 0, 0]⟩ = .error .isoType ∧
    decode .default ⟨.completion, [0x60, 0xEA, 0x10]⟩ = .error .badRegister ∧
    decode .default ⟨.command, [5, 0, 0, 0, 0, 0, 0, 0, 0, 0, 0]⟩ = .error .unknownOrdinal ∧
    decode .default ⟨.internal, [1]⟩ = .error .unknownOrdinal ∧
    decode .default ⟨.internal, [5, 0]⟩ = .error .wrongLength ∧
    decode .default ⟨.bus, [7, 0]⟩ = .error .unknownOrdinal ∧ decode .default ⟨.bus, [6, 0x10]⟩ = .error .badEndpoint ∧
    decode .default ⟨.bus, [4, 0, 0x80, 6, 0, 1, 0, 0, 0x40]⟩ = .error .wrongLength ∧
    decode .default (req [0x80, 6, 0, 1, 0, 0, 0x40]) = .error .wrongLength := by decide

-- every endpoint byte is an operand (60_exceptions.md R353); bytes that are no operand are not read (log 6)
theorem test_decode_runs_odd_lines :
    decode .default ⟨.command, [2, 0x10, 1, 0, 0, 0, 0, 0, 0, 0, 0]⟩ = .ok (.epWrite 0x10 .null 1) ∧
    decode .default ⟨.command, [3, 0xFF, 0, 0, 1, 1, 0, 1, 1, 1, 1]⟩ = .ok (.epRead 0xFF .null 0) ∧
    decode .default ⟨.command, [0, 0, 1, 0, 0, 0, 0, 0, 0, 0, 0]⟩ = .ok .init ∧
    decode .default ⟨.driver, [0x8F, 0x80, 7, 1, 0]⟩ = .ok (.eprSetTypeAddr 1 .bulk 15) := by decide

-- "8..15: cannot occur; ignored", and a snapshot with neither flag (30_encoding.md R122)
theorem test_no_sub_event :
    decode .default ⟨.completion, [0x60, 0xEA, 8]⟩ = .error .noSubEvent ∧
    decode .default ⟨.completion, [0xE0, 0xEA, 15]⟩ = .error .noSubEvent ∧
    decode .default ⟨.completion, [0x21, 0x06, 1]⟩ = .error .noSubEvent ∧
    step { State.reset with script := [.line ⟨.completion, [0x60, 0xEA, 8]⟩] } = .next State.reset :=
  ⟨by decide, by decide, by decide, rfl⟩

-- the match values of spec/opcode_table.json (log 7)
theorem test_table_words :
    decodeTableWord 8 0 = some .init ∧ decodeTableWord 8 5 = some .controlInResume ∧
    decodeTableWord 8 6 = some .serialStringDescriptor ∧
    decodeTableWord 8 0x20 = some (.classRequest ⟨0x20, 0, 0, 0, 0⟩) ∧ decodeTableWord 8 0x80 = some .ep0InDone ∧
    decodeTableWord 16 0x8000 = some (.evtCtr 0) ∧ decodeTableWord 16 0x8800 = some .ep0Setup ∧
    decodeTableWord 16 0x8080 = some (.eprSetStatTx 0 .disabled) ∧ decodeTableWord 16 0x0500 = some (.setAddress 0) ∧
    decodeTableWord 32 0x01000680 = some (.getDescriptorDevice 0) := by decide

/-! ## A small device: the configuration of 40_pma_allocator.md R148 -/

/-- Endpoint 1 Interrupt IN 8, endpoint 2 Bulk OUT 64; the device descriptor at 0x100, the configuration at 0x200 with
its interface at 0x209, the language string at 0x800. -/
def cfgWith (c : Cap) : Config :=
  { State.reset.cfg with
    slots := #v[⟨.interrupt, 8, 0⟩, ⟨.bulk, 0, 64⟩, ⟨.bulk, 0, 0⟩, ⟨.bulk, 0, 0⟩, ⟨.bulk, 0, 0⟩, ⟨.bulk, 0, 0⟩, ⟨.bulk, 0, 0⟩]
    cap := c
    desc := ⟨some 0x100, some 0x200, [(0, 0x209)], [((0, 0), 0x800)]⟩ }

def noCap : Cap := ⟨false, false, false, false, false, false, false, false, false⟩
def allCap : Cap := ⟨true, true, true, true, true, true, true, true, true⟩

/-- Caller memory: the bytes of the descriptors that requests look at. -/
def callerMem : Memory :=
  [(0x100, 0x12), (0x101, 0x01), (0x200, 0x09), (0x201, 0x02), (0x202, 0x96), (0x205, 0x01), (0x207, 0xC0), (0x209, 0x09),
    (0x20A, 0x04), (0x800, 0x04), (0x801, 0x03), (0x802, 0x09), (0x803, 0x04), (0x900, 0x11), (0x901, 0x22), (0x902, 0x33)]

/-- Before `init`. -/
def cold (c : Cap) : State := { State.reset with cfg := cfgWith c, mem := callerMem }

/-- Words 3 to 7 of the descriptor table after `init`: all directions at the final watermark 264. -/
def tableRest : Memory :=
  [(24, 0x08), (25, 0x01), (28, 0x08), (29, 0x01), (32, 0x08), (33, 0x01), (36, 0x08), (37, 0x01), (40, 0x08), (41, 0x01),
    (44, 0x08), (45, 0x01), (48, 0x08), (49, 0x01), (52, 0x08), (53, 0x01), (56, 0x08), (57, 0x01), (60, 0x08), (61, 0x01)]

/-- The descriptor table of 40_pma_allocator.md R148 with the low bytes of `COUNT_RX` of endpoints 0 and 2 as given, and
the bytes after it. -/
def pmaWith (count0 count2 : Memory) (rest : Memory) : Memory :=
  [(0, 0x40), (4, 0x80)] ++ count0 ++ [(7, 0x88), (8, 0xC0), (12, 0xC8), (16, 0xC8), (20, 0xC8)] ++ count2 ++
    [(23, 0x88)] ++ tableRest ++ rest

/-- After `init`, a bus reset served and the address and configuration set (44_standard_requests.md R248). -/
def live (c : Cap) : State :=
  { cold c with
    btable := 0, pma := pmaWith [] [] [], cntr := 0x9C00, dppu := true, inited := true, daddr := 0xC2
    devState := .configured, epr := #v[0x3220, 0x0621, 0x3002, 0, 0, 0, 0, 0] }

/-- `live` with every callback present and one answer of the application: two moves and "handled". -/
def busy : State :=
  { live allCap with answers := [⟨[.store 0x900 [0x44], .epWrite 1 (.app 0x900) 3], true⟩] }

/-- `live` with nothing optional. -/
def bare : State := live noCap

/-- The state an instruction leaves; the state after reset where it stops. -/
def after (i : Instr) (s : State) : State :=
  match exec i s with
  | .next t => t
  | _ => State.reset

/-- A register of a state set to a value. -/
def withReg (i : Fin 8) (w : Word) (s : State) : State := { s with epr := s.epr.set i w }

/-! ## One step per instruction -/

-- 40_pma_allocator.md R142, R145: all of EP1..EP7 disabled: BDT[0] = (0x0040, 0, 0x0080, 0x8800)
theorem test_init_layout : (after .init State.reset).pma = [(0, 0x40), (4, 0x80), (7, 0x88), (8, 0xC0), (12, 0xC0),
    (16, 0xC0), (20, 0xC0), (24, 0xC0), (28, 0xC0), (32, 0xC0), (36, 0xC0), (40, 0xC0), (44, 0xC0), (48, 0xC0),
    (52, 0xC0), (56, 0xC0), (60, 0xC0)] := by decide
-- 40_pma_allocator.md R148
theorem test_init_scenario : (after .init (cold noCap)).pma = pmaWith [] [] [] := by decide
theorem test_init_masks : (after .init State.reset).cntr = 0x9C00 ∧ (after .init (cold allCap)).cntr = 0x9E00 := by decide
-- 45_event_loop.md R273: ISTR = 0x1800, CNTR = 0x9C04
theorem test_task_wakeup : (after .task { bare with istr := 0x1800, cntr := 0x9C04 }).istr = 0 ∧
    (after .task { bare with istr := 0x1800, cntr := 0x9C04 }).cntr = 0x9C00 := by decide
-- 41_endpoint_io.md R156
theorem test_ep_write : (after (.epWrite 1 (.app 0x900) 3) bare).pma.readAll 192 4 = [0x11, 0x22, 0x33, 0x00] ∧
    (after (.epWrite 1 (.app 0x900) 3) bare).pma.word 10 = 3 ∧ (after (.epWrite 1 (.app 0x900) 3) bare).epr[1] = 0x0631 ∧
    (after (.epWrite 1 (.app 0x900) 3) bare).out = [.wrote true] := by decide
theorem test_ep_write_false : after (.epWrite 1 (.app 0x900) 9) bare = { bare with out := [.wrote false] } ∧
    after (.epWrite 2 (.app 0x900) 0) bare = { bare with out := [.wrote false] } := by decide
/-- `bare` after the five bytes of 41_endpoint_io.md R160 were received on endpoint 2. -/
def received : State :=
  { bare with pma := pmaWith [] [(22, 0x05)] [(200, 0xA1), (201, 0xA2), (202, 0xA3), (203, 0xA4), (204, 0xA5)] }
-- 41_endpoint_io.md R160
theorem test_ep_read : (after (.epRead 2 (.app 0xA00) 64) (withReg 2 0x2002 received)).mem.readAll 0xA00 6 =
      [0xA1, 0xA2, 0xA3, 0xA4, 0xA5, 0x00] ∧
    (after (.epRead 2 (.app 0xA00) 64) (withReg 2 0x2002 received)).epr[2] = 0x3002 ∧
    (after (.epRead 2 (.app 0xA00) 64) (withReg 2 0x2002 received)).out = [.gotCount 5] := by decide
theorem test_ep_read_cap : (after (.epRead 2 (.app 0xA00) 3) received).mem.readAll 0xA00 4 = [0xA1, 0xA2, 0xA3, 0x00] ∧
    (after (.epRead 2 (.app 0xA00) 3) received).out = [.gotCount 3] := by decide
-- 41_endpoint_io.md R165: buflen = 150, reqlen = 0xFFFF
theorem test_control_in : (after (.controlIn (.app 0x200) 150 0xFFFF) bare).cont = some ⟨.app 0x240, 86⟩ ∧
    (after (.controlIn (.app 0x200) 150 0xFFFF) bare).pma.word 2 = 64 := by decide
-- 41_endpoint_io.md R168: cont = (p, 86)
theorem test_control_in_resume :
    (after .controlInResume { bare with cont := some ⟨.app 0x240, 86⟩ }).cont = some ⟨.app 0x280, 22⟩ := by decide
theorem test_control_in_resume_last : (after .controlInResume { bare with cont := some ⟨.app 0x280, 22⟩ }).cont = none ∧
    (after .controlInResume { bare with cont := some ⟨.app 0x280, 22⟩ }).pma.word 2 = 22 := by decide
-- 47_application_interface.md R343: cached after the first call
theorem test_serial_string_cached : (after .serialStringDescriptor { bare with serialCached := true }).mem = callerMem := by
  decide

-- the examples of 42_toggle_write.md R179 to R187
theorem test_epr_set_stat_tx : (after (.eprSetStatTx 0 .valid) (withReg 0 0xA220 bare)).epr[0] = 0xA230 ∧
    (after (.eprSetStatTx 0 .stall) (withReg 0 0x0621 bare)).epr[0] = 0x0611 := by decide
theorem test_epr_set_stat_rx : (after (.eprSetStatRx 2 .valid) (withReg 2 0x6002 bare)).epr[2] = 0x7002 ∧
    (after (.eprSetStatRx 0 .valid) (withReg 0 0x6A60 bare)).epr[0] = 0x7A60 := by decide
theorem test_epr_set_stat_tx_dtog0 : (after (.eprSetStatTxDtog0 1 .nak) (withReg 1 0x0651 bare)).epr[1] = 0x0621 := by decide
theorem test_epr_set_stat_rx_dtog0 : (after (.eprSetStatRxDtog0 2 .valid) (withReg 2 0x5002 bare)).epr[2] = 0x3002 := by
  decide
theorem test_epr_set_stat_both : (after (.eprSetStatBoth 0 .stall .stall false) (withReg 0 0x7260 bare)).epr[0] = 0x5250 ∧
    (after (.eprSetStatBoth 0 .nak .valid true) (withReg 0 0x0200 bare)).epr[0] = 0x3220 := by decide
theorem test_epr_clear_ctr_rx : (after (.eprClearCtrRx 0) (withReg 0 0xE2A0 bare)).epr[0] = 0x62A0 := by decide
theorem test_epr_clear_ctr_tx : (after (.eprClearCtrTx 0) (withReg 0 0xE2A0 bare)).epr[0] = 0xE220 := by decide
theorem test_epr_set_type_addr : (after (.eprSetTypeAddr 1 .interrupt 1) (withReg 1 0xB9BF bare)).epr[1] = 0xBEB1 := by
  decide
theorem test_epr_zero : (after (.eprZero 3) (withReg 3 0xFFFF bare)).epr[3] = 0x0800 := by decide

theorem test_evt_wkup : (after .evtWkup { bare with istr := 0x1E00, cntr := 0x9C04 }).istr = 0x0600 := by decide
-- 45_event_loop.md R274
theorem test_evt_susp : (after .evtSusp { bare with istr := 0x0800 }).cntr = 0x9C04 ∧
    (after .evtSusp { bare with istr := 0x0800 }).istr = 0 := by decide
-- 45_event_loop.md R276, scenario 6
theorem test_evt_reset : (after .evtReset { bare with istr := 0x0400, cont := some ⟨.app 0, 100⟩ }).epr =
      #v[0x3220, 0, 0, 0, 0, 0, 0, 0] ∧
    (after .evtReset { bare with istr := 0x0400, cont := some ⟨.app 0, 100⟩ }).cont = none := by decide
theorem test_evt_reset_address : (after .evtReset bare).daddr = 0x80 ∧ (after .evtReset bare).devState = .default := by
  decide
-- 45_event_loop.md R281
theorem test_evt_sof : (after .evtSof { busy with istr := 0x0200 }).out = [.called (.inCb 1), .wrote true] ∧
    (after .evtSof { busy with istr := 0x0200 }).sofCur = 2 := by decide
-- 45_event_loop.md R284: reception first, then transmission
theorem test_evt_ctr : (after (.evtCtr 0) (withReg 0 0xA2A0 bare)).epr[0] = 0x2220 := by decide
theorem test_evt_none : after .evtNone bare = bare := by decide
/-- `fresh` with SET_ADDRESS(0x42) in endpoint 0's OUT buffer. -/
def addressed : State :=
  { withReg 0 0xEA60 bare with
    devState := .default, daddr := 0x80, pma := pmaWith [(6, 0x08)] [] [(129, 0x05), (130, 0x42)] }
-- 43_control_engine.md R201, 44_standard_requests.md R240, scenario 2
theorem test_ep0_setup : (after .ep0Setup addressed).pendFlag = true ∧
    (after .ep0Setup addressed).pendAddr = 0x42 ∧
    (after .ep0Setup addressed).daddr = 0x80 ∧
    (after .ep0Setup addressed).epr[0] = 0x7A70 := by decide
-- 45_event_loop.md R285
theorem test_ep0_out : (after .ep0Out (withReg 0 0xA220 bare)).epr[0] = 0x2220 := by decide
-- 43_control_engine.md R216, scenario 2
theorem test_ep0_in_done : (after .ep0InDone { bare with pendFlag := true, pendAddr := 0x42, daddr := 0x80 }).daddr = 0xC2 ∧
    (after .ep0InDone { bare with pendFlag := true, pendAddr := 0x42, daddr := 0x80 }).devState = .address := by decide
-- 45_event_loop.md R287
theorem test_epn_out_done : (after (.epnOutDone 2) (withReg 2 0xE002 bare)).epr[2] = 0x6002 := by decide
theorem test_epn_out_done_callback : (after (.epnOutDone 2) (withReg 2 0xE002 busy)).out =
    [.called (.outCb 2), .wrote true] := by decide
theorem test_epn_in_done : (after (.epnInDone 1) (withReg 1 0x06E1 bare)).epr[1] = 0x0661 := by decide

-- 46_usb_engine_agent.md R302 to R309
theorem test_bus_reset : (after .busReset (withReg 1 0x86B1 bare)).epr[1] = 0x8080 ∧ (after .busReset bare).istr = 0x0400 := by
  decide +kernel
theorem test_bus_sof : (after .busSof { bare with istr := 0x1000 }).istr = 0x1200 := by decide
theorem test_bus_suspend : (after .busSuspend bare).istr = 0x0800 := by decide
theorem test_bus_wakeup : (after .busWakeup bare).istr = 0x1000 := by decide
theorem test_bus_setup : (after (.busSetup #v[0x80, 6, 0, 1, 0, 0, 0x40, 0]) bare).epr[0] = 0xEA60 ∧
    (after (.busSetup #v[0x80, 6, 0, 1, 0, 0, 0x40, 0]) bare).pma.word 6 = 0x8808 ∧
    (after (.busSetup #v[0x80, 6, 0, 1, 0, 0, 0x40, 0]) bare).pma.readAll 128 8 = [0x80, 6, 0, 1, 0, 0, 0x40, 0] := by decide
theorem test_bus_out : (after (.busOut 2 [0xA1, 0xA2, 0xA3, 0xA4, 0xA5]) bare).epr[2] = 0xE002 ∧
    (after (.busOut 2 [0xA1, 0xA2, 0xA3, 0xA4, 0xA5]) bare).pma.word 22 = 0x8805 := by decide
theorem test_bus_out_nak : after (.busOut 2 [1]) (withReg 2 0x6002 bare) =
    { withReg 2 0x6002 bare with out := [.handshake .nak] } := by decide
theorem test_bus_in : (after (.busIn ⟨1, none⟩) (after (.epWrite 1 (.app 0x900) 3) bare)).out =
      [.wrote true, .packet false [0x11, 0x22, 0x33]] ∧
    (after (.busIn ⟨1, none⟩) (after (.epWrite 1 (.app 0x900) 3) bare)).epr[1] = 0x06E1 := by decide
-- "states the bytes the host must receive; a model checks them" (R309; log 36)
theorem test_bus_in_checks : (after (.busIn ⟨1, some [0x11, 0x22, 0x33]⟩) (after (.epWrite 1 (.app 0x900) 3) bare)).out =
      [.wrote true, .packet false [0x11, 0x22, 0x33], .checked true] ∧
    (after (.busIn ⟨1, some [0x11, 0x22]⟩) (after (.epWrite 1 (.app 0x900) 3) bare)).out =
      [.wrote true, .packet false [0x11, 0x22, 0x33], .checked false] ∧
    (after (.busIn ⟨1, some []⟩) bare).out = [.handshake .nak, .checked false] := by decide

theorem test_class_request : (after (.classRequest ⟨0x21, 0x20, 0, 0, 7⟩) busy).out =
    [.called (.classRequest ⟨0x21, 0x20, 0, 0, 7⟩), .wrote true] ∧
    Epr.statTx (after (.classRequest ⟨0x21, 0x20, 0, 0, 7⟩) busy).epr[0] = .valid := by decide
theorem test_vendor_request_absent : (after (.vendorRequest ⟨0xC0, 1, 0, 0, 0⟩) bare).epr[0] = 0x1210 := by decide
/-- The reply armed on endpoint 0. -/
def reply (s : State) : List Byte := s.pma.readAll 64 (s.pma.word 2).toNat
-- 44_standard_requests.md R231 to R254
theorem test_get_status_device : reply (after (.getStatusDevice 2) bare) = [0x01, 0x00] := by decide
theorem test_get_status_interface : reply (after (.getStatusInterface 0 2) bare) = [0x00, 0x00] ∧
    (after (.getStatusInterface 5 2) bare).epr[0] = 0x1210 := by decide
theorem test_get_status_endpoint : reply (after (.getStatusEndpoint 1 .tx 2) (withReg 1 0x0611 bare)) = [0x01, 0x00] ∧
    reply (after (.getStatusEndpoint 1 .tx 2) bare) = [0x00, 0x00] := by decide
theorem test_clear_feature_halt : (after (.clearFeatureEndpointHalt 1 .tx) (withReg 1 0x0651 bare)).epr[1] = 0x0621 ∧
    reply (after (.clearFeatureEndpointHalt 1 .tx) (withReg 1 0x0651 bare)) = [] := by decide
theorem test_clear_feature_other : (after .clearFeatureOther (withReg 0 0x7260 bare)).epr[0] = 0x5250 := by decide
theorem test_set_feature_halt : (after (.setFeatureEndpointHalt 1 .tx) bare).epr[1] = 0x0611 := by decide
theorem test_set_feature_other : (after .setFeatureOther (withReg 0 0x7260 bare)).epr[0] = 0x5250 := by decide
theorem test_set_address : (after (.setAddress 0x42) { bare with devState := .default, daddr := 0x80 }).pendAddr = 0x42 ∧
    (after (.setAddress 0x42) { bare with devState := .default, daddr := 0x80 }).daddr = 0x80 := by decide
theorem test_get_descriptor_device : (after (.getDescriptorDevice 64) bare).pma.word 2 = 18 ∧
    reply (after (.getDescriptorDevice 2) bare) = [0x12, 0x01] := by decide
theorem test_get_descriptor_configuration :
    (after (.getDescriptorConfiguration 0xFFFF) bare).cont = some ⟨.app 0x240, 86⟩ ∧
    (after (.getDescriptorConfiguration 9) bare).pma.word 2 = 9 := by decide
theorem test_get_descriptor_string : reply (after (.getDescriptorString 0 0 0xFF) bare) = [0x04, 0x03, 0x09, 0x04] := by
  decide
theorem test_get_descriptor_device_other : (after .getDescriptorDeviceOther (withReg 0 0x7260 bare)).epr[0] = 0x5250 := by
  decide
theorem test_get_descriptor_interface : (after (.getDescriptorInterface ⟨0x81, 6, 0x2200, 0, 64⟩) busy).out =
    [.called (.getDescriptorInterface ⟨0x81, 6, 0x2200, 0, 64⟩), .wrote true] := by decide
theorem test_set_descriptor : (after .setDescriptor (withReg 0 0x7260 bare)).epr[0] = 0x5250 := by decide
theorem test_get_configuration : reply (after (.getConfiguration 1) bare) = [0x01] ∧
    reply (after (.getConfiguration 1) { bare with devState := .address }) = [0x00] := by decide
theorem test_set_configuration : (after (.setConfiguration 1)
    { bare with devState := .address, epr := #v[0x3220, 0, 0, 0, 0, 0, 0, 0] }).epr =
      #v[0x3230, 0x0621, 0x3002, 0, 0, 0, 0, 0] := by decide
theorem test_set_configuration_other : (after (.setConfiguration 2) bare).epr[0] = 0x1210 := by decide
theorem test_get_interface : reply (after (.getInterface 0 1) bare) = [0x00] := by decide
theorem test_set_interface : reply (after (.setInterface 0 0) bare) = [] ∧
    (after (.setInterface 0 1) bare).epr[0] = 0x1210 := by decide
theorem test_synch_frame : (after .synchFrame (withReg 0 0x7260 bare)).epr[0] = 0x5250 := by decide
theorem test_unsupported : (after .unsupported (withReg 0 0x7260 bare)).epr[0] = 0x5250 := by decide

/-! ## Another layout (00_scope.md R10) -/

/-- The fields in the other order and other codes: `EPnR` is EA 15:12, STAT_TX 11:10, DTOG_TX 9, CTR_TX 8, EP_KIND 7,
EP_TYPE 6:5, SETUP 4, STAT_RX 3:2, DTOG_RX 1, CTR_RX 0. -/
def mirror : Layout where
  epr := ⟨0, 1, 2, 4, 5, 7, 8, 9, 10, 12⟩
  istr := ⟨0, 1, 2, 3, 4, 5, 6, 7, 11, 12⟩
  cntr := ⟨0, 1, 2, 3, 4, 5, 6, 7, 11, 12, 13, 14, 15⟩
  daddr := ⟨0, 1⟩
  count := ⟨15, 10, 0⟩
  dppu := 0
  statCodes := ⟨3, 1, 2⟩
  typeCodes := ⟨3, 2, 1, 0⟩

theorem test_layout_ok : mirror.ok = true ∧ Layout.default.ok = true ∧
    ({ mirror with dppu := 16 } : Layout).ok = false ∧ ({ mirror with statCodes := ⟨3, 3, 2⟩ } : Layout).ok = false ∧
    ({ mirror with count := ⟨0, 10, 1⟩ } : Layout).ok = false ∧
    ({ mirror with epr := ⟨0, 1, 2, 3, 5, 7, 8, 9, 10, 12⟩ } : Layout).ok = false := by decide

-- CTR_RX 0, CTR_TX 8, STAT_TX 11:10 VALID = 2; WKUP 3; CTR 0, EP_ID 15:12; CTR_RX 0, SETUP 4; EP_TYPE 6:5 interrupt = 0
theorem test_layout_decode :
    decode mirror ⟨.driver, [0x01, 0x09, 0, 1, 0]⟩ = .ok (.eprSetStatTx 1 .valid) ∧
    decode mirror ⟨.driver, [0x01, 0x71, 7, 7, 0]⟩ = .ok (.eprSetTypeAddr 7 .interrupt 7) ∧
    decode mirror ⟨.event, [0x08, 0x00]⟩ = .ok .evtWkup ∧ decode mirror ⟨.event, [0x01, 0x50]⟩ = .ok (.evtCtr 5) ∧
    decode mirror ⟨.completion, [0x11, 0x00, 0]⟩ = .ok .ep0Setup := by decide

/-- `bare` in that layout: endpoint 0's register has Control's code 2. -/
def mirrored : State := withReg 0 0x3420 { bare with cfg := { bare.cfg with layout := mirror } }

-- Control 2 << 5, RX VALID 2 << 2, TX NAK 1 << 10; the masks CTRM, WKUPM, SUSPM, RESETM; EF and 0x42 << 1
theorem test_layout_words : eprWord 0 mirrored = 0x0448 ∧ cntrWord mirrored = 0x0039 ∧ daddrWord mirrored = 0x85 ∧
    dppuWord mirrored = 0x0001 ∧ istrWord (after .busSof mirrored) = 0x0040 ∧
    eprWord 0 (after (.eprSetStatTx 0 .stall) mirrored) = 0x0C48 := by decide

-- the opcode table's word of a row runs that row in any layout
theorem test_layout_table_word : fetch mirror (tableLineIn mirror 16 0x8080) = .ok (.eprSetStatTx 0 .disabled) ∧
    fetch mirror (tableLineIn mirror 16 0x8000) = .ok (.evtCtr 0) := by decide

/-! ## The hypotheses of the statements can be met -/

theorem laid_bare : Laid bare := ⟨by decide, rfl, by decide, by decide, by decide, by decide, by decide⟩

/-- The layout does not depend on the other fields. -/
theorem laid_same {s t : State} (h : Laid s) (hc : t.cfg = s.cfg) (hb : t.btable = s.btable) (hp : t.pma = s.pma) :
    Laid t := h.congr hc hb fun a _ => by rw [hp]

theorem laid_busy : Laid busy := ⟨by decide, rfl, by decide, by decide, by decide, by decide, by decide⟩

theorem laid_received : Laid received :=
  ⟨by decide, rfl, by decide, by decide, by decide, by decide, by decide⟩

theorem ready_of {s : State} (h : Laid s) (ha : (s.answers.all fun a => a.acts.all AppAct.safe) = true)
    (hc : s.cont = none) : Ready s where
  laid := h
  answers a h1 m h2 := by
    rw [List.all_eq_true] at ha
    exact List.all_eq_true.1 (ha a h1) m h2
  contPtr c h1 := by rw [hc] at h1; cases h1

theorem ready_bare : Ready bare := ready_of laid_bare (by decide) rfl

theorem ready_busy : Ready busy := ready_of laid_busy (by decide) rfl

/-- `bare` in `Default`, not yet addressed. -/
def fresh : State := { bare with devState := .default, daddr := 0x80 }

theorem ready_fresh : Ready fresh := ready_of (laid_same laid_bare rfl rfl rfl) (by decide) rfl

/-- `bare` without descriptors. -/
def mute : State := { bare with cfg := { bare.cfg with desc := ⟨none, none, [], []⟩ } }

theorem laid_mute : Laid mute := ⟨by decide, rfl, by decide, by decide, by decide, by decide, by decide⟩

theorem witness_RegisterWriteActsBitByBit : bare.cfg.layout.ok = true ∧ mirrored.cfg.layout.ok = true := by decide

theorem witness_TypeAddressAndZeroRows : bare.cfg.layout.ok = true ∧ mirrored.cfg.layout.ok = true := by decide

theorem witness_UpdateSetsTheSelectedFields :
    (0x7070 : Word) &&& ~~~(0x7070 : Word) = 0 ∧ (0x5010 : Word) &&& ~~~(0x7070 : Word) = 0 := by decide

theorem witness_CompletionFlagsSurviveDriverWrites :
    (ctrTargets (.eprZero 7) = some (7, true, true) ∧ exec (.eprZero 7) bare = .next (eprZero 7 bare)) ∧
    (ctrTargets (.eprClearCtrRx 0) = some (0, true, false) ∧
      exec (.eprClearCtrRx 0) bare = .next (eprClearCtrRx 0 bare)) ∧
    (ctrTargets (.eprSetStatTx 1 .valid) = some (1, false, false) ∧
      exec (.eprSetStatTx 1 .valid) bare = .next (eprSetStatTx 1 .valid bare)) := ⟨⟨rfl, rfl⟩, ⟨rfl, rfl⟩, rfl, rfl⟩

theorem witness_InitLaysOutTheTable : (cold allCap).inited = false ∧ configOk (cold allCap).cfg = true := by decide

theorem witness_InitBringsUpTheBlock : (cold noCap).inited = false ∧ configOk (cold noCap).cfg = true := by decide

theorem witness_ReceiveSizeCodeRoundTrips :
    (62 ≤ 62 ∧ 62 % 2 = 0) ∧ (62 < 64 ∧ 64 % 32 = 0 ∧ 64 ≤ 992) ∧ (62 < 992 ∧ 992 % 32 = 0 ∧ 992 ≤ 992) := by decide

theorem witness_EnabledBuffersAreDisjoint : Laid bare ∧ ((1 : Fin 8), Dir.tx) ≠ (2, Dir.rx) ∧
    dirSize bare.cfg 1 .tx ≠ 0 ∧ dirSize bare.cfg 2 .rx ≠ 0 ∧ ((0 : Fin 8), Dir.tx) ≠ (0, Dir.rx) ∧
    dirSize bare.cfg 0 .tx ≠ 0 ∧ dirSize bare.cfg 0 .rx ≠ 0 := ⟨laid_bare, by decide⟩

theorem witness_StopsOfTheModel : bare.inited = true ∧ bare.cont = none ∧ (cold noCap).inited = false ∧
    configOk { (cold noCap).cfg with pmaBytes := 191 } = false ∧
    (Laid bare ∧ 0 < (8 : Word).toNat ∧ (8 : Word).toNat ≤ sizeIn bare.cfg 1) ∧
    (Laid received ∧ received.inited = true ∧
      0 < min (countField (received.pma.word (8 * (2 : Fin 8).val + 6))) (1 : Word).toNat) :=
  ⟨rfl, rfl, rfl, by decide, ⟨laid_bare, by decide⟩, laid_received, by decide⟩

theorem witness_EpWriteArmsThePacket : bare.inited = true ∧ Laid bare ∧ sizeIn bare.cfg 1 ≠ 0 ∧
    (8 : Word).toNat ≤ sizeIn bare.cfg 1 ∧ (0 : Word).toNat ≤ sizeIn bare.cfg 1 := ⟨rfl, laid_bare, by decide⟩

theorem witness_DirectionMismatchChangesNothing : bare.inited = true ∧ (8 ≤ (8 : Byte).toNat ∧ 8 ≤ (0xFF : Byte).toNat) ∧
    sizeIn bare.cfg 2 = 0 ∧ sizeOut bare.cfg 1 = 0 ∧
    (bdtRead 1 .addrTx bare = .ok 192 ∧ sizeIn bare.cfg 1 < (9 : Word).toNat) ∧
    bdtRead 1 .addrTx { cold noCap with inited := true } = .ok 0 := ⟨rfl, by decide, by decide, by decide, by decide, by decide⟩

theorem witness_EpReadDeliversTheBytes : received.inited = true ∧ Laid received ∧ sizeOut received.cfg 2 ≠ 0 :=
  ⟨rfl, laid_received, by decide⟩

theorem witness_ControlInSendsTheFirstFragment : bare.inited = true ∧ Laid bare ∧
    min (0 : Word).toNat (0xFFFF : Word).toNat = 0 := ⟨rfl, laid_bare, by decide⟩

/-- `bare` with 86 bytes of a reply to come. -/
def replying : State := { bare with cont := some ⟨.app 0x240, 86⟩ }

theorem laid_replying : Laid replying := laid_same laid_bare rfl rfl rfl

theorem witness_ResumeSendsTheNextFragment : replying.inited = true ∧ Laid replying ∧
    replying.cont = some ⟨.app 0x240, 86⟩ := ⟨rfl, laid_replying, rfl⟩

theorem witness_ReplyReachesTheHostWhole : Laid bare ∧ engineAnswers bare = true ∧ bare.istr &&& 0x1E00 = 0 ∧
    Epr.ea bare.epr[0] = 0 ∧ Epr.ctrRx bare.epr[0] = false := ⟨laid_bare, by decide⟩

theorem witness_SerialStringIsMaterialisedOnce : (bare.inited = true ∧ bare.serialCached = false) ∧
    ({ bare with serialCached := true } : State).inited = true := by decide

theorem witness_UnsupportedPacketsAreRejected :
    ∀ p ∈ ([#v[0, 0x07, 0, 0, 0, 0, 0, 0], #v[0x82, 0x0C, 0, 0, 0x81, 0, 2, 0], #v[0, 0x02, 0, 0, 0, 0, 0, 0],
        #v[0x60, 0x04, 0, 0, 0, 0, 0, 0], #v[0, 0x0D, 0, 0, 0, 0, 0, 0], #v[0x80, 0xFF, 0, 0, 0, 0, 0, 0],
        #v[0x80, 0x06, 0, 0, 0, 0, 0, 0], #v[0x80, 0x06, 0, 4, 0, 0, 0, 0]] : List Packet),
      (parse p).typ ≠ 1 ∧ (parse p).typ ≠ 2 ∧
      ((parse p).bRequest = 0x07 ∨ (parse p).bRequest = 0x0C ∨ (parse p).bRequest = 0x02 ∨ (parse p).bRequest = 0x04 ∨
        0x0D ≤ (parse p).bRequest.toNat ∨
        ((parse p).bRequest = 0x06 ∧ (parse p).d2h = true ∧ (parse p).recipient = 0 ∧ hiByte (parse p).wValue ≠ 1 ∧
          hiByte (parse p).wValue ≠ 2 ∧ hiByte (parse p).wValue ≠ 3)) := by
  intro p hp
  fin_cases hp <;> decide

theorem witness_RejectRowsStallEndpointZero : Instr.unsupported = .clearFeatureOther ∨ Instr.unsupported = .unsupported := by
  decide

theorem witness_GetStatusReplies : Laid bare ∧ Laid mute ∧ Laid fresh ∧ fresh.devState ≠ .configured ∧
    (mute.devState = .configured ∧ mute.cfg.desc.config = none) ∧
    (bare.devState = .configured ∧ bare.cfg.desc.config = some 0x200) ∧ interfaceDescriptor bare.cfg 5 = none ∧
    interfaceDescriptor bare.cfg 0 = some 0x209 ∧ 8 ≤ (8 : BitVec 4).toNat ∧ dirSize bare.cfg 1 .rx = 0 ∧
    dirSize bare.cfg 1 .tx ≠ 0 ∧ dirSize bare.cfg 0 .rx ≠ 0 := ⟨laid_bare, laid_mute, ready_fresh.laid, by decide⟩

theorem witness_EndpointHaltRequests : Laid bare ∧ Laid fresh ∧ fresh.devState ≠ .configured ∧
    8 ≤ (15 : BitVec 4).toNat ∧ (2 : BitVec 4) = BitVec.ofNat 4 (2 : Fin 8).val ∧ dirSize bare.cfg 2 .tx = 0 ∧
    bare.devState = .configured ∧ (1 : Fin 8) ≠ 0 ∧ dirSize bare.cfg 1 .tx ≠ 0 ∧ dirSize bare.cfg 2 .rx ≠ 0 :=
  ⟨laid_bare, ready_fresh.laid, by decide⟩

theorem witness_EndpointHaltIsReportedAndCleared : Laid bare ∧ bare.devState = .configured ∧ (2 : Fin 8) ≠ 0 ∧
    dirSize bare.cfg 2 .rx ≠ 0 ∧ dirSize bare.cfg 1 .tx ≠ 0 := ⟨laid_bare, by decide⟩

theorem witness_SetAddressLatches : Ready fresh ∧ fresh.devState = .default ∧ Ready bare ∧
    (bare.devState = .configured ∧ bare.cfg.setAddressInConfigured = .reject) ∧
    ¬(fresh.devState = .default ∧ (0x7F : BitVec 7) = 0) ∧
    ¬(fresh.devState = .configured ∧ fresh.cfg.setAddressInConfigured = .reject) := ⟨ready_fresh, rfl, ready_bare, by decide⟩

theorem witness_InCompletionLatchesTheAddress : Laid bare ∧ bare.cont = none ∧ Laid replying ∧
    replying.cont = some ⟨.app 0x240, 86⟩ ∧ (∀ c, replying.cont = some c → ∃ p, c.ptr = .app p) :=
  ⟨laid_bare, rfl, laid_replying, rfl, fun c h => by cases h; exact ⟨_, rfl⟩⟩

theorem witness_AddressTakesEffectAfterTheStatusStage : Ready fresh ∧ engineAnswers fresh = true ∧
    Epr.ea fresh.epr[0] = 0 ∧ ¬(fresh.devState = .default ∧ (0x42 : BitVec 7) = 0) ∧
    ¬(fresh.devState = .configured ∧ fresh.cfg.setAddressInConfigured = .reject) := ⟨ready_fresh, by decide⟩

theorem witness_DescriptorsAreReplied : Laid bare ∧ bare.cfg.desc.device = some 0x100 ∧
    bare.cfg.desc.config = some 0x200 ∧ Laid mute ∧ mute.cfg.desc.device = none ∧ mute.cfg.desc.config = none :=
  ⟨laid_bare, rfl, rfl, laid_mute, rfl, rfl⟩

theorem witness_StringDescriptorsAreReplied : Laid bare ∧ stringDescriptor bare.cfg 0 0 = some 0x800 ∧
    stringDescriptor bare.cfg 0x0409 0 = none := ⟨laid_bare, by decide⟩

theorem witness_ConfigurationAndInterfaceAreReported : Laid bare ∧ Laid fresh ∧ Laid mute ∧
    fresh.devState ≠ .configured ∧ (mute.devState = .configured ∧ mute.cfg.desc.config = none) ∧
    (bare.devState = .configured ∧ bare.cfg.desc.config = some 0x200) ∧ interfaceDescriptor bare.cfg 1 = none ∧
    interfaceDescriptor bare.cfg 0 = some 0x209 := ⟨laid_bare, ready_fresh.laid, laid_mute, by decide⟩

theorem witness_SetConfigurationProgramsTheEndpoints : Laid fresh ∧ fresh.devState = .default ∧
    (Laid mute ∧ (1 : Byte) ≠ 0 ∧ mute.cfg.desc.config = none) ∧
    (Laid bare ∧ bare.devState ≠ .default ∧ bare.cfg.desc.config = some 0x200 ∧
      (2 : Byte) ≠ bare.mem.read (0x200 + 5) ∧ (1 : Byte) = bare.mem.read (0x200 + 5)) :=
  ⟨ready_fresh.laid, rfl, ⟨laid_mute, by decide, rfl⟩, laid_bare, by decide⟩

theorem witness_SettingTheConfigurationTwiceIsIdempotent : Laid bare ∧ bare.devState ≠ .default ∧ (1 : Byte) ≠ 0 ∧
    bare.cfg.desc.config = some 0x200 ∧ (1 : Byte) = bare.mem.read (0x200 + 5) := ⟨laid_bare, by decide⟩

theorem witness_SetInterfaceAcceptsTheOneSetting : Laid bare ∧ interfaceDescriptor bare.cfg 1 = none ∧
    interfaceDescriptor bare.cfg 0 = some 0x209 ∧ (1 : Byte) ≠ bare.mem.read (0x209 + 3) ∧
    (0 : Byte) = bare.mem.read (0x209 + 3) := ⟨laid_bare, by decide⟩

theorem witness_DelegatedRequestsEndAsTheApplicationSays : Ready busy ∧ busy.cfg.cap.classRequest = true ∧ Ready bare ∧
    bare.cfg.cap.classRequest = false ∧ Ready (live allCap) ∧ (live allCap).answers = [] :=
  ⟨ready_busy, rfl, ready_bare, rfl, ready_of (laid_same laid_busy rfl rfl rfl) (by decide) rfl, rfl⟩

theorem laid_addressed : Laid addressed :=
  ⟨by decide, rfl, by decide, by decide, by decide, by decide, by decide⟩

theorem witness_SetupRunsTheDecodedRequest : Ready addressed ∧
    8 ≤ countField (addressed.pma.word 6) ∧ Ready bare ∧ countField (bare.pma.word 6) < 8 :=
  ⟨ready_of laid_addressed (by decide) rfl, by decide, ready_bare, by decide⟩

theorem witness_FewRowsChangeTheDeviceState :
    exec .evtNone bare = .next bare ∧
    (exec (.eprZero 1) bare = .next (eprZero 1 bare)) ∧
    (exec .ep0InDone { fresh with pendFlag := true, pendAddr := 0x42 } =
        .next (latchAddress (eprClearCtrTx 0 { fresh with pendFlag := true, pendAddr := 0x42 })) ∧
      (latchAddress (eprClearCtrTx 0 { fresh with pendFlag := true, pendAddr := 0x42 })).daddr ≠ fresh.daddr) :=
  ⟨rfl, rfl, rfl, by decide⟩

theorem witness_TaskServesTheHighestEvent : bare.inited = true ∧
    (0x1000 : Word).getLsbD 12 = true ∧ ((0x0800 : Word).getLsbD 12 = false ∧ (0x0800 : Word).getLsbD 11 = true) ∧
    ((0x0400 : Word).getLsbD 12 = false ∧ (0x0400 : Word).getLsbD 11 = false ∧ (0x0400 : Word).getLsbD 10 = true) ∧
    ((0x0200 : Word).getLsbD 10 = false ∧ (0x0200 : Word).getLsbD 9 = true ∧ busy.cfg.cap.inCb = true) ∧
    ¬((0x0200 : Word).getLsbD 9 = true ∧ bare.cfg.cap.inCb = true) ∧
    pendingEp (withReg 7 0x0080 bare) = some 7 ∧ pendingEp bare = none := by decide

theorem witness_IstrReportsTheLowestPendingEndpoint :
    ((Epr.ctrRx (withReg 7 0x0080 bare).epr[7] || Epr.ctrTx (withReg 7 0x0080 bare).epr[7]) = true ∧
      ∀ j : Fin 8, j < 7 →
        (Epr.ctrRx (withReg 7 0x0080 bare).epr[j] || Epr.ctrTx (withReg 7 0x0080 bare).epr[j]) = false) ∧
    ∀ i : Fin 8, (Epr.ctrRx bare.epr[i] || Epr.ctrTx bare.epr[i]) = false := by decide

theorem witness_WakeupAndSuspendHandlers : Ready bare ∧ bare.cfg.cap.resumeHook = false ∧ Ready busy ∧
    busy.cfg.cap.resumeHook = true := ⟨ready_bare, rfl, ready_busy, rfl⟩

theorem witness_BusResetHandler : Ready bare ∧ bare.cfg.cap.resetHook = false ∧ Ready busy ∧
    busy.cfg.cap.resetHook = true := ⟨ready_bare, rfl, ready_busy, rfl⟩

/-- `busy` with every register zeroed: no endpoint is eligible at a start of frame. -/
def zeroed : State := { busy with epr := #v[0, 0, 0, 0, 0, 0, 0, 0] }

theorem witness_SofOffersTheNextIdleEndpoint : bare.cfg.cap.inCb = false ∧ busy.cfg.cap.inCb = true ∧
    (∀ k < 7, sofEligible zeroed (sofCandidate zeroed.sofCur k) = false) ∧
    (Ready busy ∧ sofEligible busy (sofCandidate busy.sofCur 0) = true) ∧
    (Ready { busy with sofCur := 2 } ∧ sofEligible busy (sofCandidate 2 6) = true ∧
      ∀ j < 6, sofEligible busy (sofCandidate 2 j) = false) :=
  ⟨rfl, rfl, by decide, ⟨ready_busy, by decide⟩, ready_of (laid_same laid_busy rfl rfl rfl) (by decide) rfl, by decide, by decide⟩

theorem witness_CompletionsAreServedReceptionFirst : (7 : Fin 8) ≠ 0 ∧ 8 ≤ (8 : BitVec 4).toNat := by decide

theorem witness_CompletionRowsClearTheirFlag : (1 : Fin 8) ≠ 0 ∧ Ready busy ∧ busy.cfg.cap.outCb = true :=
  ⟨by decide, ready_busy, rfl⟩

theorem witness_HandlersRunToTheEnd : Ready busy ∧ busy.inited = true ∧ Instr.evtSof.port = .event ∧
    Instr.ep0Setup.port = .completion ∧ (Instr.setAddress 1).port = .request := ⟨ready_busy, rfl, rfl, rfl, rfl⟩

theorem witness_BusEventsSetOneFlag : engineReady bare = true ∧ engineReady (cold noCap) = false ∧
    engineReady { bare with cntr := 0x9C02 } = false := by decide

theorem witness_BusResetClearsTheRegisters : engineReady bare = true := by decide

theorem not_served {s : State} {e : BitVec 4} {d : Dir}
    (h : ∀ i : Fin 8, ¬(Epr.ea s.epr[i] = e ∧ statOf d s.epr[i] ≠ .disabled)) : ∀ i : Fin 8, ¬Serves s e d i :=
  fun i g => h i ⟨g.ea, g.enabled⟩

theorem serves_setup : Serves bare 0 .rx 0 := ⟨by decide, by decide, by decide⟩

theorem witness_BusSetupDeliversThePacket :
    (Laid bare ∧ engineAnswers bare = true ∧ Serves bare 0 .rx 0 ∧
      Epr.epType bare.cfg.layout.typeCodes bare.epr[0] = .control ∧
      Epr.ctrRx bare.epr[0] = false ∧ 8 ≤ sizeOut bare.cfg 0) ∧
    (engineAnswers (withReg 0 0xB220 bare) = true ∧ Serves (withReg 0 0xB220 bare) 0 .rx 0 ∧
      Epr.ctrRx (withReg 0 0xB220 bare).epr[0] = true) ∧
    (Serves (withReg 0 0x3020 bare) 0 .rx 0 ∧
      Epr.epType bare.cfg.layout.typeCodes (withReg 0 0x3020 bare).epr[0] ≠ .control) ∧
    engineAnswers { bare with daddr := 0x42 } = false ∧
    ∀ i : Fin 8, ¬Serves (withReg 0 0 bare) 0 .rx i :=
  ⟨⟨laid_bare, by decide, serves_setup, by decide⟩, ⟨by decide, ⟨by decide, by decide, by decide⟩, by decide⟩,
    ⟨⟨by decide, by decide, by decide⟩, by decide⟩, by decide, not_served (by decide)⟩

theorem witness_BusOutDeliversThePacket :
    (engineAnswers bare = true ∧ Serves bare 2 .rx 2 ∧ Epr.statRx bare.epr[2] = .valid ∧ Laid bare ∧
      (List.replicate 64 (0 : Byte)).length ≤ sizeOut bare.cfg 2 ∧
      sizeOut bare.cfg 2 < (List.replicate 65 (0 : Byte)).length) ∧
    (Serves (withReg 2 0x2002 bare) 2 .rx 2 ∧ Epr.statRx (withReg 2 0x2002 bare).epr[2] = .nak) ∧
    (Serves (withReg 2 0x1002 bare) 2 .rx 2 ∧ Epr.statRx (withReg 2 0x1002 bare).epr[2] = .stall) ∧
    engineAnswers fresh = true ∧ engineAnswers { bare with daddr := 0x42 } = false ∧ ∀ i : Fin 8, ¬Serves bare 1 .rx i :=
  ⟨⟨by decide, ⟨by decide, by decide, by decide⟩, by decide, laid_bare, by decide, by decide⟩,
    ⟨⟨by decide, by decide, by decide⟩, by decide⟩, ⟨⟨by decide, by decide, by decide⟩, by decide⟩, by decide, by decide,
    not_served (by decide)⟩

theorem witness_BusInTakesThePacket :
    (engineAnswers (withReg 1 0x0631 bare) = true ∧ Serves (withReg 1 0x0631 bare) 1 .tx 1 ∧
      Epr.statTx (withReg 1 0x0631 bare).epr[1] = .valid ∧ Laid (withReg 1 0x0631 bare)) ∧
    (Serves bare 1 .tx 1 ∧ Epr.statTx bare.epr[1] = .nak) ∧
    (Serves (withReg 1 0x0611 bare) 1 .tx 1 ∧ Epr.statTx (withReg 1 0x0611 bare).epr[1] = .stall) ∧
    engineAnswers { bare with daddr := 0x42 } = false ∧ ∀ i : Fin 8, ¬Serves bare 2 .tx i :=
  ⟨⟨by decide, ⟨by decide, by decide, by decide⟩, by decide, laid_same laid_bare rfl rfl rfl⟩,
    ⟨⟨by decide, by decide, by decide⟩, by decide⟩, ⟨⟨by decide, by decide, by decide⟩, by decide⟩, by decide,
    not_served (by decide)⟩

theorem witness_StepRunsTheDecodedInstruction :
    ({ bare with script := [.line (encode .default .busSof)] } : State).script = .line (encode .default .busSof) :: [] ∧
    decode bare.cfg.layout (encode .default .busSof) = .ok .busSof ∧
    decode .default ⟨.bus, [7, 0]⟩ = .error .unknownOrdinal ∧ DecodeError.unknownOrdinal ≠ .noSubEvent ∧
    (8 : Byte).toNat < 16 ∧ (8 ≤ (8 : Byte).toNat ∧ 8 ≤ (15 : Byte).toNat ∧ (15 : Byte).toNat < 16) ∧
    (Epr.ctrRx (Layout.default.eprIn (le16 0x21 0x06)) = false ∧
      Epr.ctrTx (Layout.default.eprIn (le16 0x21 0x06)) = false) ∧
    ({ bare with script := [.appStore 0x900 [1]] } : State).script = .appStore 0x900 [1] :: [] ∧
    ({ bare with script := [.busError .err] } : State).script = .busError .err :: [] ∧ engineReady bare = true ∧
    bare.script = [] := by decide

theorem witness_EncodedInstructionsDecodeBack : Layout.default.ok = true ∧ mirror.ok = true ∧
    (Instr.busOut 15 [0xFF]).wf = true ∧ (Instr.busIn ⟨15, some [0xFF]⟩).wf = true ∧
    (Instr.controlIn (.app 0xFFFFFFFF) 0xFFFF 0xFFFF).wf = true ∧ (Instr.eprSetTypeAddr 7 .interrupt 15).wf = true := by decide

theorem witness_DecodedLinesAreWellFormed : decode .default ⟨.event, [0, 0x10]⟩ = .ok .evtWkup := by decide

/-- A state before `init` whose next input is `init`. -/
def starting : State := { cold allCap with script := [.line (encode .default .init)] }

theorem coreInv_starting : CoreInv starting :=
  ⟨by decide, by decide, by decide, (fun c h => by cases h), by decide, by decide⟩

theorem step_starting : ∃ t, step starting = .next t ∧ t.inited = true :=
  ⟨_, exec_init_ok (s := takeInput [] starting) rfl (by decide), rfl⟩

theorem witness_EveryStepKeepsTheCoreInvariant : ∃ t, CoreInv starting ∧ step starting = .next t := by
  obtain ⟨t, h, -⟩ := step_starting
  exact ⟨t, coreInv_starting, h⟩

theorem deviceInv_starting : DeviceInv starting where
  core := coreInv_starting
  laid h := by cases h
  zeroType := by decide
  control := by decide
  ea := by decide
  absentTx := by decide
  absentRx := by decide
  contPtr c h := by cases h
  script := by decide
  answers := by decide

theorem witness_EveryStepKeepsTheDeviceInvariant : ∃ t, DeviceInv starting ∧ step starting = .next t := by
  obtain ⟨t, h, -⟩ := step_starting
  exact ⟨t, deviceInv_starting, h⟩

theorem witness_EveryStepKeepsTheDeviceInvariant_live :
    DeviceInv { busy with script := [.line (encode .default .task)] } where
  core := ⟨by decide, by decide, by decide, (fun c h => by cases h), by decide, by decide⟩
  laid _ := laid_same laid_busy rfl rfl rfl
  zeroType := by decide
  control := by decide
  ea := by decide
  absentTx := by decide
  absentRx := by decide
  contPtr c h := by cases h
  script := by decide
  answers := by decide

theorem witness_OnlyInitConfiguresTheBlock : (∃ t, step starting = .next t ∧ starting.inited = false ∧ t.inited = true) ∧
    step bare = .next (idle bare) ∧ bare.inited = true ∧ step (cold noCap) = .next (idle (cold noCap)) ∧
    (idle (cold noCap)).inited = false := by
  obtain ⟨t, h, h'⟩ := step_starting
  exact ⟨⟨t, h, rfl, h'⟩, rfl, rfl, rfl, rfl⟩

end Sys2Proof.Machine.Tests
end

/-! The round trip of the encodings (30_encoding.md): decoding what the encoder writes gives the instruction back. One
lemma per port, since a line is decoded by the port it is given on; before each, what the decoder reads of the fields
that port's lines carry. -/

namespace Sys2Proof.Machine

/-! ## Command and bus lines -/

/-- A command line of a carried reference is read as its ordinal says, each operand at its value (log 6). -/
theorem decode_command {p : AppRef} (hp : p.wf = true) (y : Layout) (ord ept : Byte) (x w : Word) :
    decode y (encodeCommand ord ept x w p) =
      if ord = 0 then .ok .init
      else if ord = 1 then .ok .task
      else if ord = 2 then .ok (.epWrite ept p x)
      else if ord = 3 then .ok (.epRead ept p x)
      else if ord = 4 then .ok (.controlIn p x w)
      else if ord = 6 then .ok .serialStringDescriptor
      else .error .unknownOrdinal := by
  obtain ⟨t, a0, a1, a2, a3, he, hd⟩ := decodePtr_encode p hp
  simp only [decode, encodeCommand, he, List.cons_append, List.nil_append, decodeCommand, hd, le16_loByte_hiByte]

theorem decode_encode_command {y : Layout} {i : Instr} (hp : i.port = .command) (hw : i.wf = true) :
    decode y (encode y i) = .ok i := by
  cases i with
  | init | task | serialStringDescriptor => rfl
  | epWrite _ _ _ | epRead _ _ _ | controlIn _ _ _ => exact decode_command hw ..
  | _ => cases hp

theorem decode_encode_internal {y : Layout} {i : Instr} (hp : i.port = .internal) :
    decode y (encode y i) = .ok i := by
  cases i with
  | controlInResume => rfl
  | _ => cases hp

/-- An OUT line is its endpoint and its data (46_usb_engine_agent.md R308). -/
theorem decode_busOut (y : Layout) (e : BitVec 4) (data : List Byte) :
    decode y (encodeBus 5 e data) = .ok (.busOut e data) := by
  show (decodeEndpoint (e.setWidth 8)).map _ = _
  rw [decodeEndpoint_setWidth]; rfl

/-- An IN line is its endpoint and, behind one more byte, the bytes it states (46_usb_engine_agent.md R309, log 36). -/
theorem decode_busIn (y : Layout) (e : BitVec 4) (data : List Byte) :
    decode y (encodeBus 6 e data) =
      .ok (.busIn ⟨e, match data with | [] => none | _ :: expect => some expect⟩) := by
  show (decodeEndpoint (e.setWidth 8)).map _ = _
  rw [decodeEndpoint_setWidth]; rfl

/-- A SETUP line is its eight bytes (30_encoding.md R112). -/
theorem decode_busSetup (y : Layout) (p : Packet) : decode y (encodeBus 4 0 p.toList) = .ok (.busSetup p) := by
  obtain ⟨⟨l⟩, hl⟩ := p
  match l, hl with
  | [_, _, _, _, _, _, _, _], _ => rfl

theorem decode_encode_bus {y : Layout} {i : Instr} (hp : i.port = .bus) : decode y (encode y i) = .ok i := by
  cases i with
  | busReset | busSof | busSuspend | busWakeup => rfl
  | busSetup p => exact decode_busSetup y p
  | busOut e data => exact decode_busOut y e data
  | busIn e =>
    obtain ⟨e, expect⟩ := e
    cases expect <;> exact decode_busIn y e _
  | _ => cases hp

/-! ## Driver lines -/

/-- A word of one `STAT_TX` target fits both rows that write one, and shows that target (42_toggle_write.md R179,
R181). -/
theorem inTx_word (s : Stat) : DriverOp.setStatTx.fits (0x8080 ||| s.inTx) = true ∧
    DriverOp.setStatTxDtog0.fits (0x8080 ||| s.inTx) = true ∧
    Stat.ofCode ((0x8080 ||| s.inTx).extractLsb' 4 2) = s := by
  cases s <;> decide

/-- The same of one `STAT_RX` target (42_toggle_write.md R180, R182). -/
theorem inRx_word (s : Stat) : DriverOp.setStatRx.fits (0x8080 ||| s.inRx) = true ∧
    DriverOp.setStatRxDtog0.fits (0x8080 ||| s.inRx) = true ∧
    Stat.ofCode ((0x8080 ||| s.inRx).extractLsb' 12 2) = s := by
  cases s <;> decide

/-- A word of both `STAT` targets shows each of them (42_toggle_write.md R183). -/
theorem inBoth_word (stx srx : Stat) : DriverOp.setStatBoth.fits (0x8080 ||| stx.inTx ||| srx.inRx) = true ∧
    Stat.ofCode ((0x8080 ||| stx.inTx ||| srx.inRx).extractLsb' 4 2) = stx ∧
    Stat.ofCode ((0x8080 ||| stx.inTx ||| srx.inRx).extractLsb' 12 2) = srx := by
  cases stx <;> cases srx <;> decide

/-- A word of a type code and an address shows both (42_toggle_write.md R186). -/
theorem typeAddr_word (c : BitVec 2) (ea : BitVec 4) :
    DriverOp.setTypeAddr.fits (0x8080 ||| (c.setWidth 16 <<< 9) ||| ea.setWidth 16) = true ∧
    (0x8080 ||| (c.setWidth 16 <<< 9) ||| ea.setWidth 16 : Word).extractLsb' 9 2 = c ∧
    Epr.ea (0x8080 ||| (c.setWidth 16 <<< 9) ||| ea.setWidth 16) = ea := by
  revert c ea; decide

/-- A row with a type the block writes reads back, in the layout's own type codes (30_encoding.md R103). -/
theorem decode_typeAddr {y : Layout} (h : y.ok = true) (i : Fin 8) {t : EpType} (ht : t ≠ .iso) (ea : BitVec 4) :
    decode y (encode y (.eprSetTypeAddr i t ea)) = .ok (.eprSetTypeAddr i t ea) := by
  obtain ⟨hf, hc, ha⟩ := typeAddr_word (t.code y.typeCodes) ea
  refine (decode_driver h rfl _ i false hf nofun).trans ?_
  simp only [decodeDriverWord, ha, Epr.epType, hc, EpType.ofCode_code h, ht, if_false]

theorem decode_encode_driver {y : Layout} {i : Instr} (h : y.ok = true) (hp : i.port = .driver) (hw : i.wf = true) :
    decode y (encode y i) = .ok i := by
  cases i with
  | eprSetStatTx i s =>
    obtain ⟨hf, -, hs⟩ := inTx_word s
    exact (decode_driver h rfl _ i false hf nofun).trans (by rw [decodeDriverWord, hs])
  | eprSetStatRx i s =>
    obtain ⟨hf, -, hs⟩ := inRx_word s
    exact (decode_driver h rfl _ i false hf nofun).trans (by rw [decodeDriverWord, hs])
  | eprSetStatTxDtog0 i s =>
    obtain ⟨-, hf, hs⟩ := inTx_word s
    exact (decode_driver h rfl _ i false hf nofun).trans (by rw [decodeDriverWord, hs])
  | eprSetStatRxDtog0 i s =>
    obtain ⟨-, hf, hs⟩ := inRx_word s
    exact (decode_driver h rfl _ i false hf nofun).trans (by rw [decodeDriverWord, hs])
  | eprSetStatBoth i stx srx c =>
    obtain ⟨hf, hx, hr⟩ := inBoth_word stx srx
    exact (decode_driver h rfl _ i c hf fun _ => rfl).trans (by rw [decodeDriverWord, hx, hr])
  | eprClearCtrRx i => exact decode_driver (op := .clearCtrRx) h rfl _ i false (by decide) nofun
  | eprClearCtrTx i => exact decode_driver (op := .clearCtrTx) h rfl _ i false (by decide) nofun
  | eprZero i => exact decode_driver (op := .zero) h rfl _ i false (by decide) nofun
  | eprSetTypeAddr i t ea => exact decode_typeAddr h i (of_decide_eq_true hw) ea
  | _ => cases hp

/-! ## Event and completion lines -/

theorem decode_encode_event {y : Layout} {i : Instr} (h : y.ok = true) (hp : i.port = .event) :
    decode y (encode y i) = .ok i := by
  cases i with
  | evtWkup | evtSusp | evtReset | evtSof | evtNone => exact decode_event h _
  | evtCtr id => exact (decode_event h _).trans (congrArg _ (decodeEvent_ctr id))
  | _ => cases hp

/-- A snapshot with `CTR_RX`, or with `CTR_TX` alone, of a register 1..7 selects that register's row (30_encoding.md
R122). -/
theorem decodeCompletion_epn {i : Fin 8} (hi : i ≠ 0) :
    decodeCompletion 0x8000 (BitVec.ofNat 8 i.val) = .ok (.epnOutDone i) ∧
    decodeCompletion 0x0080 (BitVec.ofNat 8 i.val) = .ok (.epnInDone i) := by
  revert i; decide

theorem decode_encode_completion {y : Layout} {i : Instr} (h : y.ok = true) (hp : i.port = .completion)
    (hw : i.wf = true) : decode y (encode y i) = .ok i := by
  cases i with
  | ep0Setup | ep0Out | ep0InDone => exact decode_completion h _ 0
  | epnOutDone i => exact (decode_completion h _ i).trans (decodeCompletion_epn (of_decide_eq_true hw)).1
  | epnInDone i => exact (decode_completion h _ i).trans (decodeCompletion_epn (of_decide_eq_true hw)).2
  | _ => cases hp

/-! ## Request lines -/

/-- The class row is the first a packet can match (30_encoding.md R119). -/
theorem decodeRequest_class {r : Request} (h : r.typ = 1) : decodeRequest (unparse r) = .classRequest r := by
  have h20 := (typ_bits r.bmRequestType).1.2 h
  simp only [decodeRequest, parse_unparse, h20, if_true]

/-- The vendor row's type bits leave out the class row (30_encoding.md R119). -/
theorem decodeRequest_vendor {r : Request} (h : r.typ = 2) : decodeRequest (unparse r) = .vendorRequest r := by
  have h40 := (typ_bits r.bmRequestType).2.2 h
  have h20 : ¬r.bmRequestType &&& 0x60 = 0x20 := by rw [h40]; decide
  simp only [decodeRequest, parse_unparse, if_neg h20, if_pos h40]

/-- A record of the interface descriptor row keeps all its fields: every row before it has another recipient or another
request code (30_encoding.md R119). -/
theorem decodeRequest_interface {r : Request} (h1 : r.typ ≠ 1) (h2 : r.typ ≠ 2)
    (hb : r.bmRequestType &&& 0x9F = 0x81) (hc : r.bRequest = 0x06) :
    decodeRequest (unparse r) = .getDescriptorInterface r := by
  have h20 := mt (typ_bits r.bmRequestType).1.1 h1
  have h40 := mt (typ_bits r.bmRequestType).2.1 h2
  simp only [decodeRequest, parse_unparse, if_neg h20, if_neg h40, hb, hc]
  rfl

theorem decode_encode_request {y : Layout} {i : Instr} (hp : i.port = .request) (hw : i.wf = true) :
    decode y (encode y i) = .ok i := by
  cases i with
  | classRequest r => exact congrArg _ (decodeRequest_class (of_decide_eq_true hw))
  | vendorRequest r => exact congrArg _ (decodeRequest_vendor (of_decide_eq_true hw))
  | getDescriptorInterface r =>
    simp only [Instr.wf, Bool.and_eq_true, decide_eq_true_eq] at hw
    obtain ⟨⟨⟨h1, h2⟩, hb⟩, hc⟩ := hw
    exact congrArg _ (decodeRequest_interface h1 h2 hb hc)
  | getStatusEndpoint n d _ | clearFeatureEndpointHalt n d | setFeatureEndpointHalt n d =>
    simp [encode, decode_request, decodeRequest, parse_unparse, epIndex_fields]
  | setAddress a => simp [encode, decode_request, decodeRequest, parse_unparse, extract_seven]
  | getStatusInterface | setConfiguration | getInterface | setInterface =>
    simp [encode, decode_request, decodeRequest, parse_unparse, Request.itf, setWidth_loByte]
  | getStatusDevice | getDescriptorString | getConfiguration =>
    simp [encode, decode_request, decodeRequest, parse_unparse]
  | getDescriptorDevice | getDescriptorConfiguration =>
    simp [encode, decode_request, decodeRequest, parse_unparse, hiByte]
  | clearFeatureOther | setFeatureOther | getDescriptorDeviceOther | setDescriptor | synchFrame | unsupported => rfl
  | _ => cases hp

/-! ## Every line -/

/-- Settles O55, port by port: a line is decoded by the port its instruction's row belongs to. -/
theorem encodedInstructionsDecodeBack : Obligations.EncodedInstructionsDecodeBack := by
  intro y i h hw
  cases hp : i.port with
  | command => exact decode_encode_command hp hw
  | internal => exact decode_encode_internal hp
  | driver => exact decode_encode_driver h hp hw
  | event => exact decode_encode_event h hp
  | completion => exact decode_encode_completion h hp hw
  | bus => exact decode_encode_bus hp
  | request => exact decode_encode_request hp hw

end Sys2Proof.Machine

/-! What every step keeps of the state (10_state.md): the core invariant and the block's configuration. Both are read off
the frame that every input but `init` keeps. -/

namespace Sys2Proof.Machine

/-! ## The frame of a step -/

/-- A step takes an input and runs `init`, or keeps the frame of all other rows from there. -/
theorem step_core {s t : State} (h : step s = .next t) :
    ∃ rest, exec .init (takeInput rest s) = .next t ∨ CoreFrame (takeInput rest s) t := by
  rcases step_cases h with ⟨-, rfl⟩ | ⟨_, rest, i, -, -, hx⟩ | ⟨_, rest, -, -, rfl⟩ | ⟨a, bs, rest, -, rfl⟩ |
    ⟨e, rest, -, rfl⟩
  · exact ⟨s.script, .inr (.refl _)⟩
  · by_cases hi : i = .init
    · subst hi; exact ⟨rest, .inl hx⟩
    · exact ⟨rest, .inr (exec_core hi hx)⟩
  · exact ⟨rest, .inr (.refl _)⟩
  · exact ⟨rest, .inr (appStore_block a bs _).core⟩
  · exact ⟨rest, .inr (busError_block e _).core⟩

/-! ## The core invariant -/

theorem CoreInv.takeInput {s : State} (h : CoreInv s) (rest : List Input) : CoreInv (takeInput rest s) := { h with }

theorem CoreFrame.coreInv {s t : State} (f : CoreFrame s t) (h : CoreInv s) : CoreInv t where
  pmaWf := f.pmaWf h.pmaWf
  memWf := f.memWf h.memWf
  cursor := f.cursor h.cursor
  contRem := f.contRem h.contRem
  epKind := f.kind h.epKind
  cntrZero := f.cntr h.cntrZero

/-- The masks `init` enables are no bits the block leaves 0 (40_pma_allocator.md R141). -/
theorem initCntr_zero (c : Config) : initCntr c &&& 0x61F8 = 0 := by
  unfold initCntr; split <;> decide

theorem init_coreInv {s t : State} (h : CoreInv s) (hx : exec .init s = .next t) : CoreInv t := by
  obtain ⟨-, -, rfl⟩ := exec_init_next hx
  exact { h with
    pmaWf := layoutMemory_wf s.cfg s.pma h.pmaWf
    cntrZero := initCntr_zero s.cfg }

/-- Settles O58: `init` lays the table out and sets its masks, and every other input keeps the frame of the block. -/
theorem everyStepKeepsTheCoreInvariant : Obligations.EveryStepKeepsTheCoreInvariant := by
  intro s t hs h
  obtain ⟨rest, hx | f⟩ := step_core h
  · exact init_coreInv (hs.takeInput rest) hx
  · exact f.coreInv (hs.takeInput rest)

/-- Settles O60: `init` runs only where `inited` is 0, and every other input keeps the fields it sets. -/
theorem onlyInitConfiguresTheBlock : Obligations.OnlyInitConfiguresTheBlock := by
  intro s t h
  obtain ⟨rest, hx | f⟩ := step_core h
  · obtain ⟨hi, -, rfl⟩ := exec_init_next hx
    have hi : s.inited = false := hi
    exact ⟨rfl, fun h1 => by simp [hi] at h1, fun _ _ => ⟨rfl, rfl⟩, fun _ h0 => by simp at h0⟩
  · have hi : t.inited = s.inited := f.inited
    exact ⟨f.cfg, fun h1 => ⟨hi.trans h1, f.btable, f.dppu⟩, fun h0 h1 => by simp [hi, h0] at h1,
      fun _ _ => ⟨f.btable, f.dppu⟩⟩

/-! ## The state after power-on -/

theorem coreInv_reset : CoreInv State.reset where
  pmaWf := rfl
  memWf := rfl
  cursor := by decide
  contRem := nofun
  epKind := by decide
  cntrZero := by decide

theorem deviceInv_reset : DeviceInv State.reset where
  core := coreInv_reset
  laid := nofun
  zeroType := by decide
  control := by decide
  ea := by decide
  absentTx := by decide
  absentRx := by decide
  contPtr := nofun
  script := nofun
  answers := nofun

/-- Settles O53: the values of R60 are the fields of `State.reset`. -/
theorem resetHoldsTheSpecValues : Obligations.ResetHoldsTheSpecValues :=
  ⟨rfl, rfl, rfl, rfl, rfl, rfl, by decide, rfl, rfl, rfl, rfl, rfl, coreInv_reset, deviceInv_reset⟩

/-! ## One step -/

/-- A completion line of an `EP_ID` 8..15, or whose snapshot has neither flag, selects no sub-event (30_encoding.md
R122). -/
theorem decodeCompletion_none {v : Word} {id : Byte} (hid : id.toNat < 16)
    (h : 8 ≤ id.toNat ∨ (Epr.ctrRx v = false ∧ Epr.ctrTx v = false)) :
    decodeCompletion v id = .error .noSubEvent := by
  unfold decodeCompletion decodeReg
  by_cases h8 : id.toNat < 8
  · obtain ⟨hr, ht⟩ := h.resolve_left (by omega)
    simp [h8, hr, ht]
  · simp [h8, hid]

theorem step_of_decoded {s : State} {l : Line} {rest : List Input} {i : Instr} (hs : s.script = .line l :: rest)
    (hd : decode s.cfg.layout l = .ok i) : step s = exec i (takeInput rest s) := by
  simp only [step, hs, fetch, hd]

theorem step_of_undecoded {s : State} {l : Line} {rest : List Input} {e : DecodeError}
    (hs : s.script = .line l :: rest) (hd : decode s.cfg.layout l = .error e) :
    step s = undecoded e (takeInput rest s) := by
  simp only [step, hs, fetch, hd]

theorem step_of_appStore {s : State} {a : Nat} {bs : List Byte} {rest : List Input}
    (hs : s.script = .appStore a bs :: rest) : step s = .next (appStore a bs (takeInput rest s)) := by
  simp only [step, hs]

theorem step_of_busError {s : State} {e : BusError} {rest : List Input} (hs : s.script = .busError e :: rest) :
    step s = .next (busError e (takeInput rest s)) := by
  simp only [step, hs]

theorem step_of_nil {s : State} (hs : s.script = []) : step s = .next (idle s) := by
  simp only [step, hs]

theorem busError_of_ready {s : State} (h : engineReady s = true) (e : BusError) : busError e s = istrSet e.mask s :=
  if_pos h

/-- Settles O54, by the kind of the input at the front of the script. -/
theorem stepRunsTheDecodedInstruction : Obligations.StepRunsTheDecodedInstruction := by
  intro s rest
  refine ⟨fun l i hs hd => step_of_decoded hs hd, fun lo hi id v hs hv hid h => ?_, fun l e hs hd he => ?_,
    fun a bs hs => ?_, fun e hs hr => ?_, fun hs => ?_⟩
  · subst hv
    exact step_of_undecoded hs (decodeCompletion_none hid h)
  · exact (step_of_undecoded hs hd).trans (if_neg he)
  · exact step_of_appStore hs
  · have hb := busError_of_ready (s := takeInput rest s) hr e
    rw [step_of_busError hs, hb]
    cases e <;> rfl
  · exact step_of_nil hs

end Sys2Proof.Machine

/-! What the block reports and what it turns away: `ISTR` and the interrupt output (10_state.md R49, R54), and the stops
that are the model's own (log 13, 22, 23). -/

namespace Sys2Proof.Machine

/-! ## ISTR and the interrupt output -/

/-- The flags that raise the interrupt output (10_state.md R54). -/
theorem irqMask_bit (k : Nat) : (istrCtr ||| istrWkup ||| istrSusp ||| istrReset ||| istrSof).getLsbD k = true ↔
    k = 15 ∨ k = 12 ∨ k = 11 ∨ k = 10 ∨ k = 9 := by
  by_cases hk : k < 16
  · interval_cases k <;> decide
  · rw [BitVec.getLsbD_of_ge _ _ (by omega)]
    simp only [Bool.false_eq_true, false_iff]
    omega

theorem word_ne_zero_iff (w : Word) : w ≠ 0 ↔ ∃ k, w.getLsbD k = true := by
  constructor
  · intro h
    by_contra hn
    exact h (word_ext fun k _ => by simpa using fun e => hn ⟨k, e⟩)
  · rintro ⟨k, hk⟩ rfl
    simp at hk

/-- The interrupt output is raised by a flag of `ISTR` whose mask is set (10_state.md R54). -/
theorem irq_iff (s : State) : irq s = true ↔
    ∃ k, (k = 15 ∨ k = 12 ∨ k = 11 ∨ k = 10 ∨ k = 9) ∧ (istrRead s).getLsbD k = true ∧ s.cntr.getLsbD k = true := by
  simp only [irq, decide_eq_true_eq, word_ne_zero_iff, BitVec.getLsbD_and, Bool.and_eq_true, irqMask_bit]
  exact exists_congr fun k => ⟨fun ⟨⟨hi, hc⟩, hk⟩ => ⟨hk, hi, hc⟩, fun ⟨hk, hi, hc⟩ => ⟨⟨hi, hc⟩, hk⟩⟩

/-- `CTR` reads 1 exactly while a register is pending (10_state.md R49). -/
theorem istrRead_ctr (s : State) : (istrRead s).getLsbD 15 = (pendingEp s).isSome := by
  have hb := and_bit_ne_zero (w := istrRead s) (m := istrCtr) (k := 15) rfl (by decide)
  cases hp : pendingEp s with
  | none => exact Bool.eq_false_iff.2 fun h => hb.mpr h (istrRead_idle hp)
  | some i => exact hb.mp (istrRead_pending hp).1

/-- Settles O41: `ISTR` read through the lowest pending register, its stored bits, and the interrupt output bit by bit. -/
theorem istrReportsTheLowestPendingEndpoint : Obligations.IstrReportsTheLowestPendingEndpoint := by
  refine ⟨fun s i hi hlow => ?_, fun s hno => ?_, fun s => istrRead_flag (by decide), irq_iff⟩
  · have hp : pendingEp s = some i := pendingEp_iff.2 ⟨hi, hlow⟩
    exact ⟨hp, by rw [istrRead_ctr, hp]; rfl, (istrRead_pending hp).2⟩
  · have hp : pendingEp s = none := find_allRegs_none.2 hno
    exact ⟨hp, by rw [istrRead_ctr, hp]; rfl⟩

/-! ## The stops of the model -/

theorem whenInited_cold {s : State} (h : s.inited = false) (r : Except Fault State) :
    whenInited s r = .refused .notInited := by
  simp [whenInited, h]

theorem whenInited_fault {s : State} (h : s.inited = true) (f : Fault) : whenInited s (.error f) = .fault f := by
  simp [whenInited, h, lift]

theorem exec_init_again {s : State} (h : s.inited = true) : exec .init s = .refused .alreadyInited := if_pos h

theorem exec_init_illFormed {s : State} (h : s.inited = false) (hc : configOk s.cfg = false) :
    exec .init s = .refused .illFormedConfig := by
  simp [exec, execInit, h, hc]

theorem exec_controlInResume_none {s : State} (hc : s.cont = none) :
    exec .controlInResume s = .refused (if s.inited then .noContinuation else .notInited) := by
  simp only [exec, execControlInResume, hc]
  split <;> rfl

theorem exec_controlInResume_cold {s : State} (h : s.inited = false) :
    exec .controlInResume s = .refused .notInited := by
  cases hc : s.cont with
  | none => rw [exec_controlInResume_none hc, h]; rfl
  | some c => simp only [exec, execControlInResume, hc, whenInited_cold h]

/-- The payload of an `ep_write` that passes its tests cannot be read through the null reference (log 13). -/
theorem epWrite_null {ept : Byte} {len : Word} {s : State} {i : Fin 8} (h : Laid s) (hi : slotIndex ept = some i)
    (h0 : 0 < len.toNat) (hl : len.toNat ≤ sizeIn s.cfg i) : epWrite ept .null len s = .error .nullAccess := by
  have ha : BitVec.ofNat 16 (bufTx s.cfg i) ≠ 0 := fun e => by
    have h64 := le_bufTx s.cfg i
    rw [← toNat_bufTx h.cfgOk i, e] at h64
    exact absurd h64 (by decide)
  have hm : memReadN len.toNat .null s = .error .nullAccess := by
    obtain ⟨n, hn⟩ := Nat.exists_eq_succ_of_ne_zero (Nat.pos_iff_ne_zero.1 h0)
    rw [hn, memReadN_null]
  have hr := bdtRead_of_laid h i .addrTx
  simp only [BdtWord.offset, Nat.add_zero, h.addrTx i] at hr
  simp only [epWrite, hi, show sizeIn s.cfg i ≠ 0 by omega, if_false, hr, ok_bind, ha,
    show ¬sizeIn s.cfg i < len.toNat by omega, hm, error_bind]

/-- A received packet of at least one byte cannot be stored through the null reference (log 13). -/
theorem epRead_null {ept : Byte} {cap : Word} {s : State} {i : Fin 8} (h : Laid s) (hi : slotIndex ept = some i)
    (h0 : 0 < min (countField (s.pma.word (8 * i.val + 6))) cap.toNat) :
    epRead ept .null cap s = .error .nullAccess := by
  have hc := h.countRx i
  rw [epRead_of_laid .null h hi (by omega)]
  rw [← toNat_readLen] at h0
  obtain ⟨n, hn⟩ := Nat.exists_eq_succ_of_ne_zero (Nat.pos_iff_ne_zero.1 h0)
  rw [hn]
  rfl

/-- Settles O13: the guards of the commands in turn, and the two accesses through the null reference. -/
theorem stopsOfTheModel : Obligations.StopsOfTheModel := by
  refine ⟨fun s h => exec_init_again h, fun s h hc => exec_init_illFormed h hc, fun s ept buf x y h => ?_,
    fun s h hc => ?_, fun s i len h hl => ⟨fun h0 hle => ?_, fun h0 => ?_⟩⟩
  · exact ⟨whenInited_cold h _, whenInited_cold h _, whenInited_cold h _, whenInited_cold h _,
      exec_controlInResume_cold h, whenInited_cold h _⟩
  · rw [exec_controlInResume_none hc, h]; rfl
  · simp only [exec, execEpWrite, AppRef.ptr, epWrite_null hl (slotIndex_ofByte i) h0 hle, error_bind,
      whenInited_fault h]
  · simp only [exec, execEpRead, AppRef.ptr, epRead_null hl (slotIndex_ofByte i) h0, error_bind, whenInited_fault h]

end Sys2Proof.Machine

/-! Which rows move `dev_state`, `DADDR` and the address latch (10_state.md R26, R27, R51). -/

namespace Sys2Proof.Machine

/-! ## The frame of the device state and the address -/

/-- `dev_state`, `DADDR` and the latch of `t` are those of `s`. -/
structure SameAddress (s t : State) : Prop where
  devState : t.devState = s.devState
  daddr : t.daddr = s.daddr
  pendFlag : t.pendFlag = s.pendFlag
  pendAddr : t.pendAddr = s.pendAddr

theorem SameAddress.refl (s : State) : SameAddress s s := ⟨rfl, rfl, rfl, rfl⟩

theorem SameAddress.trans {s t u : State} (h : SameAddress s t) (g : SameAddress t u) : SameAddress s u :=
  ⟨g.devState.trans h.devState, g.daddr.trans h.daddr, g.pendFlag.trans h.pendFlag, g.pendAddr.trans h.pendAddr⟩

theorem IoFrame.sameAddress {s t : State} (f : IoFrame s t) : SameAddress s t :=
  ⟨f.devState, f.daddr, f.pendFlag, f.pendAddr⟩

/-- A hook called from a state with the address of `s` leaves that address. -/
theorem hook_sameAddress {p : Bool} {c : Call} {s u t : State} (h : hook p c u = .ok t) (hu : SameAddress s u) :
    SameAddress s t :=
  hu.trans (hook_eq_ok.1 h).frame.sameAddress

/-- A command whose result goes out on its port keeps what its operation keeps (log 26). -/
theorem emitted_sameAddress {α : Type} {r : Except Fault (α × State)} {o : α → Out} {s t : State}
    (hr : ∀ a u, r = .ok (a, u) → IoFrame s u) (h : (r >>= fun q => .ok (emit (o q.1) q.2)) = .ok t) :
    SameAddress s t := by
  obtain ⟨⟨a, u⟩, hu, h⟩ := bind_eq_ok.1 h
  cases h
  exact ((hr a u hu).trans (emit_frame _ u)).sameAddress

theorem controlInResume_sameAddress {s t : State} (h : exec .controlInResume s = .next t) : SameAddress s t := by
  cases hc : s.cont with
  | none => rw [exec_controlInResume_none hc] at h; cases h
  | some c =>
    simp only [exec, execControlInResume, hc] at h
    exact (sendFragment_frame (whenInited_eq_next.1 h).2).1.sameAddress

theorem serialDescriptor_sameAddress (s : State) : SameAddress s (serialDescriptor s) := by
  unfold serialDescriptor; split <;> exact ⟨rfl, rfl, rfl, rfl⟩

theorem onSof_sameAddress {s t : State} (h : onSof s = .ok t) : SameAddress s t := by
  unfold onSof sofScan at h
  split at h
  · cases h; exact ⟨rfl, rfl, rfl, rfl⟩
  · obtain ⟨⟨b, u⟩, hu, h⟩ := bind_eq_ok.1 h
    cases h
    refine SameAddress.trans ?_ (callback_eq_ok.1 hu).frame.sameAddress
    exact ⟨rfl, rfl, rfl, rfl⟩

/-! ## The engine -/

/-- What the engine's transactions write: the endpoint registers, `ISTR`, the PMA and the bus
(46_usb_engine_agent.md R307 to R311). -/
def EngineWrites (s t : State) : Prop :=
  t = { s with epr := t.epr, istr := t.istr, pma := t.pma, freeCount := t.freeCount, out := t.out }

theorem EngineWrites.sameAddress {s t : State} (h : EngineWrites s t) : SameAddress s t := by
  rw [h]; exact ⟨rfl, rfl, rfl, rfl⟩

/-- A packet stored and its register set are writes of the engine. -/
theorem storePacket_engineWrites {i : Fin 8} {data : List Byte} {pad : Bool} {s u : State}
    (h : storePacket i data pad s = .ok u) (w : Word) (k : Handshake) :
    EngineWrites s (shake k (setEpr i w u)) := by
  rw [(storePacket_frame h).1]; rfl

theorem busSetup_engineWrites {p : Packet} {s t : State} (h : busSetup p s = .ok t) : EngineWrites s t := by
  unfold busSetup at h
  split at h
  · split at h
    · cases h; rfl
    · split at h
      · cases h; rfl
      · obtain ⟨u, hu, h⟩ := bind_eq_ok.1 h
        cases h
        exact storePacket_engineWrites hu _ _
  · cases h; rfl

theorem busOut_engineWrites {e : BitVec 4} {data : List Byte} {s t : State} (h : busOut e data s = .ok t) :
    EngineWrites s t := by
  unfold busOut at h
  split at h
  · split at h
    · cases h; rfl
    · split at h
      · obtain ⟨c, -, h⟩ := bind_eq_ok.1 h
        split at h
        · cases h; rfl
        · obtain ⟨u, hu, h⟩ := bind_eq_ok.1 h
          cases h
          exact storePacket_engineWrites hu _ _
      all_goals (cases h; rfl)
  · cases h; rfl

theorem busIn_engineWrites {e : BitVec 4} {s t : State} (h : busIn e s = .ok t) : EngineWrites s t := by
  unfold busIn at h
  split at h
  · split at h
    · cases h; rfl
    · split at h
      · simp only [bind_eq_ok] at h
        obtain ⟨c, -, a, -, data, -, h⟩ := h
        cases h; rfl
      all_goals (cases h; rfl)
  · cases h; rfl

/-! ## The request rows -/

/-- A request row ends with writes of endpoint 0 only, so it keeps what its operation keeps (43_control_engine.md R210,
R212). -/
theorem requestOutcome_io {d : Bool} {r : Except Fault (Bool × State)} {s t : State}
    (hr : ∀ b u, r = .ok (b, u) → IoFrame s u) (h : requestOutcome d r = .next t) : SameAddress s t := by
  obtain ⟨b, u, hu, hf⟩ := requestOutcome_eq_next.1 h
  exact ((hr b u hu).trans (finishRequest_frame hf)).sameAddress

/-- SET_ADDRESS writes the latch; `dev_state` and `DADDR` wait for the status stage (44_standard_requests.md R240). -/
theorem exec_setAddress_device {a : BitVec 7} {s t : State} (h : exec (.setAddress a) s = .next t) :
    t.devState = s.devState ∧ t.daddr = s.daddr := by
  obtain ⟨b, u, hu, hf⟩ := requestOutcome_eq_next.1 h
  have g := finishRequest_frame hf
  rcases setAddress_cases hu with rfl | ⟨-, f⟩
  · exact ⟨g.devState, g.daddr⟩
  · exact ⟨g.devState.trans f.devState, g.daddr.trans f.daddr⟩

/-- SET_CONFIGURATION writes no address and no latch (44_standard_requests.md R248). -/
theorem setConfiguration_address (v : Byte) (s : State) : (setConfiguration v s).2.daddr = s.daddr ∧
    (setConfiguration v s).2.pendFlag = s.pendFlag ∧ (setConfiguration v s).2.pendAddr = s.pendAddr := by
  rcases setConfiguration_cases v s with h | ⟨-, -, _, h, -⟩ | ⟨-, -, _, -, -, _, h, -⟩ <;> rw [h] <;>
    exact ⟨rfl, rfl, rfl⟩

theorem exec_setConfiguration_address {v : Byte} {s t : State} (h : exec (.setConfiguration v) s = .next t) :
    t.daddr = s.daddr ∧ t.pendFlag = s.pendFlag ∧ t.pendAddr = s.pendAddr := by
  obtain ⟨b, u, hu, hf⟩ := requestOutcome_eq_next.1 h
  obtain rfl := ok_snd hu
  have g := finishRequest_frame hf
  obtain ⟨ha, hp, hq⟩ := setConfiguration_address v s
  exact ⟨g.daddr.trans ha, g.pendFlag.trans hp, g.pendAddr.trans hq⟩

/-! ## Every row -/

/-- The rows that may move `dev_state`, `DADDR` or the latch, and the three that run other rows. -/
def movesAddress : Instr → Bool
  | .task | .evtCtr _ | .ep0Setup | .evtReset | .ep0InDone | .setAddress _ | .setConfiguration _ => true
  | _ => false

theorem exec_sameAddress {x : Instr} {s t : State} (hm : movesAddress x = false) (h : exec x s = .next t) :
    SameAddress s t := by
  cases x with
  | task | evtCtr _ | ep0Setup | evtReset | ep0InDone | setAddress _ | setConfiguration _ => cases hm
  | init => obtain ⟨-, -, rfl⟩ := exec_init_next h; exact ⟨rfl, rfl, rfl, rfl⟩
  | epWrite _ _ _ => exact emitted_sameAddress (fun _ _ e => (epWrite_frame e).1) (whenInited_eq_next.1 h).2
  | epRead _ _ _ => exact emitted_sameAddress (fun _ _ e => (epRead_frame e).1) (whenInited_eq_next.1 h).2
  | controlIn _ _ _ => exact (controlIn_frame (whenInited_eq_next.1 h).2).1.sameAddress
  | controlInResume => exact controlInResume_sameAddress h
  | serialStringDescriptor =>
    cases (whenInited_eq_next.1 h).2
    exact (serialDescriptor_sameAddress s).trans (emit_frame _ _).sameAddress
  | eprSetStatTx _ _ | eprSetStatRx _ _ | eprSetStatTxDtog0 _ _ | eprSetStatRxDtog0 _ _ | eprSetStatBoth _ _ _ _
  | eprClearCtrRx _ | eprClearCtrTx _ | eprSetTypeAddr _ _ _ | eprZero _ | evtNone | ep0Out | epnInDone _ =>
    rw [← next_inj h]; exact ⟨rfl, rfl, rfl, rfl⟩
  | evtWkup | evtSusp | epnOutDone _ => exact hook_sameAddress (lift_eq_next.1 h) ⟨rfl, rfl, rfl, rfl⟩
  | evtSof =>
    simp only [exec, execEvtSof] at h
    split at h
    · exact onSof_sameAddress (lift_eq_next.1 h)
    · rw [← next_inj h]; exact .refl s
  | busReset => rw [← next_inj h]; unfold busReset; split <;> exact ⟨rfl, rfl, rfl, rfl⟩
  | busSof | busSuspend | busWakeup => rw [← next_inj h]; split <;> exact ⟨rfl, rfl, rfl, rfl⟩
  | busSetup _ => exact (busSetup_engineWrites (lift_eq_next.1 h)).sameAddress
  | busOut _ _ => exact (busOut_engineWrites (lift_eq_next.1 h)).sameAddress
  | busIn e =>
    obtain ⟨u, hu, rfl⟩ := execBusIn_eq_next.1 h
    exact (busIn_engineWrites hu).sameAddress.trans ⟨rfl, rfl, rfl, rfl⟩
  | classRequest _ | vendorRequest _ | getDescriptorInterface _ =>
    exact requestOutcome_io (fun _ _ e => delegate_frame e) h
  | getStatusDevice _ => exact requestOutcome_io (fun _ _ e => getStatusDevice_frame e) h
  | getStatusInterface _ _ => exact requestOutcome_io (fun _ _ e => getStatusInterface_frame e) h
  | getStatusEndpoint _ _ _ => exact requestOutcome_io (fun _ _ e => getStatusEndpoint_frame e) h
  | clearFeatureEndpointHalt n d => exact requestOutcome_io (fun _ _ e => ok_snd e ▸ clearFeature_frame n d s) h
  | setFeatureEndpointHalt n d => exact requestOutcome_io (fun _ _ e => ok_snd e ▸ setFeature_frame n d s) h
  | getDescriptorDevice _ => exact requestOutcome_io (fun _ _ e => getDescriptorDevice_frame e) h
  | getDescriptorConfiguration _ => exact requestOutcome_io (fun _ _ e => getDescriptorConfiguration_frame e) h
  | getDescriptorString _ _ _ => exact requestOutcome_io (fun _ _ e => getDescriptorString_frame e) h
  | getConfiguration _ => exact requestOutcome_io (fun _ _ e => getConfiguration_frame e) h
  | getInterface _ _ => exact requestOutcome_io (fun _ _ e => getInterface_frame e) h
  | setInterface i a =>
    exact requestOutcome_io (fun _ _ e => by rw [ok_snd e, setInterface_state]; exact IoFrame.refl s) h
  | clearFeatureOther | setFeatureOther | getDescriptorDeviceOther | setDescriptor | synchFrame | unsupported =>
    rw [← next_inj h]; exact (protocolReject_frame s).sameAddress

/-- Settles O39, row by row: the rows outside `movesAddress` keep the whole frame, and each of the two requests in it
keeps the other's fields. -/
theorem fewRowsChangeTheDeviceState : Obligations.FewRowsChangeTheDeviceState := by
  intro x s t h hTask hCtr hSetup
  cases hm : movesAddress x with
  | false =>
    obtain ⟨hd, ha, hf, hp⟩ := exec_sameAddress hm h
    exact ⟨fun n => absurd hd n, fun n => absurd ha n, fun n => n.elim (absurd hf) (absurd hp)⟩
  | true =>
    cases x with
    | task => exact absurd rfl hTask
    | evtCtr id => exact absurd rfl (hCtr id)
    | ep0Setup => exact absurd rfl hSetup
    | evtReset => exact ⟨fun _ => .inl rfl, fun _ => .inl rfl, fun _ => .inl rfl⟩
    | ep0InDone => exact ⟨fun _ => .inr (.inl rfl), fun _ => .inr rfl, fun _ => .inr (.inl rfl)⟩
    | setAddress a =>
      obtain ⟨hd, ha⟩ := exec_setAddress_device h
      exact ⟨fun n => absurd hd n, fun n => absurd ha n, fun _ => .inr (.inr ⟨a, rfl⟩)⟩
    | setConfiguration v =>
      obtain ⟨ha, hf, hp⟩ := exec_setConfiguration_address h
      exact ⟨fun _ => .inr (.inr ⟨v, rfl⟩), fun n => absurd ha n, fun n => n.elim (absurd hf) (absurd hp)⟩
    | _ => cases hm

end Sys2Proof.Machine

/-! What the memories guarantee (20_memory.md): stores read back, and the buffers of the endpoint directions lie apart
inside the PMA. -/

namespace Sys2Proof.Machine

/-! ## Stores and words -/

/-- Settles O8, from the rule of each store and the value of a little-endian word. -/
theorem storedBytesReadBack : Obligations.StoredBytesReadBack := by
  refine ⟨Memory.read_write, fun m a bs c => ?_, fun m a => ?_⟩
  · split
    case isTrue h =>
      obtain ⟨ha, hlen⟩ := h
      have hc : a + (c - a) = c := by omega
      rw [← Memory.read_writeAll_inside m a bs (c - a) hlen, hc]
    case isFalse h => exact Memory.read_writeAll_outside m a bs c (by omega)
  · rw [Memory.word, toNat_le16, Nat.add_comm]

/-! ## The buffers of the directions -/

/-- The buffer of a direction lies inside the pair of its endpoint. -/
theorem bufOf_within_pair (c : Config) (i : Fin 8) (d : Dir) :
    bufTx c i ≤ bufOf c i d ∧ bufOf c i d + dirSize c i d ≤ bufRx c i + sizeOut c i := by
  cases d with
  | tx => exact ⟨Nat.le_refl _, Nat.le_add_right _ _⟩
  | rx => exact ⟨bufTx_le_bufRx c i, Nat.le_refl _⟩

/-- Every direction's buffer lies in [64, `PMA_BYTES`) (R81). -/
theorem bufOf_within_pma {c : Config} (h : configOk c = true) (i : Fin 8) (d : Dir) :
    64 ≤ bufOf c i d ∧ bufOf c i d + dirSize c i d ≤ c.pmaBytes := by
  obtain ⟨hstart, hend⟩ := bufOf_within_pair c i d
  exact ⟨(le_bufTx c i).trans hstart, hend.trans (buf_le h i)⟩

/-- The buffers of a lower index end before those of a higher one begin, whatever the directions. -/
theorem bufOf_before_of_lt (c : Config) {i j : Fin 8} (hij : i < j) (d e : Dir) :
    bufOf c i d + dirSize c i d ≤ bufOf c j e :=
  calc bufOf c i d + dirSize c i d
    _ ≤ bufRx c i + sizeOut c i := (bufOf_within_pair c i d).2
    _ ≤ bufTx c j := buf_lt c hij
    _ ≤ bufOf c j e := (bufOf_within_pair c j e).1

/-- The buffers of two different directions do not overlap: those of one endpoint meet where the OUT buffer begins. -/
theorem bufOf_disjoint (c : Config) {i j : Fin 8} {d e : Dir} (hne : (i, d) ≠ (j, e)) :
    bufOf c i d + dirSize c i d ≤ bufOf c j e ∨ bufOf c j e + dirSize c j e ≤ bufOf c i d := by
  rcases lt_trichotomy i j with hij | rfl | hji
  · exact .inl (bufOf_before_of_lt c hij d e)
  · cases d <;> cases e
    case tx.tx => exact absurd rfl hne
    case tx.rx => exact .inl (Nat.le_refl _)
    case rx.tx => exact .inr (Nat.le_refl _)
    case rx.rx => exact absurd rfl hne
  · exact .inr (bufOf_before_of_lt c hji e d)

/-- Settles O12: each buffer lies in the PMA above the table, and two of them are apart by their order. -/
theorem enabledBuffersAreDisjoint : Obligations.EnabledBuffersAreDisjoint := by
  intro s h i j d e hne _ _
  obtain ⟨hlow, hhigh⟩ := bufOf_within_pma h.cfgOk i d
  exact ⟨hlow, hhigh, bufOf_disjoint s.cfg hne⟩

end Sys2Proof.Machine

/-! What the decoder answers (30_encoding.md): on every port a well-formed instruction of that port, or an error. -/

namespace Sys2Proof.Machine

/-- The instruction is well-formed and its row is one of the port. -/
def LegalAt (p : Port) (i : Instr) : Prop := i.wf = true ∧ i.port = p

/-- An answer of a decoder that is legal on a port: an instruction it gives is, an error says nothing. -/
def LegalAnswer (p : Port) (r : Except DecodeError Instr) : Prop := ∀ i, r = .ok i → LegalAt p i

theorem LegalAnswer.ok {p : Port} {i : Instr} (h : LegalAt p i) : LegalAnswer p (.ok i) := by
  rintro _ ⟨⟩
  exact h

theorem LegalAnswer.error {p : Port} (e : DecodeError) : LegalAnswer p (.error e) := by
  rintro _ ⟨⟩

theorem LegalAnswer.ite {p : Port} {c : Prop} [Decidable c] {a b : Except DecodeError Instr} (ha : c → LegalAnswer p a)
    (hb : ¬c → LegalAnswer p b) : LegalAnswer p (if c then a else b) := ite_of ha hb

theorem LegalAnswer.map {α : Type} {p : Port} {f : α → Instr} (x : Except DecodeError α) (h : ∀ a, LegalAt p (f a)) :
    LegalAnswer p (x.map f) := by
  intro i hi
  obtain ⟨a, -, rfl⟩ := map_eq_ok.1 hi
  exact h a

/-! ## The ports -/

/-- A command's reference is one a line can carry, since its address has four bytes (log 6). -/
theorem decodeCommand_legal (bs : List Byte) : LegalAnswer .command (decodeCommand bs) := by
  unfold decodeCommand
  split
  · next ord ept x0 x1 y0 y1 tag a0 a1 a2 a3 =>
    have hptr : (decodePtr tag a0 a1 a2 a3).wf = true := decodePtr_wf tag a0 a1 a2 a3
    iterate 2 refine .ite (fun _ => .ok ⟨rfl, rfl⟩) fun _ => ?_
    iterate 3 refine .ite (fun _ => .ok ⟨hptr, rfl⟩) fun _ => ?_
    exact .ite (fun _ => .ok ⟨rfl, rfl⟩) fun _ => .error _
  · exact .error _

theorem decodeInternal_legal (bs : List Byte) : LegalAnswer .internal (decodeInternal bs) := by
  unfold decodeInternal
  split
  · exact .ite (fun _ => .ok ⟨rfl, rfl⟩) fun _ => .error _
  · exact .error _

/-- Only the type row can be ill-formed, and its type ISO is an error (R103). -/
theorem decodeDriverWord_legal (k : TypeCodes) (op : DriverOp) (w : Word) (i : Fin 8) (c : Bool) :
    LegalAnswer .driver (decodeDriverWord k op w i c) := by
  cases op with
  | setTypeAddr => exact .ite (fun _ => .error _) fun hiso => .ok ⟨decide_eq_true hiso, rfl⟩
  | _ => exact .ok ⟨rfl, rfl⟩

theorem decodeDriver_legal (y : Layout) (bs : List Byte) : LegalAnswer .driver (decodeDriver y bs) := by
  unfold decodeDriver
  split
  · split
    · exact .error _
    · exact .error _
    · exact .ite (fun _ => decodeDriverWord_legal _ _ _ _ _) fun _ => .error _
  · exact .error _

theorem decodeEvent_legal (r : Word) : LegalAt .event (decodeEvent r) := by
  unfold decodeEvent
  iterate 5 refine ite_of (fun _ => ⟨rfl, rfl⟩) fun _ => ?_
  exact ⟨rfl, rfl⟩

/-- The rows of the other endpoints are taken only where the register is not 0 (R122). -/
theorem decodeCompletion_legal (v : Word) (b : Byte) : LegalAnswer .completion (decodeCompletion v b) := by
  unfold decodeCompletion
  split
  · exact .error _
  · refine .ite (fun _ => ?_) fun hi => ?_
    · refine .ite (fun _ => .ok ?_) fun _ => .ite (fun _ => .ok ⟨rfl, rfl⟩) fun _ => .error _
      exact ite_of (fun _ => ⟨rfl, rfl⟩) fun _ => ⟨rfl, rfl⟩
    · refine .ite (fun _ => .ok ⟨decide_eq_true hi, rfl⟩) fun _ => ?_
      exact .ite (fun _ => .ok ⟨decide_eq_true hi, rfl⟩) fun _ => .error _

theorem decodeBus_legal (bs : List Byte) : LegalAnswer .bus (decodeBus bs) := by
  unfold decodeBus
  split
  · iterate 4 refine .ite (fun _ => .ok ⟨rfl, rfl⟩) fun _ => ?_
    refine .ite (fun _ => ?setup) fun _ => ?_
    case setup =>
      split
      · exact .ok ⟨rfl, rfl⟩
      · exact .error _
    refine .ite (fun _ => .map _ fun _ => ⟨rfl, rfl⟩) fun _ => ?_
    exact .ite (fun _ => .map _ fun _ => ⟨rfl, rfl⟩) fun _ => .error _
  · exact .error _

/-- The seven ports together. -/
theorem decode_legal (y : Layout) (l : Line) : LegalAnswer l.port (decode y l) := by
  obtain ⟨port, bytes⟩ := l
  cases port with
  | command => exact decodeCommand_legal bytes
  | internal => exact decodeInternal_legal bytes
  | driver => exact decodeDriver_legal y bytes
  | bus => exact decodeBus_legal bytes
  | event =>
    unfold decode
    dsimp only
    split
    · exact .ok (decodeEvent_legal _)
    · exact .error _
  | completion =>
    unfold decode
    dsimp only
    split
    · exact decodeCompletion_legal _ _
    · exact .error _
  | request =>
    unfold decode
    dsimp only
    split
    · exact .ok (decodeRequest_wf _)
    · exact .error _

/-- Settles O56, port by port. -/
theorem decodedLinesAreWellFormed : Obligations.DecodedLinesAreWellFormed :=
  fun y l i h => decode_legal y l i h

end Sys2Proof.Machine

/-! The allocator and what it makes safe (40_pma_allocator.md): the receive size code, the table `init` lays out, and
that from there on no step faults while the inputs come from outside the block. -/

namespace Sys2Proof.Machine

/-! ## The receive size code -/

/-- Sizes up to 62 are declared in blocks of 2 bytes (R145). -/
theorem rxenc_of_le {n : Nat} (bias : Fin 2) (hn : n ≤ 62) (he : n % 2 = 0) :
    rxenc bias n = BitVec.ofNat 16 (n / 2) <<< 10 := if_pos ⟨hn, he⟩

/-- Sizes above 62 are declared in blocks of 32 bytes (R145, D8). -/
theorem rxenc_of_lt {n : Nat} (bias : Fin 2) (hn : 62 < n) :
    rxenc bias n = 0x8000 ||| (BitVec.ofNat 16 (n / 32 - bias.val) <<< 10) := if_neg (by omega)

/-- Settles O11: the two branches of the code, and for the legal sizes the capacity it declares. -/
theorem receiveSizeCodeRoundTrips : Obligations.ReceiveSizeCodeRoundTrips := by
  intro bias n
  refine ⟨rxenc_of_le bias, fun hn _ _ => rxenc_of_lt bias hn, fun h => ?_⟩
  have hn : rxSizeOk n = true := decide_eq_true h
  exact ⟨rxdec_rxenc bias n hn, (rxenc_fields bias n hn).2⟩

/-! ## The state `init` leaves -/

/-- Settles O9, from the four words of an entry pair and the bytes the table loop leaves alone. -/
theorem initLaysOutTheTable : Obligations.InitLaysOutTheTable := fun s hi hc =>
  ⟨_, exec_init_ok hi hc, rfl, layoutMemory_words s.cfg s.pma, layoutMemory_read s.cfg s.pma⟩

/-- The interrupt masks as one word (R141). -/
theorem initCntr_eq (c : Config) : initCntr c = if c.cap.inCb then 0x9E00 else 0x9C00 := by
  unfold initCntr; split <;> rfl

/-- Settles O10: the table `init` leaves is laid out, and its masks are the word of R141. -/
theorem initBringsUpTheBlock : Obligations.InitBringsUpTheBlock := by
  intro s hi hc
  refine ⟨_, exec_init_ok hi hc, laid_of_layout hc rfl rfl, ?_⟩
  rw [initCntr_eq]

/-! ## What the device invariant gives, and what gives it -/

theorem DeviceInv.regsOk {s : State} (h : DeviceInv s) : RegsOk s :=
  fun i => ⟨h.control i, h.ea i, h.absentTx i, h.absentRx i⟩

theorem DeviceInv.ready {s : State} (h : DeviceInv s) (hi : s.inited = true) : Ready s :=
  ⟨h.laid hi, h.answers, h.contPtr⟩

/-- The frame of every row but `init` leaves the registers, the layout and the continuation to show. -/
theorem DeviceInv.of_coreFrame {s t : State} (h : DeviceInv s) (f : CoreFrame s t) (regs : RegsOk t)
    (laid : t.inited = true → Laid t) (contPtr : ∀ c, t.cont = some c → ∃ a, c.ptr = .app a) : DeviceInv t where
  core := f.coreInv h.core
  laid := laid
  zeroType := by rw [f.cfg]; exact h.zeroType
  control i := (regs i).control
  ea i := (regs i).ea
  absentTx i := (regs i).absentTx
  absentRx i := (regs i).absentRx
  contPtr := contPtr
  script x hx := h.script x (f.script ▸ hx)
  answers a ha := h.answers a (f.answers a ha)

theorem DeviceInv.of_blockFrame {s t : State} (h : DeviceInv s) (f : BlockFrame s t) (r : Ready t) : DeviceInv t :=
  have hc : configOk s.cfg = true := f.core.cfg ▸ r.laid.cfgOk
  h.of_coreFrame f.core (f.regs hc h.zeroType h.regsOk) (fun _ => r.laid) r.contPtr

/-- A change that reaches neither the registers nor the PMA nor the continuation. -/
theorem DeviceInv.of_quiet {s t : State} (h : DeviceInv s) (f : CoreFrame s t) (he : t.epr = s.epr)
    (hp : t.pma = s.pma) (hk : t.cont = s.cont) : DeviceInv t :=
  h.of_coreFrame f (fun i => by rw [f.cfg, he]; exact h.regsOk i)
    (fun hi => (h.laid (f.inited ▸ hi)).congr f.cfg f.btable fun _ _ => by rw [hp]) (hk ▸ h.contPtr)

theorem DeviceInv.setOut {s : State} (h : DeviceInv s) (o : List Out) : DeviceInv { s with out := o } :=
  h.of_quiet { CoreFrame.refl s with } rfl rfl rfl

theorem DeviceInv.appStore {s : State} (h : DeviceInv s) (a : Nat) (bs : List Byte) : DeviceInv (appStore a bs s) :=
  h.of_quiet (appStore_block a bs s).core rfl rfl rfl

theorem DeviceInv.busError {s : State} (h : DeviceInv s) (e : BusError) : DeviceInv (busError e s) := by
  refine h.of_quiet (busError_block e s).core ?_ ?_ ?_ <;> unfold Machine.busError <;> split <;> rfl

theorem DeviceInv.takeInput {s : State} {x : Input} {rest : List Input} (h : DeviceInv s)
    (hs : s.script = x :: rest) : DeviceInv (takeInput rest s) :=
  { h with
    core := h.core.takeInput rest
    laid := fun hi => (h.laid hi).congr rfl rfl fun _ _ => rfl
    script := fun y hy => h.script y (hs ▸ List.mem_cons_of_mem x hy) }

/-! ## The rows the outside can give -/

/-- A row of the command port or of the bus (47_application_interface.md R330, R331). -/
def FromOutside (i : Instr) : Prop := i.port = .command ∨ i.port = .bus

/-- What a line from outside the block carries: a row of the command port or the bus, and a usable buffer. -/
theorem decode_of_external {y : Layout} {l : Line} {i : Instr} (hx : Input.external (.line l) = true)
    (hd : decode y l = .ok i) : FromOutside i ∧ Instr.safe i = true := by
  obtain ⟨-, hp⟩ := decode_legal y l i hd
  obtain ⟨port, bytes⟩ := l
  cases port with
  | command =>
    have hd : decodeCommand bytes = .ok i := hd
    exact ⟨.inl hp, by simpa only [Input.external, hd] using hx⟩
  | bus =>
    refine ⟨.inr hp, ?_⟩
    cases i with
    | epWrite _ _ _ | epRead _ _ _ | controlIn _ _ _ => cases hp
    | _ => rfl
  | internal | driver | event | completion | request => cases hx

/-! ## Before `init` -/

theorem engineReady_cold {s : State} (h : s.inited = false) : engineReady s = false := by
  simp [engineReady, h]

theorem engineAnswers_cold {s : State} (h : s.inited = false) : engineAnswers s = false := by
  simp [engineAnswers, engineReady_cold h]

/-- Before `init` every other command is refused, and a bus line changes the ports at most (10_state.md R32, log 16). -/
theorem exec_cold {i : Instr} {s : State} (hi : i ≠ .init) (ho : FromOutside i) (h : s.inited = false) :
    exec i s = .refused .notInited ∨ ∃ o, exec i s = .next { s with out := o } := by
  have hr := engineReady_cold h
  have ha := engineAnswers_cold h
  cases i with
  | init => exact absurd rfl hi
  | task | epWrite _ _ _ | epRead _ _ _ | controlIn _ _ _ | serialStringDescriptor => exact .inl (whenInited_cold h _)
  | busReset => exact .inr ⟨s.out, by simp [exec, execBusReset, busReset, hr]⟩
  | busSof => exact .inr ⟨s.out, by simp [exec, execBusSof, hr]⟩
  | busSuspend => exact .inr ⟨s.out, by simp [exec, execBusSuspend, hr]⟩
  | busWakeup => exact .inr ⟨s.out, by simp [exec, execBusWakeup, hr]⟩
  | busSetup p => exact .inr ⟨_, by simp only [exec, execBusSetup, busSetup, ha]; rfl⟩
  | busOut e data => exact .inr ⟨_, by simp only [exec, execBusOut, busOut, ha]; rfl⟩
  | busIn e => exact .inr ⟨_, by simp only [exec, execBusIn, busIn, ha]; rfl⟩
  | _ => rcases ho with hp | hp <;> cases hp

/-! ## After `init` -/

theorem whenInited_runs {s : State} {r : Except Fault State} (hi : s.inited = true) (h : Runs r) :
    ∃ t, whenInited s r = .next t ∧ Ready t := by
  obtain ⟨t, rfl, ht⟩ := h
  exact ⟨t, whenInited_ok hi t, ht⟩

theorem serialDescriptor_ready {s : State} (h : Ready s) : Ready (serialDescriptor s) := by
  unfold serialDescriptor
  split
  · exact h
  · exact h.of_fields rfl rfl (fun _ _ => rfl) rfl h.contPtr

theorem busReset_ready {s : State} (h : Ready s) : Ready (busReset s) := by
  unfold busReset
  split
  · exact h.of_fields rfl rfl (fun _ _ => rfl) rfl h.contPtr
  · exact h

/-- The rows that set one flag of `ISTR` while the engine is ready (46_usb_engine_agent.md R302, R303, R305). -/
theorem busFlag_ready (f : Word) {s : State} (h : Ready s) : Ready (if engineReady s then istrSet f s else s) :=
  ite_of (fun _ => istrSet_ready f h) fun _ => h

/-- After `init` every row from outside runs to its end and leaves the block ready. -/
theorem exec_live {i : Instr} {s : State} (hi : i ≠ .init) (ho : FromOutside i) (hu : Instr.safe i = true)
    (hin : s.inited = true) (h : Ready s)
    (hc : ∀ j : Fin 8, Epr.epType s.cfg.layout.typeCodes s.epr[j] = .control → j = 0) :
    ∃ t, exec i s = .next t ∧ Ready t := by
  cases i with
  | init => exact absurd rfl hi
  | task => exact whenInited_runs hin (task_runs h)
  | epWrite ept buf len => exact whenInited_runs hin (runAct_runs (a := .epWrite ept buf len) h hu)
  | epRead ept buf cap => exact whenInited_runs hin (runAct_runs (a := .epRead ept buf cap) h hu)
  | controlIn buf buflen reqlen => exact whenInited_runs hin (runAct_runs (a := .controlIn buf buflen reqlen) h hu)
  | serialStringDescriptor => exact whenInited_runs hin (.ok (emit_ready _ (serialDescriptor_ready h)))
  | busReset => exact ⟨_, rfl, busReset_ready h⟩
  | busSof | busSuspend | busWakeup => exact ⟨_, rfl, busFlag_ready _ h⟩
  | busSetup p => exact lift_runs (busSetup_runs p h hc)
  | busOut e data => exact lift_runs (busOut_runs e data h)
  | busIn e => exact lift_runs (busInChecked_runs e.ept e.expect h)
  | _ => rcases ho with hp | hp <;> cases hp

/-! ## Every step -/

/-- The outcome is no fault, and a next state meets the device invariant. -/
def KeepsDevice (o : Host.Outcome State Fault Refusal) : Prop :=
  (∀ f, o ≠ .fault f) ∧ ∀ t, o = .next t → DeviceInv t

theorem KeepsDevice.next {t : State} (h : DeviceInv t) : KeepsDevice (.next t) :=
  ⟨by rintro _ ⟨⟩, by rintro _ ⟨⟩; exact h⟩

theorem KeepsDevice.refused (r : Refusal) : KeepsDevice (.refused r) := ⟨by rintro _ ⟨⟩, by rintro _ ⟨⟩⟩

/-- `init` is refused, or lays the table out and writes no endpoint register (40_pma_allocator.md R141, R142). -/
theorem exec_init_keepsDevice {s : State} (h : DeviceInv s) : KeepsDevice (exec .init s) := by
  cases hi : s.inited with
  | true => rw [exec_init_again hi]; exact .refused _
  | false =>
    cases hc : configOk s.cfg with
    | false => rw [exec_init_illFormed hi hc]; exact .refused _
    | true =>
      have hx := exec_init_ok hi hc
      rw [hx]
      exact .next { h with core := init_coreInv h.core hx, laid := fun _ => laid_of_layout hc rfl rfl }

theorem exec_keepsDevice {i : Instr} {s : State} (ho : FromOutside i) (hu : Instr.safe i = true) (h : DeviceInv s) :
    KeepsDevice (exec i s) := by
  by_cases hi : i = .init
  · subst hi
    exact exec_init_keepsDevice h
  · cases hin : s.inited with
    | false =>
      obtain hx | ⟨o, hx⟩ := exec_cold hi ho hin <;> rw [hx]
      · exact .refused _
      · exact .next (h.setOut o)
    | true =>
      obtain ⟨t, hx, hr⟩ := exec_live hi ho hu hin (h.ready hin) h.control
      have hp : i.port ≠ .driver := fun e => by rcases ho with hp | hp <;> rw [hp] at e <;> cases e
      rw [hx]
      exact .next (h.of_blockFrame (exec_block hi hp hx) hr)

theorem undecoded_keepsDevice (e : DecodeError) {s : State} (h : DeviceInv s) : KeepsDevice (undecoded e s) :=
  ite_of (fun _ => .next h) fun _ => .refused _

/-- Settles O59, by the input at the front of the script: a line from outside runs to its end under the layout, and
whatever runs keeps the frame of the block. -/
theorem everyStepKeepsTheDeviceInvariant : Obligations.EveryStepKeepsTheDeviceInvariant := by
  intro s h
  show KeepsDevice (step s)
  cases hs : s.script with
  | nil => rw [step_of_nil hs]; exact .next (h.setOut [])
  | cons x rest =>
    have hx : Input.external x = true := h.script x (hs ▸ List.mem_cons_self)
    have h' := h.takeInput hs
    cases x with
    | line l =>
      cases hd : decode s.cfg.layout l with
      | ok i =>
        obtain ⟨ho, hu⟩ := decode_of_external hx hd
        rw [step_of_decoded hs hd]
        exact exec_keepsDevice ho hu h'
      | error e => rw [step_of_undecoded hs hd]; exact undecoded_keepsDevice e h'
    | appStore a bs => rw [step_of_appStore hs]; exact .next (h'.appStore a bs)
    | busError e => rw [step_of_busError hs]; exact .next (h'.busError e)

end Sys2Proof.Machine

/-! Endpoint input and output (41_endpoint_io.md): the commands `ep_write`, `ep_read`, `control_in` and
`control_in_resume` under the layout, and a reply taken whole by the host (R169). -/

namespace Sys2Proof.Machine

/-! ## One packet -/

theorem Armed.cfg {i : Fin 8} {s t : State} {bytes : List Byte} (h : Armed i s t bytes) : t.cfg = s.cfg := by
  rw [h.frame]

theorem Armed.istr {i : Fin 8} {s t : State} {bytes : List Byte} (h : Armed i s t bytes) : t.istr = s.istr := by
  rw [h.frame]

theorem Armed.mem {i : Fin 8} {s t : State} {bytes : List Byte} (h : Armed i s t bytes) : t.mem = s.mem := by
  rw [h.frame]

theorem Armed.out {i : Fin 8} {s t : State} {bytes : List Byte} (h : Armed i s t bytes) : t.out = s.out := by
  rw [h.frame]

theorem Armed.engineAnswers {i : Fin 8} {s t : State} {bytes : List Byte} (h : Armed i s t bytes) :
    engineAnswers t = engineAnswers s := by
  rw [h.frame]; rfl

/-- `ep_write` on the command port, with its tests passed and its bytes readable (R156). -/
theorem exec_epWrite_arms {s : State} {i : Fin 8} {buf : AppRef} {len : Word} {bytes : List Byte}
    (hi : s.inited = true) (h : Laid s) (hp : sizeIn s.cfg i ≠ 0) (hl : len.toNat ≤ sizeIn s.cfg i)
    (hm : memReadN len.toNat buf.ptr s = .ok bytes) :
    ∃ t, exec (.epWrite (BitVec.ofNat 8 i.val) buf len) s = .next t ∧ t.out = s.out ++ [.wrote true] ∧
      Armed i s { t with out := s.out } bytes := by
  obtain ⟨u, hu, ha, -⟩ := epWrite_of_laid h (slotIndex_ofByte i) hp hl hm
  refine ⟨emit (.wrote true) u, ?_, by rw [emit_out, ha.out], ?_⟩
  · simp only [exec, execEpWrite, hu, ok_bind, whenInited_ok hi]
  · have hu' : { emit (.wrote true) u with out := s.out } = u := by rw [← ha.out]; rfl
    rwa [hu']

/-- Settles O14, from `ep_write` under the layout: the bytes of application memory, or none at all. -/
theorem epWriteArmsThePacket : Obligations.EpWriteArmsThePacket := by
  intro s i len hi h hp hl
  refine ⟨fun p => exec_epWrite_arms hi h hp hl (memReadN_app _ p s), ?_⟩
  rintro rfl
  exact exec_epWrite_arms hi h hp hl (memReadN_zero _ s)

/-- The result on the port and the register set after it commute. -/
theorem emit_eprSetStatRx (o : Out) (i : Fin 8) (st : Stat) (s : State) :
    emit o (eprSetStatRx i st s) = eprSetStatRx i st (emit o s) := rfl

/-- `ep_read` on the command port into application memory (R160). -/
theorem exec_epRead_app {s : State} {i : Fin 8} {cap : Word} (p : Nat) (hi : s.inited = true) (h : Laid s)
    (hp : sizeOut s.cfg i ≠ 0) :
    exec (.epRead (BitVec.ofNat 8 i.val) (.app p) cap) s =
      .next (eprSetStatRx i .valid (emit (.gotCount (readLen s i cap))
        { s with mem := s.mem.writeAll p (s.pma.readAll (bufRx s.cfg i) (readLen s i cap).toNat) })) := by
  simp only [exec, execEpRead, AppRef.ptr, epRead_of_laid (.app p) h (slotIndex_ofByte i) hp, memWriteN_app, Except.map,
    ok_bind, emit_eprSetStatRx, whenInited_ok hi]

/-- Settles O16: the bytes written read back, and the register set is the only other change. -/
theorem epReadDeliversTheBytes : Obligations.EpReadDeliversTheBytes := by
  intro s i cap p hi h hp
  have hlen := Memory.length_readAll s.pma (bufRx s.cfg i) (readLen s i cap).toNat
  refine ⟨readLen s i cap, toNat_readLen s i cap, _, exec_epRead_app p hi h hp, ?_, fun a ha => ?_,
    eprSetStatRx_statRx i .valid _, eprSetStatRx_oneReg i .valid _⟩
  · have hback := Memory.readAll_writeAll s.mem p (s.pma.readAll (bufRx s.cfg i) (readLen s i cap).toNat)
    rwa [hlen] at hback
  · exact Memory.read_writeAll_outside _ _ _ _ (by rwa [hlen])

/-! ## The fragments of a reply -/

/-- `control_in` on the command port (R165). -/
theorem exec_controlIn_ok {s t : State} {buf : AppRef} {buflen reqlen : Word} (hi : s.inited = true)
    (ht : controlIn buf.ptr buflen reqlen s = .ok t) : exec (.controlIn buf buflen reqlen) s = .next t := by
  simp only [exec, execControlIn, ht, whenInited_ok hi]

/-- Settles O17, from `control_in` of application memory and of nothing. -/
theorem controlInSendsTheFirstFragment : Obligations.ControlInSendsTheFirstFragment := by
  intro s buflen reqlen hi h
  refine ⟨fun p => ?_, fun h0 => ?_⟩
  · obtain ⟨t, ht, -, hr⟩ := controlIn_app (p := p) (buflen := buflen) (reqlen := reqlen) h
    exact ⟨t, exec_controlIn_ok hi ht, hr⟩
  · obtain ⟨t, ht, -, hc, ha⟩ := controlIn_empty (buf := .null) h h0
    exact ⟨t, exec_controlIn_ok hi ht, hc, ha⟩

/-- What is left of a reply is sent as a reply of its own (R165, R168). -/
theorem controlInResume_eq_controlIn (c : Cont) (s : State) : controlInResume c s = controlIn c.ptr c.rem c.rem s := by
  simp [controlInResume, controlIn, minWord]

/-- `control_in_resume` with what is left in application memory (R168). -/
theorem controlInResume_app {p : Nat} {rem : Word} {s : State} (h : Laid s) :
    ∃ t, controlInResume ⟨.app p, rem⟩ s = .ok t ∧ RepliedAt s t p rem.toNat := by
  obtain ⟨t, ht, -, hr⟩ := controlIn_app (p := p) (buflen := rem) (reqlen := rem) h
  exact ⟨t, by rw [controlInResume_eq_controlIn, ht], Nat.min_self rem.toNat ▸ hr⟩

/-- Settles O18, from `control_in_resume` of application memory. -/
theorem resumeSendsTheNextFragment : Obligations.ResumeSendsTheNextFragment := by
  intro s p rem hi h hc
  obtain ⟨t, ht, hr⟩ := controlInResume_app (p := p) (rem := rem) h
  exact ⟨t, by simp only [exec, execControlInResume, hc, ht, whenInited_ok hi], hr⟩

/-! ## Bytes split into packets -/

/-- Up to 64 bytes are one packet. -/
theorem packets_of_le {bytes : List Byte} (h : bytes.length ≤ 64) : packets bytes = [bytes] := by
  have hn : max 1 ((bytes.length + 63) / 64) = 1 := by omega
  simp [packets, hn, List.take_of_length_le h]

/-- More than 64 bytes are a full packet and the packets of the rest. -/
theorem packets_of_lt {bytes : List Byte} (h : 64 < bytes.length) :
    packets bytes = bytes.take 64 :: packets (bytes.drop 64) := by
  have hn : max 1 ((bytes.length + 63) / 64) = max 1 ((bytes.length - 64 + 63) / 64) + 1 := by omega
  simp [packets, hn, List.range_succ_eq_map, Function.comp_def, Nat.mul_succ, Nat.add_comm 64]

theorem packets_readAll_of_lt {m : Memory} {p total : Nat} (h : 64 < total) :
    packets (m.readAll p total) = m.readAll p 64 :: packets (m.readAll (p + 64) (total - 64)) := by
  rw [packets_of_lt (by rwa [Memory.length_readAll]), Memory.take_readAll _ _ _ _ (Nat.le_of_lt h), Memory.drop_readAll]

/-! ## Endpoint 0 while the host takes a reply -/

/-- The engine answers, register 0 answers to address 0, and a transmission on endpoint 0 is all that `task` can find to
serve there: no bus event and no reception is pending. -/
structure Ep0Quiet (s : State) : Prop where
  laid : Laid s
  answers : engineAnswers s = true
  noEvent : s.istr &&& 0x1E00 = 0
  ea : Epr.ea s.epr[0] = 0
  noRx : Epr.ctrRx s.epr[0] = false

/-- The transmit half of register 0 is free to change. -/
theorem Ep0Quiet.of_fields {s t : State} (h : Ep0Quiet s) (hl : Laid t) (he : engineAnswers t = engineAnswers s)
    (hi : t.istr = s.istr) (hr : t.epr[0] &&& ~~~(0x00F0 : Word) = s.epr[0] &&& ~~~(0x00F0 : Word)) : Ep0Quiet t where
  laid := hl
  answers := he.trans h.answers
  noEvent := hi ▸ h.noEvent
  ea := (ea_of_outside hr (by decide)).trans h.ea
  noRx := (ctrRx_of_outside hr (by decide)).trans h.noRx

theorem Ep0Quiet.setOut {s : State} (h : Ep0Quiet s) (o : List Out) : Ep0Quiet { s with out := o } :=
  h.of_fields (h.laid.congr rfl rfl fun _ _ => rfl) rfl rfl rfl

theorem Ep0Quiet.oneReg {s t : State} {m : Word} (h : Ep0Quiet s) (o : OneReg s t 0 m)
    (hm : m &&& ~~~(0x00F0 : Word) = 0) : Ep0Quiet t :=
  h.of_fields (o.laid h.laid) (by rw [o.frame]; rfl) (by rw [o.frame]) (outside_mono o.outside hm)

theorem Ep0Quiet.inited {s : State} (h : Ep0Quiet s) : s.inited = true := by
  have ha := h.answers
  simp only [engineAnswers, Bool.and_eq_true, engineReady_iff] at ha
  obtain ⟨⟨hi, -⟩, -⟩ := ha
  exact hi

/-- A latched address is written with `EF` set (10_state.md R51). -/
theorem efAddr_enabled (a : BitVec 7) : efAddr a &&& daddrEf ≠ 0 := by
  revert a; decide

/-- The address latch writes the device state and the address only (43_control_engine.md R216). -/
theorem latchAddress_frame (s : State) : latchAddress s =
    { s with devState := (latchAddress s).devState, pendFlag := (latchAddress s).pendFlag,
             daddr := (latchAddress s).daddr } := by
  unfold latchAddress; split <;> rfl

@[simp] theorem latchAddress_epr (s : State) : (latchAddress s).epr = s.epr := by rw [latchAddress_frame]

@[simp] theorem latchAddress_cont (s : State) : (latchAddress s).cont = s.cont := by rw [latchAddress_frame]

@[simp] theorem latchAddress_mem (s : State) : (latchAddress s).mem = s.mem := by rw [latchAddress_frame]

/-- A device that takes its new address goes on answering. -/
theorem latchAddress_engineAnswers {s : State} (h : engineAnswers s = true) : engineAnswers (latchAddress s) = true := by
  unfold latchAddress
  split
  · simp only [engineAnswers, Bool.and_eq_true] at h ⊢
    exact ⟨h.1, decide_eq_true (efAddr_enabled s.pendAddr)⟩
  · exact h

theorem Ep0Quiet.latchAddress {s : State} (h : Ep0Quiet s) : Ep0Quiet (latchAddress s) :=
  h.of_fields (h.laid.congr (by rw [latchAddress_frame]) (by rw [latchAddress_frame])
      fun _ _ => by rw [latchAddress_frame])
    ((latchAddress_engineAnswers h.answers).trans h.answers.symm) (by rw [latchAddress_frame])
    (by rw [latchAddress_epr])

/-- A fragment sent leaves endpoint 0 ready for the next IN transaction. -/
theorem Ep0Quiet.replied {s t : State} {p total : Nat} (h : Ep0Quiet s) (r : RepliedAt s t p total) : Ep0Quiet t := by
  have ha := r.armed
  have hl : Laid { t with cont := s.cont } :=
    ha.laid h.laid (by rw [Memory.length_readAll]; exact Nat.min_le_right total 64)
  exact h.of_fields (hl.congr rfl rfl fun _ _ => rfl) ha.engineAnswers ha.istr
    (outside_mono ha.outside (by decide))

/-! ## One round of the host -/

/-- The packet that stands in the IN buffer of endpoint 0. -/
def inPacket (s : State) : List Byte := s.pma.readAll (bufTx s.cfg 0) (s.pma.word 2).toNat

/-- What the IN transaction on endpoint 0 leaves while it is armed (46_usb_engine_agent.md R309). -/
def afterPacket (s : State) : State :=
  setEpr 0 (afterIn s.epr[0]) (emit (.packet (Epr.dtogTx s.epr[0]) (inPacket s)) { s with out := [] })

/-- What the endpoint-0 IN completion leaves before it looks at the continuation (43_control_engine.md R216). -/
def packetDone (s : State) : State := latchAddress (eprClearCtrTx 0 (afterPacket s))

theorem inPacket_of_replied {s t : State} {p total : Nat} (r : RepliedAt s t p total) :
    inPacket t = s.mem.readAll p (min total 64) := by
  have ha := r.armed
  have hc : t.cfg = s.cfg := ha.cfg
  have hn : (t.pma.word 2).toNat = min total 64 := by
    have hw : t.pma.word 2 = _ := ha.count
    rw [hw, Memory.length_readAll, BitVec.toNat_ofNat]
    omega
  have hp := ha.payload
  rw [Memory.length_readAll] at hp
  rw [inPacket, hc, hn]
  exact hp

theorem afterPacket_oneReg (s : State) : OneReg { s with out := (afterPacket s).out } (afterPacket s) 0 0x00F0 :=
  oneReg_setEpr (afterIn_fields s.epr[0]).1

theorem afterPacket_reg (s : State) : (afterPacket s).epr[0] = afterIn s.epr[0] :=
  (epr_setEpr 0 0 _ _).trans (if_pos rfl)

theorem Ep0Quiet.afterPacket {s : State} (h : Ep0Quiet s) : Ep0Quiet (afterPacket s) :=
  (h.setOut _).oneReg (afterPacket_oneReg s) (by decide)

theorem Ep0Quiet.packetDone {s : State} (h : Ep0Quiet s) : Ep0Quiet (packetDone s) :=
  (h.afterPacket.oneReg (eprClearCtrTx_oneReg 0 _) (by decide)).latchAddress

theorem packetDone_cont (s : State) : (packetDone s).cont = s.cont := latchAddress_cont _

theorem packetDone_mem (s : State) : (packetDone s).mem = s.mem := latchAddress_mem _

/-- The transmitted direction is NAK until something arms it again. -/
theorem packetDone_statTx (s : State) : Epr.statTx (packetDone s).epr[0] = .nak := by
  obtain ⟨-, -, hnak, -⟩ := afterIn_fields s.epr[0]
  have hclear := statTx_of_outside (eprClearCtrTx_oneReg 0 (afterPacket s)).outside (by decide)
  rw [packetDone, latchAddress_epr]
  exact hclear.trans ((congrArg Epr.statTx (afterPacket_reg s)).trans hnak)

theorem ep0InDone_of_none {s : State} (h : s.cont = none) : ep0InDone (afterPacket s) = .ok (packetDone s) := by
  have hc : (latchAddress (eprClearCtrTx 0 (afterPacket s))).cont = none := (packetDone_cont s).trans h
  simp only [ep0InDone, hc, packetDone]

theorem ep0InDone_of_some {s : State} {c : Cont} (h : s.cont = some c) :
    ep0InDone (afterPacket s) = controlInResume c (packetDone s) := by
  have hc : (latchAddress (eprClearCtrTx 0 (afterPacket s))).cont = some c := (packetDone_cont s).trans h
  simp only [ep0InDone, hc, packetDone]

/-- The host takes the armed packet (46_usb_engine_agent.md R309). -/
theorem exec_busIn_armed {s : State} (h : Ep0Quiet s) (hv : Epr.statTx s.epr[0] = .valid) :
    exec (.busIn ⟨0, none⟩) { s with out := [] } = .next (afterPacket s) := by
  have q := h.setOut []
  have hs : servingReg 0 .tx { s with out := [] } = some 0 :=
    servingReg_iff.2 ⟨h.ea, fun hd => (by decide : Stat.valid ≠ .disabled) (hv.symm.trans hd),
      fun j hj => absurd hj (Fin.not_lt_zero j)⟩
  exact execBusIn_eq_next.2 ⟨_, busIn_valid q.laid q.answers hs hv, rfl⟩

/-- The integrator's `task` then runs the endpoint-0 IN completion and nothing else (45_event_loop.md R271, R284). -/
theorem exec_task_afterPacket {s v : State} (h : Ep0Quiet s) (hd : ep0InDone (afterPacket s) = .ok v) :
    exec .task (afterPacket s) = .next v := by
  have q := h.afterPacket
  obtain ⟨-, hctr, -, -⟩ := afterIn_fields s.epr[0]
  have ht : Epr.ctrTx (afterPacket s).epr[0] = true := (congrArg Epr.ctrTx (afterPacket_reg s)).trans hctr
  simp only [exec, execTask, task_ep0In q.noEvent q.noRx ht, hd, whenInited_ok q.inited]

/-- One round of the host while a packet is armed. -/
theorem drain_armed {s v : State} (fuel : Nat) (h : Ep0Quiet s) (hv : Epr.statTx s.epr[0] = .valid)
    (hd : ep0InDone (afterPacket s) = .ok v) :
    drain (fuel + 1) s = (drain fuel v).map fun q => (inPacket s :: q.1, q.2) := by
  have ho : (afterPacket s).out = [.packet (Epr.dtogTx s.epr[0]) (inPacket s)] := rfl
  simp only [drain, hv, if_true, exec_busIn_armed h hv, ho, exec_task_afterPacket h hd]

/-- The host stops when nothing is armed. -/
theorem drain_nak {s : State} (fuel : Nat) (h : Epr.statTx s.epr[0] = .nak) : drain (fuel + 1) s = some ([], s) := by
  simp [drain, h]

/-! ## The whole reply -/

/-- The host takes the packets `ps` from `t`, and then nothing is armed and no continuation is left. -/
def Drains (fuel : Nat) (t : State) (ps : List (List Byte)) : Prop :=
  ∃ v, drain fuel t = some (ps, v) ∧ v.cont = none ∧ Epr.statTx v.epr[0] = .nak

/-- A reply of at most 64 bytes is one packet, and nothing follows it. -/
theorem drains_last {s t : State} {p total : Nat} (fuel : Nat) (h : Ep0Quiet s) (r : RepliedAt s t p total)
    (hn : total ≤ 64) : Drains (fuel + 2) t (packets (s.mem.readAll p total)) := by
  have hc : t.cont = none := r.tail.trans (if_neg (by omega))
  refine ⟨packetDone t, ?_, (packetDone_cont t).trans hc, packetDone_statTx t⟩
  rw [drain_armed (fuel + 1) (h.replied r) r.armed.valid (ep0InDone_of_none hc), drain_nak fuel (packetDone_statTx t),
    inPacket_of_replied r, Nat.min_eq_left hn, packets_of_le (by rwa [Memory.length_readAll])]
  rfl

/-- After the first 64 bytes of a longer reply its rest is armed as a reply of its own (R168). -/
theorem ep0InDone_next {s t : State} {p total : Nat} (h : Ep0Quiet s) (r : RepliedAt s t p total) (hn : 64 < total)
    (hw : total < 65536) :
    ∃ v, ep0InDone (afterPacket t) = .ok v ∧ RepliedAt (packetDone t) v (p + 64) (total - 64) := by
  have hc : t.cont = some ⟨.app (p + 64), BitVec.ofNat 16 (total - 64)⟩ := r.tail.trans (if_pos hn)
  have hrem : (BitVec.ofNat 16 (total - 64)).toNat = total - 64 := Nat.mod_eq_of_lt (by omega)
  obtain ⟨v, hv, rv⟩ := controlInResume_app (p := p + 64) (rem := BitVec.ofNat 16 (total - 64))
    (h.replied r).packetDone.laid
  exact ⟨v, (ep0InDone_of_some hc).trans hv, hrem ▸ rv⟩

/-- A reply of as many packets as the fuel allows reaches the host whole. -/
theorem drains_replied (fuel : Nat) {s t : State} {p total : Nat} (h : Ep0Quiet s) (r : RepliedAt s t p total)
    (hn : total ≤ 64 * (fuel + 1)) (hw : total < 65536) :
    Drains (fuel + 2) t (packets (s.mem.readAll p total)) := by
  induction fuel generalizing s t p total with
  | zero => exact drains_last 0 h r (by omega)
  | succ fuel ih =>
    rcases Nat.lt_or_ge 64 total with hlt | hle
    · obtain ⟨v, hv, rv⟩ := ep0InDone_next h r hlt hw
      obtain ⟨w, hd, hc, hs⟩ := ih (h.replied r).packetDone rv (by omega) (by omega)
      refine ⟨w, ?_, hc, hs⟩
      have hm : (packetDone t).mem = s.mem := (packetDone_mem t).trans r.armed.mem
      rw [drain_armed _ (h.replied r) r.armed.valid hv, hd, hm, inPacket_of_replied r,
        packets_readAll_of_lt hlt, Nat.min_eq_right (Nat.le_of_lt hlt)]
      rfl
    · exact drains_last (fuel + 1) h r hle

/-- Settles O19: each round takes the packet armed and arms the next one, by induction on the rounds; 1024 packets hold
every reply a 16-bit length can name. -/
theorem replyReachesTheHostWhole : Obligations.ReplyReachesTheHostWhole := by
  intro s p buflen reqlen hl he hz ha hr
  have q : Ep0Quiet s := ⟨hl, he, hz, ha, hr⟩
  obtain ⟨t, ht, -, r⟩ := controlIn_app (p := p) (buflen := buflen) (reqlen := reqlen) hl
  have hw : min reqlen.toNat buflen.toNat < 65536 := Nat.lt_of_le_of_lt (Nat.min_le_left _ _) reqlen.isLt
  exact ⟨t, exec_controlIn_ok q.inited ht, drains_replied 1023 q r (by omega) hw⟩

end Sys2Proof.Machine

/-! Writes to endpoint registers (42_toggle_write.md): the bit classes of a write, in any `LAYOUT`, and what each row of
the register driver makes of its register. -/

namespace Sys2Proof.Machine

/-! ## A written word, bit class by bit class (R176) -/

/-- Words with the same bits inside a mask are equal there. -/
theorem and_eq_and_of_bits {u v m : Word} (h : ∀ k < 16, m.getLsbD k = true → u.getLsbD k = v.getLsbD k) :
    u &&& m = v &&& m := by
  refine BitVec.eq_of_getLsbD_eq fun k hk => ?_
  rw [BitVec.getLsbD_and, BitVec.getLsbD_and]
  cases hm : m.getLsbD k with
  | false => simp
  | true => rw [h k hk hm]

/-- Each bit is in one class: plain, toggle, clear-by-0, or read-only. -/
theorem getLsbD_writeEffect (r w : Word) {k : Nat} (hk : k < 16) :
    (writeEffect r w).getLsbD k =
      if rwMask.getLsbD k then w.getLsbD k
      else if toggleMask.getLsbD k then r.getLsbD k ^^ w.getLsbD k
      else if ctrMask.getLsbD k then r.getLsbD k && w.getLsbD k
      else r.getLsbD k := by
  simp only [writeEffect, BitVec.getLsbD_or, BitVec.getLsbD_and, BitVec.getLsbD_xor]
  generalize r.getLsbD k = x
  generalize w.getLsbD k = y
  interval_cases k <;> revert x y <;> decide

theorem writeEffect_and_rwMask (r w : Word) : writeEffect r w &&& rwMask = w &&& rwMask :=
  and_eq_and_of_bits fun k hk hm => by rw [getLsbD_writeEffect r w hk, if_pos hm]

theorem getLsbD_writeEffect_toggle (r w : Word) {k : Nat} (hk : k < 16) (hm : toggleMask.getLsbD k = true) :
    (writeEffect r w).getLsbD k = (r.getLsbD k ^^ w.getLsbD k) := by
  have hrw : rwMask.getLsbD k = false := getLsbD_of_and_zero (by decide) hm
  simp [getLsbD_writeEffect r w hk, hrw, hm]

theorem writeEffect_and_toggleMask (r w : Word) : writeEffect r w &&& toggleMask = (r ^^^ w) &&& toggleMask :=
  and_eq_and_of_bits fun _ hk hm => by rw [getLsbD_writeEffect_toggle r w hk hm, BitVec.getLsbD_xor]

theorem writeEffect_and_ctrMask (r w : Word) : writeEffect r w &&& ctrMask = r &&& w &&& ctrMask :=
  and_eq_and_of_bits fun k hk hm => by
    have hrw : rwMask.getLsbD k = false := getLsbD_of_and_zero (by decide) hm
    have htg : toggleMask.getLsbD k = false := getLsbD_of_and_zero (by decide) hm
    simp [getLsbD_writeEffect r w hk, hrw, htg, hm]

theorem writeEffect_and_setupMask (r w : Word) : writeEffect r w &&& setupMask = r &&& setupMask :=
  and_eq_and_of_bits fun k hk hm => by
    have hrw : rwMask.getLsbD k = false := getLsbD_of_and_zero (by decide) hm
    have htg : toggleMask.getLsbD k = false := getLsbD_of_and_zero (by decide) hm
    have hct : ctrMask.getLsbD k = false := getLsbD_of_and_zero (by decide) hm
    simp [getLsbD_writeEffect r w hk, hrw, htg, hct]

/-! ## The same write in a legal `LAYOUT` (00_scope.md R10) -/

theorem getLsbD_moveBits_of_not_mem {n : Nat} {ps : List (Nat × Nat)} (w : BitVec n) {j : Nat} (hj : j < n)
    (h : j ∉ ps.map Prod.snd) : (moveBits ps w).getLsbD j = false := by
  rw [getLsbD_moveBits ps w hj, List.any_eq_false]
  rintro p hp hb
  simp only [Bool.and_eq_true, decide_eq_true_eq] at hb
  exact h (hb.2 ▸ List.mem_map_of_mem hp)

/-- What holds of the bits of three words, and of three zeros, holds of their bits moved to disjoint places. -/
theorem moveBits_bits {n : Nat} {ps : List (Nat × Nat)} (hp : placesOk n ps = true) {f : Bool → Bool → Bool}
    (hf : f false false = false) {u v w : BitVec n} (h : ∀ k, u.getLsbD k = f (v.getLsbD k) (w.getLsbD k))
    {j : Nat} (hj : j < n) :
    (moveBits ps u).getLsbD j = f ((moveBits ps v).getLsbD j) ((moveBits ps w).getLsbD j) := by
  obtain ⟨hd, -⟩ := placesOk_iff.1 hp
  by_cases hm : j ∈ ps.map Prod.snd
  · obtain ⟨p, hpm, rfl⟩ := List.mem_map.1 hm
    simp only [getLsbD_moveBits_of_mem hd _ hpm hj, h]
  · simp only [getLsbD_moveBits_of_not_mem _ hj hm, hf]

theorem moveBits_and {n : Nat} {ps : List (Nat × Nat)} (hp : placesOk n ps = true) (v w : BitVec n) :
    moveBits ps (v &&& w) = moveBits ps v &&& moveBits ps w :=
  BitVec.eq_of_getLsbD_eq fun j hj => by
    rw [BitVec.getLsbD_and, moveBits_bits hp rfl (fun _ => BitVec.getLsbD_and) hj]

theorem moveBits_xor {n : Nat} {ps : List (Nat × Nat)} (hp : placesOk n ps = true) (v w : BitVec n) :
    moveBits ps (v ^^^ w) = moveBits ps v ^^^ moveBits ps w :=
  BitVec.eq_of_getLsbD_eq fun j hj => by
    rw [BitVec.getLsbD_xor, moveBits_bits hp rfl (fun _ => BitVec.getLsbD_xor) hj]

/-- The codes of a legal layout toggle as the default ones do: a permutation of two-bit codes that keeps 00 is linear. -/
theorem statCode_xor {y : Layout} (h : y.ok = true) (a b : BitVec 2) :
    y.statCodes.code (Stat.ofCode (a ^^^ b)) =
      y.statCodes.code (Stat.ofCode a) ^^^ y.statCodes.code (Stat.ofCode b) := by
  have := statCodes_of_ok h
  revert this
  obtain ⟨p, q, r⟩ := y.statCodes
  show [0, p, q, r].Nodup → _
  revert p q r a b
  decide

/-- Both `STAT` fields are made of toggle bits. -/
theorem extract_writeEffect (r w : Word) {k : Nat} (hk : k = 4 ∨ k = 12) :
    (writeEffect r w).extractLsb' k 2 = r.extractLsb' k 2 ^^^ w.extractLsb' k 2 := by
  refine extract_of_bits fun i hi => ?_
  have hm : toggleMask.getLsbD (k + i) = true := by rcases hk with rfl | rfl <;> interval_cases i <;> rfl
  rw [getLsbD_writeEffect_toggle r w (by omega) hm]
  simp [hi]

/-- Recoding the `STAT` fields linearly commutes with a register write. -/
theorem recodeStat_writeEffect {f : BitVec 2 → BitVec 2} (hf : ∀ a b, f (a ^^^ b) = f a ^^^ f b) (r w : Word) :
    recodeStat f (writeEffect r w) = writeEffect (recodeStat f r) (recodeStat f w) := by
  refine BitVec.eq_of_getLsbD_eq fun k hk => ?_
  rw [getLsbD_recodeStat f _ hk, extract_writeEffect r w (.inl rfl), extract_writeEffect r w (.inr rfl), hf, hf,
    getLsbD_writeEffect r w hk, getLsbD_writeEffect _ _ hk,
    getLsbD_recodeStat f r hk, getLsbD_recodeStat f w hk]
  interval_cases k <;> simp [rwMask, toggleMask, ctrMask]

/-- In the words of a legal layout a write acts on the same bits at their places there. -/
theorem eprOut_writeEffect {y : Layout} (h : y.ok = true) (r w : Word) :
    y.eprOut (writeEffect r w) &&& moveBits y.eprBits rwMask = y.eprOut w &&& moveBits y.eprBits rwMask ∧
    y.eprOut (writeEffect r w) &&& moveBits y.eprBits toggleMask =
      (y.eprOut r ^^^ y.eprOut w) &&& moveBits y.eprBits toggleMask ∧
    y.eprOut (writeEffect r w) &&& moveBits y.eprBits ctrMask =
      y.eprOut r &&& y.eprOut w &&& moveBits y.eprBits ctrMask ∧
    y.eprOut (writeEffect r w) &&& moveBits y.eprBits setupMask = y.eprOut r &&& moveBits y.eprBits setupMask := by
  have hp := eprPlaces_of_ok h
  unfold Layout.eprOut
  rw [recodeStat_writeEffect (statCode_xor h)]
  simp only [← moveBits_and hp, ← moveBits_xor hp, writeEffect_and_rwMask, writeEffect_and_toggleMask,
    writeEffect_and_ctrMask, writeEffect_and_setupMask, and_self]

/-! ## A register write on the state -/

theorem eprWrite_eq (i : Fin 8) (w : Word) (s : State) : eprWrite i w s = setEpr i (writeEffect s.epr[i] w) s := rfl

theorem eprWrite_epr_self (i : Fin 8) (w : Word) (s : State) : (eprWrite i w s).epr[i] = writeEffect s.epr[i] w := by
  rw [eprWrite_eq, epr_setEpr, if_pos rfl]

theorem eprWrite_epr_other (i : Fin 8) (w : Word) (s : State) (j : Fin 8) (h : j ≠ i) :
    (eprWrite i w s).epr[j] = s.epr[j] := by
  rw [eprWrite_eq, epr_setEpr, if_neg h]

/-- Of the register it clears, `epr_zero` keeps `SETUP` (R187). -/
theorem eprZero_oneReg (i : Fin 8) (s : State) : OneReg s (eprZero i s) i 0xF7FF := by
  rw [eprZero_eq]; exact oneReg_setEpr (by rw [BitVec.and_assoc]; rfl)

/-! ## Completion flags of all registers (R178, D4) -/

/-- Register `i` loses `CTR_RX` where `rx` and `CTR_TX` where `tx`; every other completion flag is as it was. -/
def ClearsFlags (i : Fin 8) (rx tx : Bool) (s t : State) : Prop :=
  ∀ j : Fin 8, Epr.ctrRx t.epr[j] = (Epr.ctrRx s.epr[j] && !(rx && decide (j = i))) ∧
    Epr.ctrTx t.epr[j] = (Epr.ctrTx s.epr[j] && !(tx && decide (j = i)))

/-- A change of one register touches the flags of that register only. -/
theorem OneReg.clearsFlags {s t : State} {i : Fin 8} {m : Word} {rx tx : Bool} (h : OneReg s t i m)
    (hrx : Epr.ctrRx t.epr[i] = (Epr.ctrRx s.epr[i] && !rx)) (htx : Epr.ctrTx t.epr[i] = (Epr.ctrTx s.epr[i] && !tx)) :
    ClearsFlags i rx tx s t := by
  intro j
  by_cases e : j = i
  · subst e; simpa using ⟨hrx, htx⟩
  · rw [h.others j e]; simp [e]

/-- A change outside the completion flags clears none. -/
theorem OneReg.keepsFlags {s t : State} {i : Fin 8} {m : Word} (h : OneReg s t i m) (hm : m &&& 0x8080 = 0) :
    ClearsFlags i false false s t :=
  h.clearsFlags ((bit_of_outside h.outside (getLsbD_of_and_zero hm rfl)).trans (Bool.and_true _).symm)
    ((bit_of_outside h.outside (getLsbD_of_and_zero hm rfl)).trans (Bool.and_true _).symm)

theorem bothMask_keepsFlags (c : Bool) : bothMask c &&& 0x8080 = 0 := by cases c <;> decide

theorem eprClearCtrRx_flags (i : Fin 8) (s : State) : ClearsFlags i true false s (eprClearCtrRx i s) :=
  have h := eprClearCtrRx_oneReg i s
  h.clearsFlags ((eprClearCtrRx_ctrRx i s).trans (Bool.and_false _).symm)
    ((ctrTx_of_outside h.outside rfl).trans (Bool.and_true _).symm)

theorem eprClearCtrTx_flags (i : Fin 8) (s : State) : ClearsFlags i false true s (eprClearCtrTx i s) :=
  have h := eprClearCtrTx_oneReg i s
  h.clearsFlags ((ctrRx_of_outside h.outside rfl).trans (Bool.and_true _).symm)
    ((eprClearCtrTx_ctrTx i s).trans (Bool.and_false _).symm)

theorem eprZero_flags (i : Fin 8) (s : State) : ClearsFlags i true true s (eprZero i s) :=
  (eprZero_oneReg i s).clearsFlags (by rw [eprZero_epr]; simp [Epr.ctrRx]) (by rw [eprZero_epr]; simp [Epr.ctrTx])

/-! ## The statements -/

/-- Settles O2: the update is one write inside the selection. -/
theorem updateSetsTheSelectedFields : Obligations.UpdateSetsTheSelectedFields := by
  intro i sel tgt s hs ht
  rw [eprUpdate_eq i sel tgt s hs ht]
  refine ⟨?_, oneReg_setEpr (outside_of_set _ _ _ ht)⟩
  rw [epr_setEpr, if_pos rfl, inside_of_set _ _ _ ht]

/-- Settles O3, row by row, from the fields each update sets and its mask. -/
theorem statRowsSetOneDirection : Obligations.StatRowsSetOneDirection := by
  intro i st s
  obtain ⟨htx, hdtx⟩ := eprSetStatTxDtog0_fields i st s
  obtain ⟨hrx, hdrx⟩ := eprSetStatRxDtog0_fields i st s
  exact ⟨⟨_, rfl, eprSetStatTx_statTx i st s, eprSetStatTx_oneReg i st s⟩,
    ⟨_, rfl, eprSetStatRx_statRx i st s, eprSetStatRx_oneReg i st s⟩,
    ⟨_, rfl, htx, hdtx, eprSetStatTxDtog0_oneReg i st s⟩, ⟨_, rfl, hrx, hdrx, eprSetStatRxDtog0_oneReg i st s⟩⟩

/-- Settles O4, from the fields of the one update and its mask. -/
theorem bothDirectionsAreSetTogether : Obligations.BothDirectionsAreSetTogether := by
  intro i stx srx c s
  obtain ⟨htx, hrx, hd⟩ := eprSetStatBoth_fields i stx srx c s
  exact ⟨_, rfl, htx, hrx, hd, bothMask_eq c ▸ eprSetStatBoth_oneReg i stx srx c s⟩

/-- Settles O5: the other flag is written as 1, so one bit is all that changes. -/
theorem completionFlagsAreClearedAlone : Obligations.CompletionFlagsAreClearedAlone := fun i s =>
  ⟨⟨_, rfl, eprClearCtrRx_ctrRx i s, eprClearCtrRx_oneReg i s⟩,
    ⟨_, rfl, eprClearCtrTx_ctrTx i s, eprClearCtrTx_oneReg i s⟩⟩

/-- Settles O6, from the plain fields of the first row and the one bit the second leaves. -/
theorem typeAddressAndZeroRows : Obligations.TypeAddressAndZeroRows := by
  intro i ty ea s
  obtain ⟨hty, hea, hkind⟩ := eprSetTypeAddr_fields i ty ea s
  exact ⟨⟨_, rfl, hty, hea, hkind, eprSetTypeAddr_oneReg i ty ea s⟩, ⟨_, rfl, eprZero_epr i s, eprZero_oneReg i s⟩⟩

/-- Settles O7, row by row: six rows change their register outside the flags, three clear what they target. -/
theorem completionFlagsSurviveDriverWrites : Obligations.CompletionFlagsSurviveDriverWrites := by
  intro x i rx tx s t hx ht
  cases x with
  | eprSetStatTx _ st => cases hx; cases ht; exact (eprSetStatTx_oneReg i st s).keepsFlags rfl
  | eprSetStatRx _ st => cases hx; cases ht; exact (eprSetStatRx_oneReg i st s).keepsFlags rfl
  | eprSetStatTxDtog0 _ st => cases hx; cases ht; exact (eprSetStatTxDtog0_oneReg i st s).keepsFlags rfl
  | eprSetStatRxDtog0 _ st => cases hx; cases ht; exact (eprSetStatRxDtog0_oneReg i st s).keepsFlags rfl
  | eprSetStatBoth _ stx srx c =>
    cases hx; cases ht; exact (eprSetStatBoth_oneReg i stx srx c s).keepsFlags (bothMask_keepsFlags c)
  | eprSetTypeAddr _ ty ea => cases hx; cases ht; exact (eprSetTypeAddr_oneReg i ty ea s).keepsFlags rfl
  | eprClearCtrRx _ => cases hx; cases ht; exact eprClearCtrRx_flags i s
  | eprClearCtrTx _ => cases hx; cases ht; exact eprClearCtrTx_flags i s
  | eprZero _ => cases hx; cases ht; exact eprZero_flags i s
  | _ => cases hx

/-- Settles O1, from the four bit classes of the word written, at their default places and at those of the layout. -/
theorem registerWriteActsBitByBit : Obligations.RegisterWriteActsBitByBit := by
  intro i w s
  have hw := eprWrite_epr_self i w s
  refine ⟨hw ▸ writeEffect_and_rwMask _ w, hw ▸ writeEffect_and_toggleMask _ w, hw ▸ writeEffect_and_ctrMask _ w,
    hw ▸ writeEffect_and_setupMask _ w, eprWrite_epr_other i w s, rfl, fun h => ?_⟩
  have hword : eprWord i (eprWrite i w s) = s.cfg.layout.eprOut (writeEffect s.epr[i] w) :=
    congrArg s.cfg.layout.eprOut hw
  obtain ⟨hplain, htoggle, hctr, hsetup⟩ := eprOut_writeEffect h s.epr[i] w
  rw [hword]
  exact ⟨hplain, htoggle, hctr, hsetup, eprIn_eprOut h w, eprOut_eprIn h w⟩

end Sys2Proof.Machine

/-! The control engine (43_control_engine.md): the request record, the rows against the dispatch rules, SETUP reception,
and the endpoint-0 IN completion with the address it takes. -/

namespace Sys2Proof.Machine

/-! ## The request record -/

/-- The direction bit is the sign of the first byte (30_encoding.md R113). -/
theorem d2h_iff (r : Request) : r.d2h = true ↔ 128 ≤ r.bmRequestType.toNat := by
  rw [Request.d2h, ← BitVec.msb_eq_getLsbD_last, BitVec.msb_eq_decide, decide_eq_true_eq]

/-- Settles O21: the two-byte fields are little-endian words, and the others are bits of the first byte. -/
theorem parseReadsTheFields : Obligations.ParseReadsTheFields := by
  intro p
  have le (lo hi : Byte) : (le16 lo hi).toNat = lo.toNat + 256 * hi.toNat := by rw [toNat_le16, Nat.add_comm]
  refine ⟨rfl, rfl, le _ _, le _ _, le _ _, d2h_iff _, ?_, ?_⟩
  · simp [Request.typ, parse, BitVec.extractLsb'_toNat, Nat.shiftRight_eq_div_pow]
  · simp [Request.recipient, parse, BitVec.extractLsb'_toNat]

/-! ## The rows of the decoder -/

/-- Settles O24: each of these rows is ProtocolReject. -/
theorem rejectRowsStallEndpointZero : Obligations.RejectRowsStallEndpointZero := by
  intro s x hx
  rcases hx with rfl | rfl | rfl | rfl | rfl | rfl <;> exact ⟨_, rfl, protocolReject_stalled s⟩

/-- Settles O57, line by line. -/
theorem sampleWordsDecode : Obligations.SampleWordsDecode :=
  ⟨rfl, rfl, rfl, rfl, rfl, rfl, rfl, rfl, rfl, rfl, rfl, rfl, rfl, rfl⟩

/-! ## The rows and the dispatch rules -/

/-- The row of a packet that is neither class nor vendor does what the switch of R208 does: once the direction and the
code are fixed, the table and the rule ask the same questions of recipient and value, and each row is its operation
(log 28). -/
theorem exec_decodeRequest_standard {p : Packet} (s : State) (hclass : (parse p).typ ≠ 1)
    (hvendor : (parse p).typ ≠ 2) :
    exec (decodeRequest p) s = requestOutcome (parse p).d2h (standard (parse p) s) := by
  simp only [decodeRequest, standard, typ_patterns, direction_patterns, hclass, hvendor, if_false]
  generalize parse p = r
  cases hd : r.d2h with
  | true =>
    by_cases status : r.bRequest = 0x00#8
    · simp [status]; split_ifs <;> rfl
    by_cases descriptor : r.bRequest = 0x06#8
    · simp [descriptor, ite_and]; split_ifs <;> rfl
    by_cases configuration : r.bRequest = 0x08#8
    · simp [configuration]; split_ifs <;> rfl
    by_cases interface : r.bRequest = 0x0A#8
    · simp [interface]; split_ifs <;> rfl
    · simp [status, descriptor, configuration, interface]; split_ifs <;> rfl
  | false =>
    by_cases clearFeature : r.bRequest = 0x01#8
    · simp [clearFeature, ite_and]; split_ifs <;> rfl
    by_cases setFeature : r.bRequest = 0x03#8
    · simp [setFeature, ite_and]; split_ifs <;> rfl
    by_cases address : r.bRequest = 0x05#8
    · simp [address]; split_ifs <;> rfl
    by_cases configuration : r.bRequest = 0x09#8
    · simp [configuration]; split_ifs <;> rfl
    by_cases interface : r.bRequest = 0x0B#8
    · simp [interface]; split_ifs <;> rfl
    · simp [clearFeature, setFeature, address, configuration, interface]; split_ifs <;> rfl

/-- Settles O22, by the type of the request: the class and vendor rows are the first two the decoder tries, and every
other packet is served as Standard (D16). -/
theorem requestRowsFollowTheDispatchRules : Obligations.RequestRowsFollowTheDispatchRules := by
  intro p s
  rw [serveRequest_eq, dispatch]
  by_cases hclass : (parse p).typ = 1
  · simp only [decodeRequest, typ_patterns, hclass, if_true]
    rfl
  by_cases hvendor : (parse p).typ = 2
  · simp only [decodeRequest, typ_patterns, hvendor, if_true]
    rfl
  · rw [if_neg hclass, if_neg hvendor]
    exact exec_decodeRequest_standard s hclass hvendor

/-! ## Requests the application answers -/

/-- A request handed to the application ends as its answer says; an absent callback handles nothing
(43_control_engine.md R205, R206, D15). -/
theorem delegatedRequest_runs (d p : Bool) (c : Call) {s : State} (h : Ready s) :
    ∃ ret u t, requestOutcome d (delegate p c s) = .next t ∧ Finished d ret u t ∧
      if p then Delegated c s u ret else u = s ∧ ret = false := by
  obtain ⟨ret, u, hu, hr⟩ := delegate_runs p c h
  obtain ⟨t, ht, hf, -⟩ := finishRequest_runs d ret hr
  refine ⟨ret, u, t, requestOutcome_eq_next.2 ⟨ret, u, hu, ht⟩, hf, ?_⟩
  simpa only [and_comm] using delegate_eq_ok.1 hu

/-- Settles O37: the three rows are one delegation each. -/
theorem delegatedRequestsEndAsTheApplicationSays : Obligations.DelegatedRequestsEndAsTheApplicationSays := fun _ r h =>
  ⟨delegatedRequest_runs r.d2h _ (.classRequest r) h, delegatedRequest_runs r.d2h _ (.vendorRequest r) h,
    delegatedRequest_runs true _ (.getDescriptorInterface r) h⟩

/-! ## SETUP reception -/

/-- Endpoint 0 once `ep_read` has taken a SETUP packet and `setup_buf` holds `v` (43_control_engine.md R201): `CTR_RX`
is clear and reception is armed again. -/
def setupRead (v : Vector Byte 8) (s : State) : State :=
  eprSetStatRx 0 .valid (eprClearCtrRx 0 { s with setupBuf := v })

theorem setupRead_oneReg (v : Vector Byte 8) (s : State) :
    OneReg { s with setupBuf := v } (setupRead v s) 0 0xB000 :=
  ((eprClearCtrRx_oneReg 0 _).mono (by decide)).trans ((eprSetStatRx_oneReg 0 .valid _).mono (by decide))

theorem setupRead_ctrRx (v : Vector Byte 8) (s : State) : Epr.ctrRx (setupRead v s).epr[0] = false :=
  (ctrRx_of_outside (eprSetStatRx_oneReg 0 .valid _).outside (by decide)).trans (eprClearCtrRx_ctrRx 0 _)

theorem setupRead_statRx (v : Vector Byte 8) (s : State) : Epr.statRx (setupRead v s).epr[0] = .valid :=
  eprSetStatRx_statRx 0 .valid _

/-- The OUT buffer of endpoint 0 follows its IN buffer (40_pma_allocator.md R147). -/
theorem bufRx_zero (c : Config) : bufRx c 0 = 128 := by
  rw [bufRx, (bufTx_eq c).1, sizeIn_zero]

theorem readLen_eq_eight (s : State) : readLen s 0 8 = 8 ↔ 8 ≤ countField (s.pma.word 6) := by
  have h : (readLen s 0 8).toNat = min (countField (s.pma.word 6)) 8 := toNat_readLen s 0 8
  rw [← BitVec.toNat_inj, h, show (8 : Word).toNat = 8 from rfl]
  omega

/-- `ep_read` of a SETUP packet: eight bytes or more fill `setup_buf` with the first eight (log 37). -/
theorem epRead_setup {s : State} (h : Laid s) :
    ∃ v : Vector Byte 8, (8 ≤ countField (s.pma.word 6) → v.toList = s.pma.readAll 128 8) ∧
      epRead 0 (.setupBuf 0) 8 s = .ok (readLen s 0 8, eprSetStatRx 0 .valid { s with setupBuf := v }) := by
  have hr := epRead_of_laid (cap := 8) (.setupBuf 0) h slotIndex_zero (by rw [sizeOut_zero]; decide)
  rw [bufRx_zero] at hr
  by_cases hn : 8 ≤ countField (s.pma.word 6)
  · obtain ⟨v, hv, hw⟩ := memWriteN_setupBuf (Memory.length_readAll s.pma 128 8) s
    rw [(readLen_eq_eight s).2 hn] at hr ⊢
    exact ⟨v, fun _ => hv, hr.trans (congrArg (Except.map _) hw)⟩
  · have hlen : (readLen s 0 8).toNat ≤ 8 := by rw [toNat_readLen]; exact Nat.min_le_right _ _
    obtain ⟨v, hw⟩ := memWriteN_setupBuf_ok (bs := s.pma.readAll 128 (readLen s 0 8).toNat) 0
      (by rwa [Memory.length_readAll, Nat.zero_add]) s
    exact ⟨v, fun h8 => absurd h8 hn, hr.trans (congrArg (Except.map _) hw)⟩

/-- SETUP reception reads the packet, and serves it where eight bytes came (43_control_engine.md R201, D22). -/
theorem ep0Setup_eq {s : State} (h : Laid s) :
    ∃ v : Vector Byte 8, (8 ≤ countField (s.pma.word 6) → v.toList = s.pma.readAll 128 8) ∧
      ep0Setup s = if 8 ≤ countField (s.pma.word 6) then serveRequest (parse v) (setupRead v s)
        else .ok (protocolReject (setupRead v s)) := by
  obtain ⟨v, hv, hr⟩ := epRead_setup ((eprClearCtrRx_oneReg 0 s).laid h)
  refine ⟨v, hv, ?_⟩
  rw [ep0Setup, hr]
  exact (ite_not _ _ _).trans (if_congr (readLen_eq_eight _) rfl rfl)

/-- Settles O38: what was read is served by the row it decodes to, by O22, or rejected on top of the read. -/
theorem setupRunsTheDecodedRequest : Obligations.SetupRunsTheDecodedRequest := by
  intro s h
  obtain ⟨p, hp, he⟩ := ep0Setup_eq h.laid
  refine ⟨fun hn => ?_, fun hn => ?_⟩
  · rw [if_pos hn] at he
    have hx : exec .ep0Setup s = exec (decodeRequest p) (setupRead p s) := by
      rw [requestRowsFollowTheDispatchRules, ← he]
      rfl
    obtain ⟨t, ht, -⟩ := lift_runs (ep0Setup_runs h)
    exact ⟨p, setupRead p s, t, hp hn, setupRead_oneReg p s, setupRead_ctrRx p s, setupRead_statRx p s, hx, ht⟩
  · rw [if_neg (Nat.not_le.2 hn)] at he
    obtain ⟨honly, htx, hrx⟩ := protocolReject_stalled (setupRead p s)
    have hbuf : (protocolReject (setupRead p s)).setupBuf = p := rfl
    refine ⟨_, lift_eq_next.2 he, ?_, ?_, hrx, htx⟩
    · rw [hbuf]
      exact ((setupRead_oneReg p s).mono (by decide)).trans (honly.mono (by decide))
    · exact (ctrRx_of_outside honly.outside (by decide)).trans (setupRead_ctrRx p s)

/-! ## The endpoint-0 IN completion -/

/-- A pending address goes into `DADDR` with `EF`, and the latch is clear either way (43_control_engine.md R216). -/
theorem latchAddress_eq (s : State) : latchAddress s =
    { s with daddr := if s.pendFlag then 0x80 ||| s.pendAddr.setWidth 8 else s.daddr
             devState := if s.pendFlag then .address else s.devState
             pendFlag := false } := by
  unfold latchAddress
  cases h : s.pendFlag with
  | true => rfl
  | false => exact congrArg (fun b => { s with pendFlag := b }) h

/-- Endpoint 0 with `CTR_TX` cleared, which comes first (D24), and the pending address taken. -/
def inDone (s : State) : State := latchAddress (eprClearCtrTx 0 s)

/-- The two parts write different fields. -/
theorem inDone_eq (s : State) : inDone s = eprClearCtrTx 0 (latchAddress s) := by
  rw [inDone, latchAddress_eq, latchAddress_eq]
  rfl

theorem inDone_oneReg (s : State) : OneReg (latchAddress s) (inDone s) 0 0x0080 := by
  rw [inDone_eq]
  exact eprClearCtrTx_oneReg 0 _

theorem inDone_ctrTx (s : State) : Epr.ctrTx (inDone s).epr[0] = false := by
  rw [inDone_eq]
  exact eprClearCtrTx_ctrTx 0 _

theorem inDone_laid {s : State} (h : Laid s) : Laid (inDone s) := by
  have hl : Laid (latchAddress s) := by
    rw [latchAddress_eq]
    exact h.congr rfl rfl fun _ _ => rfl
  exact (inDone_oneReg s).laid hl

theorem inDone_cont (s : State) : (inDone s).cont = s.cont := latchAddress_cont _

theorem ep0InDone_none {s : State} (h : s.cont = none) : ep0InDone s = .ok (inDone s) := by
  have hc : (latchAddress (eprClearCtrTx 0 s)).cont = none := (inDone_cont s).trans h
  simp only [ep0InDone, hc, inDone]

theorem ep0InDone_some {s : State} {c : Cont} (h : s.cont = some c) : ep0InDone s = controlInResume c (inDone s) := by
  have hc : (latchAddress (eprClearCtrTx 0 s)).cont = some c := (inDone_cont s).trans h
  simp only [ep0InDone, hc, inDone]

/-- Settles O29, by the continuation: nothing follows, or the next fragment is sent on top of the completion. -/
theorem inCompletionLatchesTheAddress : Obligations.InCompletionLatchesTheAddress := by
  intro s hl hp
  have hone := inDone_oneReg s
  rw [latchAddress_eq] at hone
  obtain hc | ⟨⟨ptr, rem⟩, hc⟩ := Option.eq_none_or_eq_some s.cont
  · exact ⟨_, _, lift_eq_next.2 (ep0InDone_none hc), hone, inDone_ctrTx s, fun _ => rfl,
      fun _ _ h => absurd (hc.symm.trans h) nofun⟩
  · obtain ⟨p, rfl⟩ := hp _ hc
    obtain ⟨t, ht, hr⟩ := controlInResume_app (p := p) (rem := rem) (inDone_laid hl)
    refine ⟨_, t, lift_eq_next.2 ((ep0InDone_some hc).trans ht), hone, inDone_ctrTx s,
      fun h => absurd (hc.symm.trans h) nofun, fun q n h => ?_⟩
    cases hc.symm.trans h
    exact hr

/-- The completion leaves the device at the latched address; the next fragment keeps it there. -/
theorem ep0InDone_address {s t : State} (h : ep0InDone s = .ok t) : SameAddress (inDone s) t := by
  cases hc : s.cont with
  | none =>
    rw [ep0InDone_none hc] at h
    cases h
    exact .refl _
  | some c =>
    rw [ep0InDone_some hc] at h
    exact (sendFragment_frame h).1.sameAddress

/-! ## SET_ADDRESS and its status stage -/

/-- SET_ADDRESS that is accepted and latched (44_standard_requests.md R240): the hook, and the status packet. -/
theorem exec_setAddress_latches {s : State} {a : BitVec 7} (h : Ready s) (hd : ¬(s.devState = .default ∧ a = 0))
    (hc : ¬(s.devState = .configured ∧ s.cfg.setAddressInConfigured = .reject)) :
    ∃ u t, exec (.setAddress a) s = .next t ∧
      HookRan s.cfg.cap.setAddressHook (.setAddressHook a) { s with pendAddr := a, pendFlag := true } u ∧
      Armed 0 u t [] ∧ Ready t := by
  have hl : Ready { s with pendAddr := a, pendFlag := true } := h.of_fields rfl rfl (fun _ _ => rfl) rfl h.contPtr
  obtain ⟨u, hu, hran, hready⟩ := hook_runs s.cfg.cap.setAddressHook (.setAddressHook a) hl
  have hr : setAddress a s = .ok (true, u) := by rw [setAddress, if_neg hd, if_neg hc, hu, ok_bind]
  obtain ⟨t, ht, ha, hrt⟩ := finishRequest_runs false true hready
  exact ⟨u, t, requestOutcome_eq_next.2 ⟨true, u, hr, ht⟩, hran, ha, hrt⟩

/-- The host takes the packet armed on endpoint 0 (46_usb_engine_agent.md R309). -/
theorem exec_busIn_ep0 {s : State} (h : Ready s) (he : engineAnswers s = true) (ha : Epr.ea s.epr[0] = 0)
    (hv : Epr.statTx s.epr[0] = .valid) :
    ∃ u, exec (.busIn ⟨0, none⟩) s = .next u ∧ Ready u ∧ u.epr[0] = afterIn s.epr[0] := by
  have hs : servingReg 0 .tx s = some 0 :=
    servingReg_iff.2 ⟨ha, fun hd => (by decide : Stat.valid ≠ .disabled) (hv.symm.trans hd),
      fun j hj => absurd hj (Fin.not_lt_zero j)⟩
  obtain ⟨u, hu, hr⟩ := lift_runs (busInChecked_runs 0 none h)
  obtain ⟨w, hw, rfl⟩ := (execBusIn_eq_next (e := ⟨0, none⟩)).1 hu
  cases (busIn_valid h.laid he hs hv).symm.trans hw
  exact ⟨_, hu, hr, (epr_setEpr 0 0 _ _).trans (if_pos rfl)⟩

/-- What SET_ADDRESS leaves for the status stage: the address latched, the engine answering as before, and register 0 at
its address. -/
theorem latched_status {s u t : State} {a : BitVec 7} {p : Bool}
    (hran : HookRan p (.setAddressHook a) { s with pendAddr := a, pendFlag := true } u) (ht : Armed 0 u t []) :
    t.pendFlag = true ∧ t.pendAddr = a ∧ engineAnswers t = engineAnswers s ∧ Epr.ea t.epr[0] = Epr.ea s.epr[0] := by
  have f := hran.frame
  have hea := (outside_mono ht.outside (by decide)).trans (f.epr 0)
  refine ⟨?_, ?_, ht.engineAnswers.trans ?_, ea_of_outside hea (by decide)⟩
  · rw [ht.frame]; exact f.pendFlag
  · rw [ht.frame]; exact f.pendAddr
  · simp only [engineAnswers, engineReady, f.inited, f.dppu, f.cntr, f.daddr]

/-- Settles O30: SET_ADDRESS leaves the address latched and a status packet armed, the host takes the packet, and the
completion takes the address. -/
theorem addressTakesEffectAfterTheStatusStage : Obligations.AddressTakesEffectAfterTheStatusStage := by
  intro s a h he hea hd hc
  obtain ⟨w, t, ht, hran, harm, hready⟩ := exec_setAddress_latches h hd hc
  obtain ⟨hflag, haddr, het, heat⟩ := latched_status hran harm
  have hdaddr : t.daddr = s.daddr := (exec_setAddress_device ht).2
  obtain ⟨u, hu, hru, hreg⟩ := exec_busIn_ep0 hready (het.trans he) (heat.trans hea) harm.valid
  have hsame : SameAddress t u := exec_sameAddress rfl hu
  obtain ⟨v, hv, -⟩ := ep0InDone_runs hru
  have hfinal := ep0InDone_address hv
  rw [inDone_eq, latchAddress_eq, hsame.pendFlag, hflag, hsame.pendAddr, haddr] at hfinal
  refine ⟨t, u, v, ht, hdaddr, hu, hsame.daddr.trans hdaddr, ?_, lift_eq_next.2 hv, hfinal.daddr, hfinal.devState,
    hfinal.pendFlag⟩
  obtain ⟨-, hctr, -, -⟩ := afterIn_fields t.epr[0]
  exact (congrArg Epr.ctrTx hreg).trans hctr

end Sys2Proof.Machine

/-! The standard requests (44_standard_requests.md): what each answers, and how its row ends. -/

namespace Sys2Proof.Machine

/-! ## Replies and their rows -/

theorem request_repliesOne {s : State} {r : Except Fault (Bool × State)} {b : Byte} {w : Word} (hl : Laid s)
    (h : r = replyOne b w s) : ∃ t, requestOutcome true r = .next t ∧ RepliedFrom s t [b] w := by
  obtain ⟨t, ht, -, hr⟩ := replyOne_ok b w hl
  exact request_replies ⟨t, h.trans ht, hr⟩

theorem request_repliesTwo {s : State} {r : Except Fault (Bool × State)} {b0 b1 : Byte} {w : Word} (hl : Laid s)
    (h : r = replyTwo b0 b1 w s) : ∃ t, requestOutcome true r = .next t ∧ RepliedFrom s t [b0, b1] w := by
  obtain ⟨t, ht, -, hr⟩ := replyTwo_ok b0 b1 w hl
  exact request_replies ⟨t, h.trans ht, hr⟩

/-- A descriptor whose length field says `n` is the reply as far as `wLength` reaches (43_control_engine.md R209). -/
theorem request_repliesDescriptor {s : State} {r : Except Fault (Bool × State)} {p n : Nat} {len w : Word} (hl : Laid s)
    (h : r = replyDescriptor p len w s) (hn : len.toNat = n) :
    ∃ t, requestOutcome true r = .next t ∧ RepliedAt s t p (min w.toNat n) := by
  obtain ⟨t, ht, -, hr⟩ := replyDescriptor_ok p len w hl
  exact request_replies ⟨t, h.trans ht, hn ▸ hr⟩

/-! ## GET_DESCRIPTOR -/

/-- `bLength` is one byte, so no length is cut. -/
theorem toNat_bLength (b : Byte) : (b.setWidth 16).toNat = b.toNat :=
  BitVec.toNat_setWidth_of_le (by decide)

/-- Settles O31: each request is a reject or one reply, by the reference the application has. -/
theorem descriptorsAreReplied : Obligations.DescriptorsAreReplied := by
  intro s w hl
  refine ⟨fun h => ?_, fun p h => ?_, fun h => ?_, fun c h => ?_⟩
  · exact request_fails (by simp only [getDescriptorDevice, h])
  · exact request_repliesDescriptor hl (by simp only [getDescriptorDevice, h]) (toNat_bLength _)
  · exact request_fails (by simp only [getDescriptorConfiguration, h])
  · refine request_repliesDescriptor (len := le16 (s.mem.read (c + 2)) (s.mem.read (c + 3))) hl ?_ ?_
    · simp only [getDescriptorConfiguration, h]
    · rw [toNat_le16, Nat.add_comm]

/-- Settles O32, by the reference the application has. -/
theorem stringDescriptorsAreReplied : Obligations.StringDescriptorsAreReplied := by
  intro s idx lang w hl
  refine ⟨fun h => ?_, fun p h => ?_⟩
  · exact request_fails (by simp only [getDescriptorString, h])
  · exact request_repliesDescriptor hl (by simp only [getDescriptorString, h]) (toNat_bLength _)

/-! ## GET_CONFIGURATION, GET_INTERFACE and SET_INTERFACE -/

/-- Settles O33, by the state and the descriptor each request looks at. -/
theorem configurationAndInterfaceAreReported : Obligations.ConfigurationAndInterfaceAreReported := by
  intro s w hl
  refine ⟨fun hd => ?_, fun hd hc => ?_, fun c hd hc => ?_, fun itf h => ?_, fun itf d hd hi => ?_⟩
  · exact request_repliesOne hl (if_neg hd)
  · exact request_fails (by simp only [getConfiguration, if_pos hd, hc])
  · exact request_repliesOne hl (by simp only [getConfiguration, if_pos hd, hc])
  · rcases h with hd | hi
    · exact request_fails (if_pos hd)
    · exact request_fails (by simp only [getInterface, hi, ite_self])
  · exact request_repliesOne hl (by simp only [getInterface, if_neg (not_not.2 hd), hi])

/-- Settles O36, by the interface descriptor and the setting it names. -/
theorem setInterfaceAcceptsTheOneSetting : Obligations.SetInterfaceAcceptsTheOneSetting := by
  intro s itf alt hl
  refine ⟨fun h => request_fails (congrArg Except.ok ?_), fun d hi ha => ?_⟩
  · rcases h with hi | ⟨d, hi, ha⟩
    · simp only [setInterface, hi]
    · simp only [setInterface, hi, ha, decide_false]
  · obtain ⟨t, ht, harm, -⟩ := request_status (r := .ok (setInterface itf alt s)) (u := s)
      (by simp only [setInterface, hi, ha, decide_true]) hl
    exact ⟨t, ht, harm⟩

/-! ## GET_STATUS -/

theorem getStatusEndpoint_of_present {s : State} {i : Fin 8} {d : Dir} (w : Word) (hd : s.devState = .configured)
    (hp : dirSize s.cfg i d ≠ 0) : getStatusEndpoint (BitVec.ofNat 4 i.val) d w s =
      replyTwo (if statOf d s.epr[i] = .stall then 1 else 0) 0 w s := by
  simp only [getStatusEndpoint, if_neg (not_not.2 hd), epOperand_of_present hp, halted_eq, decide_eq_true_eq]

/-- Settles O25, recipient by recipient. -/
theorem getStatusReplies : Obligations.GetStatusReplies := by
  intro s w hl
  refine ⟨fun h => ?_, fun c hd hc => ?_, fun itf hi => ?_, fun itf d hi => ?_, fun n d h => ?_, fun i d hd hp => ?_⟩
  · rcases h with hd | hc
    · exact request_fails (if_pos hd)
    · exact request_fails (by simp only [getStatusDevice, hc, ite_self])
  · exact request_repliesTwo hl (by simp only [getStatusDevice, if_neg (not_not.2 hd), hc])
  · exact request_fails (by simp only [getStatusInterface, hi])
  · exact request_repliesTwo hl (by simp only [getStatusInterface, hi])
  · rcases h with hd | habsent
    · exact request_fails (if_pos hd)
    · exact request_fails (by simp only [getStatusEndpoint, epOperand_of_absent habsent, ite_self])
  · exact request_repliesTwo hl (getStatusEndpoint_of_present w hd hp)

/-! ## ENDPOINT_HALT -/

/-- The operands no halt request takes: an absent direction or endpoint 0 (44_standard_requests.md R236, R238, D18). -/
theorem epOperand_isControl {c : Config} {n : BitVec 4} {d : Dir} {i : Fin 8}
    (h : 8 ≤ n.toNat ∨ n = 0 ∨ ∃ j : Fin 8, n = BitVec.ofNat 4 j.val ∧ dirSize c j d = 0)
    (hi : epOperand c n d = some i) : isControl c i = true := by
  rcases h with h8 | rfl | habsent
  · rw [epOperand_of_absent (.inl h8)] at hi; cases hi
  · obtain rfl : (0 : Fin 8) = i := Option.some.inj (epOperand_eq_some.1 hi).1
    rfl
  · rw [epOperand_of_absent (.inr habsent)] at hi; cases hi

theorem clearFeature_refuses {s : State} {n : BitVec 4} {d : Dir}
    (h : s.devState ≠ .configured ∨ ∀ i, epOperand s.cfg n d = some i → isControl s.cfg i = true) :
    clearFeatureEndpointHalt n d s = (false, s) := by
  rcases h with hd | hc
  · exact if_pos hd
  · cases ho : epOperand s.cfg n d with
    | none => simp only [clearFeatureEndpointHalt, ho, ite_self]
    | some i => simp only [clearFeatureEndpointHalt, ho, hc i ho, if_true, ite_self]

theorem setFeature_refuses {s : State} {n : BitVec 4} {d : Dir}
    (h : s.devState ≠ .configured ∨ ∀ i, epOperand s.cfg n d = some i → isControl s.cfg i = true) :
    setFeatureEndpointHalt n d s = (false, s) := by
  rcases h with hd | hc
  · exact if_pos hd
  · cases ho : epOperand s.cfg n d with
    | none => simp only [setFeatureEndpointHalt, ho, ite_self]
    | some i => simp only [setFeatureEndpointHalt, ho, hc i ho, if_true, ite_self]

/-- What CLEAR_FEATURE (ENDPOINT_HALT) makes of a register (44_standard_requests.md R236). -/
def HaltCleared (d : Dir) (i : Fin 8) (s u : State) : Prop :=
  match d with
  | .tx => OneReg s u i 0x0070 ∧ Epr.statTx u.epr[i] = .nak ∧ Epr.dtogTx u.epr[i] = false
  | .rx => OneReg s u i 0x7000 ∧ Epr.statRx u.epr[i] = .valid ∧ Epr.dtogRx u.epr[i] = false

/-- What SET_FEATURE (ENDPOINT_HALT) makes of a register (44_standard_requests.md R238). -/
def HaltSet (d : Dir) (i : Fin 8) (s u : State) : Prop :=
  match d with
  | .tx => OneReg s u i 0x0030 ∧ Epr.statTx u.epr[i] = .stall
  | .rx => OneReg s u i 0x3000 ∧ Epr.statRx u.epr[i] = .stall

theorem HaltCleared.oneReg {d : Dir} {i : Fin 8} {s u : State} (h : HaltCleared d i s u) : ∃ m, OneReg s u i m := by
  cases d <;> exact ⟨_, h.1⟩

theorem HaltSet.oneReg {d : Dir} {i : Fin 8} {s u : State} (h : HaltSet d i s u) : ∃ m, OneReg s u i m := by
  cases d <;> exact ⟨_, h.1⟩

section Halt
variable {s : State} {i : Fin 8} {d : Dir} (hl : Laid s) (hd : s.devState = .configured) (hi : i ≠ 0)
  (hp : dirSize s.cfg i d ≠ 0)
include hl hd hi hp

theorem exec_clearFeature_clears : ∃ u t, exec (.clearFeatureEndpointHalt (BitVec.ofNat 4 i.val) d) s = .next t ∧
    HaltCleared d i s u ∧ Armed 0 u t [] ∧ Laid t := by
  obtain ⟨u, hu, hclear⟩ : ∃ u, clearFeatureEndpointHalt (BitVec.ofNat 4 i.val) d s = (true, u) ∧
      HaltCleared d i s u := by
    refine ⟨_, clearFeature_ok hl hd hi hp, ?_⟩
    cases d with
    | tx => exact ⟨eprSetStatTxDtog0_oneReg i .nak s, eprSetStatTxDtog0_fields i .nak s⟩
    | rx => exact ⟨eprSetStatRxDtog0_oneReg i .valid s, eprSetStatRxDtog0_fields i .valid s⟩
  obtain ⟨m, ho⟩ := hclear.oneReg
  obtain ⟨t, ht, harm, hlt⟩ := request_status (congrArg Except.ok hu) (ho.laid hl)
  exact ⟨u, t, ht, hclear, harm, hlt⟩

theorem exec_setFeature_halts : ∃ u t, exec (.setFeatureEndpointHalt (BitVec.ofNat 4 i.val) d) s = .next t ∧
    HaltSet d i s u ∧ Armed 0 u t [] ∧ Laid t := by
  obtain ⟨u, hu, hset⟩ : ∃ u, setFeatureEndpointHalt (BitVec.ofNat 4 i.val) d s = (true, u) ∧
      HaltSet d i s u := by
    refine ⟨_, setFeature_ok hl hd hi hp, ?_⟩
    cases d with
    | tx => exact ⟨eprSetStatTx_oneReg i .stall s, eprSetStatTx_statTx i .stall s⟩
    | rx => exact ⟨eprSetStatRx_oneReg i .stall s, eprSetStatRx_statRx i .stall s⟩
  obtain ⟨m, ho⟩ := hset.oneReg
  obtain ⟨t, ht, harm, hlt⟩ := request_status (congrArg Except.ok hu) (ho.laid hl)
  exact ⟨u, t, ht, hset, harm, hlt⟩

end Halt

/-- Settles O26, from the operands refused and the one register changed before the status packet. -/
theorem endpointHaltRequests : Obligations.EndpointHaltRequests := by
  intro s d hl
  refine ⟨fun n h => ?_, fun i hd hi hp => ⟨?_, ?_⟩⟩
  · have hr : s.devState ≠ .configured ∨ ∀ i, epOperand s.cfg n d = some i → isControl s.cfg i = true :=
      h.imp_right fun h i => epOperand_isControl h
    exact ⟨request_fails (congrArg Except.ok (clearFeature_refuses hr)),
      request_fails (congrArg Except.ok (setFeature_refuses hr))⟩
  · obtain ⟨u, t, ht, hclear, harm, -⟩ := exec_clearFeature_clears hl hd hi hp
    exact ⟨u, t, ht, harm, hclear⟩
  · obtain ⟨u, t, ht, hset, harm, -⟩ := exec_setFeature_halts hl hd hi hp
    exact ⟨u, t, ht, harm, hset⟩

/-- GET_STATUS after a request that changed register `i` reports what that request left, past its status packet. -/
theorem exec_getStatusEndpoint_after {s u t : State} {i : Fin 8} {d : Dir} {m : Word} (w : Word) (hl : Laid t)
    (hd : s.devState = .configured) (hi : i ≠ 0) (hp : dirSize s.cfg i d ≠ 0) (ho : OneReg s u i m)
    (ht : Armed 0 u t []) : ∃ v, exec (.getStatusEndpoint (BitVec.ofNat 4 i.val) d w) t = .next v ∧
      RepliedFrom t v [if statOf d u.epr[i] = .stall then 1 else 0, 0] w := by
  have hcfg : t.cfg = s.cfg := by rw [ht.cfg, ho.frame]
  have hdev : t.devState = .configured := by rw [ht.frame, ho.frame]; exact hd
  rw [← ht.others i hi]
  exact request_repliesTwo hl (getStatusEndpoint_of_present w hdev (hcfg ▸ hp))

/-- Settles O27: GET_STATUS reads the state the halt request left in the register. -/
theorem endpointHaltIsReportedAndCleared : Obligations.EndpointHaltIsReportedAndCleared := by
  intro s i d w hl hd hi hp
  constructor
  · obtain ⟨u, t, ht, hset, harm, hlt⟩ := exec_setFeature_halts hl hd hi hp
    obtain ⟨m, ho⟩ := hset.oneReg
    obtain ⟨v, hv, hr⟩ := exec_getStatusEndpoint_after w hlt hd hi hp ho harm
    have hstat : statOf d u.epr[i] = .stall := by cases d <;> exact hset.2
    rw [if_pos hstat] at hr
    exact ⟨t, v, ht, hv, hr⟩
  · obtain ⟨u, t, ht, hclear, harm, hlt⟩ := exec_clearFeature_clears hl hd hi hp
    obtain ⟨m, ho⟩ := hclear.oneReg
    obtain ⟨v, hv, hr⟩ := exec_getStatusEndpoint_after w hlt hd hi hp ho harm
    have hstat : statOf d u.epr[i] ≠ .stall := by
      cases d <;> exact fun h => by cases h.symm.trans hclear.2.1
    rw [if_neg hstat] at hr
    refine ⟨t, v, ht, hv, hr, ?_⟩
    rw [harm.others i hi]
    cases d <;> exact hclear.2.2

/-! ## SET_ADDRESS -/

/-- Settles O28, by the three cases of R240. -/
theorem setAddressLatches : Obligations.SetAddressLatches := by
  intro s a h
  refine ⟨fun hd ha => ?_, fun hd hp => ?_, fun hd hc => ?_⟩
  · obtain ⟨t, ht, harm, -⟩ := request_status (r := setAddress a s) (if_pos ⟨hd, ha⟩) h.laid
    exact ⟨t, ht, harm⟩
  · exact request_fails (by rw [setAddress, if_neg (by simp [hd]), if_pos ⟨hd, hp⟩])
  · obtain ⟨u, t, ht, hran, harm, -⟩ := exec_setAddress_latches h hd hc
    obtain ⟨hflag, haddr, -, -⟩ := latched_status hran harm
    obtain ⟨hdev, hdaddr⟩ := exec_setAddress_device ht
    exact ⟨u, t, ht, hran, harm, hflag, haddr, hdaddr, hdev⟩

/-! ## SET_CONFIGURATION -/

theorem setConfiguration_refuses {s : State} {v : Byte}
    (h : s.devState = .default ∨ (v ≠ 0 ∧ s.cfg.desc.config = none) ∨
      ∃ c, v ≠ 0 ∧ s.cfg.desc.config = some c ∧ v ≠ s.mem.read (c + 5)) : setConfiguration v s = (false, s) := by
  rcases h with hd | ⟨hv, hc⟩ | ⟨c, hv, hc, hm⟩
  · exact if_pos hd
  · simp only [setConfiguration, if_neg hv, hc, ite_self]
  · simp only [setConfiguration, if_neg hv, hc, if_neg hm, ite_self]

theorem setConfiguration_zeroes {s : State} (hd : s.devState ≠ .default) :
    ∃ e, setConfiguration 0 s = (true, { s with devState := .address, epr := e }) ∧
      ∀ j : Fin 8, e[j] = if j ≠ 0 then s.epr[j] &&& 0x0800 else s.epr[j] := by
  obtain ⟨e, he, hj⟩ := foldl_eprZero configurableRegs configurableRegs_nodup { s with devState := .address }
  refine ⟨e, ?_, by simpa only [mem_configurableRegs] using hj⟩
  rw [setConfiguration, if_neg hd, if_pos rfl, he]

theorem setConfiguration_configures {s : State} {v : Byte} {c : Nat} (hd : s.devState ≠ .default) (hv : v ≠ 0)
    (hc : s.cfg.desc.config = some c) (hm : v = s.mem.read (c + 5)) :
    ∃ e, setConfiguration v s = (true, { s with devState := .configured, epr := e }) ∧
      ∀ j : Fin 8, e[j] = if j ≠ 0 then confWord s.cfg j s.epr[j] else s.epr[j] := by
  obtain ⟨e, he, hj⟩ := foldl_configure configurableRegs configurableRegs_nodup { s with devState := .configured }
  refine ⟨e, ?_, by simpa only [mem_configurableRegs] using hj⟩
  simp only [setConfiguration, if_neg hd, if_neg hv, hc, if_pos hm, he]

/-- The row of a matching SET_CONFIGURATION: the registers programmed, then the status packet. -/
theorem exec_setConfiguration_configures {s : State} {v : Byte} {c : Nat} (hl : Laid s) (hd : s.devState ≠ .default)
    (hv : v ≠ 0) (hc : s.cfg.desc.config = some c) (hm : v = s.mem.read (c + 5)) :
    ∃ e t, exec (.setConfiguration v) s = .next t ∧ Armed 0 { s with devState := .configured, epr := e } t [] ∧ Laid t ∧
      ∀ j : Fin 8, e[j] = if j ≠ 0 then confWord s.cfg j s.epr[j] else s.epr[j] := by
  obtain ⟨e, he, hj⟩ := setConfiguration_configures hd hv hc hm
  obtain ⟨t, ht, harm, hlt⟩ := request_status (congrArg Except.ok he) (hl.congr rfl rfl fun _ _ => rfl)
  exact ⟨e, t, ht, harm, hlt, hj⟩

theorem confWord_absent {c : Config} {i : Fin 8} (h : sizeIn c i = 0 ∧ sizeOut c i = 0) (r : Word) :
    confWord c i r = r := by
  simp [confWord, inPresent, outPresent, h.1, h.2]

/-- Settles O34, from the register loops and what one register becomes. -/
theorem setConfigurationProgramsTheEndpoints : Obligations.SetConfigurationProgramsTheEndpoints := by
  intro s v hl
  refine ⟨fun h => request_fails (congrArg Except.ok (setConfiguration_refuses h)), fun hd hv => ?_,
    fun c hd hv hc hm => ?_⟩
  · subst hv
    obtain ⟨e, he, hj⟩ := setConfiguration_zeroes hd
    obtain ⟨t, ht, harm, -⟩ := request_status (congrArg Except.ok he) (hl.congr rfl rfl fun _ _ => rfl)
    exact ⟨_, t, ht, harm, rfl, hj 0, fun i hi => (hj i).trans (if_pos hi)⟩
  · obtain ⟨e, t, ht, harm, -, hj⟩ := exec_setConfiguration_configures hl hd hv hc hm
    refine ⟨_, t, ht, harm, rfl, hj 0, fun i hi => ?_⟩
    have hword : e[i] = confWord s.cfg i s.epr[i] := (hj i).trans (if_pos hi)
    show if _ then e[i] = _ else _
    rw [hword]
    split
    case isTrue habsent => exact confWord_absent habsent _
    case isFalse hpresent =>
      have hp : inPresent s.cfg i || outPresent s.cfg i := by
        simpa [inPresent, outPresent, or_iff_not_imp_left] using hpresent
      obtain ⟨htype, hea, hkind, hkept, htx, hrx⟩ := confWord_fields s.cfg i s.epr[i] hp
      refine ⟨htype (layoutOk_of_configOk hl.cfgOk), hea, hkind, hkept, ?_, ?_⟩
      · simpa [inPresent, ite_not] using htx
      · simpa [outPresent, ite_not] using hrx

/-- Two registers agree on the IN direction where both have been given the same fields, or one has kept the other's. -/
theorem txFields_of_set_or_kept {p : Bool} {st : Stat} {b : Bool} {x y r : Word}
    (hx : if p then Epr.statTx x = st ∧ Epr.dtogTx x = b else x &&& 0x0070 = y &&& 0x0070)
    (hy : if p then Epr.statTx y = st ∧ Epr.dtogTx y = b else y &&& 0x0070 = r &&& 0x0070) :
    Epr.statTx x = Epr.statTx y ∧ Epr.dtogTx x = Epr.dtogTx y := by
  cases p with
  | true => exact ⟨hx.1.trans hy.1.symm, hx.2.trans hy.2.symm⟩
  | false =>
    have hkept : x &&& ~~~(~~~0x0070 : Word) = y &&& ~~~(~~~0x0070 : Word) := hx
    exact ⟨statTx_of_outside hkept (by decide), dtogTx_of_outside hkept (by decide)⟩

/-- The same for the OUT direction. -/
theorem rxFields_of_set_or_kept {p : Bool} {st : Stat} {b : Bool} {x y r : Word}
    (hx : if p then Epr.statRx x = st ∧ Epr.dtogRx x = b else x &&& 0x7000 = y &&& 0x7000)
    (hy : if p then Epr.statRx y = st ∧ Epr.dtogRx y = b else y &&& 0x7000 = r &&& 0x7000) :
    Epr.statRx x = Epr.statRx y ∧ Epr.dtogRx x = Epr.dtogRx y := by
  cases p with
  | true => exact ⟨hx.1.trans hy.1.symm, hx.2.trans hy.2.symm⟩
  | false =>
    have hkept : x &&& ~~~(~~~0x7000 : Word) = y &&& ~~~(~~~0x7000 : Word) := hx
    exact ⟨statRx_of_outside hkept (by decide), dtogRx_of_outside hkept (by decide)⟩

/-- `EP_KIND` beside the completion flags and `SETUP`. -/
theorem and_kind_flags {x y : Word} (hflags : x &&& 0x8880 = y &&& 0x8880) (hkind : Epr.epKind x = Epr.epKind y) :
    x &&& 0x8980 = y &&& 0x8980 := by
  refine and_eq_and_of_bits fun k hk hbit => ?_
  by_cases h8 : k = 8
  · subst h8; exact hkind
  · have hflag : (0x8880 : Word).getLsbD k = true := by
      revert k; decide
    exact (getLsbD_of_and hflags hflag).trans (by rw [BitVec.getLsbD_and, hflag, Bool.and_true])

/-- Programming a register a second time changes nothing: each field is set to what it was set to, or kept. -/
theorem confWord_confWord {c : Config} (hc : c.layout.ok = true) (i : Fin 8) (r : Word) :
    confWord c i (confWord c i r) = confWord c i r := by
  by_cases hp : inPresent c i || outPresent c i
  · obtain ⟨htype, hea, hkind, hkept, htx, hrx⟩ := confWord_fields c i (confWord c i r) hp
    obtain ⟨htype', hea', hkind', -, htx', hrx'⟩ := confWord_fields c i r hp
    obtain ⟨hstx, hdtx⟩ := txFields_of_set_or_kept htx htx'
    obtain ⟨hsrx, hdrx⟩ := rxFields_of_set_or_kept hrx hrx'
    exact Epr.ext_fields hc hstx hsrx hdtx hdrx ((htype hc).trans (htype' hc).symm) (hea.trans hea'.symm)
      (and_kind_flags hkept (hkind.trans hkind'.symm))
  · simp [confWord, hp]

/-- Settles O35: the second request programs each register with the word it already holds. -/
theorem settingTheConfigurationTwiceIsIdempotent : Obligations.SettingTheConfigurationTwiceIsIdempotent := by
  intro s v c hl hd hv hc hm
  obtain ⟨e, t, ht, harm, hlt, hj⟩ := exec_setConfiguration_configures hl hd hv hc hm
  have hcfg : t.cfg = s.cfg := harm.cfg
  have hmem : t.mem = s.mem := harm.mem
  have hdev : t.devState = .configured := by rw [harm.frame]
  obtain ⟨e', u, hu, harm', -, hj'⟩ := exec_setConfiguration_configures hlt (by rw [hdev]; decide) hv (hcfg ▸ hc)
    (hmem ▸ hm)
  refine ⟨t, u, ht, hu, hdev, by rw [harm'.frame], fun i hi => ?_⟩
  have ht_i : t.epr[i] = confWord s.cfg i s.epr[i] := (harm.others i hi).trans ((hj i).trans (if_pos hi))
  calc u.epr[i] = confWord t.cfg i t.epr[i] := (harm'.others i hi).trans ((hj' i).trans (if_pos hi))
    _ = t.epr[i] := by rw [ht_i, hcfg, confWord_confWord (layoutOk_of_configOk hl.cfgOk)]

/-! ## Packets no rule serves -/

/-- A code without an arm of its own in the switch of R208, or with one that serves nothing, is not handled. -/
theorem standard_of_unserved {r : Request} (s : State)
    (h : r.bRequest ∉ ([0x00, 0x01, 0x03, 0x05, 0x06, 0x08, 0x09, 0x0A, 0x0B] : List Byte)) :
    standard r s = .ok (false, s) := by
  simp only [List.mem_cons, List.not_mem_nil, or_false, not_or] at h
  simp only [standard, h, if_false, ite_self]

/-- GET_DESCRIPTOR to the device with a type that no rule serves (44_standard_requests.md R245). -/
theorem standard_of_otherDescriptor {r : Request} (s : State) (hcode : r.bRequest = 0x06) (hdir : r.d2h = true)
    (hrecipient : r.recipient = 0) (h1 : hiByte r.wValue ≠ 1) (h2 : hiByte r.wValue ≠ 2) (h3 : hiByte r.wValue ≠ 3) :
    standard r s = .ok (false, s) := by
  simp only [standard, hcode, hdir, hrecipient, h1, h2, h3, if_true, if_false, BitVec.reduceEq]

/-- Settles O23: such a packet is served as Standard, and no arm handles its code or its descriptor type. -/
theorem unsupportedPacketsAreRejected : Obligations.UnsupportedPacketsAreRejected := by
  intro s p hclass hvendor h
  have hcodes : ∀ b : Byte, b = 0x07 ∨ b = 0x0C ∨ b = 0x02 ∨ b = 0x04 ∨ 0x0D ≤ b.toNat →
      b ∉ ([0x00, 0x01, 0x03, 0x05, 0x06, 0x08, 0x09, 0x0A, 0x0B] : List Byte) := by decide
  rw [exec_decodeRequest_standard s hclass hvendor]
  refine request_fails ?_
  simp only [← or_assoc] at h
  rcases h with hcode | ⟨hcode, hdir, hrecipient, h1, h2, h3⟩
  · exact standard_of_unserved s (hcodes _ (by simpa only [or_assoc] using hcode))
  · exact standard_of_otherDescriptor s hcode hdir hrecipient h1 h2 h3

end Sys2Proof.Machine

/-! The event loop (45_event_loop.md): which handler `task` runs, what each handler leaves, and that every handler runs
to its end. -/

namespace Sys2Proof.Machine

/-! ## What `task` serves (R271) -/

/-- The test of a stored flag in the `ISTR` that `task` reads. -/
theorem istrRead_test (s : State) {m : Word} {k : Nat} (hm : m = (1 : Word) <<< k) (h4 : 4 ≤ k) (h15 : k < 15) :
    (istrRead s &&& m ≠ 0) = (s.istr.getLsbD k = true) := by
  rw [and_bit_ne_zero hm (by omega), istrRead_bit s h4 h15]

/-- The CTR arm of `task` goes by the lowest pending register (10_state.md R49). -/
theorem task_ctrArm (s : State) :
    (if istrRead s &&& istrCtr ≠ 0 then onCtr ((istrRead s).extractLsb' 0 4) s else .ok s) =
      (pendingEp s).elim (.ok s) fun i => onCtr (BitVec.ofNat 4 i.val) s := by
  cases hp : pendingEp s with
  | none => exact if_neg (not_not.2 (istrRead_idle hp))
  | some i =>
    obtain ⟨hctr, hid⟩ := istrRead_pending hp
    rw [if_pos hctr, hid]
    rfl

/-- `task` by the stored flags and the pending registers: the first that asks is served. -/
theorem task_eq (s : State) : task s =
    if s.istr.getLsbD 12 = true then onWkup s
    else if s.istr.getLsbD 11 = true then onSusp s
    else if s.istr.getLsbD 10 = true then onReset s
    else if s.istr.getLsbD 9 = true ∧ s.cfg.cap.inCb = true then onSof s
    else (pendingEp s).elim (.ok s) fun i => onCtr (BitVec.ofNat 4 i.val) s := by
  rw [task, task_ctrArm]
  simp only [istrRead_test s (m := istrWkup) (k := 12) rfl, istrRead_test s (m := istrSusp) (k := 11) rfl,
    istrRead_test s (m := istrReset) (k := 10) rfl, istrRead_test s (m := istrSof) (k := 9) rfl, Nat.reduceLeDiff,
    Nat.reduceLT]

/-- Without a wake-up, a suspend or a reset, `task` comes to the start of frame and the completions. -/
theorem task_of_noBusEvent {s : State} (wkup : s.istr.getLsbD 12 = false) (susp : s.istr.getLsbD 11 = false)
    (reset : s.istr.getLsbD 10 = false) : task s =
      if s.istr.getLsbD 9 = true ∧ s.cfg.cap.inCb = true then onSof s
      else (pendingEp s).elim (.ok s) fun i => onCtr (BitVec.ofNat 4 i.val) s := by
  rw [task_eq, wkup, susp, reset, if_neg nofun, if_neg nofun, if_neg nofun]

theorem exec_task {s : State} (h : s.inited = true) : exec .task s = lift (task s) := if_pos h

theorem exec_evtSof {s : State} (h : s.cfg.cap.inCb = true) : exec .evtSof s = lift (onSof s) := if_pos h

theorem exec_evtSof_absent {s : State} (h : s.cfg.cap.inCb = false) : exec .evtSof s = .next s :=
  if_neg (by rw [h]; nofun)

/-- Settles O40, flag by flag down the priority of `task_eq`. -/
theorem taskServesTheHighestEvent : Obligations.TaskServesTheHighestEvent := by
  intro s hi
  rw [exec_task hi]
  refine ⟨fun wkup => ?_, fun wkup susp => ?_, fun wkup susp reset => ?_, fun wkup susp reset sof => ?_,
    fun wkup susp reset noSof => ⟨fun i hp => ?_, fun hp => ⟨?_, rfl⟩⟩⟩
  · rw [task_eq, if_pos wkup]; rfl
  · rw [task_eq, wkup, if_neg nofun, if_pos susp]; rfl
  · rw [task_eq, wkup, susp, if_neg nofun, if_neg nofun, if_pos reset]; rfl
  · rw [task_of_noBusEvent wkup susp reset, if_pos sof, exec_evtSof sof.2]
  · rw [task_of_noBusEvent wkup susp reset, if_neg noSof, hp]; rfl
  · rw [task_of_noBusEvent wkup susp reset, if_neg noSof, hp]; rfl

/-! ## The bus events (R273, R274, R276) -/

/-- A row that ends with a hook, from a ready block. -/
theorem lift_hook {s : State} (p : Bool) (c : Call) (h : Ready s) :
    ∃ t, lift (hook p c s) = .next t ∧ HookRan p c s t := by
  obtain ⟨t, ht, hr, -⟩ := hook_runs p c h
  exact ⟨t, lift_eq_next.2 ht, hr⟩

/-- `ISTR` and `CNTR` are no part of what makes the block ready. -/
theorem Ready.setIstrCntr {s : State} (h : Ready s) (i c : Word) : Ready { s with istr := i, cntr := c } :=
  h.of_fields rfl rfl (fun _ _ => rfl) rfl h.contPtr

/-- Settles O42: both rows set the flags and the low-power bit, and then are their hook. -/
theorem wakeupAndSuspendHandlers : Obligations.WakeupAndSuspendHandlers := fun s h =>
  ⟨lift_hook s.cfg.cap.resumeHook .resumeHook (h.setIstrCntr (s.istr &&& ~~~0x1800) (s.cntr &&& ~~~0x0004)),
    lift_hook s.cfg.cap.suspendHook .suspendHook (h.setIstrCntr (s.istr &&& ~~~0x0800) (s.cntr ||| 0x0004))⟩

/-- Settles O43: the first hook leaves a ready block with its configuration, `resetBlock_cases` says what is made of
it, and the second hook runs on that. -/
theorem busResetHandler : Obligations.BusResetHandler := by
  intro s h
  obtain ⟨u, hu, huRan, huReady⟩ := hook_runs s.cfg.cap.resetHook (.resetHook true) (istrClear_ready istrReset h)
  have hcfg : u.cfg = s.cfg := huRan.frame.cfg
  obtain ⟨t, ht, htRan, -⟩ := hook_runs u.cfg.cap.resetHook (.resetHook false) (resetBlock_ready huReady)
  have hreset : onReset s = .ok t := bind_eq_ok.2 ⟨u, hu, ht⟩
  obtain ⟨e, he, hzero, hothers⟩ := resetBlock_cases u
  rw [hcfg, he] at htRan
  rw [hcfg] at hzero
  exact ⟨u, _, t, lift_eq_next.2 hreset, huRan, htRan, rfl, hzero, hothers⟩

/-! ## The start of frame (R280, R281) -/

/-- The scan examines the seven candidates in order. -/
theorem sofNext_eq (s : State) : sofNext s =
    ((List.range 7).find? fun k => sofEligible s (sofCandidate s.sofCur k)).map (sofCandidate s.sofCur) :=
  List.find?_map

theorem sofNext_eq_none {s : State} (h : ∀ k < 7, sofEligible s (sofCandidate s.sofCur k) = false) :
    sofNext s = none := by
  rw [sofNext_eq, Option.map_eq_none_iff, List.find?_range_eq_none]
  exact fun k hk => by rw [h k hk]; rfl

theorem sofNext_eq_some {s : State} {k : Nat} (hk : k < 7) (h : sofEligible s (sofCandidate s.sofCur k) = true)
    (hfirst : ∀ j < k, sofEligible s (sofCandidate s.sofCur j) = false) :
    sofNext s = some (sofCandidate s.sofCur k) := by
  rw [sofNext_eq, List.find?_range_eq_some.2 ⟨h, List.mem_range.2 hk, fun j hj => by rw [hfirst j hj]; rfl⟩]
  rfl

/-- Clearing flags of `ISTR` touches nothing the scan looks at. -/
theorem sofNext_istrClear (f : Word) (s : State) : sofNext (istrClear f s) = sofNext s := rfl

theorem onSof_none {s : State} (h : sofNext s = none) : onSof s = .ok (istrClear istrSof s) := by
  rw [onSof, sofScan, sofNext_istrClear, h]

theorem onSof_some {s : State} {e : Fin 8} (h : sofNext s = some e) : onSof s =
    (callback (.inCb e) { istrClear istrSof s with sofCur := e.val % 7 + 1 } >>= fun r => .ok r.2) := by
  rw [onSof, sofScan, sofNext_istrClear, h]

/-- The endpoint found is offered to the application, and its answer ends the row. -/
theorem exec_evtSof_offers {s : State} {e : Fin 8} (hcb : s.cfg.cap.inCb = true) (hr : Ready s)
    (h : sofNext s = some e) :
    ∃ ret t, exec .evtSof s = .next t ∧
      Delegated (.inCb e) { istrClear istrSof s with sofCur := e.val % 7 + 1 } t ret := by
  have hr' : Ready { istrClear istrSof s with sofCur := e.val % 7 + 1 } :=
    hr.of_fields rfl rfl (fun _ _ => rfl) rfl hr.contPtr
  obtain ⟨ret, t, hd, -⟩ := delegated_runs (.inCb e) hr'
  refine ⟨ret, t, ?_, hd⟩
  rw [exec_evtSof hcb, onSof_some h, callback_eq_ok.2 hd]
  rfl

theorem sofEligible_iff (s : State) (e : Fin 8) : sofEligible s e = true ↔
    sizeIn s.cfg e ≠ 0 ∧ Epr.statTx s.epr[e] = .nak ∧ Epr.ea s.epr[e] = BitVec.ofNat 4 e.val := by
  simp only [sofEligible, inPresent, Bool.and_eq_true, decide_eq_true_eq, and_assoc]

/-- Settles O44, by what the scan finds. -/
theorem sofOffersTheNextIdleEndpoint : Obligations.SofOffersTheNextIdleEndpoint := by
  intro s
  refine ⟨exec_evtSof_absent, fun hcb hnone => ?_, fun hcb hr k hk hel hfirst => ?_,
    sofEligible_iff s, fun _ => rfl⟩
  · rw [exec_evtSof hcb, onSof_none (sofNext_eq_none hnone)]
    rfl
  · exact exec_evtSof_offers hcb hr (sofNext_eq_some hk hel hfirst)

/-! ## The completions (R284, R285, R287, R288) -/

/-- Two operations in a row are the two rows in a row. -/
theorem lift_bind (r : Except Fault State) (f : State → Except Fault State) :
    lift (r >>= f) = andThen (lift r) fun u => lift (f u) := by
  cases r <;> rfl

/-- A reception on endpoint 0 is the row its snapshot names. -/
theorem lift_ep0Reception (v : Word) (s : State) : lift (ep0Reception v s) =
    if Epr.ctrRx v then (if Epr.setup v then exec .ep0Setup s else exec .ep0Out s) else .next s := by
  unfold ep0Reception
  split
  · split <;> rfl
  · rfl

theorem lift_ep0Transmission (v : Word) (s : State) :
    lift (ep0Transmission v s) = if Epr.ctrTx v then exec .ep0InDone s else .next s := by
  unfold ep0Transmission
  split <;> rfl

theorem lift_epReception (i : Fin 8) (v : Word) (s : State) :
    lift (epReception i v s) = if Epr.ctrRx v then exec (.epnOutDone i) s else .next s := by
  unfold epReception
  split <;> rfl

theorem next_epTransmission (i : Fin 8) (v : Word) (s : State) :
    .next (epTransmission i v s) = if Epr.ctrTx v then exec (.epnInDone i) s else .next s := by
  unfold epTransmission
  split <;> rfl

theorem onCtr_zero (s : State) : onCtr 0 s = ep0Ctr s := rfl

theorem onCtr_ofNat {i : Fin 8} (h : i ≠ 0) (s : State) : onCtr (BitVec.ofNat 4 i.val) s = epCtr i s := by
  simp only [onCtr, slotIndex_ofNat, h, if_false]

theorem onCtr_ignored {id : BitVec 4} (h : 8 ≤ id.toNat) (s : State) : onCtr id s = .ok s := by
  simp only [onCtr, slotIndex_eq_none.2 h]

/-- Settles O45: each handler is a reception and then a transmission of the one snapshot. -/
theorem completionsAreServedReceptionFirst : Obligations.CompletionsAreServedReceptionFirst := by
  intro s
  refine ⟨?_, fun i hi => ?_, fun id h8 => ?_⟩
  · show lift (onCtr 0 s) = _
    simp only [onCtr_zero, ep0Ctr, lift_bind, lift_ep0Reception, lift_ep0Transmission]
  · show lift (onCtr _ s) = _
    simp only [onCtr_ofNat hi, epCtr, lift_bind, lift_epReception, lift_ok, next_epTransmission]
  · show lift (onCtr id s) = _
    rw [onCtr_ignored h8, lift_ok]

/-- Settles O46: each row is the clearing of its flag, and a completed OUT then is its hook. -/
theorem completionRowsClearTheirFlag : Obligations.CompletionRowsClearTheirFlag := by
  intro s
  refine ⟨⟨_, rfl, eprClearCtrRx_ctrRx 0 s, eprClearCtrRx_oneReg 0 s⟩, fun i _ =>
    ⟨⟨_, rfl, eprClearCtrTx_ctrTx i s, eprClearCtrTx_oneReg i s⟩, fun h => ?_⟩⟩
  have hone := eprClearCtrRx_oneReg i s
  obtain ⟨t, ht, hran⟩ := lift_hook s.cfg.cap.outCb (.outCb i) (hone.ready h)
  exact ⟨_, t, ht, eprClearCtrRx_ctrRx i s, hone, hran⟩

/-! ## Every handler runs to its end (R272) -/

/-- A request row runs to its end when its operation does. -/
theorem requestOutcome_runs (d : Bool) {r : Except Fault (Bool × State)} (h : RunsTo r) :
    ∃ t, requestOutcome d r = .next t ∧ Ready t :=
  lift_runs (Runs.bind h fun _ _ ht => finishRequest_runsTo _ _ ht)

theorem exec_event_runs {x : Instr} {s : State} (hp : x.port = .event) (h : Ready s) :
    ∃ t, exec x s = .next t ∧ Ready t := by
  cases x with
  | evtWkup => exact lift_runs (onWkup_runs h)
  | evtSusp => exact lift_runs (onSusp_runs h)
  | evtReset => exact lift_runs (onReset_runs h)
  | evtSof =>
    cases hcb : s.cfg.cap.inCb with
    | true => rw [exec_evtSof hcb]; exact lift_runs (onSof_runs h)
    | false => exact ⟨s, exec_evtSof_absent hcb, h⟩
  | evtCtr id => exact lift_runs (onCtr_runs id h)
  | evtNone => exact ⟨s, rfl, h⟩
  | _ => cases hp

theorem exec_completion_runs {x : Instr} {s : State} (hp : x.port = .completion) (h : Ready s) :
    ∃ t, exec x s = .next t ∧ Ready t := by
  cases x with
  | ep0Setup => exact lift_runs (ep0Setup_runs h)
  | ep0Out => exact ⟨_, rfl, (eprClearCtrRx_oneReg 0 s).ready h⟩
  | ep0InDone => exact lift_runs (ep0InDone_runs h)
  | epnOutDone i => exact lift_runs (epnOutDone_runs i h)
  | epnInDone i => exact ⟨_, rfl, (eprClearCtrTx_oneReg i s).ready h⟩
  | _ => cases hp

theorem exec_request_runs {x : Instr} {s : State} (hp : x.port = .request) (h : Ready s) :
    ∃ t, exec x s = .next t ∧ Ready t := by
  cases x with
  | classRequest r => exact requestOutcome_runs _ (delegate_runsTo _ (.classRequest r) h)
  | vendorRequest r => exact requestOutcome_runs _ (delegate_runsTo _ (.vendorRequest r) h)
  | getStatusDevice w => exact requestOutcome_runs _ (getStatusDevice_runs w h)
  | getStatusInterface itf w => exact requestOutcome_runs _ (getStatusInterface_runs itf w h)
  | getStatusEndpoint n d w => exact requestOutcome_runs _ (getStatusEndpoint_runs n d w h)
  | clearFeatureEndpointHalt n d => exact requestOutcome_runs _ (runsTo_pair (clearFeature_ready n d h))
  | setFeatureEndpointHalt n d => exact requestOutcome_runs _ (runsTo_pair (setFeature_ready n d h))
  | setAddress a => exact requestOutcome_runs _ (setAddress_runs a h)
  | getDescriptorDevice w => exact requestOutcome_runs _ (getDescriptorDevice_runs w h)
  | getDescriptorConfiguration w => exact requestOutcome_runs _ (getDescriptorConfiguration_runs w h)
  | getDescriptorString idx lang w => exact requestOutcome_runs _ (getDescriptorString_runs idx lang w h)
  | getDescriptorInterface r => exact requestOutcome_runs _ (delegate_runsTo _ (.getDescriptorInterface r) h)
  | getConfiguration w => exact requestOutcome_runs _ (getConfiguration_runs w h)
  | setConfiguration v => exact requestOutcome_runs _ (runsTo_pair (setConfiguration_ready v h))
  | getInterface itf w => exact requestOutcome_runs _ (getInterface_runs itf w h)
  | setInterface itf alt => exact requestOutcome_runs _ (runsTo_pair (by rw [setInterface_state]; exact h))
  | clearFeatureOther | setFeatureOther | getDescriptorDeviceOther | setDescriptor | synchFrame | unsupported =>
    exact ⟨_, rfl, protocolReject_ready h⟩
  | _ => cases hp

/-- Settles O47, port by port. -/
theorem handlersRunToTheEnd : Obligations.HandlersRunToTheEnd := by
  intro x s h hi hx
  rcases hx with rfl | hp | hp | hp
  · exact whenInited_runs hi (task_runs h)
  · exact exec_event_runs hp h
  · exact exec_completion_runs hp h
  · exact exec_request_runs hp h

end Sys2Proof.Machine

/-! The USB engine agent (46_usb_engine_agent.md): the events of the bus, and the three transactions that a register of
the block answers. -/

namespace Sys2Proof.Machine

/-! ## The events of the bus (R302 to R305) -/

/-- Settles O48: each row tests `engineReady` and sets its flag. -/
theorem busEventsSetOneFlag : Obligations.BusEventsSetOneFlag := by
  intro s
  refine ⟨fun ready => ?_, fun down => ?_, engineReady_iff s⟩
  · simp only [exec, execBusSuspend, execBusWakeup, execBusSof, ready, if_true]
    exact ⟨rfl, rfl, rfl⟩
  · simp only [exec, execBusSuspend, execBusWakeup, execBusSof, execBusReset, busReset, down, Bool.false_eq_true,
      if_false, and_self]

theorem exec_busReset {s : State} (h : engineReady s = true) :
    exec .busReset s = .next (istrSet istrReset { s with epr := s.epr.map afterBusReset }) := by
  simp only [exec, execBusReset, busReset, h, if_true]

/-- Settles O49: every register is masked by `afterBusReset`. -/
theorem busResetClearsTheRegisters : Obligations.BusResetClearsTheRegisters :=
  fun _ h => ⟨_, exec_busReset h, rfl, fun _ => Vector.getElem_map _ _⟩

/-! ## Transactions that no register serves (R306) -/

theorem servingReg_eq_none {s : State} {e : BitVec 4} {d : Dir} (h : ∀ i : Fin 8, ¬Serves s e d i) :
    servingReg e d s = none :=
  Option.eq_none_iff_forall_ne_some.2 fun i hi => h i (servingReg_iff.1 hi)

theorem busSetup_silent {s : State} (p : Packet) (h : engineAnswers s = false ∨ ∀ i : Fin 8, ¬Serves s 0 .rx i) :
    busSetup p s = .ok (shake .silent s) := by
  rcases h with ha | hs
  · simp only [busSetup, ha, Bool.false_eq_true, if_false]
  · simp only [busSetup, servingReg_eq_none hs, ite_self]

theorem busOut_silent {s : State} {e : BitVec 4} (data : List Byte)
    (h : engineAnswers s = false ∨ ∀ i : Fin 8, ¬Serves s e .rx i) : busOut e data s = .ok (shake .silent s) := by
  rcases h with ha | hs
  · simp only [busOut, ha, Bool.false_eq_true, if_false]
  · simp only [busOut, servingReg_eq_none hs, ite_self]

theorem busIn_silent {s : State} {e : BitVec 4} (h : engineAnswers s = false ∨ ∀ i : Fin 8, ¬Serves s e .tx i) :
    busIn e s = .ok (shake .silent s) := by
  rcases h with ha | hs
  · simp only [busIn, ha, Bool.false_eq_true, if_false]
  · simp only [busIn, servingReg_eq_none hs, ite_self]

/-! ## A packet received (R307, R308) -/

/-- What a stored packet and the write of its register leave, with ACK on the bus: the PMA, the free-value counter, the
bus, and the register inside the mask. -/
theorem acknowledged_oneReg {s u : State} {i : Fin 8} {w m : Word}
    (hu : u = { s with pma := u.pma, freeCount := u.freeCount }) (hw : w &&& ~~~m = s.epr[i] &&& ~~~m) :
    OneReg { s with pma := u.pma, freeCount := u.freeCount, out := s.out ++ [.handshake .ack] }
      (shake .ack (setEpr i w u)) i m := by
  rw [hu]
  exact oneReg_setEpr hw

theorem acknowledged_reg (i : Fin 8) (w : Word) (u : State) : (shake .ack (setEpr i w u)).epr[i] = w :=
  (epr_setEpr i i w u).trans (if_pos rfl)

/-- An accepted SETUP is stored, and then its register is set (R307). -/
theorem busSetup_accepted {s u : State} {p : Packet} {i : Fin 8} (ha : engineAnswers s = true) (hs : Serves s 0 .rx i)
    (hcontrol : Epr.epType s.cfg.layout.typeCodes s.epr[i] = .control) (hidle : Epr.ctrRx s.epr[i] = false)
    (hu : storePacket i p.toList false s = .ok u) :
    busSetup p s = .ok (shake .ack (setEpr i (afterSetup s.epr[i]) u)) := by
  simp only [busSetup, ha, if_true, servingReg_iff.2 hs, hcontrol, hidle, ne_eq, not_true_eq_false, Bool.false_eq_true,
    or_self, if_false, hu, ok_bind]

/-- A SETUP is dropped while the register that serves endpoint 0 is not Control or shows a reception (log 24). -/
theorem busSetup_dropped {s : State} (p : Packet) {i : Fin 8} (ha : engineAnswers s = true) (hs : Serves s 0 .rx i)
    (h : Epr.epType s.cfg.layout.typeCodes s.epr[i] ≠ .control ∨ Epr.ctrRx s.epr[i] = true) :
    busSetup p s = .ok (shake .silent s) := by
  simp only [busSetup, ha, if_true, servingReg_iff.2 hs, if_pos h]

/-- Settles O50: an accepted SETUP is `storePacket` of its eight bytes and then `afterSetup` of the register. -/
theorem busSetupDeliversThePacket : Obligations.BusSetupDeliversThePacket := by
  intro s p
  refine ⟨fun i hl ha hs hcontrol hidle hsize => ?_, fun i ha hs h => lift_eq_next.2 (busSetup_dropped p ha hs h),
    fun h => lift_eq_next.2 (busSetup_silent p h)⟩
  have hlen : p.toList.length = 8 := p.length_toList
  obtain ⟨u, hu, -, hbytes, hcount, hothers, hpad, hframe⟩ := storePacket_of_laid false hl (hlen ▸ hsize)
  obtain ⟨-, hfree⟩ := hpad (.inl rfl)
  obtain ⟨houtside, hctr, hsetup, hrx, htx, hdrx, hdtx⟩ := afterSetup_fields s.epr[i]
  have hone := acknowledged_oneReg hframe houtside
  rw [hfree] at hone
  rw [hlen] at hbytes hcount hothers
  refine ⟨_, lift_eq_next.2 (busSetup_accepted ha hs hcontrol hidle hu), hbytes, hcount, hothers, ?_⟩
  rw [acknowledged_reg]
  exact ⟨hsetup, hctr, hrx, htx, hdrx, hdtx, hone⟩

/-- An OUT packet to a VALID direction is stored when it is within the capacity, and then its register is set (R308). -/
theorem busOut_stored {s u : State} {e : BitVec 4} {data : List Byte} {i : Fin 8} (hl : Laid s)
    (ha : engineAnswers s = true) (hs : Serves s e .rx i) (hvalid : Epr.statRx s.epr[i] = .valid)
    (hsize : data.length ≤ sizeOut s.cfg i) (hu : storePacket i data true s = .ok u) :
    busOut e data s = .ok (shake .ack (setEpr i (afterOut s.epr[i]) u)) := by
  obtain ⟨-, hmax⟩ := sizeOut_even hl.cfgOk i
  have hfits : ¬(sizeOut s.cfg i < data.length ∨ 1023 < data.length) := by omega
  simp only [busOut, ha, if_true, servingReg_iff.2 hs, hvalid, bdtRead_of_laid hl i .countRx, ok_bind, BdtWord.offset,
    rxdec_of_laid hl i, hfits, if_false, hu]

/-- An OUT packet over the capacity of a VALID direction sets `PMAOVR` and is not acknowledged (R311, log 18). -/
theorem busOut_overrun {s : State} {e : BitVec 4} {data : List Byte} {i : Fin 8} (hl : Laid s)
    (ha : engineAnswers s = true) (hs : Serves s e .rx i) (hvalid : Epr.statRx s.epr[i] = .valid)
    (hsize : sizeOut s.cfg i < data.length) :
    busOut e data s = .ok (shake .silent (istrSet (BusError.mask .pmaovr) s)) := by
  simp only [busOut, ha, if_true, servingReg_iff.2 hs, hvalid, bdtRead_of_laid hl i .countRx, ok_bind, BdtWord.offset,
    rxdec_of_laid hl i, hsize, true_or]

theorem busOut_nak {s : State} {e : BitVec 4} {i : Fin 8} (data : List Byte) (ha : engineAnswers s = true)
    (hs : Serves s e .rx i) (hnak : Epr.statRx s.epr[i] = .nak) : busOut e data s = .ok (shake .nak s) := by
  simp only [busOut, ha, if_true, servingReg_iff.2 hs, hnak]

theorem busOut_stall {s : State} {e : BitVec 4} {i : Fin 8} (data : List Byte) (ha : engineAnswers s = true)
    (hs : Serves s e .rx i) (hstall : Epr.statRx s.epr[i] = .stall) : busOut e data s = .ok (shake .stall s) := by
  simp only [busOut, ha, if_true, servingReg_iff.2 hs, hstall]

/-- Settles O51: a packet taken is `storePacket` of its bytes and then `afterOut` of the register. -/
theorem busOutDeliversThePacket : Obligations.BusOutDeliversThePacket := by
  intro s e data
  refine ⟨fun i ha hs => ⟨fun hvalid hl hsize => ?_,
    fun hvalid hl hsize => lift_eq_next.2 (busOut_overrun hl ha hs hvalid hsize),
    fun hnak => lift_eq_next.2 (busOut_nak data ha hs hnak),
    fun hstall => lift_eq_next.2 (busOut_stall data ha hs hstall)⟩, fun h => lift_eq_next.2 (busOut_silent data h)⟩
  obtain ⟨u, hu, -, hbytes, hcount, hothers, hpad, hframe⟩ := storePacket_of_laid true hl hsize
  obtain ⟨houtside, hctr, hsetup, hrx, hdtog⟩ := afterOut_fields s.epr[i]
  refine ⟨_, lift_eq_next.2 (busOut_stored hl ha hs hvalid hsize hu), hbytes, hcount, hothers,
    fun hkept => hpad (.inr hkept), ?_⟩
  rw [acknowledged_reg]
  exact ⟨hctr, hsetup, hrx, hdtog, acknowledged_oneReg hframe houtside⟩

/-! ## A packet sent (R309) -/

theorem received_packet (out : List Out) (pid : Bool) (data : List Byte) :
    received (out ++ [.packet pid data]) = some data := by
  simp only [received, List.getLast?_concat]

theorem received_handshake (out : List Out) (k : Handshake) : received (out ++ [.handshake k]) = none := by
  simp only [received, List.getLast?_concat]

/-- An IN line is its transaction and then the check of what it brought (log 36). -/
theorem exec_busIn {s u : State} {e : BitVec 4} (expect : Option (List Byte)) (h : busIn e s = .ok u) :
    exec (.busIn ⟨e, expect⟩) s = .next { u with out := u.out ++ checks expect (received u.out) } :=
  execBusIn_eq_next.2 ⟨u, h, rfl⟩

/-- A transaction that ends with a handshake brought the host nothing. -/
theorem exec_busIn_shake {s : State} {e : BitVec 4} {k : Handshake} (expect : Option (List Byte))
    (h : busIn e s = .ok (shake k s)) : exec (.busIn ⟨e, expect⟩) s =
      .next { s with out := s.out ++ [.handshake k] ++ checks expect none } := by
  rw [exec_busIn expect h, ← received_handshake s.out k]
  rfl

/-- An armed packet is on the bus, the check of the line after it, and the register shows the completion. -/
theorem exec_busIn_packet {s : State} {e : BitVec 4} {i : Fin 8} {pid : Bool} {data : List Byte} {w : Word}
    (expect : Option (List Byte)) (h : busIn e s = .ok (setEpr i w (emit (.packet pid data) s))) :
    exec (.busIn ⟨e, expect⟩) s =
      .next (setEpr i w { s with out := s.out ++ [.packet pid data] ++ checks expect (some data) }) := by
  rw [exec_busIn expect h, ← received_packet s.out pid data]
  rfl

theorem busIn_nak {s : State} {e : BitVec 4} {i : Fin 8} (ha : engineAnswers s = true) (hs : Serves s e .tx i)
    (hnak : Epr.statTx s.epr[i] = .nak) : busIn e s = .ok (shake .nak s) := by
  simp only [busIn, ha, if_true, servingReg_iff.2 hs, hnak]

theorem busIn_stall {s : State} {e : BitVec 4} {i : Fin 8} (ha : engineAnswers s = true) (hs : Serves s e .tx i)
    (hstall : Epr.statTx s.epr[i] = .stall) : busIn e s = .ok (shake .stall s) := by
  simp only [busIn, ha, if_true, servingReg_iff.2 hs, hstall]

/-- Settles O52, by the state of the direction: an armed packet is followed by `afterIn` of the register, and the check
of a line compares what the transaction brought. -/
theorem busInTakesThePacket : Obligations.BusInTakesThePacket := by
  refine ⟨fun s e expect => ⟨fun i ha hs => ⟨fun hvalid hl => ?_,
    fun hnak => exec_busIn_shake expect (busIn_nak ha hs hnak),
    fun hstall => exec_busIn_shake expect (busIn_stall ha hs hstall)⟩,
    fun h => exec_busIn_shake expect (busIn_silent h)⟩, fun _ => rfl, fun bs data => ?_, fun bs => rfl⟩
  · obtain ⟨houtside, hctr, hstat, hdtog⟩ := afterIn_fields s.epr[i]
    refine ⟨_, _, rfl, exec_busIn_packet expect (busIn_valid hl ha (servingReg_iff.2 hs) hvalid), ?_⟩
    rw [epr_setEpr, if_pos rfl]
    exact ⟨hctr, hstat, hdtog, oneReg_setEpr houtside⟩
  · simp only [checks, Option.some.injEq]

end Sys2Proof.Machine

/-! Commands that change nothing on a disabled or absent direction (60_exceptions.md R353), and the serial-number string
(47_application_interface.md R343). -/

namespace Sys2Proof.Machine

/-! ## A disabled or absent direction (R353) -/

/-- `ep_write` on the command port where one of its tests fails: false on the port, and no other change. -/
theorem exec_epWrite_false {ept : Byte} {buf : AppRef} {len : Word} {s : State} (hi : s.inited = true)
    (h : epWrite ept buf.ptr len s = .ok (false, s)) :
    exec (.epWrite ept buf len) s = .next { s with out := s.out ++ [.wrote false] } := by
  simp only [exec, execEpWrite, h, ok_bind, whenInited_ok hi, emit]

/-- `ep_read` on the command port where its tests fail: 0 on the port, and no other change. -/
theorem exec_epRead_zero {ept : Byte} {buf : AppRef} {cap : Word} {s : State} (hi : s.inited = true)
    (h : epRead ept buf.ptr cap s = .ok (0, s)) :
    exec (.epRead ept buf cap) s = .next { s with out := s.out ++ [.gotCount 0] } := by
  simp only [exec, execEpRead, h, ok_bind, whenInited_ok hi, emit]

theorem epWrite_no_slot {ept : Byte} (buf : Ptr) (len : Word) (s : State) (h : slotIndex ept = none) :
    epWrite ept buf len s = .ok (false, s) := by
  simp only [epWrite, h]

theorem epRead_no_slot {ept : Byte} (buf : Ptr) (cap : Word) (s : State) (h : slotIndex ept = none) :
    epRead ept buf cap s = .ok (0, s) := by
  simp only [epRead, h]

section
variable {ept : Byte} {i : Fin 8} {s : State}

theorem epWrite_no_direction (buf : Ptr) (len : Word) (hs : slotIndex ept = some i) (h : sizeIn s.cfg i = 0) :
    epWrite ept buf len s = .ok (false, s) := by
  simp only [epWrite, hs, h, if_true]

theorem epRead_no_direction (buf : Ptr) (cap : Word) (hs : slotIndex ept = some i) (h : sizeOut s.cfg i = 0) :
    epRead ept buf cap s = .ok (0, s) := by
  simp only [epRead, hs, h, if_true]

/-- Without an IN buffer, or with a payload over the size, `ep_write` answers false. -/
theorem epWrite_no_room {a len : Word} (buf : Ptr) (hs : slotIndex ept = some i) (ha : bdtRead i .addrTx s = .ok a)
    (h : a = 0 ∨ sizeIn s.cfg i < len.toNat) : epWrite ept buf len s = .ok (false, s) := by
  by_cases hp : sizeIn s.cfg i = 0
  · exact epWrite_no_direction buf len hs hp
  · simp only [epWrite, hs, hp, if_false, ha, ok_bind]
    obtain h0 | hlen := h
    · rw [if_pos h0]
    · rw [if_pos hlen, ite_self]

end

/-- Settles O15, by the test that fails: the slot of the endpoint, the size of the direction, the buffer and its
size. -/
theorem directionMismatchChangesNothing : Obligations.DirectionMismatchChangesNothing := by
  intro s ept buf n hi
  refine ⟨fun h8 => ?_, ?_⟩
  · have hs := slotIndex_eq_none.2 h8
    exact ⟨exec_epWrite_false hi (epWrite_no_slot _ n s hs), exec_epRead_zero hi (epRead_no_slot _ n s hs)⟩
  · rintro i rfl
    have hs := slotIndex_ofByte i
    exact ⟨fun h => exec_epWrite_false hi (epWrite_no_direction _ n hs h),
      fun h => exec_epRead_zero hi (epRead_no_direction _ n hs h),
      fun a ha h => exec_epWrite_false hi (epWrite_no_room _ hs ha h)⟩

/-! ## The serial-number string (R343) -/

theorem length_serialUnits (k n : Nat) : (serialUnits k n).length = 2 * n := by
  induction n generalizing k with
  | zero => rfl
  | succ n ih => simp only [serialUnits, List.length_cons, ih]; omega

theorem length_serialString : serialString.length = 50 := by
  simp only [serialString, List.length_cons, length_serialUnits]

/-- The `j`-th code unit from digit `k` on is the digit `k + j`, with a zero high byte. -/
theorem getElem?_serialUnits {k n j : Nat} (hj : j < n) :
    (serialUnits k n)[2 * j]? = some (hexChar (Config.serialUpper (k + j)) (Config.serialDigit (k + j))) ∧
      (serialUnits k n)[2 * j + 1]? = some 0 := by
  induction n generalizing k j with
  | zero => omega
  | succ n ih =>
    cases j with
    | zero => exact ⟨rfl, rfl⟩
    | succ j =>
      rw [← Nat.succ_add_eq_add_succ k j]
      exact ih (Nat.lt_of_succ_lt_succ hj)

theorem Memory.read_writeAll_getElem? {bs : List Byte} {k : Nat} {b : Byte} (m : Memory) (a : Nat)
    (h : bs[k]? = some b) : (m.writeAll a bs).read (a + k) = b := by
  obtain ⟨hk, rfl⟩ := List.getElem?_eq_some_iff.1 h
  exact Memory.read_writeAll_inside m a bs k hk

theorem serialDescriptor_frame (s : State) :
    serialDescriptor s = { s with mem := (serialDescriptor s).mem, serialCached := true } := by
  unfold serialDescriptor
  split
  case isTrue h => rw [← h]
  case isFalse => rfl

theorem serialDescriptor_mem_of_cached {s : State} (h : s.serialCached = true) : (serialDescriptor s).mem = s.mem := by
  simp only [serialDescriptor, h, if_true]

theorem serialDescriptor_mem_first {s : State} (h : s.serialCached = false) :
    (serialDescriptor s).mem = s.mem.writeAll s.cfg.serialAddr serialString := by
  simp only [serialDescriptor, h, Bool.false_eq_true, if_false]

theorem exec_serialStringDescriptor {s : State} (hi : s.inited = true) : exec .serialStringDescriptor s =
    .next (emit (.descriptor (.app s.cfg.serialAddr)) (serialDescriptor s)) :=
  whenInited_ok hi _

/-- Settles O20: the first call stores the header and the code units of `serialString`, byte by byte, and a later call
finds them cached. -/
theorem serialStringIsMaterialisedOnce : Obligations.SerialStringIsMaterialisedOnce := by
  intro s hi
  have hf := serialDescriptor_frame s
  refine ⟨_, exec_serialStringDescriptor hi, ?_, ?_, serialDescriptor_mem_of_cached, fun hfirst => ?_, ?_⟩
  · rw [emit_out, hf]
  · rw [emit_serialCached, hf]
  · rw [emit_mem, serialDescriptor_mem_first hfirst]
    refine ⟨Memory.read_writeAll_getElem? (k := 0) _ _ rfl, Memory.read_writeAll_getElem? (k := 1) _ _ rfl,
      fun k hk => ?_, fun a ha => Memory.read_writeAll_outside _ _ _ _ (by rwa [length_serialString])⟩
    obtain ⟨hdigit, hhigh⟩ := getElem?_serialUnits (k := 0) hk
    rw [Nat.zero_add] at hdigit
    refine ⟨?_, ?_⟩
    · rw [Nat.add_assoc, Nat.add_comm 2]
      exact Memory.read_writeAll_getElem? _ _ hdigit
    · rw [Nat.add_assoc, Nat.add_comm 3]
      exact Memory.read_writeAll_getElem? _ _ hhigh
  · rw [emit, hf]

end Sys2Proof.Machine
